-- ==== Sys2Proof/Word.lean ====
section
/-! DEFINITION. The word types of the AVS-9640 and their plainest arithmetic. -/

namespace Sys2Proof

/-- A scalar register, an address as it is computed, an instruction word (R9, R18). -/
abbrev Word := BitVec 64

/-- A 32-bit element of a vector register or of an accumulator tile (R18, R21). -/
abbrev Elem := BitVec 32

/-- The smallest addressable unit (R169). -/
abbrev Byte := BitVec 8

/-- `x[hi:lo]` of R8 for a field of `n` bits that begins at bit `lo`. -/
def bits {w : Nat} (x : BitVec w) (lo n : Nat) : BitVec n := x.extractLsb' lo n

/-- One bit of a word, as a truth value. -/
def bit {w : Nat} (x : BitVec w) (i : Nat) : Bool := x.getLsbD i

/-- A truth value as one bit. -/
def ofBool1 (b : Bool) : BitVec 1 := if b then 1#1 else 0#1

/-- An address is canonical when bits [63:57] are copies of bit 56 (R116, R169). -/
def canonical (va : Word) : Bool := (va.extractLsb' 0 57).signExtend 64 == va

end Sys2Proof
end

