-- ==== Sys2Proof/Config.lean ====
section
/-! DEFINITION. What is fixed for the device (the figures of R2), and the free values: constants without a
body, of which nothing can be proved. -/

namespace Sys2Proof

/-- Cores of the package (R2). -/
def Config.numCores : Nat := 256
/-- Clusters of the package (R2). -/
def Config.numClusters : Nat := 32
/-- Partitions of the package (R4). -/
def Config.numPartitions : Nat := 32
/-- Bytes of a core store (R2, R43). -/
def Config.coreStoreBytes : Nat := 0x200000
/-- Bytes of HBM that one cluster owns (R2, R248). -/
def Config.clusterBytes : Nat := 24 * 1024 * 1024 * 1024
/-- The first physical address past HBM (R248). -/
def Config.hbmEnd : Nat := 0x00C000000000
/-- The first physical address of host space (R248). -/
def Config.hostBase : Nat := 2 ^ 51
/-- The lease that a home grants to a reader, in units of logical time (R253). -/
def Config.lease : Nat := 32
/-- Records that one engine queue holds (R44). -/
def Config.queueDepth : Nat := 32
/-- Accumulator moves that a core may have outstanding (R205). -/
def Config.maxMoves : Nat := 32
/-- Entries of the scale FIFO (R220). -/
def Config.fifoDepth : Nat := 64
/-- Declared ranges tracked at once in a partition (R289). -/
def Config.maxRanges : Nat := 4096

/-- A free value: what a step reads where the spec gives the effect and leaves the value open (the ck that elapse
outside repeatable mode, R38; a sensor's reading, R421; a period's charge, R402). Its argument is the counter
`fresh` of the state. Assumption log 4. -/
opaque Config.freeWord : Nat → BitVec 64

/-- What the memory and the links report of themselves when the scheduler asks (R407, R418); its argument is the counter `fresh` of the
state. Assumption log 4. -/
opaque Config.mediaWord : Nat → BitVec 64

/-- A word of another device's memory as an access through a fabric window finds it (R386): the first argument is the
counter `fresh` of the state, the second the word's number. Log 4. -/
opaque Config.remoteWord : Nat → Nat → BitVec 64

/-- What the seal of that word differs by from the seal of its value: it crosses the fabric as it stands at its holder (R263, R386).
Log 4. -/
opaque Config.remoteFlaw : Nat → Nat → BitVec 8

/-- SHA-512 of a string of bytes (R436, R438, R439, R441): named by the spec, defined outside it. Log 5. -/
opaque Config.sha512 : List (BitVec 8) → BitVec 512

/-- Whether (r, s) is a valid ECDSA signature on NIST P-521 of the digest under the public key (R436). Log 5. -/
opaque Config.ecdsaVerify : (key : List (BitVec 8)) → (digest : BitVec 512) → (r s : List (BitVec 8)) → Bool

/-- An ECDSA signature on NIST P-521 of the digest under the private key (R439, R440). Log 5. -/
opaque Config.ecdsaSign : (key : Nat) → (digest : BitVec 512) → List (BitVec 8)

/-- The point d × G of P-521 for a private key (R438, R439). Log 5. -/
opaque Config.publicPoint : Nat → List (BitVec 8)

/-- The secret K that the PUF array and the helper data of the boot flash give at step 1 (R438). Log 5. -/
opaque Config.pufSecret : List (BitVec 8) → Option (BitVec 512)

/-- The vendor-key hash held in mask ROM (R436). Log 5. -/
opaque Config.vendorKeyHash : BitVec 512

/-- The images that the boot flash holds since manufacture, by 2 × KIND + copy (R434, R435). Log 5. -/
opaque Config.flashImage : Nat → List (BitVec 8)

/-- The helper data in the boot flash (R438). Log 5. -/
opaque Config.helperData : List (BitVec 8)

/-- The identity key Q that the device certificate binds (R438). Log 5. -/
opaque Config.certifiedKey : List (BitVec 8)

/-- Vendor root and device certificate (R439). Log 5. -/
opaque Config.deviceCertificates : List (BitVec 8)

/-- The alias certificate of a public key with a signature (R439). Log 5. -/
opaque Config.aliasCertificate : (point signature : List (BitVec 8)) → List (BitVec 8)

/-- The hash of an SPDM transcript that a signature covers, as SPDM 1.3 defines it: the first argument is the counter `fresh` of
the state, the second what the requester sent (R440). Log 5. -/
opaque Config.transcript : Nat → List (BitVec 8) → BitVec 512

/-- Whether the verify data of a FINISH is right for a session (R440). Log 5. -/
opaque Config.finishVerify : Nat → List (BitVec 8) → Bool

/-- The link-width option of the boot flash asks for 2 × x8 (R455). Log 5. -/
opaque Config.narrowLink : Bool

/-- The boot flash holds a manufacturing test record (R448). Log 5. -/
opaque Config.testRecord : Bool

/-- The payload rate of a trained port of the host link in MB/s (R345). Log 5. -/
opaque Config.linkRate : Nat → BitVec 64

/-- Holgon's identifier from PCI-SIG, and the silicon stepping (R453). Log 5. -/
opaque Config.vendorId : BitVec 16
opaque Config.stepping : BitVec 8

/-- What a flash write that fails leaves behind: the argument is the counter `fresh` of the state (R460). Log 4. -/
opaque Config.flashResidue : Nat → List (BitVec 8)

/-- The version of the mask ROM, as measurement block 1 reports it (R441). Log 5. -/
opaque Config.romVersion : List (BitVec 8)

end Sys2Proof
end

