-- ==== Sys2Proof/Syntax.lean ====
section
/-! DEFINITION. The operand types, and `Instr`: one constructor for each row of spec/opcode_table.json. The
first 165 constructors are the instructions of the four slots (R73 to R81). The others are the steps that the
device's other agents take, and the acts of its surroundings; each names the party it happens to. -/

namespace Sys2Proof

/-- The four slots of a core, which are the four columns of a bundle (R9). -/
inductive Slot where
  | A | B | V | E
deriving DecidableEq, Repr, Inhabited

/-- The engine queues in the encoding of QU (R75). -/
inductive Queue where
  | mq | cq0 | cq1
deriving DecidableEq, Repr, Inhabited

/-- The condition of BR, GBR and CMP (CND of R75). -/
inductive Cond where
  | eq | ne | lt | ge | ltu | geu
deriving DecidableEq, Repr

/-- Annulment of the two delay slots (NUL of R75). -/
inductive Nul where
  | none | notTaken | taken
deriving DecidableEq, Repr

/-- The order field (ORD of R75). -/
inductive MemOrder where
  | plain | acquire | release | acqRel
deriving DecidableEq, Repr

/-- The size of a scalar access (SZ of R75). -/
inductive Size where
  | b | h | w | d
deriving DecidableEq, Repr

/-- The element types of the vector unit (TY of R75). -/
inductive VTy where
  | f32 | bf16x2 | f16x2 | e4m3x4 | e5m2x4 | i32 | ui32 | i16x2 | ui16x2 | i8x4 | ui8x4
deriving DecidableEq, Repr

/-- The condition of VCMP (AUX of R135). -/
inductive VCond where
  | eq | ne | lt | le | gt | ge | un
deriving DecidableEq, Repr

/-- The element format of an MX block (AUX of R145). -/
inductive MxFmt where
  | e2m1 | e4m3 | e5m2
deriving DecidableEq, Repr

/-- The operation of a reduction or scan (AUX of R80, R158). -/
inductive RedOp where
  | add | min | max | and | or | xor
deriving DecidableEq, Repr

/-- The number of a scalar register (R73). -/
abbrev SReg := BitVec 6
/-- The number of a vector register, as an 8-bit field holds it; below 160 when well formed (R19). -/
abbrev VReg := BitVec 8
/-- The number of a mask register (R73). -/
abbrev MReg := BitVec 4
/-- An index into the circulation table (R73). -/
abbrev ListIx := BitVec 5

/-- The parties of the memory model (R266), and the completion ring, which only writes records (R327). -/
inductive Party where
  | slot (core : Nat) (s : Slot)
  | queue (core : Nat) (q : Queue)
  | ring (part ring : Nat)
  | dispatcher (part : Nat)
  | completion (part : Nat)
deriving DecidableEq, Repr

/-- The kind of an access for translation (R352). -/
inductive AccessKind where
  | read | write | both | fetch
deriving DecidableEq, Repr

/-- A signal on its way to a semaphore (R191, R215): who sent it, which semaphore of which virtual core, by how much, the time
that its release carries, and what decides which acquires synchronise with it: the sender's virtual core (256 for a party that
runs on none), the core mask of its list, and whether the list names the launch's peer group (R270). -/
structure Signal where
  from_ : Party
  part : Nat
  target : Nat
  sem : BitVec 8
  inc : BitVec 8
  remote : Bool
  pts : Nat
  vcore : Nat := 256
  mask : BitVec 256 := BitVec.allOnes 256
  group : Bool := false
deriving DecidableEq, Repr

/-- The detecting lane of a lost context (SOURCE of R415). -/
inductive LossSource where
  | scalarLoad | vectorLoad | fetch | atomic | merge | matrixA | decompressor | scalePop | egress
  | enqueue | control | restore | parity | matrixCheck | timing | walk
deriving DecidableEq, Repr

/-- What is known of an event that loses a context (R412, R414). `fromHbm` is the condition of step 4 of R413. -/
structure Loss where
  cause : BitVec 8
  source : LossSource
  party : Option Party
  va : Word
  pa : BitVec 52
  detail : Word
  fromHbm : Bool
deriving DecidableEq, Repr

/-- A request that reaches the device over the fabric (R384 to R386): the pair it comes from, the partition it is for,
the intermediate address, and the access. `operand` is the stored value or the atomic's operand; an access of kind `both` is
the atomic numbered `fn` in the order of the opcode table (0 AMO_ADD to 8 AMO_SWAP, 9 CAS), with CAS's new value in `new`. `flaw`
is what the seal or the contribution that crosses with a store differs by from that of its bytes: 0 when they are sound (R386). With
`chan` it is a word of a migration channel of the device, for the physical address `ipa` (R393). -/
structure FabricRequest where
  srcDev : Nat
  srcPart : Nat
  part : Nat
  ipa : Nat
  kind : AccessKind
  size : Size
  operand : Word
  fn : Nat := 0
  new : Word := 0
  flaw : BitVec 8 := 0
  chan : Bool := false
deriving DecidableEq, Repr

/-- A LAUNCH packet that its originator has sent to a member of its peer group: the device, the packet's words and its position in
its ring (R301). -/
structure Replica where
  origin : Nat
  words : List Word
  pos : Nat
deriving DecidableEq, Repr

/-- Where a LAUNCH packet comes from: a ring of the device, or, with a replica, another device's ring of that number (R301). -/
structure LaunchSource where
  ring : Nat
  replica : Option Replica := none
deriving DecidableEq, Repr

/-- CLAPPER_START at a partition: the originator's start arrives, with K and Ts; without it, TIMEBASE reaches Ts (R301). -/
structure ClapperStart where
  part : Nat
  stamp : Option (BitVec 32 × Word) := none
deriving DecidableEq, Repr

/-- CLAPPER_ABORT at a partition: the originator's abort arrives, with the member that it names; without it, a report is overdue
(R301). -/
structure ClapperAbort where
  part : Nat
  device : Option Nat := none
deriving DecidableEq, Repr

/-- A word that a TLP carries: with its poison mark, the word is bad (R265, R407). -/
structure HostWord where
  word : Word
  poisoned : Bool := false
deriving DecidableEq, Repr

/-- The functions of the device on the host link (R453). -/
inductive HostFunction where
  | physical
  /-- port 1's own in 2 × x8 mode (R455) -/
  | physical1
  | virtual (n : Nat)
deriving DecidableEq, Repr

/-- A write of VF Enable and NumVFs in a port's SR-IOV capability (R454, R456): numbers of 64 and above are port 1's, less 64. -/
structure VfEnable where
  enable : Bool
  numVfs : Nat
deriving DecidableEq, Repr

/-- A request of SPDM that names a certificate slot (R440). -/
structure SlotRequest (α : Type) where
  slot : BitVec 4
  what : α
deriving DecidableEq, Repr

/-- A stream of IDE with a key set: the link stream or a selective one, and the AES-GCM-256 keys of its substreams in both directions
(R465). -/
structure IdeStream where
  selective : Bool
  id : BitVec 8
  keySet : BitVec 1
  keys : List (BitVec 256)
deriving DecidableEq, Repr

/-- The stages of translation. -/
inductive Stage where
  | s1 | s2
deriving DecidableEq, Repr

/-- The four bandwidth limiters (R347). -/
inductive Limiter where
  | hbm | fab | host | xp
deriving DecidableEq, Repr

/-- One constructor per row of the opcode table. -/
inductive Instr where
  -- scalar integer instructions (R102 to R108)
  | nop
  | add (sd sa sb : SReg)
  | sub (sd sa sb : SReg)
  | mul (sd sa sb : SReg)
  | mulh (sd sa sb : SReg)
  | mulhu (sd sa sb : SReg)
  | div (sd sa sb : SReg)
  | divu (sd sa sb : SReg)
  | rem (sd sa sb : SReg)
  | remu (sd sa sb : SReg)
  | and (sd sa sb : SReg)
  | or (sd sa sb : SReg)
  | xor (sd sa sb : SReg)
  | andn (sd sa sb : SReg)
  | orn (sd sa sb : SReg)
  | shl (sd sa sb : SReg)
  | shr (sd sa sb : SReg)
  | sar (sd sa sb : SReg)
  | rotl (sd sa sb : SReg)
  | rotr (sd sa sb : SReg)
  | min (sd sa sb : SReg)
  | max (sd sa sb : SReg)
  | minu (sd sa sb : SReg)
  | maxu (sd sa sb : SReg)
  | clz (sd sa : SReg)
  | ctz (sd sa : SReg)
  | popc (sd sa : SReg)
  | brev (sd sa : SReg)
  | bswap (sd sa : SReg)
  | abs (sd sa : SReg)
  | lop3 (sd sa sb sc : SReg) (tt : BitVec 8)
  | fshl (sd sa sb sc : SReg)
  | fshr (sd sa sb sc : SReg)
  | sel (sd sa sb sc : SReg)
  | cmp (c : Cond) (sd sa sb : SReg)
  | bfx (sd sa : SReg) (pos : BitVec 6) (wid : BitVec 7)
  | bfxu (sd sa : SReg) (pos : BitVec 6) (wid : BitVec 7)
  | bfi (sd sa : SReg) (pos : BitVec 6) (wid : BitVec 7)
  | sext (sd sa : SReg) (wid : BitVec 7)
  | zext (sd sa : SReg) (wid : BitVec 7)
  | lea (sd sa sb : SReg) (sh : BitVec 8)
  | addi (sd sa : SReg) (imm : BitVec 32)
  | movi (sd : SReg) (imm : BitVec 32)
  | movhi (sd : SReg) (imm : BitVec 32)
  -- control (R110 to R124)
  | br (c : Cond) (nul : Nul) (sa sb : SReg) (off : BitVec 32)
  | gbr (c : Cond) (nul : Nul) (sa sb : SReg) (off : BitVec 32)
  | jmp (nul : Nul) (off : BitVec 32)
  | call (sd : SReg) (nul : Nul) (off : BitVec 32)
  | callr (sd sa : SReg) (nul : Nul)
  | ret (sa : SReg) (nul : Nul)
  | jt (sa sb sc : SReg)
  | trap (detail : BitVec 32)
  | dbg (code : BitVec 20)
  | eret
  | halt
  -- scalar memory and atomics (R176 to R189)
  | ld (sz : Size) (un : Bool) (ord : MemOrder) (ls : ListIx) (sd sa : SReg) (off : BitVec 32)
  | ldc (sz : Size) (un : Bool) (sd sa : SReg) (off : BitVec 32)
  | st (sz : Size) (ord : MemOrder) (ls : ListIx) (sd sa : SReg) (off : BitVec 32)
  | amoAdd (dw : Bool) (ord : MemOrder) (ls : ListIx) (sd sa sb : SReg) (off : BitVec 20)
  | amoAnd (dw : Bool) (ord : MemOrder) (ls : ListIx) (sd sa sb : SReg) (off : BitVec 20)
  | amoOr (dw : Bool) (ord : MemOrder) (ls : ListIx) (sd sa sb : SReg) (off : BitVec 20)
  | amoXor (dw : Bool) (ord : MemOrder) (ls : ListIx) (sd sa sb : SReg) (off : BitVec 20)
  | amoMin (dw : Bool) (ord : MemOrder) (ls : ListIx) (sd sa sb : SReg) (off : BitVec 20)
  | amoMax (dw : Bool) (ord : MemOrder) (ls : ListIx) (sd sa sb : SReg) (off : BitVec 20)
  | amoMinu (dw : Bool) (ord : MemOrder) (ls : ListIx) (sd sa sb : SReg) (off : BitVec 20)
  | amoMaxu (dw : Bool) (ord : MemOrder) (ls : ListIx) (sd sa sb : SReg) (off : BitVec 20)
  | amoSwap (dw : Bool) (ord : MemOrder) (ls : ListIx) (sd sa sb : SReg) (off : BitVec 20)
  | cas (dw : Bool) (ord : MemOrder) (ls : ListIx) (sd sa sb sc : SReg) (off : BitVec 20)
  | pref (sa : SReg) (off : BitVec 32)
  | fenceAcq (ls : ListIx)
  | fenceRel (ls : ListIx)
  | fenceFull (ls : ListIx)
  -- join bits and system (R125 to R127)
  | jset (j : BitVec 8)
  | jclr (j : BitVec 8)
  | jwait (j : BitVec 8)
  | crd (sd : SReg) (n : BitVec 12)
  | cwr (n : BitVec 12) (sa : SReg)
  | crset (n : BitVec 12) (sa : SReg)
  | crclr (n : BitVec 12) (sa : SReg)
  | clset (entry : BitVec 8) (sa : SReg)
  | clget (sd : SReg) (entry : BitVec 8) (k : BitVec 3)
  | tspawn (sa : SReg)
  -- semaphores and partition barriers (R190 to R197)
  | semsig (sem : BitVec 8) (inc : BitVec 8) (ls : ListIx) (rmt : Bool) (sa : SReg)
  | semwait (sem : BitVec 8) (sa : SReg) (imm : BitVec 20) (ls : ListIx)
  | semacq (sem : BitVec 8) (sa : SReg) (imm : BitVec 20) (ls : ListIx)
  | semset (sem : BitVec 8) (sa : SReg)
  | semrd (sd : SReg) (sem : BitVec 8)
  | barset (b : BitVec 8) (sa : SReg)
  | bararr (b : BitVec 8) (ls : ListIx)
  | barwait (b : BitVec 8) (ls : ListIx)
  | bararw (b : BitVec 8) (ls : ListIx)
  -- vector floating point (R131 to R136)
  | vadd (ty : VTy) (vd va vb : VReg) (mk : MReg)
  | vsub (ty : VTy) (vd va vb : VReg) (mk : MReg)
  | vmul (ty : VTy) (vd va vb : VReg) (mk : MReg)
  | vmin (ty : VTy) (vd va vb : VReg) (mk : MReg)
  | vmax (ty : VTy) (vd va vb : VReg) (mk : MReg)
  | vcpysgn (ty : VTy) (vd va vb : VReg) (mk : MReg)
  | vfma (ty : VTy) (vd va vb vc : VReg) (mk : MReg)
  | vfms (ty : VTy) (vd va vb vc : VReg) (mk : MReg)
  | vfnma (ty : VTy) (vd va vb vc : VReg) (mk : MReg)
  | vabs (ty : VTy) (vd va : VReg) (mk : MReg)
  | vneg (ty : VTy) (vd va : VReg) (mk : MReg)
  | vclass (ty : VTy) (vd va : VReg) (mk : MReg)
  | vrcp (ty : VTy) (vd va : VReg) (mk : MReg)
  | vrsq (ty : VTy) (vd va : VReg) (mk : MReg)
  | vsqrt (ty : VTy) (vd va : VReg) (mk : MReg)
  | vexp2 (ty : VTy) (vd va : VReg) (mk : MReg)
  | vlog2 (ty : VTy) (vd va : VReg) (mk : MReg)
  | vtanh (ty : VTy) (vd va : VReg) (mk : MReg)
  | vcmp (c : VCond) (ty : VTy) (md : MReg) (va vb : VReg) (mk : MReg)
  -- vector integer (R137 to R140)
  | viadd (ty : VTy) (vd va vb : VReg) (mk : MReg)
  | visub (ty : VTy) (vd va vb : VReg) (mk : MReg)
  | vimul (ty : VTy) (vd va vb : VReg) (mk : MReg)
  | vimulh (ty : VTy) (vd va vb : VReg) (mk : MReg)
  | vimin (ty : VTy) (vd va vb : VReg) (mk : MReg)
  | vimax (ty : VTy) (vd va vb : VReg) (mk : MReg)
  | vshl (ty : VTy) (vd va vb : VReg) (mk : MReg)
  | vshr (ty : VTy) (vd va vb : VReg) (mk : MReg)
  | vsar (ty : VTy) (vd va vb : VReg) (mk : MReg)
  | vrotl (ty : VTy) (vd va vb : VReg) (mk : MReg)
  | vand (ty : VTy) (vd va vb : VReg) (mk : MReg)
  | vor (ty : VTy) (vd va vb : VReg) (mk : MReg)
  | vxor (ty : VTy) (vd va vb : VReg) (mk : MReg)
  | vimad (ty : VTy) (vd va vb vc : VReg) (mk : MReg)
  | vfshl (ty : VTy) (vd va vb vc : VReg) (mk : MReg)
  | vfshr (ty : VTy) (vd va vb vc : VReg) (mk : MReg)
  | vlop3 (ty : VTy) (vd va vb vc : VReg) (tt : BitVec 8) (mk : MReg)
  | vpopc (ty : VTy) (vd va : VReg) (mk : MReg)
  | vclz (ty : VTy) (vd va : VReg) (mk : MReg)
  -- conversion (R141 to R146)
  | vcvt (dst src : VTy) (vd va : VReg) (mk : MReg)
  | vpack (dst src : VTy) (vd va vb : VReg) (mk : MReg)
  | vunpack (dst src : VTy) (vd va : VReg) (mk : MReg)
  | vmxq (fmt : MxFmt) (ty : VTy) (vd va : VReg) (sb : SReg) (mk : MReg)
  | vmxd (fmt : MxFmt) (ty : VTy) (vd va : VReg) (sb : SReg) (mk : MReg)
  -- selection, masks, moves, axes, layout (R149 to R168)
  | vsel (vd va vb : VReg) (mk : MReg)
  | mand (md ma mb : MReg) (mk : MReg)
  | mor (md ma mb : MReg) (mk : MReg)
  | mxor (md ma mb : MReg) (mk : MReg)
  | mnot (md ma : MReg) (mk : MReg)
  | mpopc (sd : SReg) (ma : MReg) (mk : MReg)
  | mfirst (sd : SReg) (ma : MReg) (mk : MReg)
  | vmov (vd va : VReg) (mk : MReg)
  | vmovs (vd va : VReg) (sb : SReg) (mk : MReg)
  | vext (sd : SReg) (va : VReg) (idx : BitVec 12) (mk : MReg)
  | vins (vd va : VReg) (sb : SReg) (idx : BitVec 12) (mk : MReg)
  | vmovi (ty : VTy) (vd : VReg) (imm : BitVec 32) (mk : MReg)
  | vrotr (ty : VTy) (vd va : VReg) (k : BitVec 8) (mk : MReg)
  | vbcr (ty : VTy) (vd va : VReg) (c : BitVec 8) (mk : MReg)
  | vredr (op : RedOp) (ty : VTy) (vd va : VReg) (mk : MReg)
  | vscanr (op : RedOp) (ty : VTy) (vd va : VReg) (mk : MReg)
  | vrotc (ty : VTy) (vd va : VReg) (k : BitVec 8) (mk : MReg)
  | vbcc (ty : VTy) (vd va : VReg) (r : BitVec 8) (mk : MReg)
  | vredc (op : RedOp) (ty : VTy) (vd va : VReg) (mk : MReg)
  | vtrn (vd va : VReg) (mk : MReg)
  | vperm (vd va vb : VReg) (mk : MReg)
  | vcompress (vd va : VReg) (sc : SReg) (mk : MReg)
  | vexpand (vd va : VReg) (mk : MReg)
  -- vector memory (R179 to R183)
  | vld (ord : MemOrder) (ls : ListIx) (vd : VReg) (sa : SReg) (off : BitVec 14) (mk : MReg)
  | vst (ord : MemOrder) (ls : ListIx) (vd : VReg) (sa : SReg) (off : BitVec 14) (mk : MReg)
  | vldb (ord : MemOrder) (ls : ListIx) (vd : VReg) (sa : SReg) (off : BitVec 14) (mk : MReg)
  | vlds (ord : MemOrder) (ls : ListIx) (vd : VReg) (sa sb : SReg) (off : BitVec 14) (mk : MReg)
  | vsts (ord : MemOrder) (ls : ListIx) (vd : VReg) (sa sb : SReg) (off : BitVec 14) (mk : MReg)
  | vgath (ord : MemOrder) (ls : ListIx) (vd vb : VReg) (sa : SReg) (mk : MReg)
  | vscat (ord : MemOrder) (ls : ListIx) (vd vb : VReg) (sa : SReg) (mk : MReg)
  -- accumulator moves (R203 to R207)
  | accld (cv : Bool) (vd : VReg) (tl sl : BitVec 4)
  | accst (vd : VReg) (tl sl : BitVec 4)
  | accz (tl : BitVec 4)
  | accwait (n : BitVec 6)
  -- engine enqueue (R208 to R211)
  | menq (sa : SReg) (imm : BitVec 20)
  | cenq (q : Queue) (sa : SReg) (imm : BitVec 20)
  | qjoin (q : Queue) (sa : SReg) (imm : BitVec 20)
  | slate (n : BitVec 8)
  | qstat (sd : SReg) (q : Queue)
  -- steps of a core
  | rendezvous (core : Nat) (addr : Word)
  | trapEntry (core : Nat)
  | loadReturn (core : Nat)
  | vectorLoadReturn (core : Nat)
  | accMovePerformed (core pos : Nat)
  | semaphoreAdd (sig : Signal)
  | barrierAnswer (core : Nat)
  | clsetComplete (part : Nat) (entry : ListIx)
  -- steps of the memory system
  | holderRead (p : Party) (pa : BitVec 52)
  | holderWrite (p : Party) (pa : BitVec 52) (w : Word) (release : Bool)
  | partialStoreMerge (p : Party) (pa : BitVec 52) (n : Word) (mask : BitVec 8) (release : Bool)
  | llcEviction (line : Nat)
  | pagePin (p : Party) (va : Word) (kind : AccessKind)
  | translationWalk (p : Party) (va : Word) (kind : AccessKind)
  | sealRefetch (p : Party)
  | contextLoss (part : Nat) (loss : Loss)
  | timingDetection (core stage lane : Nat)
  -- engine records
  | mma (core : Nat)
  | mgrp (core : Nat)
  | wpre (core : Nat)
  | wswap (core : Nat)
  | mchain (core : Nat)
  | copyRecord (core : Nat) (q : Queue)
  | fill (core : Nat) (q : Queue)
  | scalefeed (core : Nat) (q : Queue)
  | wbfill (core : Nat) (q : Queue)
  | join (core : Nat) (q : Queue)
  | recordWaitSatisfied (core : Nat) (q : Queue)
  | leaveGrant (cluster : Nat)
  | preloadDelivery (core : Nat)
  | kstepCommit (core : Nat)
  | recordPerformed (core : Nat) (q : Queue)
  | cycleBoundOverrun (core : Nat) (q : Queue)
  | shotReplay (core : Nat)
  -- the dispatcher
  | dispatchStep (part : Nat)
  | nodeComplete (part node : Nat)
  | tspawnAccept (core : Nat)
  | residentLimitOverrun (core : Nat)
  | clapperReport (part device : Nat) (ready : Bool)
  | clapperStart (part : ClapperStart)
  | clapperAbort (part : ClapperAbort)
  -- rings and packets
  | doorbell (part ring : Nat) (x : Word)
  | enable (part ring : Nat) (x : Word)
  | ringReset (part ring : Nat)
  | endPacket (part ring : Nat)
  | ringFetch (part ring : Nat)
  | nopPacket (part ring : Nat)
  | launch (part : Nat) (ring : LaunchSource)
  | launchSlotGrant (part : Nat)
  | invoke (part ring : Nat)
  | copyPacket (part ring : Nat)
  | waitPacket (part ring : Nat)
  | signalPacket (part ring : Nat)
  | clupdate (part ring : Nat)
  | pholeClaim (part ring : Nat)
  | pholeLoad (part ring : Nat)
  | pholeDrop (part ring : Nat)
  | pholeRebase (part ring : Nat)
  | barrierPacket (part ring : Nat)
  | completionRecord (part : Nat)
  | cri (part : Nat) (x : Word)
  | presume (part : Nat) (x : Word)
  | hresume (x : Word)
  | hresumeDiscard (x : Word)
  -- partitions
  | create (part : Nat)
  | resize (part : Nat) (force : Bool)
  | clusterRemoval (part : Nat)
  | destroy (part : Nat)
  | lend (part : Nat) (force : Bool)
  | revoke (part : Nat)
  | revokeSaveTimeout (part core : Nat)
  | mlend (part : Nat) (x : Word)
  | budgetWord (part vcluster : Nat) (x : Word)
  | s1inv (part : Nat) (x : Word)
  | s2inv (part : Nat) (x : Word)
  | invalidationComplete (part : Nat) (stage : Stage)
  | vfstate (part : Nat) (x : Word)
  | functionLevelReset (part : Nat)
  -- pre-emption and migration
  | stopRequest (core : Nat) (deadline : Nat)
  | softStop (core : Nat)
  | hardStop (core : Nat)
  | stopSave (core : Nat)
  | memberResume (core : Nat)
  | pause (part : Nat)
  | resume (part : Nat)
  | go (channel : Nat)
  | abort (channel : Nat)
  | channelCopyDone (channel : Nat)
  | fabricAccess (r : FabricRequest)
  | linkTraining (device : Nat) (master : Option Word)
  | timebaseCorrection (master : Word)
  | limiterTransferStart (part : Nat) (which : Limiter) (n : Nat)
  | energyPeriodEnd (part : Nat)
  -- power
  | point (cluster : Nat) (x : Word)
  | pointChangeComplete (cluster : Nat)
  | voltageLoop (cluster : Nat)
  | cadenceStep (cluster : Nat) (raise : Bool)
  | currentClamp (cluster : Nat)
  | thermalTrip (cluster : Nat)
  | thermalTripClear (cluster : Nat)
  | repeatMode (x : Word)
  | firmwareHeartbeat
  | heartbeatTimeout
  -- boot, repair, link
  | coldReset
  | hotReset
  | vfEnableClear (x : VfEnable)
  | mbctlCopyB (kind : BitVec 8)
  | mbctlCopyA (kind : BitVec 8)
  | repairTableWrite (core k : Nat) (x : Word)
  | reparm (core : Nat)
  | repinj (core : Nat) (x : Word)
  | repairTimeout (core : Nat)
  | spdmGetVersion
  | spdmGetCapabilities
  | spdmNegotiateAlgorithms
  | spdmGetDigests
  | spdmGetCertificate (offset : SlotRequest Nat) (length : Nat)
  | spdmChallenge (nonce : SlotRequest (List Byte))
  | spdmGetMeasurements (index : SlotRequest (BitVec 8))
  | spdmKeyExchange (random : SlotRequest (List Byte))
  | spdmFinish (verifyData : List Byte)
  | spdmEndSession
  | spdmOtherRequest
  | kSetGo (x : IdeStream)
  | pfBar2Access (write : Bool) (offset : Nat) (x : HostWord) (mask : BitVec 8)
  | vfBar2Access (part : Nat) (write : Bool) (offset : Nat) (x : HostWord) (mask : BitVec 8)
  | msixVectorUnmask (entry : Nat)
  | registerWrite (f : HostFunction) (offset size : Nat) (x : Word)
  | scrubEnd (clusters : BitVec 32)
  | currentClampEnd (cluster : Nat)
  | powerControllerImageUpdate (begin_ : Bool)
  | fabricPortLoss (port : Nat)
deriving DecidableEq, Repr

end Sys2Proof
end

