-- ==== Sys2Proof/WellFormed.lean ====
section
/-! DEFINITION. Which instructions a word can stand for: the checks of R82 that fall on the fields an instruction
uses. A field combination of the first kind is a reserved encoding (cause 0x01), one of the second an operand that
breaks a limit (cause 0x03). For the steps that have no word, the check is that what they name exists. -/

namespace Sys2Proof

/-- The outcome of the checks of R82 on an instruction's fields, in their order. -/
inductive Check where
  | ok
  | reserved
  | operand
deriving DecidableEq, Repr

/-- The first check that fails decides (R82). -/
def Check.of (fields limits : Bool) : Check := if !fields then .reserved else if !limits then .operand else .ok

/-- No register number 160 to 255 names a vector register (R19). -/
def vOk (v : VReg) : Bool := decide (v.toNat < 160)

/-- WID 1 to 64, POS + WID at most 64 (R79). -/
def widthOk (pos : BitVec 6) (wid : BitVec 7) : Bool := decide (1 ≤ wid.toNat) && decide (pos.toNat + wid.toNat ≤ 64)

/-- A load accepts ORD 00, 01 and 11 (R75). -/
def MemOrder.loadOk : MemOrder → Bool
  | .release => false
  | .plain | .acquire | .acqRel => true

/-- A store accepts ORD 00, 10 and 11 (R75). -/
def MemOrder.storeOk : MemOrder → Bool
  | .acquire => false
  | .plain | .release | .acqRel => true

/-- Sub-elements per element, which names the width group (R21, R141). -/
def VTy.group : VTy → Nat
  | .f32 | .i32 | .ui32 => 1
  | .bf16x2 | .f16x2 | .i16x2 | .ui16x2 => 2
  | .e4m3x4 | .e5m2x4 | .i8x4 | .ui8x4 => 4

/-- Type codes 0 to 4 (R130). -/
def VTy.isFloat : VTy → Bool
  | .f32 | .bf16x2 | .f16x2 | .e4m3x4 | .e5m2x4 => true
  | .i32 | .ui32 | .i16x2 | .ui16x2 | .i8x4 | .ui8x4 => false

/-- Type codes 0 to 2 (R130). -/
def VTy.isFloat3 : VTy → Bool
  | .f32 | .bf16x2 | .f16x2 => true
  | .e4m3x4 | .e5m2x4 | .i32 | .ui32 | .i16x2 | .ui16x2 | .i8x4 | .ui8x4 => false

/-- Type codes 5 to 10 (R130). -/
def VTy.isInt (t : VTy) : Bool := !t.isFloat

/-- Codes 0 to 2 of a reduction are accepted with every type (R80, R151). -/
def RedOp.anyType : RedOp → Bool
  | .add | .min | .max => true
  | .and | .or | .xor => false

/-- The bits of IMM32 above one sub-element must be zero in VMOVI (R152). -/
def VTy.immOk (t : VTy) (imm : BitVec 32) : Bool := decide (imm.toNat < 2 ^ (32 / t.group))

/-- A core of the package (R2). -/
def coreOk (n : Nat) : Bool := decide (n < Config.numCores)
/-- A partition (R4). -/
def partOk (n : Nat) : Bool := decide (n < Config.numPartitions)
/-- A cluster of the package (R2). -/
def clusterOk (n : Nat) : Bool := decide (n < Config.numClusters)
/-- A submission ring (R318). -/
def ringOk (n : Nat) : Bool := decide (n < 16)

/-- The checks that fall on an instruction's own fields (R79 to R82, R130, R151). -/
def Instr.check : Instr → Check
  | .nop => .ok
  | .add .. => .ok
  | .sub .. => .ok
  | .mul .. => .ok
  | .mulh .. => .ok
  | .mulhu .. => .ok
  | .div .. => .ok
  | .divu .. => .ok
  | .rem .. => .ok
  | .remu .. => .ok
  | .and .. => .ok
  | .or .. => .ok
  | .xor .. => .ok
  | .andn .. => .ok
  | .orn .. => .ok
  | .shl .. => .ok
  | .shr .. => .ok
  | .sar .. => .ok
  | .rotl .. => .ok
  | .rotr .. => .ok
  | .min .. => .ok
  | .max .. => .ok
  | .minu .. => .ok
  | .maxu .. => .ok
  | .clz .. => .ok
  | .ctz .. => .ok
  | .popc .. => .ok
  | .brev .. => .ok
  | .bswap .. => .ok
  | .abs .. => .ok
  | .lop3 .. => .ok
  | .fshl .. => .ok
  | .fshr .. => .ok
  | .sel .. => .ok
  | .cmp .. => .ok
  | .bfx _ _ pos wid => Check.of true (widthOk pos wid)
  | .bfxu _ _ pos wid => Check.of true (widthOk pos wid)
  | .bfi _ _ pos wid => Check.of true (widthOk pos wid)
  | .sext _ _ wid => Check.of true (widthOk 0 wid)
  | .zext _ _ wid => Check.of true (widthOk 0 wid)
  | .lea _ _ _ sh => Check.of true (decide (sh.toNat < 64))
  | .addi .. => .ok
  | .movi .. => .ok
  | .movhi .. => .ok
  | .br .. => .ok
  | .gbr .. => .ok
  | .jmp nul _ => Check.of (nul != .notTaken) true
  | .call _ nul _ => Check.of (nul != .notTaken) true
  | .callr _ _ nul => Check.of (nul != .notTaken) true
  | .ret _ nul => Check.of (nul != .notTaken) true
  | .jt .. => .ok
  | .trap .. => .ok
  | .dbg .. => .ok
  | .eret => .ok
  | .halt => .ok
  | .ld _ _ ord ls _ _ _ => Check.of (ord.loadOk && (ord != .plain || ls == 0)) true
  | .ldc .. => .ok
  | .st _ ord ls _ _ _ => Check.of (ord.storeOk && (ord != .plain || ls == 0)) true
  | .amoAdd _ ord ls _ _ _ _ => Check.of (ord != .plain || ls == 0) true
  | .amoAnd _ ord ls _ _ _ _ => Check.of (ord != .plain || ls == 0) true
  | .amoOr _ ord ls _ _ _ _ => Check.of (ord != .plain || ls == 0) true
  | .amoXor _ ord ls _ _ _ _ => Check.of (ord != .plain || ls == 0) true
  | .amoMin _ ord ls _ _ _ _ => Check.of (ord != .plain || ls == 0) true
  | .amoMax _ ord ls _ _ _ _ => Check.of (ord != .plain || ls == 0) true
  | .amoMinu _ ord ls _ _ _ _ => Check.of (ord != .plain || ls == 0) true
  | .amoMaxu _ ord ls _ _ _ _ => Check.of (ord != .plain || ls == 0) true
  | .amoSwap _ ord ls _ _ _ _ => Check.of (ord != .plain || ls == 0) true
  | .cas _ ord ls _ _ _ _ _ => Check.of (ord != .plain || ls == 0) true
  | .pref .. => .ok
  | .fenceAcq .. => .ok
  | .fenceRel .. => .ok
  | .fenceFull .. => .ok
  | .jset j => Check.of true (decide (j.toNat < 32))
  | .jclr j => Check.of true (decide (j.toNat < 32))
  | .jwait j => Check.of true (decide (j.toNat < 32))
  | .crd .. => .ok
  | .cwr .. => .ok
  | .crset .. => .ok
  | .crclr .. => .ok
  | .clset entry _ => Check.of (decide (4 ≤ entry.toNat)) (decide (entry.toNat < 32))
  | .clget _ entry _ => Check.of true (decide (entry.toNat < 32))
  | .tspawn .. => .ok
  | .semsig _ inc _ rmt sa => Check.of ((rmt || sa == 0)) ((inc != 0))
  | .semwait .. => .ok
  | .semacq .. => .ok
  | .semset .. => .ok
  | .semrd .. => .ok
  | .barset b _ => Check.of true (decide (b.toNat < 64))
  | .bararr b _ => Check.of true (decide (b.toNat < 64))
  | .barwait b _ => Check.of true (decide (b.toNat < 64))
  | .bararw b _ => Check.of true (decide (b.toNat < 64))
  | .vadd ty vd va vb _ => Check.of (ty.isFloat) (vOk vd && vOk va && vOk vb)
  | .vsub ty vd va vb _ => Check.of (ty.isFloat) (vOk vd && vOk va && vOk vb)
  | .vmul ty vd va vb _ => Check.of (ty.isFloat) (vOk vd && vOk va && vOk vb)
  | .vmin ty vd va vb _ => Check.of (ty.isFloat) (vOk vd && vOk va && vOk vb)
  | .vmax ty vd va vb _ => Check.of (ty.isFloat) (vOk vd && vOk va && vOk vb)
  | .vcpysgn ty vd va vb _ => Check.of (ty.isFloat) (vOk vd && vOk va && vOk vb)
  | .vfma ty vd va vb vc _ => Check.of (ty.isFloat) (vOk vd && vOk va && vOk vb && vOk vc)
  | .vfms ty vd va vb vc _ => Check.of (ty.isFloat) (vOk vd && vOk va && vOk vb && vOk vc)
  | .vfnma ty vd va vb vc _ => Check.of (ty.isFloat) (vOk vd && vOk va && vOk vb && vOk vc)
  | .vabs ty vd va _ => Check.of (ty.isFloat) (vOk vd && vOk va)
  | .vneg ty vd va _ => Check.of (ty.isFloat) (vOk vd && vOk va)
  | .vclass ty vd va _ => Check.of (ty.isFloat) (vOk vd && vOk va)
  | .vrcp ty vd va _ => Check.of (ty.isFloat3) (vOk vd && vOk va)
  | .vrsq ty vd va _ => Check.of (ty.isFloat3) (vOk vd && vOk va)
  | .vsqrt ty vd va _ => Check.of (ty.isFloat3) (vOk vd && vOk va)
  | .vexp2 ty vd va _ => Check.of (ty.isFloat3) (vOk vd && vOk va)
  | .vlog2 ty vd va _ => Check.of (ty.isFloat3) (vOk vd && vOk va)
  | .vtanh ty vd va _ => Check.of (ty.isFloat3) (vOk vd && vOk va)
  | .vcmp _ _ _ va vb _ => Check.of true (vOk va && vOk vb)
  | .viadd ty vd va vb _ => Check.of (ty.isInt) (vOk vd && vOk va && vOk vb)
  | .visub ty vd va vb _ => Check.of (ty.isInt) (vOk vd && vOk va && vOk vb)
  | .vimul ty vd va vb _ => Check.of (ty.isInt) (vOk vd && vOk va && vOk vb)
  | .vimulh ty vd va vb _ => Check.of (ty.isInt) (vOk vd && vOk va && vOk vb)
  | .vimin ty vd va vb _ => Check.of (ty.isInt) (vOk vd && vOk va && vOk vb)
  | .vimax ty vd va vb _ => Check.of (ty.isInt) (vOk vd && vOk va && vOk vb)
  | .vshl ty vd va vb _ => Check.of (ty.isInt) (vOk vd && vOk va && vOk vb)
  | .vshr ty vd va vb _ => Check.of (ty.isInt) (vOk vd && vOk va && vOk vb)
  | .vsar ty vd va vb _ => Check.of (ty.isInt) (vOk vd && vOk va && vOk vb)
  | .vrotl ty vd va vb _ => Check.of (ty.isInt) (vOk vd && vOk va && vOk vb)
  | .vand ty vd va vb _ => Check.of (ty.isInt) (vOk vd && vOk va && vOk vb)
  | .vor ty vd va vb _ => Check.of (ty.isInt) (vOk vd && vOk va && vOk vb)
  | .vxor ty vd va vb _ => Check.of (ty.isInt) (vOk vd && vOk va && vOk vb)
  | .vimad ty vd va vb vc _ => Check.of (ty.isInt) (vOk vd && vOk va && vOk vb && vOk vc)
  | .vfshl ty vd va vb vc _ => Check.of (ty.isInt) (vOk vd && vOk va && vOk vb && vOk vc)
  | .vfshr ty vd va vb vc _ => Check.of (ty.isInt) (vOk vd && vOk va && vOk vb && vOk vc)
  | .vlop3 ty vd va vb vc _ _ => Check.of (ty.isInt) (vOk vd && vOk va && vOk vb && vOk vc)
  | .vpopc ty vd va _ => Check.of (ty.isInt) (vOk vd && vOk va)
  | .vclz ty vd va _ => Check.of (ty.isInt) (vOk vd && vOk va)
  | .vcvt dst src vd va _ => Check.of ((dst.group == src.group)) (vOk vd && vOk va)
  | .vpack dst src vd va vb _ => Check.of ((dst.group == 2 * src.group)) (vOk vd && vOk va && vOk vb)
  | .vunpack dst src vd va _ => Check.of ((src.group == 2 * dst.group)) ((vd != 159) && vOk vd && vOk va)
  | .vmxq _ ty vd va _ _ => Check.of (ty.isFloat3) (vOk vd && vOk va)
  | .vmxd _ ty vd va _ _ => Check.of (ty.isFloat3) (vOk vd && vOk va)
  | .vsel vd va vb _ => Check.of true (vOk vd && vOk va && vOk vb)
  | .mand .. => .ok
  | .mor .. => .ok
  | .mxor .. => .ok
  | .mnot .. => .ok
  | .mpopc .. => .ok
  | .mfirst .. => .ok
  | .vmov vd va _ => Check.of true (vOk vd && vOk va)
  | .vmovs vd va _ _ => Check.of true (vOk vd && vOk va)
  | .vext _ va idx _ => Check.of true (decide (idx.toNat < 1024) && vOk va)
  | .vins vd va _ idx _ => Check.of true (decide (idx.toNat < 1024) && vOk vd && vOk va)
  | .vmovi ty vd imm _ => Check.of true (ty.immOk imm && vOk vd)
  | .vrotr _ vd va k _ => Check.of true (decide (k.toNat < 64) && vOk vd && vOk va)
  | .vbcr _ vd va c _ => Check.of true (decide (c.toNat < 64) && vOk vd && vOk va)
  | .vredr op ty vd va _ => Check.of ((op.anyType || ty.isInt)) (vOk vd && vOk va)
  | .vscanr op ty vd va _ => Check.of ((op.anyType || ty.isInt)) (vOk vd && vOk va)
  | .vrotc _ vd va k _ => Check.of true (decide (k.toNat < 16) && vOk vd && vOk va)
  | .vbcc _ vd va r _ => Check.of true (decide (r.toNat < 16) && vOk vd && vOk va)
  | .vredc op ty vd va _ => Check.of ((op.anyType || ty.isInt)) (vOk vd && vOk va)
  | .vtrn vd va _ => Check.of true (vOk vd && vOk va)
  | .vperm vd va vb _ => Check.of true (vOk vd && vOk va && vOk vb)
  | .vcompress vd va _ _ => Check.of true (vOk vd && vOk va)
  | .vexpand vd va _ => Check.of true (vOk vd && vOk va)
  | .vld ord ls vd _ _ _ => Check.of (ord.loadOk && (ord != .plain || ls == 0)) (vOk vd)
  | .vst ord ls vd _ _ _ => Check.of (ord.storeOk && (ord != .plain || ls == 0)) (vOk vd)
  | .vldb ord ls vd _ _ _ => Check.of (ord.loadOk && (ord != .plain || ls == 0)) (vOk vd)
  | .vlds ord ls vd _ _ _ _ => Check.of (ord.loadOk && (ord != .plain || ls == 0)) (vOk vd)
  | .vsts ord ls vd _ _ _ _ => Check.of (ord.storeOk && (ord != .plain || ls == 0)) (vOk vd)
  | .vgath ord ls vd vb _ _ => Check.of (ord.loadOk && (ord != .plain || ls == 0)) (vOk vd && vOk vb)
  | .vscat ord ls vd vb _ _ => Check.of (ord.storeOk && (ord != .plain || ls == 0)) (vOk vd && vOk vb)
  | .accld _ vd _ _ => Check.of true (vOk vd)
  | .accst vd _ _ => Check.of true (vOk vd)
  | .accz .. => .ok
  | .accwait .. => .ok
  | .menq .. => .ok
  | .cenq q _ _ => Check.of true (q != .mq)
  | .qjoin .. => .ok
  | .slate n => Check.of true (n != 0)
  | .qstat .. => .ok
  | .rendezvous core _ => Check.of true (coreOk core)
  | .trapEntry core => Check.of true (coreOk core)
  | .loadReturn core => Check.of true (coreOk core)
  | .vectorLoadReturn core => Check.of true (coreOk core)
  | .accMovePerformed core _ => Check.of true (coreOk core)
  | .semaphoreAdd sig => Check.of true (partOk sig.part)
  | .barrierAnswer core => Check.of true (coreOk core)
  | .clsetComplete part _ => Check.of true (partOk part)
  | .holderRead .. => .ok
  | .holderWrite .. => .ok
  | .partialStoreMerge .. => .ok
  | .llcEviction .. => .ok
  | .pagePin .. => .ok
  | .translationWalk .. => .ok
  | .sealRefetch .. => .ok
  | .contextLoss part _ => Check.of true (partOk part)
  | .timingDetection core _ _ => Check.of true (coreOk core)
  | .mma core => Check.of true (coreOk core)
  | .mgrp core => Check.of true (coreOk core)
  | .wpre core => Check.of true (coreOk core)
  | .wswap core => Check.of true (coreOk core)
  | .mchain core => Check.of true (coreOk core)
  | .copyRecord core q => Check.of true (coreOk core && (q != .mq))
  | .fill core q => Check.of true (coreOk core && (q != .mq))
  | .scalefeed core q => Check.of true (coreOk core && (q != .mq))
  | .wbfill core q => Check.of true (coreOk core && (q != .mq))
  | .join core _ => Check.of true (coreOk core)
  | .recordWaitSatisfied core _ => Check.of true (coreOk core)
  | .leaveGrant cluster => Check.of true (clusterOk cluster)
  | .preloadDelivery core => Check.of true (coreOk core)
  | .kstepCommit core => Check.of true (coreOk core)
  | .recordPerformed core _ => Check.of true (coreOk core)
  | .cycleBoundOverrun core _ => Check.of true (coreOk core)
  | .shotReplay core => Check.of true (coreOk core)
  | .dispatchStep part => Check.of true (partOk part)
  | .nodeComplete part _ => Check.of true (partOk part)
  | .tspawnAccept core => Check.of true (coreOk core)
  | .residentLimitOverrun core => Check.of true (coreOk core)
  | .clapperReport part _ _ => Check.of true (partOk part)
  | .clapperStart c => Check.of true (partOk c.part)
  | .clapperAbort c => Check.of true (partOk c.part)
  | .doorbell part ring _ => Check.of true (partOk part && ringOk ring)
  | .enable part ring _ => Check.of true (partOk part && ringOk ring)
  | .ringReset part ring => Check.of true (partOk part && ringOk ring)
  | .endPacket part ring => Check.of true (partOk part && ringOk ring)
  | .ringFetch part ring => Check.of true (partOk part && ringOk ring)
  | .nopPacket part ring => Check.of true (partOk part && ringOk ring)
  | .launch part x => Check.of true (partOk part && ringOk x.ring &&
      (match x.replica with | some x => x.words.length == 8 && bits (x.words.getD 0 0) 60 4 == 1 | none => true))
  | .launchSlotGrant part => Check.of true (partOk part)
  | .invoke part ring => Check.of true (partOk part && ringOk ring)
  | .copyPacket part ring => Check.of true (partOk part && ringOk ring)
  | .waitPacket part ring => Check.of true (partOk part && ringOk ring)
  | .signalPacket part ring => Check.of true (partOk part && ringOk ring)
  | .clupdate part ring => Check.of true (partOk part && ringOk ring)
  | .pholeClaim part ring => Check.of true (partOk part && ringOk ring)
  | .pholeLoad part ring => Check.of true (partOk part && ringOk ring)
  | .pholeDrop part ring => Check.of true (partOk part && ringOk ring)
  | .pholeRebase part ring => Check.of true (partOk part && ringOk ring)
  | .barrierPacket part ring => Check.of true (partOk part && ringOk ring)
  | .completionRecord part => Check.of true (partOk part)
  | .cri part _ => Check.of true (partOk part)
  | .presume part _ => Check.of true (partOk part)
  | .hresume .. => .ok
  | .hresumeDiscard .. => .ok
  | .create part => Check.of true (partOk part)
  | .resize part _ => Check.of true (partOk part)
  | .clusterRemoval part => Check.of true (partOk part)
  | .destroy part => Check.of true (partOk part)
  | .lend part _ => Check.of true (partOk part)
  | .revoke part => Check.of true (partOk part)
  | .revokeSaveTimeout part core => Check.of true (partOk part && coreOk core)
  | .mlend part _ => Check.of true (partOk part)
  | .budgetWord part _ _ => Check.of true (partOk part)
  | .s1inv part _ => Check.of true (partOk part)
  | .s2inv part _ => Check.of true (partOk part)
  | .invalidationComplete part _ => Check.of true (partOk part)
  | .vfstate part _ => Check.of true (partOk part)
  | .functionLevelReset part => Check.of true (partOk part)
  | .stopRequest core _ => Check.of true (coreOk core)
  | .softStop core => Check.of true (coreOk core)
  | .hardStop core => Check.of true (coreOk core)
  | .stopSave core => Check.of true (coreOk core)
  | .memberResume core => Check.of true (coreOk core)
  | .pause part => Check.of true (partOk part)
  | .resume part => Check.of true (partOk part)
  | .go channel => Check.of true (decide (channel < 4))
  | .abort channel => Check.of true (decide (channel < 4))
  | .channelCopyDone channel => Check.of true (decide (channel < 4))
  | .fabricAccess .. => .ok
  | .linkTraining .. => .ok
  | .timebaseCorrection .. => .ok
  | .limiterTransferStart part _ _ => Check.of true (partOk part)
  | .energyPeriodEnd part => Check.of true (partOk part)
  | .point cluster _ => Check.of true (clusterOk cluster)
  | .pointChangeComplete cluster => Check.of true (clusterOk cluster)
  | .voltageLoop cluster => Check.of true (clusterOk cluster)
  | .cadenceStep cluster _ => Check.of true (clusterOk cluster)
  | .currentClamp cluster => Check.of true (clusterOk cluster)
  | .thermalTrip cluster => Check.of true (clusterOk cluster)
  | .thermalTripClear cluster => Check.of true (clusterOk cluster)
  | .repeatMode .. => .ok
  | .firmwareHeartbeat => .ok
  | .heartbeatTimeout => .ok
  | .coldReset => .ok
  | .hotReset => .ok
  | .vfEnableClear .. => .ok
  | .mbctlCopyB .. => .ok
  | .mbctlCopyA .. => .ok
  | .repairTableWrite core _ _ => Check.of true (coreOk core)
  | .reparm core => Check.of true (coreOk core)
  | .repinj core _ => Check.of true (coreOk core)
  | .repairTimeout core => Check.of true (coreOk core)
  | .spdmGetVersion => .ok
  | .spdmGetCapabilities => .ok
  | .spdmNegotiateAlgorithms => .ok
  | .spdmGetDigests => .ok
  | .spdmGetCertificate .. => .ok
  | .spdmChallenge .. => .ok
  | .spdmGetMeasurements .. => .ok
  | .spdmKeyExchange .. => .ok
  | .spdmFinish .. => .ok
  | .spdmEndSession => .ok
  | .spdmOtherRequest => .ok
  | .kSetGo .. => .ok
  | .pfBar2Access .. => .ok
  | .vfBar2Access part .. => Check.of true (partOk part)
  | .msixVectorUnmask .. => .ok
  | .registerWrite .. => .ok
  | .scrubEnd .. => .ok
  | .currentClampEnd cluster => Check.of true (clusterOk cluster)
  | .powerControllerImageUpdate .. => .ok
  | .fabricPortLoss .. => .ok
/-- An instruction that a word can stand for, or a step whose party exists. -/
def Instr.wellFormed (i : Instr) : Bool := i.check == .ok

end Sys2Proof
end

