-- ==== Sys2Proof/Decode.lean ====
section
/-! DEFINITION. The formats (R73), the primary opcode map (R77, R78, R80), the decoder in the order of R82, and
after it the encoder, written from the same tables. -/

namespace Sys2Proof

/-- The fields of the K format (scalar register), most significant first (R73). -/
structure FmtK where
  sd : BitVec 6 := 0
  sa : BitVec 6 := 0
  sb : BitVec 6 := 0
  sc : BitVec 6 := 0
  imm8 : BitVec 8 := 0
  fn : BitVec 8 := 0
  ext : BitVec 16 := 0
deriving DecidableEq, Repr

/-- The fields of the I format (scalar immediate), most significant first (R73). -/
structure FmtI where
  sd : BitVec 6 := 0
  sa : BitVec 6 := 0
  rsv : BitVec 12 := 0
  imm32 : BitVec 32 := 0
deriving DecidableEq, Repr

/-- The fields of the B format (relative branch), most significant first (R73). -/
structure FmtB where
  sa : BitVec 6 := 0
  sb : BitVec 6 := 0
  cnd : BitVec 3 := 0
  nul : BitVec 2 := 0
  rsv : BitVec 7 := 0
  off32 : BitVec 32 := 0
deriving DecidableEq, Repr

/-- The fields of the J format (register branch), most significant first (R73). -/
structure FmtJ where
  sd : BitVec 6 := 0
  sa : BitVec 6 := 0
  sb : BitVec 6 := 0
  sc : BitVec 6 := 0
  nul : BitVec 2 := 0
  rsv : BitVec 30 := 0
deriving DecidableEq, Repr

/-- The fields of the M format (scalar memory), most significant first (R73). -/
structure FmtM where
  sd : BitVec 6 := 0
  sa : BitVec 6 := 0
  sz : BitVec 2 := 0
  un : BitVec 1 := 0
  rsv : BitVec 1 := 0
  ord : BitVec 2 := 0
  ls : BitVec 5 := 0
  rsv2 : BitVec 1 := 0
  off32 : BitVec 32 := 0
deriving DecidableEq, Repr

/-- The fields of the X format (atomic), most significant first (R73). -/
structure FmtX where
  sd : BitVec 6 := 0
  sa : BitVec 6 := 0
  sb : BitVec 6 := 0
  sc : BitVec 6 := 0
  ord : BitVec 2 := 0
  ls : BitVec 5 := 0
  dw : BitVec 1 := 0
  fn : BitVec 4 := 0
  off20 : BitVec 20 := 0
deriving DecidableEq, Repr

/-- The fields of the Y format (synchronisation and system), most significant first (R73). -/
structure FmtY where
  sd : BitVec 6 := 0
  sa : BitVec 6 := 0
  sb : BitVec 6 := 0
  idx : BitVec 8 := 0
  ls : BitVec 5 := 0
  rmt : BitVec 1 := 0
  fn : BitVec 4 := 0
  imm20 : BitVec 20 := 0
deriving DecidableEq, Repr

/-- The fields of the V format (vector), most significant first (R73). -/
structure FmtV where
  vd : BitVec 8 := 0
  va : BitVec 8 := 0
  vb : BitVec 8 := 0
  vc : BitVec 8 := 0
  msk : BitVec 4 := 0
  ty : BitVec 4 := 0
  fn : BitVec 4 := 0
  aux : BitVec 4 := 0
  imm8 : BitVec 8 := 0
deriving DecidableEq, Repr

/-- The fields of the W format (vector immediate), most significant first (R73). -/
structure FmtW where
  vd : BitVec 8 := 0
  msk : BitVec 4 := 0
  ty : BitVec 4 := 0
  rsv : BitVec 8 := 0
  imm32 : BitVec 32 := 0
deriving DecidableEq, Repr

/-- The fields of the L format (vector memory), most significant first (R73). -/
structure FmtL where
  vd : BitVec 8 := 0
  vb : BitVec 8 := 0
  sa : BitVec 6 := 0
  sb : BitVec 6 := 0
  msk : BitVec 4 := 0
  ord : BitVec 2 := 0
  ls : BitVec 5 := 0
  fn : BitVec 3 := 0
  off14 : BitVec 14 := 0
deriving DecidableEq, Repr

/-- The fields of the C format (accumulator move), most significant first (R73). -/
structure FmtC where
  vd : BitVec 8 := 0
  tl : BitVec 4 := 0
  sl : BitVec 4 := 0
  cv : BitVec 1 := 0
  fn : BitVec 3 := 0
  rsv : BitVec 30 := 0
  n : BitVec 6 := 0
deriving DecidableEq, Repr

/-- The fields of the Q format (engine), most significant first (R73). -/
structure FmtQ where
  sa : BitVec 6 := 0
  sd : BitVec 6 := 0
  qu : BitVec 2 := 0
  rsv : BitVec 18 := 0
  fn : BitVec 4 := 0
  imm20 : BitVec 20 := 0
deriving DecidableEq, Repr

/-- The fields that a word holds when its format is K (R73). -/
def fieldsK (w : Word) : FmtK :=
  { sd := bits w 50 6, sa := bits w 44 6, sb := bits w 38 6, sc := bits w 32 6,
    imm8 := bits w 24 8, fn := bits w 16 8, ext := bits w 0 16 }

/-- The fields that a word holds when its format is I (R73). -/
def fieldsI (w : Word) : FmtI :=
  { sd := bits w 50 6, sa := bits w 44 6, rsv := bits w 32 12, imm32 := bits w 0 32 }

/-- The fields that a word holds when its format is B (R73). -/
def fieldsB (w : Word) : FmtB :=
  { sa := bits w 50 6, sb := bits w 44 6, cnd := bits w 41 3, nul := bits w 39 2,
    rsv := bits w 32 7, off32 := bits w 0 32 }

/-- The fields that a word holds when its format is J (R73). -/
def fieldsJ (w : Word) : FmtJ :=
  { sd := bits w 50 6, sa := bits w 44 6, sb := bits w 38 6, sc := bits w 32 6,
    nul := bits w 30 2, rsv := bits w 0 30 }

/-- The fields that a word holds when its format is M (R73). -/
def fieldsM (w : Word) : FmtM :=
  { sd := bits w 50 6, sa := bits w 44 6, sz := bits w 42 2, un := bits w 41 1,
    rsv := bits w 40 1, ord := bits w 38 2, ls := bits w 33 5, rsv2 := bits w 32 1,
    off32 := bits w 0 32 }

/-- The fields that a word holds when its format is X (R73). -/
def fieldsX (w : Word) : FmtX :=
  { sd := bits w 50 6, sa := bits w 44 6, sb := bits w 38 6, sc := bits w 32 6,
    ord := bits w 30 2, ls := bits w 25 5, dw := bits w 24 1, fn := bits w 20 4,
    off20 := bits w 0 20 }

/-- The fields that a word holds when its format is Y (R73). -/
def fieldsY (w : Word) : FmtY :=
  { sd := bits w 50 6, sa := bits w 44 6, sb := bits w 38 6, idx := bits w 30 8,
    ls := bits w 25 5, rmt := bits w 24 1, fn := bits w 20 4, imm20 := bits w 0 20 }

/-- The fields that a word holds when its format is V (R73). -/
def fieldsV (w : Word) : FmtV :=
  { vd := bits w 48 8, va := bits w 40 8, vb := bits w 32 8, vc := bits w 24 8,
    msk := bits w 20 4, ty := bits w 16 4, fn := bits w 12 4, aux := bits w 8 4,
    imm8 := bits w 0 8 }

/-- The fields that a word holds when its format is W (R73). -/
def fieldsW (w : Word) : FmtW :=
  { vd := bits w 48 8, msk := bits w 44 4, ty := bits w 40 4, rsv := bits w 32 8,
    imm32 := bits w 0 32 }

/-- The fields that a word holds when its format is L (R73). -/
def fieldsL (w : Word) : FmtL :=
  { vd := bits w 48 8, vb := bits w 40 8, sa := bits w 34 6, sb := bits w 28 6,
    msk := bits w 24 4, ord := bits w 22 2, ls := bits w 17 5, fn := bits w 14 3,
    off14 := bits w 0 14 }

/-- The fields that a word holds when its format is C (R73). -/
def fieldsC (w : Word) : FmtC :=
  { vd := bits w 48 8, tl := bits w 44 4, sl := bits w 40 4, cv := bits w 39 1,
    fn := bits w 36 3, rsv := bits w 6 30, n := bits w 0 6 }

/-- The fields that a word holds when its format is Q (R73). -/
def fieldsQ (w : Word) : FmtQ :=
  { sa := bits w 50 6, sd := bits w 44 6, qu := bits w 42 2, rsv := bits w 24 18,
    fn := bits w 20 4, imm20 := bits w 0 20 }

/-- The word of sync bit `y`, primary opcode `op` and the fields of the K format (R73). -/
def wordK (y : BitVec 1) (op : BitVec 7) (f : FmtK) : Word :=
  y ++ op ++ f.sd ++ f.sa ++ f.sb ++ f.sc ++ f.imm8 ++ f.fn ++ f.ext

/-- The word of sync bit `y`, primary opcode `op` and the fields of the I format (R73). -/
def wordI (y : BitVec 1) (op : BitVec 7) (f : FmtI) : Word :=
  y ++ op ++ f.sd ++ f.sa ++ f.rsv ++ f.imm32

/-- The word of sync bit `y`, primary opcode `op` and the fields of the B format (R73). -/
def wordB (y : BitVec 1) (op : BitVec 7) (f : FmtB) : Word :=
  y ++ op ++ f.sa ++ f.sb ++ f.cnd ++ f.nul ++ f.rsv ++ f.off32

/-- The word of sync bit `y`, primary opcode `op` and the fields of the J format (R73). -/
def wordJ (y : BitVec 1) (op : BitVec 7) (f : FmtJ) : Word :=
  y ++ op ++ f.sd ++ f.sa ++ f.sb ++ f.sc ++ f.nul ++ f.rsv

/-- The word of sync bit `y`, primary opcode `op` and the fields of the M format (R73). -/
def wordM (y : BitVec 1) (op : BitVec 7) (f : FmtM) : Word :=
  y ++ op ++ f.sd ++ f.sa ++ f.sz ++ f.un ++ f.rsv ++ f.ord ++ f.ls ++ f.rsv2 ++ f.off32

/-- The word of sync bit `y`, primary opcode `op` and the fields of the X format (R73). -/
def wordX (y : BitVec 1) (op : BitVec 7) (f : FmtX) : Word :=
  y ++ op ++ f.sd ++ f.sa ++ f.sb ++ f.sc ++ f.ord ++ f.ls ++ f.dw ++ f.fn ++ f.off20

/-- The word of sync bit `y`, primary opcode `op` and the fields of the Y format (R73). -/
def wordY (y : BitVec 1) (op : BitVec 7) (f : FmtY) : Word :=
  y ++ op ++ f.sd ++ f.sa ++ f.sb ++ f.idx ++ f.ls ++ f.rmt ++ f.fn ++ f.imm20

/-- The word of sync bit `y`, primary opcode `op` and the fields of the V format (R73). -/
def wordV (y : BitVec 1) (op : BitVec 7) (f : FmtV) : Word :=
  y ++ op ++ f.vd ++ f.va ++ f.vb ++ f.vc ++ f.msk ++ f.ty ++ f.fn ++ f.aux ++ f.imm8

/-- The word of sync bit `y`, primary opcode `op` and the fields of the W format (R73). -/
def wordW (y : BitVec 1) (op : BitVec 7) (f : FmtW) : Word :=
  y ++ op ++ f.vd ++ f.msk ++ f.ty ++ f.rsv ++ f.imm32

/-- The word of sync bit `y`, primary opcode `op` and the fields of the L format (R73). -/
def wordL (y : BitVec 1) (op : BitVec 7) (f : FmtL) : Word :=
  y ++ op ++ f.vd ++ f.vb ++ f.sa ++ f.sb ++ f.msk ++ f.ord ++ f.ls ++ f.fn ++ f.off14

/-- The word of sync bit `y`, primary opcode `op` and the fields of the C format (R73). -/
def wordC (y : BitVec 1) (op : BitVec 7) (f : FmtC) : Word :=
  y ++ op ++ f.vd ++ f.tl ++ f.sl ++ f.cv ++ f.fn ++ f.rsv ++ f.n

/-- The word of sync bit `y`, primary opcode `op` and the fields of the Q format (R73). -/
def wordQ (y : BitVec 1) (op : BitVec 7) (f : FmtQ) : Word :=
  y ++ op ++ f.sa ++ f.sd ++ f.qu ++ f.rsv ++ f.fn ++ f.imm20

/-- SZ (R75). -/
def Size.ofCode (c : BitVec 2) : Size :=
  if c = 0 then .b else if c = 1 then .h else if c = 2 then .w else .d

/-- ORD (R75). -/
def MemOrder.ofCode (c : BitVec 2) : MemOrder :=
  if c = 0 then .plain else if c = 1 then .acquire else if c = 2 then .release else .acqRel

/-- CND (R75); 110 and 111 are reserved. -/
def Cond.ofCode (c : Nat) : Option Cond := [Cond.eq, .ne, .lt, .ge, .ltu, .geu][c]?

/-- NUL (R75); 11 is reserved. -/
def Nul.ofCode (c : BitVec 2) : Option Nul := [Nul.none, .notTaken, .taken][c.toNat]?

/-- TY (R75); 11 to 15 are reserved. -/
def VTy.ofCode (c : BitVec 4) : Option VTy :=
  [VTy.f32, .bf16x2, .f16x2, .e4m3x4, .e5m2x4, .i32, .ui32, .i16x2, .ui16x2, .i8x4, .ui8x4][c.toNat]?

/-- QU (R75). The value 11 names no queue: the forms that use the field refuse it as an operand (R79). -/
def Queue.ofCode (c : BitVec 2) : Queue := if c = 1 then .cq0 else if c = 2 then .cq1 else .mq

/-- AUX of VCMP (R80). -/
def VCond.ofCode (c : BitVec 4) : Option VCond := [VCond.eq, .ne, .lt, .le, .gt, .ge, .un][c.toNat]?

/-- AUX of VMXQ and VMXD (R80). -/
def MxFmt.ofCode (c : BitVec 4) : Option MxFmt := [MxFmt.e2m1, .e4m3, .e5m2][c.toNat]?

/-- AUX of the reductions and scans (R80). -/
def RedOp.ofCode (c : BitVec 4) : Option RedOp := [RedOp.add, .min, .max, .and, .or, .xor][c.toNat]?

/-- What a word's fields stand for: no instruction (a reserved value, or an unused field that is not zero), or an
instruction and whether a scalar or mask number, or a queue, breaks the limit of its field (R74, R79, R82). -/
abbrev Parsed := Option (Instr × Bool)

/-- The instruction, when no field but those used is nonzero (R74). -/
def only {F : Type} [DecidableEq F] (f used : F) (i : Instr) (bad : Bool := false) : Parsed :=
  if f = used then some (i, bad) else none

/-- The scalar register number in a field of the V format (R74). -/
def sOf (x : BitVec 8) : SReg := bits x 0 6
/-- The field names no scalar register (R74). -/
def sBad (x : BitVec 8) : Bool := bits x 6 2 != 0
/-- The mask register number in a field of the V format (R74). -/
def mOf (x : BitVec 8) : MReg := bits x 0 4
/-- The field names no mask register (R74). -/
def mBad (x : BitVec 8) : Bool := bits x 4 4 != 0

/-- Two sources and a destination of the K format. -/
def k3 (f : FmtK) (i : SReg → SReg → SReg → Instr) : Parsed :=
  only f { sd := f.sd, sa := f.sa, sb := f.sb, fn := f.fn } (i f.sd f.sa f.sb)

/-- One source and a destination of the K format. -/
def k2 (f : FmtK) (i : SReg → SReg → Instr) : Parsed :=
  only f { sd := f.sd, sa := f.sa, fn := f.fn } (i f.sd f.sa)

/-- Three sources and a destination of the K format. -/
def k4 (f : FmtK) (i : SReg → SReg → SReg → SReg → Instr) : Parsed :=
  only f { sd := f.sd, sa := f.sa, sb := f.sb, sc := f.sc, fn := f.fn } (i f.sd f.sa f.sb f.sc)

/-- OP 0x01, by FN (R78). -/
def parse01 (f : FmtK) : Parsed :=
  match f.fn.toNat with
  | 0x00 => k3 f .add
  | 0x01 => k3 f .sub
  | 0x02 => k3 f .mul
  | 0x03 => k3 f .mulh
  | 0x04 => k3 f .mulhu
  | 0x05 => k3 f .div
  | 0x06 => k3 f .divu
  | 0x07 => k3 f .rem
  | 0x08 => k3 f .remu
  | 0x10 => k3 f .and
  | 0x11 => k3 f .or
  | 0x12 => k3 f .xor
  | 0x13 => k3 f .andn
  | 0x14 => k3 f .orn
  | 0x20 => k3 f .shl
  | 0x21 => k3 f .shr
  | 0x22 => k3 f .sar
  | 0x23 => k3 f .rotl
  | 0x24 => k3 f .rotr
  | 0x30 => k3 f .min
  | 0x31 => k3 f .max
  | 0x32 => k3 f .minu
  | 0x33 => k3 f .maxu
  | 0x40 => k2 f .clz
  | 0x41 => k2 f .ctz
  | 0x42 => k2 f .popc
  | 0x43 => k2 f .brev
  | 0x44 => k2 f .bswap
  | 0x45 => k2 f .abs
  | _ => none

/-- OP 0x02 to 0x05 (R77, R79): EXT[13:8] = POS, EXT[6:0] = WID. -/
def parse02 (f : FmtK) : Parsed :=
  match f.fn.toNat with
  | 0 => only f { sd := f.sd, sa := f.sa, sb := f.sb, sc := f.sc, imm8 := f.imm8, fn := f.fn }
           (.lop3 f.sd f.sa f.sb f.sc f.imm8)
  | 1 => k4 f .fshl
  | 2 => k4 f .fshr
  | 3 => k4 f .sel
  | _ => none

/-- CMP: FN is the condition (R77). -/
def parse03 (f : FmtK) : Parsed :=
  match Cond.ofCode f.fn.toNat with
  | some c => k3 f (.cmp c)
  | none => none

/-- A bit-field form with POS and WID. -/
def kField (f : FmtK) (i : SReg → SReg → BitVec 6 → BitVec 7 → Instr) : Parsed :=
  only f { sd := f.sd, sa := f.sa, fn := f.fn, ext := 0#2 ++ bits f.ext 8 6 ++ 0#1 ++ bits f.ext 0 7 }
    (i f.sd f.sa (bits f.ext 8 6) (bits f.ext 0 7))

/-- A bit-field form with WID. -/
def kWidth (f : FmtK) (i : SReg → SReg → BitVec 7 → Instr) : Parsed :=
  only f { sd := f.sd, sa := f.sa, fn := f.fn, ext := 0#9 ++ bits f.ext 0 7 } (i f.sd f.sa (bits f.ext 0 7))

/-- OP 0x04 (R77, R79). -/
def parse04 (f : FmtK) : Parsed :=
  match f.fn.toNat with
  | 0 => kField f .bfx
  | 1 => kField f .bfxu
  | 2 => kField f .bfi
  | 3 => kWidth f .sext
  | 4 => kWidth f .zext
  | _ => none

/-- OP 0x05 (R77). -/
def parse05 (f : FmtK) : Parsed :=
  match f.fn.toNat with
  | 0 => only f { sd := f.sd, sa := f.sa, sb := f.sb, imm8 := f.imm8, fn := f.fn } (.lea f.sd f.sa f.sb f.imm8)
  | _ => none

/-- OP 0x08 to 0x0A and 0x27 (R77, R79). -/
def parseI (op : Nat) (f : FmtI) : Parsed :=
  match op with
  | 0x08 => only f { sd := f.sd, sa := f.sa, imm32 := f.imm32 } (.addi f.sd f.sa f.imm32)
  | 0x09 => only f { sd := f.sd, imm32 := f.imm32 } (.movi f.sd f.imm32)
  | 0x0A => only f { sd := f.sd, imm32 := f.imm32 } (.movhi f.sd f.imm32)
  | 0x27 => only f { imm32 := f.imm32 } (.trap f.imm32)
  | _ => none

/-- BR and GBR (R77, R79). -/
def bCond (f : FmtB) (i : Cond → Nul → SReg → SReg → BitVec 32 → Instr) : Parsed :=
  match Cond.ofCode f.cnd.toNat, Nul.ofCode f.nul with
  | some c, some n => only f { sa := f.sa, sb := f.sb, cnd := f.cnd, nul := f.nul, off32 := f.off32 }
      (i c n f.sa f.sb f.off32)
  | _, _ => none

/-- OP 0x20 to 0x23 (R77, R79): the link of CALL stands in [55:50]. -/
def parseB (op : Nat) (f : FmtB) : Parsed :=
  match op, Nul.ofCode f.nul with
  | 0x20, _ => bCond f .br
  | 0x21, _ => bCond f .gbr
  | 0x22, some n => only f { nul := f.nul, off32 := f.off32 } (.jmp n f.off32)
  | 0x23, some n => only f { sa := f.sa, nul := f.nul, off32 := f.off32 } (.call f.sa n f.off32)
  | _, _ => none

/-- OP 0x24 to 0x29 (R77, R79). -/
def parseJ (op : Nat) (f : FmtJ) : Parsed :=
  match op, Nul.ofCode f.nul with
  | 0x24, some n => only f { sd := f.sd, sa := f.sa, nul := f.nul } (.callr f.sd f.sa n)
  | 0x25, some n => only f { sa := f.sa, nul := f.nul } (.ret f.sa n)
  | 0x26, _ => only f { sa := f.sa, sb := f.sb, sc := f.sc } (.jt f.sa f.sb f.sc)
  | 0x28, _ => only f {} .eret
  | 0x29, _ => only f {} .halt
  | _, _ => none

/-- OP 0x30 to 0x32, 0x35 and 0x36 (R77, R79). The kind of a FENCE is its ORD; that ORD 00 of a FENCE is a reserved value (0x01) and
no operand beyond its limit (0x03) is the model's choice (log 75). -/
def parseM (op : Nat) (f : FmtM) : Parsed :=
  match op with
  | 0x30 => only f { sd := f.sd, sa := f.sa, sz := f.sz, un := f.un, ord := f.ord, ls := f.ls, off32 := f.off32 }
      (.ld (.ofCode f.sz) (bit f.un 0) (.ofCode f.ord) f.ls f.sd f.sa f.off32)
  | 0x31 => only f { sd := f.sd, sa := f.sa, sz := f.sz, ord := f.ord, ls := f.ls, off32 := f.off32 }
      (.st (.ofCode f.sz) (.ofCode f.ord) f.ls f.sd f.sa f.off32)
  | 0x32 => only f { sd := f.sd, sa := f.sa, sz := f.sz, un := f.un, off32 := f.off32 }
      (.ldc (.ofCode f.sz) (bit f.un 0) f.sd f.sa f.off32)
  | 0x35 => only f { sa := f.sa, off32 := f.off32 } (.pref f.sa f.off32)
  | 0x36 =>
    match MemOrder.ofCode f.ord with
    | .plain => none
    | .acquire => only f { ord := f.ord, ls := f.ls } (.fenceAcq f.ls)
    | .release => only f { ord := f.ord, ls := f.ls } (.fenceRel f.ls)
    | .acqRel => only f { ord := f.ord, ls := f.ls } (.fenceFull f.ls)
  | _ => none

/-- The fields of an AMO (R79). -/
def xAmo (f : FmtX) (i : Bool → MemOrder → ListIx → SReg → SReg → SReg → BitVec 20 → Instr) : Parsed :=
  only f { sd := f.sd, sa := f.sa, sb := f.sb, ord := f.ord, ls := f.ls, dw := f.dw, fn := f.fn, off20 := f.off20 }
    (i (bit f.dw 0) (.ofCode f.ord) f.ls f.sd f.sa f.sb f.off20)

/-- OP 0x33 and 0x34 (R77, R79). -/
def parseX (op : Nat) (f : FmtX) : Parsed :=
  match op, f.fn.toNat with
  | 0x33, 0 => xAmo f .amoAdd
  | 0x33, 1 => xAmo f .amoAnd
  | 0x33, 2 => xAmo f .amoOr
  | 0x33, 3 => xAmo f .amoXor
  | 0x33, 4 => xAmo f .amoMin
  | 0x33, 5 => xAmo f .amoMax
  | 0x33, 6 => xAmo f .amoMinu
  | 0x33, 7 => xAmo f .amoMaxu
  | 0x33, 8 => xAmo f .amoSwap
  | 0x34, 0 => only f f (.cas (bit f.dw 0) (.ofCode f.ord) f.ls f.sd f.sa f.sb f.sc f.off20)
  | _, _ => none

/-- OP 0x40 to 0x46 (R77, R79, R190). -/
def parseY (op : Nat) (f : FmtY) : Parsed :=
  match op, f.fn.toNat with
  | 0x40, 0 => only f { idx := f.idx, fn := f.fn } (.jset f.idx)
  | 0x40, 1 => only f { idx := f.idx, fn := f.fn } (.jclr f.idx)
  | 0x40, 2 => only f { idx := f.idx, fn := f.fn } (.jwait f.idx)
  | 0x41, 0 => only f { sd := f.sd, fn := f.fn, imm20 := 0#8 ++ bits f.imm20 0 12 } (.crd f.sd (bits f.imm20 0 12))
  | 0x41, 1 => only f { sa := f.sa, fn := f.fn, imm20 := 0#8 ++ bits f.imm20 0 12 } (.cwr (bits f.imm20 0 12) f.sa)
  | 0x41, 2 => only f { sa := f.sa, fn := f.fn, imm20 := 0#8 ++ bits f.imm20 0 12 } (.crset (bits f.imm20 0 12) f.sa)
  | 0x41, 3 => only f { sa := f.sa, fn := f.fn, imm20 := 0#8 ++ bits f.imm20 0 12 } (.crclr (bits f.imm20 0 12) f.sa)
  | 0x42, 0 => only f { sa := f.sa, idx := f.idx, fn := f.fn } (.clset f.idx f.sa)
  | 0x42, 1 => only f { sd := f.sd, idx := f.idx, fn := f.fn, imm20 := 0#17 ++ bits f.imm20 0 3 }
      (.clget f.sd f.idx (bits f.imm20 0 3))
  | 0x43, 0 => only f { sa := f.sa, fn := f.fn } (.tspawn f.sa)
  | 0x44, 0 => only f { fn := f.fn, imm20 := f.imm20 } (.dbg f.imm20)
  | 0x45, 0 => only f { sa := f.sa, idx := f.idx, ls := f.ls, rmt := f.rmt, fn := f.fn,
                        imm20 := 0#12 ++ bits f.imm20 0 8 }
      (.semsig f.idx (bits f.imm20 0 8) f.ls (bit f.rmt 0) f.sa)
  | 0x45, 1 => only f { sa := f.sa, idx := f.idx, ls := f.ls, fn := f.fn, imm20 := f.imm20 }
      (.semwait f.idx f.sa f.imm20 f.ls)
  | 0x45, 2 => only f { sa := f.sa, idx := f.idx, ls := f.ls, fn := f.fn, imm20 := f.imm20 }
      (.semacq f.idx f.sa f.imm20 f.ls)
  | 0x45, 3 => only f { sa := f.sa, idx := f.idx, fn := f.fn } (.semset f.idx f.sa)
  | 0x45, 4 => only f { sd := f.sd, idx := f.idx, fn := f.fn } (.semrd f.sd f.idx)
  | 0x46, 0 => only f { sa := f.sa, idx := f.idx, fn := f.fn } (.barset f.idx f.sa)
  | 0x46, 1 => only f { idx := f.idx, ls := f.ls, fn := f.fn } (.bararr f.idx f.ls)
  | 0x46, 2 => only f { idx := f.idx, ls := f.ls, fn := f.fn } (.barwait f.idx f.ls)
  | 0x46, 3 => only f { idx := f.idx, ls := f.ls, fn := f.fn } (.bararw f.idx f.ls)
  | _, _ => none

/-- A typed vector form with two sources (R80). -/
def v3 (f : FmtV) (i : VTy → VReg → VReg → VReg → MReg → Instr) : Parsed :=
  match VTy.ofCode f.ty with
  | some t => only f { vd := f.vd, va := f.va, vb := f.vb, msk := f.msk, ty := f.ty, fn := f.fn }
      (i t f.vd f.va f.vb f.msk)
  | none => none

/-- A typed vector form with three sources. -/
def v4 (f : FmtV) (i : VTy → VReg → VReg → VReg → VReg → MReg → Instr) : Parsed :=
  match VTy.ofCode f.ty with
  | some t => only f { vd := f.vd, va := f.va, vb := f.vb, vc := f.vc, msk := f.msk, ty := f.ty, fn := f.fn }
      (i t f.vd f.va f.vb f.vc f.msk)
  | none => none

/-- A typed vector form with one source. -/
def v2 (f : FmtV) (i : VTy → VReg → VReg → MReg → Instr) : Parsed :=
  match VTy.ofCode f.ty with
  | some t => only f { vd := f.vd, va := f.va, msk := f.msk, ty := f.ty, fn := f.fn } (i t f.vd f.va f.msk)
  | none => none

/-- A typed vector form with one source and IMM8. -/
def v2i (f : FmtV) (i : VTy → VReg → VReg → BitVec 8 → MReg → Instr) : Parsed :=
  match VTy.ofCode f.ty with
  | some t => only f { vd := f.vd, va := f.va, msk := f.msk, ty := f.ty, fn := f.fn, imm8 := f.imm8 }
      (i t f.vd f.va f.imm8 f.msk)
  | none => none

/-- A reduction or scan: AUX is the operation. -/
def vRed (f : FmtV) (i : RedOp → VTy → VReg → VReg → MReg → Instr) : Parsed :=
  match RedOp.ofCode f.aux, VTy.ofCode f.ty with
  | some op, some t => only f { vd := f.vd, va := f.va, msk := f.msk, ty := f.ty, fn := f.fn, aux := f.aux }
      (i op t f.vd f.va f.msk)
  | _, _ => none

/-- A conversion of one source: AUX is the source type. -/
def vConv (f : FmtV) (i : VTy → VTy → VReg → VReg → MReg → Instr) : Parsed :=
  match VTy.ofCode f.ty, VTy.ofCode f.aux with
  | some d, some s => only f { vd := f.vd, va := f.va, msk := f.msk, ty := f.ty, fn := f.fn, aux := f.aux }
      (i d s f.vd f.va f.msk)
  | _, _ => none

/-- VMXQ and VMXD: AUX is the element format, VB the scalar scale register. -/
def vMx (f : FmtV) (i : MxFmt → VTy → VReg → VReg → SReg → MReg → Instr) : Parsed :=
  match MxFmt.ofCode f.aux, VTy.ofCode f.ty with
  | some x, some t => only f { vd := f.vd, va := f.va, vb := f.vb, msk := f.msk, ty := f.ty, fn := f.fn, aux := f.aux }
      (i x t f.vd f.va (sOf f.vb) f.msk) (sBad f.vb)
  | _, _ => none

/-- A mask form with two sources. -/
def vMask (f : FmtV) (i : MReg → MReg → MReg → MReg → Instr) : Parsed :=
  only f { vd := f.vd, va := f.va, vb := f.vb, msk := f.msk, fn := f.fn } (i (mOf f.vd) (mOf f.va) (mOf f.vb) f.msk)
    (mBad f.vd || mBad f.va || mBad f.vb)

/-- An untyped form with one vector source. -/
def vPlain (f : FmtV) (i : VReg → VReg → MReg → Instr) : Parsed :=
  only f { vd := f.vd, va := f.va, msk := f.msk, fn := f.fn } (i f.vd f.va f.msk)

/-- The vector compute opcodes but 0x63, by FN (R80). -/
def parseV (op : Nat) (f : FmtV) : Parsed :=
  match op, f.fn.toNat with
  | 0x50, 0 => v3 f .vadd
  | 0x50, 1 => v3 f .vsub
  | 0x50, 2 => v3 f .vmul
  | 0x50, 3 => v3 f .vmin
  | 0x50, 4 => v3 f .vmax
  | 0x50, 5 => v3 f .vcpysgn
  | 0x51, 0 => v4 f .vfma
  | 0x51, 1 => v4 f .vfms
  | 0x51, 2 => v4 f .vfnma
  | 0x52, 0 => v2 f .vabs
  | 0x52, 1 => v2 f .vneg
  | 0x52, 2 => v2 f .vclass
  | 0x53, 0 => v2 f .vrcp
  | 0x53, 1 => v2 f .vrsq
  | 0x53, 2 => v2 f .vsqrt
  | 0x53, 3 => v2 f .vexp2
  | 0x53, 4 => v2 f .vlog2
  | 0x53, 5 => v2 f .vtanh
  | 0x54, 0 =>
    match VCond.ofCode f.aux, VTy.ofCode f.ty with
    | some c, some t => only f { vd := f.vd, va := f.va, vb := f.vb, msk := f.msk, ty := f.ty, aux := f.aux }
        (.vcmp c t (mOf f.vd) f.va f.vb f.msk) (mBad f.vd)
    | _, _ => none
  | 0x58, 0 => v3 f .viadd
  | 0x58, 1 => v3 f .visub
  | 0x58, 2 => v3 f .vimul
  | 0x58, 3 => v3 f .vimulh
  | 0x58, 4 => v3 f .vimin
  | 0x58, 5 => v3 f .vimax
  | 0x58, 6 => v3 f .vshl
  | 0x58, 7 => v3 f .vshr
  | 0x58, 8 => v3 f .vsar
  | 0x58, 9 => v3 f .vrotl
  | 0x58, 10 => v3 f .vand
  | 0x58, 11 => v3 f .vor
  | 0x58, 12 => v3 f .vxor
  | 0x59, 0 => v4 f .vimad
  | 0x59, 1 => v4 f .vfshl
  | 0x59, 2 => v4 f .vfshr
  | 0x59, 3 =>
    match VTy.ofCode f.ty with
    | some t => only f { vd := f.vd, va := f.va, vb := f.vb, vc := f.vc, msk := f.msk, ty := f.ty, fn := f.fn,
                         imm8 := f.imm8 }
        (.vlop3 t f.vd f.va f.vb f.vc f.imm8 f.msk)
    | none => none
  | 0x5A, 0 => v2 f .vpopc
  | 0x5A, 1 => v2 f .vclz
  | 0x5C, 0 => vConv f .vcvt
  | 0x5C, 1 =>
    match VTy.ofCode f.ty, VTy.ofCode f.aux with
    | some d, some s => only f { vd := f.vd, va := f.va, vb := f.vb, msk := f.msk, ty := f.ty, fn := f.fn,
                                 aux := f.aux }
        (.vpack d s f.vd f.va f.vb f.msk)
    | _, _ => none
  | 0x5C, 2 => vConv f .vunpack
  | 0x5D, 0 => vMx f .vmxq
  | 0x5D, 1 => vMx f .vmxd
  | 0x60, 0 => only f { vd := f.vd, va := f.va, vb := f.vb, msk := f.msk } (.vsel f.vd f.va f.vb f.msk)
  | 0x61, 0 => vMask f .mand
  | 0x61, 1 => vMask f .mor
  | 0x61, 2 => vMask f .mxor
  | 0x61, 3 => only f { vd := f.vd, va := f.va, msk := f.msk, fn := f.fn } (.mnot (mOf f.vd) (mOf f.va) f.msk)
      (mBad f.vd || mBad f.va)
  | 0x61, 4 => only f { vd := f.vd, va := f.va, msk := f.msk, fn := f.fn } (.mpopc (sOf f.vd) (mOf f.va) f.msk)
      (sBad f.vd || mBad f.va)
  | 0x61, 5 => only f { vd := f.vd, va := f.va, msk := f.msk, fn := f.fn } (.mfirst (sOf f.vd) (mOf f.va) f.msk)
      (sBad f.vd || mBad f.va)
  | 0x62, 0 => vPlain f .vmov
  | 0x62, 1 => only f { vd := f.vd, va := f.va, vb := f.vb, msk := f.msk, fn := f.fn }
      (.vmovs f.vd f.va (sOf f.vb) f.msk) (sBad f.vb)
  | 0x62, 2 => only f { vd := f.vd, va := f.va, msk := f.msk, fn := f.fn, aux := f.aux, imm8 := f.imm8 }
      (.vext (sOf f.vd) f.va (f.aux ++ f.imm8) f.msk) (sBad f.vd)
  | 0x62, 3 => only f { vd := f.vd, va := f.va, vb := f.vb, msk := f.msk, fn := f.fn, aux := f.aux, imm8 := f.imm8 }
      (.vins f.vd f.va (sOf f.vb) (f.aux ++ f.imm8) f.msk) (sBad f.vb)
  | 0x64, 0 => v2i f .vrotr
  | 0x64, 1 => v2i f .vbcr
  | 0x64, 2 => vRed f .vredr
  | 0x64, 3 => vRed f .vscanr
  | 0x65, 0 => v2i f .vrotc
  | 0x65, 1 => v2i f .vbcc
  | 0x65, 2 => vRed f .vredc
  | 0x66, 0 => vPlain f .vtrn
  | 0x66, 1 => only f { vd := f.vd, va := f.va, vb := f.vb, msk := f.msk, fn := f.fn } (.vperm f.vd f.va f.vb f.msk)
  | 0x66, 2 => only f { vd := f.vd, va := f.va, vc := f.vc, msk := f.msk, fn := f.fn }
      (.vcompress f.vd f.va (sOf f.vc) f.msk) (sBad f.vc)
  | 0x66, 3 => vPlain f .vexpand
  | _, _ => none

/-- OP 0x63 (R80). -/
def parseW (f : FmtW) : Parsed :=
  match VTy.ofCode f.ty with
  | some t => only f { vd := f.vd, msk := f.msk, ty := f.ty, imm32 := f.imm32 } (.vmovi t f.vd f.imm32 f.msk)
  | none => none

/-- VLD, VST and VLDB (R81). -/
def l1 (f : FmtL) (i : MemOrder → ListIx → VReg → SReg → BitVec 14 → MReg → Instr) : Parsed :=
  only f { vd := f.vd, sa := f.sa, msk := f.msk, ord := f.ord, ls := f.ls, fn := f.fn, off14 := f.off14 }
    (i (.ofCode f.ord) f.ls f.vd f.sa f.off14 f.msk)

/-- VLDS and VSTS (R81). -/
def l2 (f : FmtL) (i : MemOrder → ListIx → VReg → SReg → SReg → BitVec 14 → MReg → Instr) : Parsed :=
  only f { vd := f.vd, sa := f.sa, sb := f.sb, msk := f.msk, ord := f.ord, ls := f.ls, fn := f.fn, off14 := f.off14 }
    (i (.ofCode f.ord) f.ls f.vd f.sa f.sb f.off14 f.msk)

/-- VGATH and VSCAT (R81). -/
def l3 (f : FmtL) (i : MemOrder → ListIx → VReg → VReg → SReg → MReg → Instr) : Parsed :=
  only f { vd := f.vd, vb := f.vb, sa := f.sa, msk := f.msk, ord := f.ord, ls := f.ls, fn := f.fn }
    (i (.ofCode f.ord) f.ls f.vd f.vb f.sa f.msk)

/-- OP 0x70 to 0x72 (R77, R81). -/
def parseL (op : Nat) (f : FmtL) : Parsed :=
  match op, f.fn.toNat with
  | 0x70, 0 => l1 f .vld
  | 0x70, 1 => l1 f .vst
  | 0x70, 2 => l1 f .vldb
  | 0x71, 0 => l2 f .vlds
  | 0x71, 1 => l2 f .vsts
  | 0x72, 0 => l3 f .vgath
  | 0x72, 1 => l3 f .vscat
  | _, _ => none

/-- OP 0x74 (R77, R81). -/
def parseC (f : FmtC) : Parsed :=
  match f.fn.toNat with
  | 0 => only f { vd := f.vd, tl := f.tl, sl := f.sl, cv := f.cv } (.accld (bit f.cv 0) f.vd f.tl f.sl)
  | 1 => only f { vd := f.vd, tl := f.tl, sl := f.sl, fn := f.fn } (.accst f.vd f.tl f.sl)
  | 2 => only f { tl := f.tl, fn := f.fn } (.accz f.tl)
  | 3 => only f { fn := f.fn, n := f.n } (.accwait f.n)
  | _ => none

/-- OP 0x78 to 0x7B (R77, R79). A QU that the form does not accept breaks its limit, and so does the
reserved QU 11 (R75): the third check of R82 does not list QU. -/
def parseQ (op : Nat) (f : FmtQ) : Parsed :=
  match op, f.fn.toNat with
  | 0x78, 0 => only f { sa := f.sa, qu := f.qu, imm20 := f.imm20 } (.menq f.sa f.imm20) (f.qu != 0)
  | 0x79, 0 => only f { sa := f.sa, qu := f.qu, imm20 := f.imm20 } (.cenq (.ofCode f.qu) f.sa f.imm20) (f.qu == 3)
  | 0x7A, 0 => only f { sa := f.sa, qu := f.qu, imm20 := f.imm20 } (.qjoin (.ofCode f.qu) f.sa f.imm20) (f.qu == 3)
  | 0x7B, 0 => only f { imm20 := 0#12 ++ bits f.imm20 0 8 } (.slate (bits f.imm20 0 8))
  | 0x7B, 1 => only f { sd := f.sd, qu := f.qu, fn := f.fn } (.qstat f.sd (.ofCode f.qu)) (f.qu == 3)
  | _, _ => none

/-- The slots in which a primary opcode is legal; nothing for a reserved one (R77). -/
def opSlots (op : Nat) : Option (List Slot) :=
  match op with
  | 0x00 | 0x20 | 0x22 | 0x25 | 0x26 | 0x27 | 0x28 | 0x29 => some [.A, .B, .V, .E]
  | 0x01 | 0x02 | 0x03 | 0x04 | 0x05 | 0x08 | 0x09 | 0x0A | 0x23 | 0x24 => some [.A, .B]
  | 0x21 | 0x30 | 0x31 | 0x32 | 0x33 | 0x34 | 0x35 => some [.A]
  | 0x36 => some [.A, .E]
  | 0x40 | 0x41 | 0x42 | 0x43 | 0x44 | 0x45 | 0x46 => some [.B]
  | 0x50 | 0x51 | 0x52 | 0x53 | 0x54 | 0x58 | 0x59 | 0x5A | 0x5C | 0x5D
  | 0x60 | 0x61 | 0x62 | 0x63 | 0x64 | 0x65 | 0x66 => some [.V]
  | 0x70 | 0x71 | 0x72 | 0x74 | 0x78 | 0x79 | 0x7A | 0x7B => some [.E]
  | _ => none

/-- What the fields of a word stand for, by primary opcode (R77). -/
def parse (w : Word) : Parsed :=
  match (bits w 56 7).toNat with
  | 0x00 => if bits w 0 56 = 0 then some (.nop, false) else none
  | 0x01 => parse01 (fieldsK w)
  | 0x02 => parse02 (fieldsK w)
  | 0x03 => parse03 (fieldsK w)
  | 0x04 => parse04 (fieldsK w)
  | 0x05 => parse05 (fieldsK w)
  | 0x08 => parseI 0x08 (fieldsI w)
  | 0x09 => parseI 0x09 (fieldsI w)
  | 0x0A => parseI 0x0A (fieldsI w)
  | 0x20 => parseB 0x20 (fieldsB w)
  | 0x21 => parseB 0x21 (fieldsB w)
  | 0x22 => parseB 0x22 (fieldsB w)
  | 0x23 => parseB 0x23 (fieldsB w)
  | 0x24 => parseJ 0x24 (fieldsJ w)
  | 0x25 => parseJ 0x25 (fieldsJ w)
  | 0x26 => parseJ 0x26 (fieldsJ w)
  | 0x27 => parseI 0x27 (fieldsI w)
  | 0x28 => parseJ 0x28 (fieldsJ w)
  | 0x29 => parseJ 0x29 (fieldsJ w)
  | 0x30 => parseM 0x30 (fieldsM w)
  | 0x31 => parseM 0x31 (fieldsM w)
  | 0x32 => parseM 0x32 (fieldsM w)
  | 0x33 => parseX 0x33 (fieldsX w)
  | 0x34 => parseX 0x34 (fieldsX w)
  | 0x35 => parseM 0x35 (fieldsM w)
  | 0x36 => parseM 0x36 (fieldsM w)
  | 0x63 => parseW (fieldsW w)
  | 0x74 => parseC (fieldsC w)
  | op =>
    if op < 0x50 then parseY op (fieldsY w)
    else if op < 0x70 then parseV op (fieldsV w)
    else if op < 0x74 then parseL op (fieldsL w)
    else parseQ op (fieldsQ w)

/-- What slot k makes of the instruction in its column: an instruction, or a decode cause (R82). -/
inductive Decoded where
  | ok (i : Instr)
  | trap (cause : BitVec 8)
deriving DecidableEq, Repr

/-- The decode checks in the order of R82; the first that fails decides. -/
def decode (slot : Slot) (w : Word) : Decoded :=
  match opSlots (bits w 56 7).toNat with
  | none => .trap 0x01
  | some slots =>
    if slot ∉ slots then .trap 0x02
    else
      match parse w with
      | none => .trap 0x01
      | some (i, bad) =>
        match i.check with
        | .reserved => .trap 0x01
        | .operand => .trap 0x03
        | .ok => if bad then .trap 0x03 else .ok i

/-- The sync bit of a word (R73, R12). -/
def syncBit (w : Word) : Bool := bit w 63

/-- The lowest column in which the primary opcode of a word is legal (R77). -/
def homeSlot (w : Word) : Slot :=
  match opSlots (bits w 56 7).toNat with
  | some (k :: _) => k
  | _ => .A

/-- The instruction that the decoder reads from an instruction word whose bits are `w`. -/
def decodeTableWord (_nbits w : Nat) : Option Instr :=
  match decode (homeSlot (BitVec.ofNat 64 w)) (BitVec.ofNat 64 w) with
  | .ok i => some i
  | .trap _ => none

/-! The encoder. -/

/-- SZ (R75). -/
def Size.code : Size → BitVec 2
  | .b => 0 | .h => 1 | .w => 2 | .d => 3
/-- ORD (R75). -/
def MemOrder.code : MemOrder → BitVec 2
  | .plain => 0 | .acquire => 1 | .release => 2 | .acqRel => 3
/-- CND (R75). -/
def Cond.code : Cond → Nat
  | .eq => 0 | .ne => 1 | .lt => 2 | .ge => 3 | .ltu => 4 | .geu => 5
/-- NUL (R75). -/
def Nul.code : Nul → BitVec 2
  | .none => 0 | .notTaken => 1 | .taken => 2
/-- TY (R75). -/
def VTy.code : VTy → BitVec 4
  | .f32 => 0 | .bf16x2 => 1 | .f16x2 => 2 | .e4m3x4 => 3 | .e5m2x4 => 4 | .i32 => 5 | .ui32 => 6
  | .i16x2 => 7 | .ui16x2 => 8 | .i8x4 => 9 | .ui8x4 => 10
/-- QU (R75). -/
def Queue.code : Queue → BitVec 2
  | .mq => 0 | .cq0 => 1 | .cq1 => 2
/-- AUX of VCMP (R80). -/
def VCond.code : VCond → BitVec 4
  | .eq => 0 | .ne => 1 | .lt => 2 | .le => 3 | .gt => 4 | .ge => 5 | .un => 6
/-- AUX of VMXQ and VMXD (R80). -/
def MxFmt.code : MxFmt → BitVec 4
  | .e2m1 => 0 | .e4m3 => 1 | .e5m2 => 2
/-- AUX of the reductions and scans (R80). -/
def RedOp.code : RedOp → BitVec 4
  | .add => 0 | .min => 1 | .max => 2 | .and => 3 | .or => 4 | .xor => 5

/-- A scalar register number in a field of the V format (R74). -/
def sField (x : SReg) : BitVec 8 := 0#2 ++ x
/-- A mask register number in a field of the V format (R74). -/
def mField (x : MReg) : BitVec 8 := 0#4 ++ x

/-- The word of an instruction with sync bit `y`; nothing for a step that has no word. -/
def encode (y : BitVec 1) (i : Instr) : Option Word :=
  match i with
  | .nop => some (y ++ 0#63)
  | .add sd sa sb => some (wordK y 0x01 { sd := sd, sa := sa, sb := sb, fn := 0x00 })
  | .sub sd sa sb => some (wordK y 0x01 { sd := sd, sa := sa, sb := sb, fn := 0x01 })
  | .mul sd sa sb => some (wordK y 0x01 { sd := sd, sa := sa, sb := sb, fn := 0x02 })
  | .mulh sd sa sb => some (wordK y 0x01 { sd := sd, sa := sa, sb := sb, fn := 0x03 })
  | .mulhu sd sa sb => some (wordK y 0x01 { sd := sd, sa := sa, sb := sb, fn := 0x04 })
  | .div sd sa sb => some (wordK y 0x01 { sd := sd, sa := sa, sb := sb, fn := 0x05 })
  | .divu sd sa sb => some (wordK y 0x01 { sd := sd, sa := sa, sb := sb, fn := 0x06 })
  | .rem sd sa sb => some (wordK y 0x01 { sd := sd, sa := sa, sb := sb, fn := 0x07 })
  | .remu sd sa sb => some (wordK y 0x01 { sd := sd, sa := sa, sb := sb, fn := 0x08 })
  | .and sd sa sb => some (wordK y 0x01 { sd := sd, sa := sa, sb := sb, fn := 0x10 })
  | .or sd sa sb => some (wordK y 0x01 { sd := sd, sa := sa, sb := sb, fn := 0x11 })
  | .xor sd sa sb => some (wordK y 0x01 { sd := sd, sa := sa, sb := sb, fn := 0x12 })
  | .andn sd sa sb => some (wordK y 0x01 { sd := sd, sa := sa, sb := sb, fn := 0x13 })
  | .orn sd sa sb => some (wordK y 0x01 { sd := sd, sa := sa, sb := sb, fn := 0x14 })
  | .shl sd sa sb => some (wordK y 0x01 { sd := sd, sa := sa, sb := sb, fn := 0x20 })
  | .shr sd sa sb => some (wordK y 0x01 { sd := sd, sa := sa, sb := sb, fn := 0x21 })
  | .sar sd sa sb => some (wordK y 0x01 { sd := sd, sa := sa, sb := sb, fn := 0x22 })
  | .rotl sd sa sb => some (wordK y 0x01 { sd := sd, sa := sa, sb := sb, fn := 0x23 })
  | .rotr sd sa sb => some (wordK y 0x01 { sd := sd, sa := sa, sb := sb, fn := 0x24 })
  | .min sd sa sb => some (wordK y 0x01 { sd := sd, sa := sa, sb := sb, fn := 0x30 })
  | .max sd sa sb => some (wordK y 0x01 { sd := sd, sa := sa, sb := sb, fn := 0x31 })
  | .minu sd sa sb => some (wordK y 0x01 { sd := sd, sa := sa, sb := sb, fn := 0x32 })
  | .maxu sd sa sb => some (wordK y 0x01 { sd := sd, sa := sa, sb := sb, fn := 0x33 })
  | .clz sd sa => some (wordK y 0x01 { sd := sd, sa := sa, fn := 0x40 })
  | .ctz sd sa => some (wordK y 0x01 { sd := sd, sa := sa, fn := 0x41 })
  | .popc sd sa => some (wordK y 0x01 { sd := sd, sa := sa, fn := 0x42 })
  | .brev sd sa => some (wordK y 0x01 { sd := sd, sa := sa, fn := 0x43 })
  | .bswap sd sa => some (wordK y 0x01 { sd := sd, sa := sa, fn := 0x44 })
  | .abs sd sa => some (wordK y 0x01 { sd := sd, sa := sa, fn := 0x45 })
  | .lop3 sd sa sb sc tt => some (wordK y 0x02 { sd := sd, sa := sa, sb := sb, sc := sc, imm8 := tt })
  | .fshl sd sa sb sc => some (wordK y 0x02 { sd := sd, sa := sa, sb := sb, sc := sc, fn := 1 })
  | .fshr sd sa sb sc => some (wordK y 0x02 { sd := sd, sa := sa, sb := sb, sc := sc, fn := 2 })
  | .sel sd sa sb sc => some (wordK y 0x02 { sd := sd, sa := sa, sb := sb, sc := sc, fn := 3 })
  | .cmp c sd sa sb => some (wordK y 0x03 { sd := sd, sa := sa, sb := sb, fn := BitVec.ofNat 8 c.code })
  | .bfx sd sa pos wid => some (wordK y 0x04 { sd := sd, sa := sa, fn := 0, ext := 0#2 ++ pos ++ 0#1 ++ wid })
  | .bfxu sd sa pos wid => some (wordK y 0x04 { sd := sd, sa := sa, fn := 1, ext := 0#2 ++ pos ++ 0#1 ++ wid })
  | .bfi sd sa pos wid => some (wordK y 0x04 { sd := sd, sa := sa, fn := 2, ext := 0#2 ++ pos ++ 0#1 ++ wid })
  | .sext sd sa wid => some (wordK y 0x04 { sd := sd, sa := sa, fn := 3, ext := 0#9 ++ wid })
  | .zext sd sa wid => some (wordK y 0x04 { sd := sd, sa := sa, fn := 4, ext := 0#9 ++ wid })
  | .lea sd sa sb sh => some (wordK y 0x05 { sd := sd, sa := sa, sb := sb, imm8 := sh })
  | .addi sd sa imm => some (wordI y 0x08 { sd := sd, sa := sa, imm32 := imm })
  | .movi sd imm => some (wordI y 0x09 { sd := sd, imm32 := imm })
  | .movhi sd imm => some (wordI y 0x0A { sd := sd, imm32 := imm })
  | .br c nul sa sb off => some (wordB y 0x20 { sa := sa, sb := sb, cnd := BitVec.ofNat 3 c.code, nul := nul.code, off32 := off })
  | .gbr c nul sa sb off => some (wordB y 0x21 { sa := sa, sb := sb, cnd := BitVec.ofNat 3 c.code, nul := nul.code, off32 := off })
  | .jmp nul off => some (wordB y 0x22 { nul := nul.code, off32 := off })
  | .call sd nul off => some (wordB y 0x23 { sa := sd, nul := nul.code, off32 := off })
  | .callr sd sa nul => some (wordJ y 0x24 { sd := sd, sa := sa, nul := nul.code })
  | .ret sa nul => some (wordJ y 0x25 { sa := sa, nul := nul.code })
  | .jt sa sb sc => some (wordJ y 0x26 { sa := sa, sb := sb, sc := sc })
  | .trap detail => some (wordI y 0x27 { imm32 := detail })
  | .dbg code => some (wordY y 0x44 { imm20 := code })
  | .eret => some (wordJ y 0x28 {})
  | .halt => some (wordJ y 0x29 {})
  | .ld sz un ord ls sd sa off => some (wordM y 0x30 { sd := sd, sa := sa, sz := sz.code, un := ofBool1 un, ord := ord.code, ls := ls, off32 := off })
  | .ldc sz un sd sa off => some (wordM y 0x32 { sd := sd, sa := sa, sz := sz.code, un := ofBool1 un, off32 := off })
  | .st sz ord ls sd sa off => some (wordM y 0x31 { sd := sd, sa := sa, sz := sz.code, ord := ord.code, ls := ls, off32 := off })
  | .amoAdd dw ord ls sd sa sb off => some (wordX y 0x33 { sd := sd, sa := sa, sb := sb, ord := ord.code, ls := ls, dw := ofBool1 dw, fn := 0, off20 := off })
  | .amoAnd dw ord ls sd sa sb off => some (wordX y 0x33 { sd := sd, sa := sa, sb := sb, ord := ord.code, ls := ls, dw := ofBool1 dw, fn := 1, off20 := off })
  | .amoOr dw ord ls sd sa sb off => some (wordX y 0x33 { sd := sd, sa := sa, sb := sb, ord := ord.code, ls := ls, dw := ofBool1 dw, fn := 2, off20 := off })
  | .amoXor dw ord ls sd sa sb off => some (wordX y 0x33 { sd := sd, sa := sa, sb := sb, ord := ord.code, ls := ls, dw := ofBool1 dw, fn := 3, off20 := off })
  | .amoMin dw ord ls sd sa sb off => some (wordX y 0x33 { sd := sd, sa := sa, sb := sb, ord := ord.code, ls := ls, dw := ofBool1 dw, fn := 4, off20 := off })
  | .amoMax dw ord ls sd sa sb off => some (wordX y 0x33 { sd := sd, sa := sa, sb := sb, ord := ord.code, ls := ls, dw := ofBool1 dw, fn := 5, off20 := off })
  | .amoMinu dw ord ls sd sa sb off => some (wordX y 0x33 { sd := sd, sa := sa, sb := sb, ord := ord.code, ls := ls, dw := ofBool1 dw, fn := 6, off20 := off })
  | .amoMaxu dw ord ls sd sa sb off => some (wordX y 0x33 { sd := sd, sa := sa, sb := sb, ord := ord.code, ls := ls, dw := ofBool1 dw, fn := 7, off20 := off })
  | .amoSwap dw ord ls sd sa sb off => some (wordX y 0x33 { sd := sd, sa := sa, sb := sb, ord := ord.code, ls := ls, dw := ofBool1 dw, fn := 8, off20 := off })
  | .cas dw ord ls sd sa sb sc off => some (wordX y 0x34 { sd := sd, sa := sa, sb := sb, sc := sc, ord := ord.code, ls := ls, dw := ofBool1 dw, off20 := off })
  | .pref sa off => some (wordM y 0x35 { sa := sa, off32 := off })
  | .fenceAcq ls => some (wordM y 0x36 { ord := 1, ls := ls })
  | .fenceRel ls => some (wordM y 0x36 { ord := 2, ls := ls })
  | .fenceFull ls => some (wordM y 0x36 { ord := 3, ls := ls })
  | .jset j => some (wordY y 0x40 { idx := j, fn := 0 })
  | .jclr j => some (wordY y 0x40 { idx := j, fn := 1 })
  | .jwait j => some (wordY y 0x40 { idx := j, fn := 2 })
  | .crd sd n => some (wordY y 0x41 { sd := sd, imm20 := 0#8 ++ n })
  | .cwr n sa => some (wordY y 0x41 { sa := sa, fn := 1, imm20 := 0#8 ++ n })
  | .crset n sa => some (wordY y 0x41 { sa := sa, fn := 2, imm20 := 0#8 ++ n })
  | .crclr n sa => some (wordY y 0x41 { sa := sa, fn := 3, imm20 := 0#8 ++ n })
  | .clset entry sa => some (wordY y 0x42 { sa := sa, idx := entry })
  | .clget sd entry k => some (wordY y 0x42 { sd := sd, idx := entry, fn := 1, imm20 := 0#17 ++ k })
  | .tspawn sa => some (wordY y 0x43 { sa := sa })
  | .semsig sem inc ls rmt sa => some (wordY y 0x45 { sa := sa, idx := sem, ls := ls, rmt := ofBool1 rmt, imm20 := 0#12 ++ inc })
  | .semwait sem sa imm ls => some (wordY y 0x45 { sa := sa, idx := sem, ls := ls, fn := 1, imm20 := imm })
  | .semacq sem sa imm ls => some (wordY y 0x45 { sa := sa, idx := sem, ls := ls, fn := 2, imm20 := imm })
  | .semset sem sa => some (wordY y 0x45 { sa := sa, idx := sem, fn := 3 })
  | .semrd sd sem => some (wordY y 0x45 { sd := sd, idx := sem, fn := 4 })
  | .barset b sa => some (wordY y 0x46 { sa := sa, idx := b })
  | .bararr b ls => some (wordY y 0x46 { idx := b, ls := ls, fn := 1 })
  | .barwait b ls => some (wordY y 0x46 { idx := b, ls := ls, fn := 2 })
  | .bararw b ls => some (wordY y 0x46 { idx := b, ls := ls, fn := 3 })
  | .vadd ty vd va vb mk => some (wordV y 0x50 { vd := vd, va := va, vb := vb, msk := mk, ty := ty.code, fn := 0 })
  | .vsub ty vd va vb mk => some (wordV y 0x50 { vd := vd, va := va, vb := vb, msk := mk, ty := ty.code, fn := 1 })
  | .vmul ty vd va vb mk => some (wordV y 0x50 { vd := vd, va := va, vb := vb, msk := mk, ty := ty.code, fn := 2 })
  | .vmin ty vd va vb mk => some (wordV y 0x50 { vd := vd, va := va, vb := vb, msk := mk, ty := ty.code, fn := 3 })
  | .vmax ty vd va vb mk => some (wordV y 0x50 { vd := vd, va := va, vb := vb, msk := mk, ty := ty.code, fn := 4 })
  | .vcpysgn ty vd va vb mk => some (wordV y 0x50 { vd := vd, va := va, vb := vb, msk := mk, ty := ty.code, fn := 5 })
  | .vfma ty vd va vb vc mk => some (wordV y 0x51 { vd := vd, va := va, vb := vb, vc := vc, msk := mk, ty := ty.code, fn := 0 })
  | .vfms ty vd va vb vc mk => some (wordV y 0x51 { vd := vd, va := va, vb := vb, vc := vc, msk := mk, ty := ty.code, fn := 1 })
  | .vfnma ty vd va vb vc mk => some (wordV y 0x51 { vd := vd, va := va, vb := vb, vc := vc, msk := mk, ty := ty.code, fn := 2 })
  | .vabs ty vd va mk => some (wordV y 0x52 { vd := vd, va := va, msk := mk, ty := ty.code, fn := 0 })
  | .vneg ty vd va mk => some (wordV y 0x52 { vd := vd, va := va, msk := mk, ty := ty.code, fn := 1 })
  | .vclass ty vd va mk => some (wordV y 0x52 { vd := vd, va := va, msk := mk, ty := ty.code, fn := 2 })
  | .vrcp ty vd va mk => some (wordV y 0x53 { vd := vd, va := va, msk := mk, ty := ty.code, fn := 0 })
  | .vrsq ty vd va mk => some (wordV y 0x53 { vd := vd, va := va, msk := mk, ty := ty.code, fn := 1 })
  | .vsqrt ty vd va mk => some (wordV y 0x53 { vd := vd, va := va, msk := mk, ty := ty.code, fn := 2 })
  | .vexp2 ty vd va mk => some (wordV y 0x53 { vd := vd, va := va, msk := mk, ty := ty.code, fn := 3 })
  | .vlog2 ty vd va mk => some (wordV y 0x53 { vd := vd, va := va, msk := mk, ty := ty.code, fn := 4 })
  | .vtanh ty vd va mk => some (wordV y 0x53 { vd := vd, va := va, msk := mk, ty := ty.code, fn := 5 })
  | .vcmp c ty md va vb mk => some (wordV y 0x54 { vd := mField md, va := va, vb := vb, msk := mk, ty := ty.code, aux := c.code })
  | .viadd ty vd va vb mk => some (wordV y 0x58 { vd := vd, va := va, vb := vb, msk := mk, ty := ty.code, fn := 0 })
  | .visub ty vd va vb mk => some (wordV y 0x58 { vd := vd, va := va, vb := vb, msk := mk, ty := ty.code, fn := 1 })
  | .vimul ty vd va vb mk => some (wordV y 0x58 { vd := vd, va := va, vb := vb, msk := mk, ty := ty.code, fn := 2 })
  | .vimulh ty vd va vb mk => some (wordV y 0x58 { vd := vd, va := va, vb := vb, msk := mk, ty := ty.code, fn := 3 })
  | .vimin ty vd va vb mk => some (wordV y 0x58 { vd := vd, va := va, vb := vb, msk := mk, ty := ty.code, fn := 4 })
  | .vimax ty vd va vb mk => some (wordV y 0x58 { vd := vd, va := va, vb := vb, msk := mk, ty := ty.code, fn := 5 })
  | .vshl ty vd va vb mk => some (wordV y 0x58 { vd := vd, va := va, vb := vb, msk := mk, ty := ty.code, fn := 6 })
  | .vshr ty vd va vb mk => some (wordV y 0x58 { vd := vd, va := va, vb := vb, msk := mk, ty := ty.code, fn := 7 })
  | .vsar ty vd va vb mk => some (wordV y 0x58 { vd := vd, va := va, vb := vb, msk := mk, ty := ty.code, fn := 8 })
  | .vrotl ty vd va vb mk => some (wordV y 0x58 { vd := vd, va := va, vb := vb, msk := mk, ty := ty.code, fn := 9 })
  | .vand ty vd va vb mk => some (wordV y 0x58 { vd := vd, va := va, vb := vb, msk := mk, ty := ty.code, fn := 10 })
  | .vor ty vd va vb mk => some (wordV y 0x58 { vd := vd, va := va, vb := vb, msk := mk, ty := ty.code, fn := 11 })
  | .vxor ty vd va vb mk => some (wordV y 0x58 { vd := vd, va := va, vb := vb, msk := mk, ty := ty.code, fn := 12 })
  | .vimad ty vd va vb vc mk => some (wordV y 0x59 { vd := vd, va := va, vb := vb, vc := vc, msk := mk, ty := ty.code, fn := 0 })
  | .vfshl ty vd va vb vc mk => some (wordV y 0x59 { vd := vd, va := va, vb := vb, vc := vc, msk := mk, ty := ty.code, fn := 1 })
  | .vfshr ty vd va vb vc mk => some (wordV y 0x59 { vd := vd, va := va, vb := vb, vc := vc, msk := mk, ty := ty.code, fn := 2 })
  | .vlop3 ty vd va vb vc tt mk => some (wordV y 0x59 { vd := vd, va := va, vb := vb, vc := vc, msk := mk, ty := ty.code, fn := 3, imm8 := tt })
  | .vpopc ty vd va mk => some (wordV y 0x5A { vd := vd, va := va, msk := mk, ty := ty.code, fn := 0 })
  | .vclz ty vd va mk => some (wordV y 0x5A { vd := vd, va := va, msk := mk, ty := ty.code, fn := 1 })
  | .vcvt dst src vd va mk => some (wordV y 0x5C { vd := vd, va := va, msk := mk, ty := dst.code, aux := src.code })
  | .vpack dst src vd va vb mk => some (wordV y 0x5C { vd := vd, va := va, vb := vb, msk := mk, ty := dst.code, fn := 1, aux := src.code })
  | .vunpack dst src vd va mk => some (wordV y 0x5C { vd := vd, va := va, msk := mk, ty := dst.code, fn := 2, aux := src.code })
  | .vmxq fmt ty vd va sb mk => some (wordV y 0x5D { vd := vd, va := va, vb := sField sb, msk := mk, ty := ty.code, fn := 0, aux := fmt.code })
  | .vmxd fmt ty vd va sb mk => some (wordV y 0x5D { vd := vd, va := va, vb := sField sb, msk := mk, ty := ty.code, fn := 1, aux := fmt.code })
  | .vsel vd va vb mk => some (wordV y 0x60 { vd := vd, va := va, vb := vb, msk := mk })
  | .mand md ma mb mk => some (wordV y 0x61 { vd := mField md, va := mField ma, vb := mField mb, msk := mk, fn := 0 })
  | .mor md ma mb mk => some (wordV y 0x61 { vd := mField md, va := mField ma, vb := mField mb, msk := mk, fn := 1 })
  | .mxor md ma mb mk => some (wordV y 0x61 { vd := mField md, va := mField ma, vb := mField mb, msk := mk, fn := 2 })
  | .mnot md ma mk => some (wordV y 0x61 { vd := mField md, va := mField ma, msk := mk, fn := 3 })
  | .mpopc sd ma mk => some (wordV y 0x61 { vd := sField sd, va := mField ma, msk := mk, fn := 4 })
  | .mfirst sd ma mk => some (wordV y 0x61 { vd := sField sd, va := mField ma, msk := mk, fn := 5 })
  | .vmov vd va mk => some (wordV y 0x62 { vd := vd, va := va, msk := mk })
  | .vmovs vd va sb mk => some (wordV y 0x62 { vd := vd, va := va, vb := sField sb, msk := mk, fn := 1 })
  | .vext sd va idx mk => some (wordV y 0x62 { vd := sField sd, va := va, msk := mk, fn := 2, aux := bits idx 8 4, imm8 := bits idx 0 8 })
  | .vins vd va sb idx mk => some (wordV y 0x62 { vd := vd, va := va, vb := sField sb, msk := mk, fn := 3, aux := bits idx 8 4, imm8 := bits idx 0 8 })
  | .vmovi ty vd imm mk => some (wordW y 0x63 { vd := vd, msk := mk, ty := ty.code, imm32 := imm })
  | .vrotr ty vd va k mk => some (wordV y 0x64 { vd := vd, va := va, msk := mk, ty := ty.code, fn := 0, imm8 := k })
  | .vbcr ty vd va c mk => some (wordV y 0x64 { vd := vd, va := va, msk := mk, ty := ty.code, fn := 1, imm8 := c })
  | .vredr op ty vd va mk => some (wordV y 0x64 { vd := vd, va := va, msk := mk, ty := ty.code, fn := 2, aux := op.code })
  | .vscanr op ty vd va mk => some (wordV y 0x64 { vd := vd, va := va, msk := mk, ty := ty.code, fn := 3, aux := op.code })
  | .vrotc ty vd va k mk => some (wordV y 0x65 { vd := vd, va := va, msk := mk, ty := ty.code, fn := 0, imm8 := k })
  | .vbcc ty vd va r mk => some (wordV y 0x65 { vd := vd, va := va, msk := mk, ty := ty.code, fn := 1, imm8 := r })
  | .vredc op ty vd va mk => some (wordV y 0x65 { vd := vd, va := va, msk := mk, ty := ty.code, fn := 2, aux := op.code })
  | .vtrn vd va mk => some (wordV y 0x66 { vd := vd, va := va, msk := mk })
  | .vperm vd va vb mk => some (wordV y 0x66 { vd := vd, va := va, vb := vb, msk := mk, fn := 1 })
  | .vcompress vd va sc mk => some (wordV y 0x66 { vd := vd, va := va, vc := sField sc, msk := mk, fn := 2 })
  | .vexpand vd va mk => some (wordV y 0x66 { vd := vd, va := va, msk := mk, fn := 3 })
  | .vld ord ls vd sa off mk => some (wordL y 0x70 { vd := vd, sa := sa, msk := mk, ord := ord.code, ls := ls, fn := 0, off14 := off })
  | .vst ord ls vd sa off mk => some (wordL y 0x70 { vd := vd, sa := sa, msk := mk, ord := ord.code, ls := ls, fn := 1, off14 := off })
  | .vldb ord ls vd sa off mk => some (wordL y 0x70 { vd := vd, sa := sa, msk := mk, ord := ord.code, ls := ls, fn := 2, off14 := off })
  | .vlds ord ls vd sa sb off mk => some (wordL y 0x71 { vd := vd, sa := sa, sb := sb, msk := mk, ord := ord.code, ls := ls, fn := 0, off14 := off })
  | .vsts ord ls vd sa sb off mk => some (wordL y 0x71 { vd := vd, sa := sa, sb := sb, msk := mk, ord := ord.code, ls := ls, fn := 1, off14 := off })
  | .vgath ord ls vd vb sa mk => some (wordL y 0x72 { vd := vd, vb := vb, sa := sa, msk := mk, ord := ord.code, ls := ls, fn := 0 })
  | .vscat ord ls vd vb sa mk => some (wordL y 0x72 { vd := vd, vb := vb, sa := sa, msk := mk, ord := ord.code, ls := ls, fn := 1 })
  | .accld cv vd tl sl => some (wordC y 0x74 { vd := vd, tl := tl, sl := sl, cv := ofBool1 cv })
  | .accst vd tl sl => some (wordC y 0x74 { vd := vd, tl := tl, sl := sl, fn := 1 })
  | .accz tl => some (wordC y 0x74 { tl := tl, fn := 2 })
  | .accwait n => some (wordC y 0x74 { fn := 3, n := n })
  | .menq sa imm => some (wordQ y 0x78 { sa := sa, imm20 := imm })
  | .cenq q sa imm => some (wordQ y 0x79 { sa := sa, qu := q.code, imm20 := imm })
  | .qjoin q sa imm => some (wordQ y 0x7A { sa := sa, qu := q.code, imm20 := imm })
  | .slate n => some (wordQ y 0x7B { imm20 := 0#12 ++ n })
  | .qstat sd q => some (wordQ y 0x7B { sd := sd, qu := q.code, fn := 1 })
  | .rendezvous .. | .trapEntry .. | .loadReturn .. | .vectorLoadReturn .. | .accMovePerformed ..
  | .semaphoreAdd .. | .barrierAnswer .. | .clsetComplete .. | .holderRead .. | .holderWrite ..
  | .partialStoreMerge .. | .llcEviction .. | .pagePin .. | .translationWalk .. | .sealRefetch ..
  | .contextLoss .. | .timingDetection .. | .mma .. | .mgrp .. | .wpre ..
  | .wswap .. | .mchain .. | .copyRecord .. | .fill .. | .scalefeed ..
  | .wbfill .. | .join .. | .recordWaitSatisfied .. | .leaveGrant .. | .preloadDelivery ..
  | .kstepCommit .. | .recordPerformed .. | .cycleBoundOverrun .. | .shotReplay .. | .dispatchStep ..
  | .nodeComplete .. | .tspawnAccept .. | .residentLimitOverrun .. | .clapperReport .. | .clapperStart ..
  | .clapperAbort .. | .doorbell .. | .enable .. | .ringReset .. | .endPacket ..
  | .ringFetch .. | .nopPacket .. | .launch .. | .launchSlotGrant .. | .invoke ..
  | .copyPacket .. | .waitPacket .. | .signalPacket .. | .clupdate .. | .pholeClaim ..
  | .pholeLoad .. | .pholeDrop .. | .pholeRebase .. | .barrierPacket .. | .completionRecord ..
  | .cri .. | .presume .. | .hresume .. | .hresumeDiscard .. | .create ..
  | .resize .. | .clusterRemoval .. | .destroy .. | .lend .. | .revoke ..
  | .revokeSaveTimeout .. | .mlend .. | .budgetWord .. | .s1inv .. | .s2inv ..
  | .invalidationComplete .. | .vfstate .. | .functionLevelReset .. | .stopRequest .. | .softStop ..
  | .hardStop .. | .stopSave .. | .memberResume .. | .pause .. | .resume ..
  | .go .. | .abort .. | .channelCopyDone .. | .fabricAccess .. | .linkTraining ..
  | .timebaseCorrection .. | .limiterTransferStart .. | .energyPeriodEnd .. | .point .. | .pointChangeComplete ..
  | .voltageLoop .. | .cadenceStep .. | .currentClamp .. | .thermalTrip .. | .thermalTripClear ..
  | .repeatMode .. | .firmwareHeartbeat | .heartbeatTimeout | .coldReset | .hotReset
  | .vfEnableClear .. | .mbctlCopyB .. | .mbctlCopyA .. | .repairTableWrite .. | .reparm ..
  | .repinj .. | .repairTimeout .. | .spdmGetVersion | .spdmGetCapabilities | .spdmNegotiateAlgorithms
  | .spdmGetDigests | .spdmGetCertificate .. | .spdmChallenge .. | .spdmGetMeasurements .. | .spdmKeyExchange ..
  | .spdmFinish .. | .spdmEndSession | .spdmOtherRequest | .kSetGo .. | .pfBar2Access ..
  | .vfBar2Access .. | .msixVectorUnmask .. | .registerWrite .. | .scrubEnd .. | .currentClampEnd ..
  | .powerControllerImageUpdate .. | .fabricPortLoss .. => none

end Sys2Proof
end

