-- ==== Sys2Proof/Machine/Mem.lean ====
section
/-! DEFINITION. Memory as bytes with one seal per aligned 64-bit word (R8, R43, R248, R263, R404). Both are lists of
cells in one canonical form: addresses strictly rising, and no cell equal to what an unlisted address reads as,
which is zero: the byte 0, and the seal of the word 0 (assumption log 1). -/

namespace Sys2Proof.Machine

/-- One step of the CRC-8 of R8: polynomial 0x2F, most significant bit first. -/
def crcStep (c : BitVec 8) (b : Bool) : BitVec 8 :=
  if bit c 7 != b then (c <<< 1) ^^^ 0x2F#8 else c <<< 1

/-- The CRC-8 of the `n` low bits of `w`, from the highest down (R8). -/
def sealFrom (w : Word) : Nat → BitVec 8 → BitVec 8
  | 0, c => c
  | n + 1, c => sealFrom w n (crcStep c (bit w n))

/-- Seal(w): the CRC-8 of a 64-bit word, polynomial 0x2F, initial 0, no final xor, bit 63 first (R8, R404). -/
def sealOf (w : Word) : BitVec 8 := sealFrom w 64 0

/-- CheckSeal(w, s) (R8). -/
def sealOk (w : Word) (s : BitVec 8) : Bool := s == sealOf w

/-- The syndrome of a word and its seal (R404). -/
def syn (w : Word) (s : BitVec 8) : BitVec 8 := s ^^^ sealOf w

/-- The syndrome of a word that is marked poisoned is all ones (R404). -/
def poisoned (w : Word) (s : BitVec 8) : Bool := syn w s == 0xFF#8

/-- The seal that marks a word poisoned (R404). -/
def poisonSeal (w : Word) : BitVec 8 := sealOf w ^^^ 0xFF#8

/-- What a list of cells holds at an address; an unlisted address reads 0. -/
def cellGet : List Host.Cell → Nat → Byte
  | [], _ => 0
  | (j, v) :: r, k => if j = k then v else cellGet r k

/-- The list with `v` at `k`, in the canonical form: a 0 is not listed. -/
def cellPut : List Host.Cell → Nat → Byte → List Host.Cell
  | [], k, v => if v = 0 then [] else [(k, v)]
  | (j, w) :: r, k, v =>
    if k < j then (if v = 0 then (j, w) :: r else (k, v) :: (j, w) :: r)
    else if k = j then (if v = 0 then r else (k, v) :: r)
    else (j, w) :: cellPut r k v

/-- Every address of the list is at least `lo`, they rise strictly, and no byte is 0. -/
def cellsWf : Nat → List Host.Cell → Bool
  | _, [] => true
  | lo, (j, v) :: r => decide (lo ≤ j) && (v != 0) && cellsWf (j + 1) r

/-- A memory: its bytes, and the seal of word n at n. -/
structure Mem where
  bytes : List Host.Cell := []
  seals : List Host.Cell := []
deriving DecidableEq, Repr

/-- The canonical form of both lists. -/
def Mem.wf (m : Mem) : Bool := cellsWf 0 m.bytes && cellsWf 0 m.seals

/-- The byte at an address. -/
def Mem.byte (m : Mem) (a : Nat) : Byte := cellGet m.bytes a

/-- The memory with one byte replaced and its word's seal left as it stands. -/
def Mem.putByte (m : Mem) (a : Nat) (b : Byte) : Mem := { m with bytes := cellPut m.bytes a b }

/-- The seal of the word numbered `n`. -/
def Mem.sealAt (m : Mem) (n : Nat) : BitVec 8 := cellGet m.seals n

/-- The memory with the seal of word `n` replaced. -/
def Mem.putSeal (m : Mem) (n : Nat) (s : BitVec 8) : Mem := { m with seals := cellPut m.seals n s }

/-- The eight bytes of a word, byte 0 lowest (R9). -/
def wordOf (b : Nat → Byte) : Word := b 7 ++ b 6 ++ b 5 ++ b 4 ++ b 3 ++ b 2 ++ b 1 ++ b 0

/-- Byte `k` of a word (R9). -/
def byteOf (w : Word) (k : Nat) : Byte := w.extractLsb' (8 * k) 8

/-- The word numbered `n`. -/
def Mem.word (m : Mem) (n : Nat) : Word := wordOf (fun k => m.byte (8 * n + k))

/-- The bytes of the word numbered `n` replaced. -/
def Mem.putWord (m : Mem) (n : Nat) (w : Word) : Mem :=
  (List.range 8).foldl (fun m k => m.putByte (8 * n + k) (byteOf w k)) m

/-- A whole-word write of a word and its seal (R172). -/
def Mem.write (m : Mem) (n : Nat) (w : Word) (s : BitVec 8) : Mem := (m.putWord n w).putSeal n s

/-- A whole-word write whose producing lane makes a valid seal (R172). -/
def Mem.store (m : Mem) (n : Nat) (w : Word) : Mem := m.write n w (sealOf w)

/-- What `n` addresses from `a` on hold, read in one pass over cells none of which lies below `a`. -/
def cellsRun : Nat → Nat → List Host.Cell → List Byte
  | _, 0, _ => []
  | a, n + 1, [] => 0 :: cellsRun (a + 1) n []
  | a, n + 1, (j, v) :: r => if j = a then v :: cellsRun (a + 1) n r else 0 :: cellsRun (a + 1) n ((j, v) :: r)

/-- Eight bytes at a time as words. -/
def wordsOfRun : Nat → List Byte → List Word
  | 0, _ => []
  | n + 1, l => wordOf (fun k => l.getD k 0) :: wordsOfRun n (l.drop 8)

/-- `n` words from word number `w`, with their seals. -/
def Mem.words (m : Mem) (w n : Nat) : List (Word × BitVec 8) :=
  (wordsOfRun n (cellsRun (8 * w) (8 * n) (m.bytes.dropWhile (fun c => decide (c.1 < 8 * w))))).zip
    (cellsRun w n (m.seals.dropWhile (fun c => decide (c.1 < w))))

/-- `n` words from word number `w` written with zeros and valid seals (R43). Words that lie outside stay. -/
def Mem.scrub (m : Mem) (w n : Nat) : Mem :=
  { bytes := m.bytes.filter (fun c => decide (c.1 < 8 * w) || decide (8 * (w + n) ≤ c.1))
    seals := m.seals.filter (fun c => decide (c.1 < w) || decide (w + n ≤ c.1)) }

/-- The cells with keys from `a` on, `n` of them, moved to start at `b`. -/
def cellsMoved (l : List Host.Cell) (a n b : Nat) : List Host.Cell :=
  (l.filter (fun c => decide (a ≤ c.1) && decide (c.1 < a + n))).map (fun c => (c.1 - a + b, c.2))

/-- `n` words from word number `w` on replaced, with their seals, by those of `src` from word number `v` on. -/
def Mem.blit (m : Mem) (w : Nat) (src : Mem) (v n : Nat) : Mem :=
  let put (l r : List Host.Cell) (lo hi : Nat) : List Host.Cell :=
    l.filter (fun c => decide (c.1 < lo)) ++ r ++ l.filter (fun c => decide (hi ≤ c.1))
  { bytes := put m.bytes (cellsMoved src.bytes (8 * v) (8 * n) (8 * w)) (8 * w) (8 * (w + n))
    seals := put m.seals (cellsMoved src.seals v n w) w (w + n) }

/-- Values at consecutive addresses from `a` on as cells; a 0 is not listed. -/
def cellsFrom : Nat → List Byte → List Host.Cell
  | _, [] => []
  | a, v :: r => if v = 0 then cellsFrom (a + 1) r else (a, v) :: cellsFrom (a + 1) r

/-- A memory that holds words with their seals from word number `w` on, and nothing else. -/
def Mem.ofWords (w : Nat) (l : List (Word × BitVec 8)) : Mem :=
  { bytes := cellsFrom (8 * w) (l.flatMap (fun x => (List.range 8).map (byteOf x.1)))
    seals := cellsFrom w (l.map (·.2)) }

/-- Words with their seals written from word number `w` on. -/
def Mem.writeWords (m : Mem) (w : Nat) (l : List (Word × BitVec 8)) : Mem := m.blit w (.ofWords w l) w l.length

/-- The mask of bytes `M` as bits: byte k all ones when bit k of `m` is set. -/
def byteMask (m : BitVec 8) : Word := wordOf (fun k => if bit m k then 0xFF#8 else 0#8)

end Sys2Proof.Machine
end

