-- ==== Sys2Proof/Machine/Tab.lean ====
section
/-! DEFINITION. Sparse tables keyed by a number: association lists in rising order of the key. A key that is
not listed reads as a default which the reader of the table names. -/

namespace Sys2Proof.Machine

/-- A sparse table. -/
abbrev Tab (α : Type) := List (Nat × α)

/-- What the table holds at `k`; `d` where it lists nothing. -/
def Tab.get {α : Type} (d : α) : Tab α → Nat → α
  | [], _ => d
  | (j, v) :: r, k => if j = k then v else Tab.get d r k

/-- The entry at `k`, when the table lists one. -/
def Tab.find? {α : Type} : Tab α → Nat → Option α
  | [], _ => none
  | (j, v) :: r, k => if j = k then some v else Tab.find? r k

/-- The table with `v` at `k`, in its place by rising key. -/
def Tab.set {α : Type} : Tab α → Nat → α → Tab α
  | [], k, v => [(k, v)]
  | (j, w) :: r, k, v =>
    if k < j then (k, v) :: (j, w) :: r
    else if k = j then (k, v) :: r
    else (j, w) :: Tab.set r k v

/-- The table without an entry at `k`. -/
def Tab.erase {α : Type} : Tab α → Nat → Tab α
  | [], _ => []
  | (j, w) :: r, k => if j = k then r else (j, w) :: Tab.erase r k

/-- The table with the value at `k` replaced by its image under `f`. -/
def Tab.modify {α : Type} (d : α) (t : Tab α) (k : Nat) (f : α → α) : Tab α :=
  Tab.set t k (f (Tab.get d t k))

/-- Every key of the table is below every later one, and the first is above `lo` when `lo` is given. -/
def Tab.sortedFrom {α : Type} : Option Nat → Tab α → Bool
  | _, [] => true
  | none, (j, _) :: r => Tab.sortedFrom (some j) r
  | some lo, (j, _) :: r => decide (lo < j) && Tab.sortedFrom (some j) r

/-- Keys strictly rising. -/
def Tab.sorted {α : Type} (t : Tab α) : Bool := Tab.sortedFrom none t

end Sys2Proof.Machine
end

