-- ==== Sys2Proof/Machine/CoreState.lean ====
section
/-! DEFINITION. What a core holds: registers, slots, queues, planes, stores. Plain data, with the reset values as
the defaults of the fields. -/

namespace Sys2Proof.Machine

/-- A vector register as its list of elements; an element that the list does not reach is 0 (R18, R21). -/
abbrev VVal := List (BitVec 32)

/-- Element `e` of a vector register. -/
def VVal.get (v : VVal) (e : Nat) : Elem := v.getD e 0

/-- The register whose element `e` is `f e`, for the 1,024 elements (R21). -/
def VVal.ofFn (f : Nat → Elem) : VVal := (List.range 1024).map f

/-- The task-visible registers of a core (R18 to R38), all but the queues' and engines' own state. -/
structure Regs where
  /-- s1 to s63; s0 has no storage (R19) -/
  s : Tab Word := []
  /-- the taint bits (R20) -/
  taint : Tab Bool := []
  /-- v0 to v159 -/
  v : Tab VVal := []
  /-- m1 to m15 (R18) -/
  m : Tab (BitVec 1024) := []
  /-- j0 to j31 (R23) -/
  j : BitVec 32 := 0
  /-- VCORE (R27) -/
  vcore : Word := 0
  /-- TVEC (R31) -/
  tvec : Word := 0
  /-- TCAUSE (R32) -/
  tcause : Word := 0
  /-- TVAL (R32) -/
  tval : Word := 0
  /-- XPCA0 to XPCE3, word i of slot k at 4k + i (R25, R34) -/
  xpc : Tab Word := []
  /-- FPCTL (R35) -/
  fpctl : Word := 0
  /-- FPFLAGS (R36) -/
  fpflags : Word := 0
  /-- MCHK: TOLEXP = 10 (R25, R37) -/
  mchk : Word := 10
  /-- CYC (R38) -/
  cyc : Word := 0
  /-- SRSTEP (R60) -/
  srstep : BitVec 32 := 0
deriving DecidableEq, Repr

/-- A task-handled trap that a slot has raised (R32, R117). -/
structure Trap where
  code : BitVec 8
  detail : BitVec 32
  tval : Word
  /-- raised in the ck of an earlier entry and kept until the handler-busy state clears (R119) -/
  kept : Bool := false
deriving DecidableEq, Repr

/-- A circulation table entry as a core holds it (R47, R198). -/
structure ClEntry where
  /-- words 0 to 3: the core mask -/
  cores : BitVec 256 := 0
  valid : Bool := false
  stale : Bool := false
  ver : BitVec 4 := 0
  peer : BitVec 12 := 0
  sys : Bool := false
  home : Bool := false
  ccm : BitVec 32 := 0
deriving DecidableEq, Repr

/-- What the keeper of a release timestamp knows of one release: the virtual core of the party that released, the core mask of its
list at the snapshot, whether the list names the launch's peer group, and the time it carried (R255, R269, R270). -/
structure Release where
  core : Nat
  mask : BitVec 256
  group : Bool
  ts : Nat
deriving DecidableEq, Repr

/-- An error that one more reading of the array gets past (R173, R264): word `n` is served as `was`, and a second reading gives `word`
with seal `sl`. `clean` says that the error stands in the array's copy of a clean line, and the second reading comes from HBM; else it
arose on the way out of the array. -/
structure Again where
  n : Nat
  was : Word × BitVec 8
  word : Word
  sl : BitVec 8
  clean : Bool := false
deriving DecidableEq, Repr

/-- Syndromes of both readings of a word that failed (R406, R414). -/
abbrev Syndromes := BitVec 8 × BitVec 8

/-- What a second reading gives of word `n`, which the array serves as `x` (R173, R264). -/
def secondIn (l : List Again) (n : Nat) (x : Word × BitVec 8) : Word × BitVec 8 :=
  match l.find? (fun a => a.n == n && a.was == x) with
  | some a => (a.word, a.sl)
  | none => x

/-- Why a slot, a queue, a ring or the dispatcher is parked, as its report carries it (R16, R328, R357). -/
structure Park where
  cause : BitVec 8
  addr : Word := 0
  reason : BitVec 8 := 0
  ipa : Nat := 0
  kind : AccessKind := .read
  /-- the access was a read of a stage-1 table (R357) -/
  table : Bool := false
  /-- the list index it waits for, when it is parked on a list (R281) -/
  list : Option Nat := none
  /-- the report handle (R328) -/
  handle : Nat := 0
deriving DecidableEq, Repr

/-- The outcome that a branch gives to ChainStep (R110). -/
structure Branch where
  taken : Bool
  target : Word
  annul : Bool
deriving DecidableEq, Repr

/-- What slot B waits for after its instruction has issued (R127, R191, R195, R201). -/
inductive Await where
  /-- the result of an add to semaphore `sem` of virtual core `target` (R191) -/
  | signal (sem : BitVec 8) (target : Nat) (remote : Bool)
  /-- BARSET of barrier `b` with the expected count (R196) -/
  | barset (b : Nat) (expect : BitVec 16)
  /-- BARARR (R197) -/
  | bararr (b : Nat)
  /-- the arrival of BARARW (R197) -/
  | bararw (b : Nat)
  /-- the dispatcher's answer to a TSPAWN of the descriptor at `va` (R127) -/
  | tspawn (va : Word)
  /-- the completion of the CLSET of `entry` that has the number `num` in its partition (R201) -/
  | clset (entry num : Nat)
deriving DecidableEq, Repr

/-- One slot: its chain (R110), what it has raised, what holds it. -/
structure SlotState where
  c0 : Word := 0x00400040
  c1 : Word := 0x00400060
  c2 : Word := 0x00400080
  ann0 : Bool := false
  ann1 : Bool := false
  /-- HALT has ended the slot (R124) -/
  halted : Bool := false
  /-- returned from the handler (R120) -/
  returned : Bool := false
  /-- the resume-without-wait flag (R117) -/
  rww : Bool := false
  /-- ERET has restored the chain, and the slot has not issued since: the flag above is in force (R120) -/
  resumed : Bool := false
  /-- a trap raised and not yet entered (R118, R119) -/
  pend : Option Trap := none
  /-- the lowest column of the slot's joined group (R11) -/
  group : Nat := 0
  /-- the outcome of a GBR that redirects the slot at the bundle it issues (R114) -/
  redirect : Option Branch := none
  /-- the fault that parks the slot (R16) -/
  park : Option Park := none
  /-- parked during execution: the slot issues its bundle again alone (R16) -/
  solo : Bool := false
  /-- the answer that slot B waits for -/
  await : Option Await := none
  /-- slot B has made the arrival of a BARARW and waits again when it issues (WAITHALF, R364) -/
  waitHalf : Bool := false
  /-- the flag above as it stood at trap entry, beside the saved chain (R118) -/
  halfSaved : Bool := false
  /-- slot B waits for the completion of the CLSET it has issued: its entry and its number (CLWAIT, R364) -/
  clwait : Option (Nat × Nat) := none
  /-- the list snapshot of a synchronising instruction that has issued and is not yet performed: the index, and the entry as it
  stood, with its version (R184) -/
  snap : Option (Nat × ClEntry) := none
  /-- logical time of the party (R252) -/
  pts : Nat := 0
  /-- releases that plain loads have read at holders with one RTS: what a FENCE may acquire (R186, R270) -/
  seen : List Release := []
  /-- the same of LDC: what a dependence-ordered access of slot A acquires (R277) -/
  dep : List Release := []
  /-- the release FENCEs that precede, the latest of each list, whose times a later plain store leaves at a holder with one RTS
  (R186, R270) -/
  fenced : List Release := []
deriving DecidableEq, Repr

/-- An engine record with the blocks that its enqueue copied (R85, R88, R209). -/
structure Rec where
  /-- w0 to w7 -/
  w : List Word
  /-- source geometry block, g0 to g7 -/
  src : List Word := []
  /-- destination geometry block -/
  dst : List Word := []
  /-- the segment table of an MGRP (R221) -/
  segs : List (BitVec 32) := []
  /-- records that mq, cq0 and cq1 had taken when this one was enqueued (R228) -/
  before : List Nat := []
  /-- moves that had issued when this record was enqueued (R41) -/
  moves : Nat := 0
  /-- logical time of the enqueue (R216) -/
  ts : Nat := 0
  /-- the seals of the copied words, by their position in the record and its blocks; none when every seal is sound (R377) -/
  seals : List (BitVec 8) := []
deriving DecidableEq, Repr

/-- The copied words of a record and its blocks, with their seals (R377). -/
def Rec.sealed (r : Rec) (l : List Word) : List (Word × BitVec 8) :=
  l.zipIdx.map (fun x => (x.1, r.seals.getD x.2 (sealOf x.1)))

/-- The syndrome of the first copied word that its seal does not fit (R406). -/
def Rec.broken (r : Rec) : Option (BitVec 8) :=
  ((r.sealed (r.w ++ r.src ++ r.dst)).find? (fun x => !sealOk x.1 x.2)).map (fun x => syn x.1 x.2)

/-- How far the head of a queue has come (R212). -/
inductive Phase where
  /-- not started -/
  | idle
  /-- started, its semaphores not yet found satisfied -/
  | waiting
  /-- waits for leave -/
  | leave
  /-- issuing -/
  | run
  /-- performed, its completion signal not yet sent -/
  | signal
deriving DecidableEq, Repr

/-- One engine queue (R44, R211, R212). -/
structure QState where
  recs : List Rec := []
  /-- records ever enqueued, and ever performed, since dispatch (DONE is the second modulo 2^16) -/
  enq : Nat := 0
  done : Nat := 0
  phase : Phase := .idle
  /-- the list snapshot of the head: the index, and the entry with its version (R184, R212) -/
  snap : Option (Nat × ClEntry) := none
  /-- the wait of the head was satisfied before a park (R217) -/
  waitMet : Bool := false
  /-- the head has started once: its MCHK is captured (R37) -/
  started : Bool := false
  /-- position of the head: element rank, or K-step -/
  pos : Nat := 0
  /-- the current that the head has leave for, in units of 0.5 A (R425) -/
  leave : Nat := 0
  /-- the head is to stop at its next issue boundary: 0x40 (R217), or the cut of a stop as 0 (R247) -/
  cut : Option (BitVec 8) := none
  /-- MCHK of the head, captured at its start (R37) -/
  mchk : Word := 10
  park : Option Park := none
  pts : Nat := 0
deriving DecidableEq, Repr

/-- A plane of the matrix array: its mode in the encoding of BT, the words of its processing elements by array row in the
layout of R374, and the checksum weights by array row, W_k above w_k (R220, R243). -/
structure Plane where
  mode : Nat := 0
  pes : List (List (BitVec 32)) := []
  sums : List Word := []
deriving DecidableEq, Repr

/-- An entry of the scale FIFO (R220). -/
inductive FifoEntry where
  | scale (w : Word) (sl : BitVec 8) (ftag : BitVec 16)
  | mark (ftag : BitVec 16)
deriving DecidableEq, Repr

/-- One A row: its tile row, its bytes as words, and the four scales it carries (R220, R241). -/
structure ARow where
  row : Nat
  words : List Word
  scales : BitVec 32
deriving DecidableEq, Repr

/-- What reaches a chain member from the west (R224). -/
inductive West where
  | row (r : ARow)
  | mark
deriving DecidableEq, Repr

/-- What a row's column sums and its checksum column have come to `d` ck after its entry (R232, R367). -/
structure RowFrame where
  d : Nat
  sums : List Elem
  x : Elem
  r : Elem
deriving DecidableEq, Repr

/-- A row that has entered the array: with the weights that it meets, and from where its sums go on. -/
structure InRow where
  a : ARow
  plane : Plane
  frame : Option RowFrame := none
  /-- the plane that its token took out of the active one (R236) -/
  swapped : Option Plane := none
  /-- ck that lie at least between the entry of the row before it and its own (R223, R237, R238) -/
  gap : Nat := 0
  /-- its age at the frame ck, once the array is frozen (R367, R369) -/
  age : Option Nat := none
deriving DecidableEq, Repr

/-- A K-step that is entering the array, or stands in a staging buffer: its rows in the order of their entry, the scales it has
popped before a replay or a park, and whether this is its replay (R233, R240, R245). -/
structure Staged where
  k : Nat
  rows : List InRow := []
  kept : List (BitVec 32) := []
  replay : Bool := false
deriving DecidableEq, Repr

/-- The form of an accumulator move (R204). -/
inductive MoveKind where
  | ld (cv : Bool) (vd : VReg)
  | st (vd : VReg) (data : VVal)
  | zero
deriving DecidableEq, Repr

/-- An outstanding accumulator move (R205). -/
structure Move where
  seq : Nat
  kind : MoveKind
  tile : Nat
  slice : Nat
  /-- FPCTL at issue (R204) -/
  fpctl : Word
  /-- records that mq had taken when the move issued (R41) -/
  mqBefore : Nat
  /-- the slots whose next instruction is ordered after its issue, by column: those of the joined group that issued it, and those that
  have met one of them at a rendezvous since (R63) -/
  knows : BitVec 4 := 0
  /-- slot V stands in the joined group of the slot that issued it (R14, R15) -/
  joinedV : Bool := false
deriving DecidableEq, Repr

/-- The conditions of a performed converted move that no ACCWAIT has reported (R206). -/
structure MoveCond where
  seq : Nat
  raised : BitVec 5
  enabled : BitVec 5
  elem : Nat
deriving DecidableEq, Repr

/-- A line kept by a lease cache or an L2 slice: 16 words with seals, timestamps, partition (R251, R253). -/
structure CacheLine where
  words : List (Word × BitVec 8)
  wts : Nat
  rts : Nat
  part : Nat
deriving DecidableEq, Repr

/-- Where a word stands (R170): its home attribute, the physical core or cluster that the attribute names, its physical
address, and the core-store offset when a core store holds it. `far` is the partition in whose logical time a word outside its own
memory is reached, in host space or through a fabric window (R252); `win` the device and the partition at the far end of a window
(R384). -/
structure Place where
  home : BitVec 2
  phys : Nat
  pa : Nat
  off : Nat
  far : Option Nat := none
  win : Option (Nat × Nat) := none
deriving DecidableEq, Repr

/-- A scalar value on its way back to slot A: from a load, or the old value of an atomic (R178, R189). -/
structure PendLoad where
  slot : Slot
  sd : SReg
  va : Word
  place : Place
  bytes : Nat
  un : Bool
  taint : Bool
  word : Word
  sl : BitVec 8
  /-- the second copy has been fetched; the syndrome of the first (R175, R406) -/
  again : Bool
  y1 : BitVec 8 := 0
deriving DecidableEq, Repr

/-- A word that a vector load has fetched: its number among virtual words, its place, its value and seal. -/
structure VWord where
  n : Nat
  place : Place
  word : Word
  sl : BitVec 8
  y1 : BitVec 8 := 0
deriving DecidableEq, Repr

/-- Vector data on its way back to slot E: the active elements with their addresses, and the words fetched (R183). -/
structure PendVec where
  vd : VReg
  elems : List (Nat × Word)
  words : List VWord
  again : Bool
deriving DecidableEq, Repr

/-- The node that a core runs (R292): partition, node index, position and size of the gang, virtual core, save slot,
the reel's address. -/
structure Bind where
  part : Nat
  node : Nat
  gpos : Nat
  glast : Nat
  vcore : Nat
deriving DecidableEq, Repr

/-- What a pending stop has reached (R363). -/
inductive StopState where
  | none
  /-- requested: the slots run on to a safe point; the TIMEBASE at which the stop turns hard -/
  | soft (deadline : Nat)
  /-- the slots are at rest, at a safe point whose entry names the live mask `live`, or hard; the queues come to rest -/
  | slots (hard : Bool) (live : Option Nat) (deadline : Nat)
deriving DecidableEq, Repr

/-- One entry of the shot list with its checked group (R229). -/
structure Shot where
  stage : Nat
  q : Queue
  rcd : Rec
deriving DecidableEq, Repr

/-- Repair mode (R442 to R450). -/
structure Repair where
  /-- the core is in repair mode -/
  active : Bool := true
  /-- the 16 entries of the repair table (R445) -/
  table : Tab Word := []
  /-- spares given out, by 32 × ARR + BANK (R446) -/
  spares : Tab Nat := []
  /-- entries in force: (ARR, BANK, ROW) and the spare, highest entry first (R447) -/
  force : List (Nat × Nat × Nat × Nat) := []
  /-- contents of spare rows by (64 × ARR-and-bank + 4 …) word: key 2^20 + word number within the spares -/
  spareCs : Mem := {}
  spareV : Tab Elem := []
  repstat : Word := 0
  repinj : Word := 0
deriving DecidableEq, Repr

/-- Everything one core holds. The defaults are those of a core at the start of step 6 of boot: in repair mode, with
every chain at bundle 0 of the march reel (R442). -/
structure Core where
  regs : Regs := {}
  /-- the registers as they stood when the bundle being issued opened (R14) -/
  src : Regs := {}
  slots : Tab SlotState := []
  /-- the handler-busy state (R118) -/
  busy : Bool := false
  /-- the entry was the pre-emption notice, with TCAUSE and TVAL before it (R120) -/
  entry70 : Option (Word × Word) := none
  /-- a pre-emption notice that waits (R122) -/
  notice : Bool := false
  /-- the task is parked by a trap that nothing handles: no slot issues (R31, R119) -/
  frozen : Bool := false
  bind : Option Bind := none
  /-- the bytes of memory as they stood at dispatch, for instruction fetch, and the number of the free values that words of other
  devices were then (R46, R384) -/
  code : Mem := {}
  codeAt : Nat := 0
  /-- core store (R43), and the launch the core last served -/
  store : Mem := {}
  served : Option Nat := none
  /-- errors of the core store that a second reading gets past (R173) -/
  again : List Again := []
  /-- core-store pin budget in force, in units of 64 KiB (R260) -/
  csPin : Nat := 0
  /-- sem0 to sem255 (R45) -/
  sems : Tab (BitVec 32) := []
  /-- RTS of the semaphores and of the join bits (R252, R255), and the releases that the semaphores have taken (R270) -/
  semRts : Tab Nat := []
  semRels : Tab (List Release) := []
  joinTs : Tab Nat := []
  /-- arrival tokens; a barrier without an entry has an invalid token (R195) -/
  tokens : Tab (BitVec 32) := []
  /-- the core's copy of the circulation table, cl4 to cl31 (R47) -/
  cl : Tab ClEntry := []
  /-- entries that are updating on this core (R201) -/
  updating : BitVec 32 := 0
  /-- list time of cl0 (R274) -/
  cl0Time : Nat := 0
  lease : Tab CacheLine := []
  loads : List PendLoad := []
  vloads : List PendVec := []
  -- engines
  mq : QState := {}
  cq0 : QState := {}
  cq1 : QState := {}
  /-- accumulator slices by 16 × tile + slice (R41, R203) -/
  acc : Tab VVal := []
  accZero : BitVec 16 := 0xFFFF#16
  moves : List Move := []
  moveSeq : Nat := 0
  conds : List MoveCond := []
  /-- weight-buffer granules that are filled, with their seals (R42) -/
  wbuf : Tab (List (Word × BitVec 8)) := []
  active : Plane := {}
  shadow : Plane := {}
  /-- the sets that the planes hold for the head record: K-step and segment (R236) -/
  activeFor : Option (Nat × Nat) := none
  shadowFor : Option (Nat × Nat) := none
  /-- the head record has met its end mark (R220, R224) -/
  markDone : Bool := false
  fifo : List FifoEntry := []
  chainLen : Nat := 1
  chainPos : Nat := 0
  west : List West := []
  /-- every partner of the MCHAIN at the head of mq has started (R224) -/
  chainMet : Bool := false
  /-- the oldest K-step that has not committed, and the one that is entering behind it: K-step k stands in staging buffer k mod 2
  (R233) -/
  staged : Option Staged := none
  ahead : Option Staged := none
  /-- ck that have passed at least since the youngest row in flight entered (R223, R233, R241) -/
  late : Nat := 0
  /-- stage counter and shot list (R210, R229) -/
  stage : BitVec 32 := 0
  shots : List Shot := []
  shotsDone : Nat := 0
  -- the dispatcher's and the leaf's view of the core
  stop : StopState := .none
  /-- placed for a node, its saved state not yet in place: no slot issues and no queue runs (R292, R379) -/
  loading : Bool := false
  /-- its saved state is in place, and it waits for the other members (R379) -/
  restored : Bool := false
  /-- the member is past its resident limit: the handle of its report (R299) -/
  overrun : Option Nat := none
  /-- the stages in which a detection has replayed a ck, each with whether a logical ck has begun since (R410) -/
  detected : List (Nat × Bool) := []
  repair : Repair := {}
deriving DecidableEq, Repr

end Sys2Proof.Machine
end

