-- ==== Sys2Proof/Machine/PartState.lean ====
section
/-! DEFINITION. What a partition and a cluster hold. -/

namespace Sys2Proof.Machine

/-- A cached translation of one party (R354). -/
structure Cached where
  party : Party
  /-- virtual page base and size in bytes -/
  va : Nat
  size : Nat
  ipa : Nat
  pa : Nat
  r : Bool
  w : Bool
  x : Bool
  home : BitVec 2
  tgt : BitVec 8
  keep : Bool
  /-- rights, D and address of the stage-2 leaf as the walk saw them -/
  dirty : Bool
  leaf : Nat
deriving DecidableEq, Repr

/-- A pinned page (R261, R262): its stage-1 page, its HBM backing, and the place that holds it. -/
structure Pin where
  va : Nat
  size : Nat
  pa : Nat
  home : BitVec 2
  /-- virtual core or cluster that the entry names, and the physical one that holds the page -/
  tgt : Nat
  phys : Nat
  /-- core-store offset of the frame (home 01) -/
  frame : Nat
  /-- address of the stage-2 leaf that maps the page (R394) -/
  leaf : Nat
deriving DecidableEq, Repr

/-- Where a CLSET or CLUPDATE came from (R201, R323). -/
inductive ClFrom where
  | slotB (core : Nat)
  | ring (r : Nat)
deriving DecidableEq, Repr

/-- A CLSET that waits or that has been accepted (R201). -/
structure ClSet where
  entry : Nat
  image : ClEntry
  origin : ClFrom
  accepted : Bool
  /-- every core holds the new version -/
  replaced : Bool := false
  /-- its number among the partition's CLSETs -/
  num : Nat := 0
deriving DecidableEq, Repr

/-- The CLSET of a CLUPDATE (R323). -/
def ClSet.ofRing (x : ClSet) : Bool := match x.origin with | .ring _ => true | .slotB _ => false

/-- A party that can park, as a report names it (R328). -/
inductive Parked where
  | slot (core : Nat) (k : Slot)
  | queue (core : Nat) (q : Queue)
  /-- the member on the core, past its resident limit (R299) -/
  | limit (core : Nat)
  | ring (r : Nat)
  /-- the dispatcher, on the shot-list read of a node (R292) -/
  | dispatcher (node : Nat)
  | completion
deriving DecidableEq, Repr

/-- A record on its way to the completion ring or the fault ring (R327, R328, R357), made when its event came about. -/
structure Due where
  words : List Word
  /-- bit of PEND that the record announces (R358) -/
  pend : Option Nat
  /-- reset generation that was current when the work was accepted (R360) -/
  gen : BitVec 16
  /-- the ring whose packet completes with the record (R324) -/
  ring : Option Nat := none
deriving DecidableEq, Repr

/-- A packet that its ring has fetched (R320, R322). -/
structure Packet where
  words : List Word
  /-- ring position of its first slot -/
  pos : Nat
  gen : BitVec 16
  /-- its start has acquired on ACQ (R324) -/
  started : Bool := false
  /-- bytes moved by a COPY; rings' read indices seen by a BARRIER -/
  moved : Nat := 0
  marks : List Nat := []
  /-- its completion record waits for room in the completion ring (R327) -/
  done : Bool := false
  /-- it is a replica: the device that sent it, and the number of its ring there (R301) -/
  origin : Option (Nat × Nat) := none
deriving DecidableEq, Repr

/-- One submission ring (R318 to R321). -/
structure Ring where
  rbase : Word := 0
  enable : Bool := false
  loc : Bool := false
  log2sz : BitVec 5 := 0
  wi : Nat := 0
  rd : Nat := 0
  back : Bool := false
  overrun : Bool := false
  /-- WI at the overrun, until its record has been made (R320) -/
  overrunDue : Option Nat := none
  /-- a context loss has stopped the ring: RUN reads 1 until the function-level reset (R413) -/
  stuck : Bool := false
  /-- RESET was written while a packet runs (R319) -/
  resetDue : Bool := false
  park : Option Park := none
  run : Option Packet := none
  /-- words of the packet whose fetch has parked, as far as it has been read (R328) -/
  head : List Word := []
  pts : Nat := 0
deriving DecidableEq, Repr

/-- The five states of a node (R286). -/
inductive NodeSt where
  | waiting
  | ready
  | dispatched
  | complete
  | refused
deriving DecidableEq, Repr

/-- What the save slot has no place for, and the resume needs: of a queue, the records ever enqueued and performed, its time,
and for each record what it is ordered after and its segment table. -/
structure KeptQueue where
  enq : Nat := 0
  done : Nat := 0
  pts : Nat := 0
  recs : List (List Nat × Nat × Nat × List (BitVec 32)) := []
deriving DecidableEq, Repr

/-- The same of a slot: its time, whether it issues alone, the number of the CLSET it waits for, and the releases that a FENCE or a
dependence may pass on. -/
structure KeptSlot where
  pts : Nat := 0
  solo : Bool := false
  clset : Nat := 0
  seen : List Release := []
  dep : List Release := []
  fenced : List Release := []
deriving DecidableEq, Repr

/-- The same of a member: its slots, its queues, its moves (number, FPCTL, records of mq before, slots ordered after, joined with slot V), unreported
conditions, stages of the shot list, times of the join bits, the scales of the K-steps that have begun to enter, of the oldest and
of the one behind it, the planes that the rows in flight have met, the youngest first, and whether its MCHAIN has met its partners. -/
structure Kept where
  slots : List KeptSlot
  queues : List KeptQueue
  moveSeq : Nat
  moves : List (Nat × Word × Nat × BitVec 4 × Bool)
  conds : List MoveCond
  stages : List Nat
  joinTs : Tab Nat
  scales : List (BitVec 32)
  scalesAhead : List (BitVec 32) := []
  planes : List Plane := []
  chainMet : Bool := false
deriving DecidableEq, Repr

/-- A member of a node, by its position in the gang (R292, R297, R371). -/
structure Seat where
  vcore : Nat
  /-- physical address of the save slot that it has bound -/
  save : Option Nat := none
  /-- its state stands in its save slot: it is on no core -/
  away : Bool := false
  /-- it had met R13 when the node was cut, and the latest time of its parties then (R252) -/
  done : Bool := false
  pts : Nat := 0
  /-- bytes of its task array at the stop (CSSIZE of R373) -/
  csSize : Nat := 0
  kept : Option Kept := none
deriving DecidableEq, Repr

/-- A node of a launch (R284 to R286). -/
structure Node where
  /-- d0 to d7 -/
  desc : List Word
  succ : List Nat := []
  /-- operand ranges: base as a signed number, length, WR -/
  ops : List (Int × Nat × Bool) := []
  /-- the remaining count -/
  left : Nat := 0
  st : NodeSt := .waiting
  /-- SEQ, WAITED, and CLASS as ageing has left it (R286, R291) -/
  seq : BitVec 32 := 0
  waited : Nat := 0
  cls : Nat := 0
  spawner : Option Nat := none
  /-- returned to the ready pool by a cut (R297) -/
  requeued : Bool := false
  seats : List Seat := []
  /-- held: the read of its shot list has faulted (R292) -/
  park : Option Park := none
  /-- the largest timestamp among acceptance, the spawning, and the completions of its predecessors (R252) -/
  ts : Nat := 0
deriving DecidableEq, Repr

/-- A checked launch record: its node table and NSPAWN (R282, R283). -/
structure Graph where
  nodes : List Node
  nspawn : Nat
deriving DecidableEq, Repr

/-- A launch that waits for its peers (R301). -/
structure Clapper where
  /-- members of the group, other than this device, that have not reported -/
  missing : List Nat
  /-- TIMEBASE at which a missing report aborts the launch -/
  limit : Word
  /-- Ts, once every member has reported -/
  start : Option Word := none
  /-- the originator, at another member -/
  origin : Option Nat := none
deriving DecidableEq, Repr

/-- The launch that holds the launch slot (R325). -/
structure Launch where
  ring : Nat
  words : List Word
  pos : Nat
  gen : BitVec 16
  /-- which launch it is, among all that the device has accepted (R43) -/
  id : Nat := 0
  /-- the hole whose copy it runs (R333) -/
  hole : Option Nat := none
  nodes : Tab Node := []
  /-- NNODE and NSPAWN -/
  nnode : Nat := 0
  nspawn : Nat := 0
  /-- it has not started: it waits for its peers (R301) -/
  clapper : Option Clapper := none
  /-- how the launch is to end, when something has ended it: STATUS and DETAIL (R287, R329) -/
  ending : Option (BitVec 8 × Word) := none
  /-- its completion record has been made and waits to be written -/
  closed : Bool := false
deriving DecidableEq, Repr

/-- A pigeonhole (R331): 0 free, 1 claimed, 2 resident. -/
structure Hole where
  state : Nat := 0
  owner : Nat := 0
  kind : BitVec 2 := 0
  /-- never 0; it starts at 1 (log 3) -/
  gen : BitVec 32 := 1
  base : Nat := 0
  bgen : BitVec 32 := 0
  copy : Option Graph := none
deriving DecidableEq, Repr

/-- A ring of records that the device writes: the completion ring of a function, and the fault ring (R327, R357). -/
structure RecordRing where
  base : Word := 0
  enable : Bool := false
  loc : Bool := false
  log2sz : BitVec 5 := 0
  /-- CWI and CRI -/
  wi : Nat := 0
  ri : Nat := 0
deriving DecidableEq, Repr

/-- One cluster. -/
structure Cluster where
  /-- L2 copies by line number, and the words of pages whose home is this L2 by physical word number (R250, R251) -/
  l2 : Tab CacheLine := []
  l2Home : Mem := {}
  l2HomeTs : Tab (Nat × Nat) := []
  /-- errors of the words homed here that a second reading gets past (R173, R264) -/
  again : List Again := []
  /-- MEMTS of each of the 48 L2 slices (R256) -/
  memts : Tab Nat := []
  /-- list time of cl1 (R274) -/
  cl1Time : Nat := 0
  /-- CADENCE (R40) -/
  cadence : BitVec 5 := 4
  /-- the governor: its line, GRANTED and ALLOT in units of 0.5 A (R423, R425) -/
  line : List (Nat × Queue) := []
  granted : Nat := 0
  allot : Nat := 225
  /-- the partition that owns the cluster, and the one that uses it; scrubbing, and out of service (R344, R450) -/
  owner : Option Nat := none
  holder : Option Nat := none
  scrubbing : Bool := false
  /-- the owner wants its lent cluster back (R343) -/
  recalled : Bool := false
  /-- reset generations, when it was asked for, of the partition that holds the cluster and of its owner (R360) -/
  recallGen : BitVec 16 := 0
  recallGain : BitVec 16 := 0
  out : Bool := false
  /-- POINT as written and in force, VOLT in units of 0.125 mV (R422, R423) -/
  point : BitVec 5 := 16
  pointNow : BitVec 5 := 16
  /-- the point that the change under way leads to (R422) -/
  changing : Option (BitVec 5) := none
  volt : Nat := 4400
  /-- ECREPL when the voltage loop last read it (R421) -/
  replSeen : Word := 0
  /-- TMAX, TRIP (R429), and the stretch of the clamp (R428) -/
  tmax : BitVec 8 := 0
  trip : Bool := false
  clamped : Bool := false
deriving DecidableEq, Repr

/-- A token bucket: its register, what it holds in units of 1/1000 byte, and TIMEBASE when that was last counted (R347,
R348). -/
structure Bucket where
  reg : Word := 0
  bytes : Int := 0
  at_ : Word := 0
deriving DecidableEq, Repr

/-- The invalidations of one stage (R355). -/
structure Inval where
  req : Nat := 0
  done : Nat := 0
  ovf : Bool := false
  /-- base, size, and the reset generation at the acceptance (R360) -/
  waiting : List (Nat × Nat × BitVec 16) := []
deriving DecidableEq, Repr

/-- Where a command of PCTL stands (R335 to R343, R387 to R390). -/
inductive Job where
  /-- removal of the physical clusters `left`, in that order; `waits` for the launch slot; `give` is the partition that the
  cluster goes to, a borrower or its owner (R339, R342, R343) -/
  | remove (left : List Nat) (waits : Bool) (give : Option Nat)
  /-- REVOKE: a lent cluster is on its way back (R343) -/
  | await (cluster : Nat)
  /-- a pause at step `step`; VFSTATE before it (R388, R389) -/
  | pause (step : Nat) (vfBefore : Nat)
deriving DecidableEq, Repr

/-- One partition with its virtual function. -/
structure Partition where
  /-- STATE of PCTL: 0 absent, 1 live, 2 resizing, 3 destroying, 4 paused (R335) -/
  state : Nat := 0
  /-- physical clusters, by virtual number (R4) -/
  clusters : List Nat := []
  /-- reset generation of the virtual function (R28, R360) -/
  rgen : BitVec 16 := 0
  s1root : Word := 0
  s2root : Word := 0
  pincap : Word := 0
  /-- budget words by virtual cluster (R259) -/
  budget : Tab Word := []
  /-- cl4 to cl31 (R198), and the CLSETs that have not completed -/
  cl : Tab ClEntry := []
  clsets : List ClSet := []
  clsetNum : Nat := 0
  /-- bn0 to bn63 (R24), the timestamp of the last completed phase and of the arrivals of the current one (R255), and the releases
  of their arrivals (R270) -/
  bn : Tab Word := []
  bnTs : Tab Nat := []
  bnNow : Tab Nat := []
  bnRels : Tab (List Release) := []
  /-- the same of every completed phase, by barrier: the phase, its timestamp, and the releases of its arrivals (R197) -/
  bnPast : Tab (List (BitVec 32 × Nat × List Release)) := []
  bnNowRels : Tab (List Release) := []
  ba : Tab Word := []
  clapper : Word := 0
  phole : Word := 0
  /-- list times of cl2 to cl31 (R274) -/
  listTime : Tab Nat := []
  /-- the dispatcher's pts (R252) -/
  dispPts : Nat := 0
  /-- a time past every lease that the home of a word had granted before the host wrote it (R253, R324) -/
  hostTime : Nat := 0
  pins : List Pin := []
  tlb : List Cached := []
  rings : Tab Ring := []
  /-- the launch that holds the launch slot (R325) -/
  launch : Option Launch := none
  /-- report handles that are outstanding (R328), and the records that wait for room in the completion ring -/
  handles : List (Nat × Parked) := []
  due : List Due := []
  /-- the completion ring, and its hold on a fault of a record's write (R327) -/
  compl : RecordRing := {}
  complPark : Option Park := none
  /-- rings whose packet waits for the launch slot, in the order of their starts (R325) -/
  wants : List Nat := []
  /-- replicas that wait for the one before them (R301) -/
  replicas : List Packet := []
  /-- the next SEQ (R286) -/
  seqNext : BitVec 32 := 0
  /-- the node that reserves, and the virtual cores that it has reserved (R293) -/
  reserve : Option (Nat × List Nat) := none
  /-- virtual clusters that are departing under a resize (R339) -/
  departing : List Nat := []
  /-- SVROOT (R370) and SPDL (R362) -/
  svroot : Word := 0
  spdl : Word := 50
  /-- PEND and PMASK (R358), the MSI-X table by doubleword (R462), VFSTATE (R359) -/
  pend : Word := 0
  pmask : Word := BitVec.allOnes 64
  msix : Tab Word := []
  vfstate : Nat := 0
  /-- a context loss holds the partition until its function-level reset (R413); DL0 to DL7 (R414) -/
  lost : Bool := false
  dl : List Word := []
  /-- PGUAR, PMARGIN, PLEND, ERR of PCTL (R335), MLEND (R341), and the command in progress -/
  pguar : BitVec 32 := 0
  pmargin : BitVec 32 := 0
  plend : Word := 0
  /-- the margin clusters in force (R335, R341) -/
  margin : BitVec 32 := 0
  err : BitVec 8 := 0
  mlend : BitVec 32 := 0
  job : Option Job := none
  /-- reset generations at the acceptance of the command in progress: its own, and that of the partition that gains a cluster (R360) -/
  jobGen : BitVec 16 := 0
  gainGen : BitVec 16 := 0
  /-- the command that rests, with its generations, while a recalled cluster goes back (R343) -/
  resting : Option (Job × BitVec 16 × BitVec 16) := none
  /-- the limiters by the order of their registers (R347) -/
  lims : Tab Bucket := []
  /-- bytes that LIMFAB and LIMHOST have counted in this energy period (R347, R402) -/
  fabBytes : Nat := 0
  hostBytes : Nat := 0
  /-- FWIN by word and FACC (R383, R385) -/
  fwin : Tab Word := []
  facc : Tab Word := []
  /-- TPAUSE of the image that the pause has written; what the image has no place for stays in the partition (R395) -/
  paused : Option Word := none
  /-- MIGIMG and MIMPORT (R391) -/
  migimg : Word := 0
  mimport : Word := 0
  /-- EPERIOD as written and as in force, ECOUNT and F (R401, R403); F in units of 2^-64 -/
  eperiod : Word := 1000
  eperiodNow : Word := 1000
  ecount : Word := 0
  efrac : Word := 0
  /-- INVREQ, INVDONE and INVOVF of each stage, and the ranges that wait: base and size (R355) -/
  inv1 : Inval := {}
  inv2 : Inval := {}
  /-- WINBASE and WINERR (R457) -/
  winbase : Word := 0
  winerr : Word := 0
deriving DecidableEq, Repr

end Sys2Proof.Machine
end

