-- ==== Sys2Proof/Machine/State.lean ====
section
/-! DEFINITION. The state of the device. -/

namespace Sys2Proof.Machine

/-- No step of the model stops with a fault: every fault the spec describes is a trap, a park, a lost context, a
status or an error code, and each of them is a next state. Nothing raises one. -/
inductive Fault where
deriving DecidableEq, Repr

/-- Why a step has no meaning. -/
inductive Refusal where
  /-- the instruction has no meaning in the model yet: raised by an arm of `exec`; safe, since the machine stops -/
  | notModelled (mnemonic : String)
deriving DecidableEq, Repr

/-- A member of the bundle being issued: its slot, its word, and whether it is annulled (R83). -/
structure Member where
  slot : Slot
  word : Word
  annulled : Bool
deriving DecidableEq, Repr

/-- The bundle being issued: the core, its members, and those that have not acted yet, in column order (R14). -/
structure Opened where
  core : Nat
  members : List Slot
  todo : List Member
deriving DecidableEq, Repr

/-- The slot whose instruction acts: what R32 saves of it is its word. -/
structure Cur where
  core : Nat
  slot : Slot
  word : Word
deriving DecidableEq, Repr

/-- A home line's timestamps (R252). -/
structure HomeLine where
  wts : Nat
  rts : Nat
deriving DecidableEq, Repr

/-- A migration channel (R392). -/
structure Channel where
  src : Word := 0
  dst : Word := 0
  len : Word := 0
  rate : BitVec 32 := 0
  /-- bytes performed at the destination, and bytes passed, those of retired frames among them (R393, R416) -/
  moved : Nat := 0
  pos : Nat := 0
  err : BitVec 4 := 0
  busy : Bool := false
  done : Bool := false
  /-- ABORT was written: it stops after the word in progress -/
  aborting : Bool := false
deriving DecidableEq, Repr

/-- What an SPDM response carries (R440, R441). Bytes of a signature or a digest are those that the functions of Config
give. -/
inductive SpdmAnswer where
  | error (code : BitVec 8)
  | version (major minor : Nat)
  | capabilities
  /-- the algorithms chosen: ECDSA P-521 and SHA-512 -/
  | algorithms
  | digests (slot0 : BitVec 512)
  /-- the bytes of the chain of slot 0 that were asked for, and how many come after them -/
  | certificate (part : List Byte) (rest : Nat)
  | challenge (signature : List Byte)
  /-- how many blocks there are -/
  | measurementCount (n : Nat)
  /-- index, version and digest of blocks, and the signature of the answer -/
  | measurements (blocks : List (Nat × BitVec 16 × BitVec 512)) (signature : List Byte)
  | keyExchange (session : Nat) (signature : List Byte)
  | finish (session : Nat)
  | endSession (session : Nat)
deriving DecidableEq, Repr

/-- The SPDM responder (R440): how far the connection has come, and the session. -/
structure Spdm where
  /-- GET_VERSION, GET_CAPABILITIES and NEGOTIATE_ALGORITHMS answered: 0 to 3 -/
  stage : Nat := 0
  /-- a KEY_EXCHANGE waits for its FINISH -/
  handshake : Option Nat := none
  session : Option Nat := none
  sessions : Nat := 0
  /-- IDE streams with the key set that is in effect (R465) -/
  streams : List IdeStream := []
deriving DecidableEq, Repr

/-- What the devices of a peer group say to one another about a launch (R301). -/
inductive ClapperSays where
  /-- the packet, with its ring and position -/
  | replica (words : List Word) (ring pos : Nat)
  | report (ready : Bool)
  | start (key : BitVec 32) (ts : Word)
  | abort (device : Nat)
deriving DecidableEq, Repr

/-- What leaves the device for the host or for other devices, oldest first. -/
inductive Sent where
  /-- an MSI-X message of the physical function, or of a virtual one -/
  | msi (vf : Option Nat) (entry : Nat)
  /-- the completion of a BAR2 read; `poisoned` as in R265 -/
  | bar2 (w : Word) (poisoned : Bool)
  /-- a BAR2 read completes with Completer Abort, or with Unsupported Request (R457) -/
  | bar2Abort
  | bar2Unsupported
  | spdm (a : SpdmAnswer)
  /-- the answer to a fabric request: refused with reason and cause, or performed with the old word and its seal -/
  | fabric (srcDev srcPart : Nat) (refused : Option (Nat × BitVec 8)) (w : Word) (sl : BitVec 8)
  /-- the access has found a damaged word at its holder, of syndrome `y`: the requester's context is lost (R173, R412) -/
  | fabricLost (srcDev srcPart : Nat) (y : BitVec 8)
  /-- a word that a migration channel sends to another device -/
  | channel (dev : Nat) (pa : Nat) (w : Word) (sl : BitVec 8)
  /-- a word to a device of a peer group, about a launch of a partition -/
  | clapper (dev part : Nat) (x : ClapperSays)
deriving DecidableEq, Repr

/-- The state of the machine. -/
structure State where
  /-- steps of the device's agents and of its surroundings that are due, oldest first -/
  agenda : List Instr := []
  opened : Option Opened := none
  cur : Cur := { core := 0, slot := .A, word := 0 }
  /-- where the scheduler looks next -/
  turn : Nat := 0
  /-- how many free values have been read (log 4) -/
  fresh : Nat := 0
  /-- HBM and host space by physical address (R248) -/
  mem : Mem := {}
  /-- errors of LLC slices and HBM that a second reading gets past (R173, R264) -/
  again : List Again := []
  /-- LLC home lines by line number, MEMTS of each LLC slice, RTS of each bypass slice and core-store bank -/
  homes : Tab HomeLine := []
  /-- lines written in an LLC slice and not yet written back (R256) -/
  homeDirty : List Nat := []
  memts : Tab Nat := []
  bypassRts : Tab Nat := []
  bankRts : Tab Nat := []
  /-- the releases that bypass slices and core-store banks have taken (R270) -/
  bypassRels : Tab (List Release) := []
  bankRels : Tab (List Release) := []
  cores : Tab Core := []
  clusters : Tab Cluster := []
  parts : Tab Partition := []
  /-- repeatable mode (R430), TIMEBASE (R464) and the device number (R382) -/
  repeatable : Bool := false
  timebase : Word := 0
  device : Nat := 0
  /-- ECSEAL, ECMREP, and ECREPL by cluster (R418) -/
  ecseal : Word := 0
  ecmrep : Word := 0
  ecrepl : Tab Word := []
  /-- launches accepted so far, and the 256 pigeonholes (R331) -/
  launches : Nat := 0
  holes : Tab Hole := []
  /-- members of a peer group, by its number (R301, R399) -/
  peers : Tab (List Nat) := []
  /-- records that wait for room in the physical function's fault ring, and the ring (R357) -/
  faultDue : List Due := []
  faultRing : RecordRing := {}
  /-- what has left for the host -/
  sent : List Sent := []
  /-- MSI-X table of the physical function by doubleword, and its PBA (R462) -/
  msix : Tab Word := []
  pba : BitVec 8 := 0
  /-- ECHBM, ECLINK, ECLOSS (R418), RETLIST with its owners, RETOVF (R417) -/
  echbm : Word := 0
  eclink : Word := 0
  ecloss : Word := 0
  retired : List (Nat × Nat) := []
  retovf : Bool := false
  /-- EDEV and its fraction (R401) -/
  edev : Word := 0
  edevFrac : Word := 0
  channels : Tab Channel := []
  /-- PWRCTL (R424): PCAP, TRIPS, FWSAFE, FWUPD, RCAD; heartbeats since FWUPD cleared (R431) -/
  pcap : Nat := 1800
  trips : Nat := 0
  fwsafe : Bool := false
  fwupd : Bool := false
  rcad : BitVec 5 := 8
  beats : Nat := 0
  /-- BOOTST (R437): STEP, DONE, IDFAIL; boot has stopped; the kinds of which copy B runs -/
  bootStep : Nat := 5
  bootDone : Bool := false
  idfail : Bool := false
  bootStopped : Bool := false
  copyB : BitVec 8 := 0
  /-- the link runs in 2 × x8 mode (R455) -/
  narrow : Bool := false
  /-- the alias key d', and versions and digests of the measurement blocks, as step 9 formed them (R439, R441) -/
  aliasKey : Nat := 0
  blocks : List (BitVec 16 × BitVec 512) := []
  /-- the boot flash: images written since manufacture, by 2 × KIND + copy (R434, R460) -/
  flash : Tab (List Byte) := []
  /-- the mailbox (R460): its command in progress (copy A, KIND), RESULT, word 2 and the window by doubleword, and what the
  device's own SRAM holds of the image -/
  mbCommand : Option (Bool × BitVec 8) := none
  mbResult : BitVec 8 := 0
  mbWords : Tab Word := []
  mbImage : List Byte := []
  /-- REPSUM (R450), and the generation of the capability table (R346) -/
  repsum : Tab Word := []
  capGen : Word := 0
  /-- SR-IOV: VF Enable and NumVFs; the same of port 1 in 2 × x8 mode (R455, R456) -/
  vfOn : Bool := false
  numVfs : Nat := 0
  vfOn1 : Bool := false
  numVfs1 : Nat := 0
  /-- trained fabric ports by bit, and whether a training has assigned a number (R382, R419) -/
  ports : BitVec 32 := 0
  trained : Bool := false
  /-- TIMEBASE holds until the master reaches it: the master's count (R464) -/
  holdUntil : Option Word := none
  spdm : Spdm := {}
deriving DecidableEq, Repr

/-- The machine right after reset: cold reset with step 5 of boot done, every core at the start of the march reel
(R432, R442). Log 2. -/
def State.reset : State := {}

end Sys2Proof.Machine
end

