-- ==== Sys2Proof/Machine/Ops.lean ====
section
/-! DEFINITION. The named operations over cores, registers and chains: reading sources, writing results, ChainStep
(R110), joined groups (R11), taking a trap (R118, R119) and returning from one (R120). -/

namespace Sys2Proof.Machine

/-- A logical ck passes for the stages that `mine` names: one that has followed a replay is over, and one that follows it begins
(R410). -/
def passCk (mine : Bool) (x : Nat × Bool) : Option (Nat × Bool) :=
  if !mine then some x else if x.2 then none else some (x.1, true)

/-! Cores, clusters, partitions and slots by number. -/

/-- Column of a slot (R9). -/
def slotIx : Slot → Nat
  | .A => 0 | .B => 1 | .V => 2 | .E => 3

/-- The four slots in column order. -/
def allSlots : List Slot := [.A, .B, .V, .E]

/-- Core `c` of the device. -/
def State.core (s : State) (c : Nat) : Core := Tab.get {} s.cores c
/-- The state with core `c` replaced. -/
def State.setCore (s : State) (c : Nat) (k : Core) : State := { s with cores := Tab.set s.cores c k }
/-- The state with core `c` changed by `f`. -/
def State.modCore (s : State) (c : Nat) (f : Core → Core) : State := s.setCore c (f (s.core c))

/-- Cluster `c` of the device. -/
def State.cluster (s : State) (c : Nat) : Cluster := Tab.get {} s.clusters c
/-- The state with cluster `c` changed by `f`. -/
def State.modCluster (s : State) (c : Nat) (f : Cluster → Cluster) : State :=
  { s with clusters := Tab.set s.clusters c (f (s.cluster c)) }

/-- Partition `p` of the device. -/
def State.part (s : State) (p : Nat) : Partition := Tab.get {} s.parts p
/-- The state with partition `p` replaced. -/
def State.setPart (s : State) (p : Nat) (q : Partition) : State := { s with parts := Tab.set s.parts p q }
/-- The state with partition `p` changed by `f`. -/
def State.modPart (s : State) (p : Nat) (f : Partition → Partition) : State := s.setPart p (f (s.part p))

/-- Slot `k` of a core. -/
def Core.slot (c : Core) (k : Slot) : SlotState := Tab.get {} c.slots (slotIx k)
/-- The core with slot `k` replaced. -/
def Core.setSlot (c : Core) (k : Slot) (t : SlotState) : Core := { c with slots := Tab.set c.slots (slotIx k) t }
/-- The core with slot `k` changed by `f`. -/
def Core.modSlot (c : Core) (k : Slot) (f : SlotState → SlotState) : Core := c.setSlot k (f (c.slot k))

/-- A step of one of the device's agents becomes due, after those that are due already. -/
def State.post (s : State) (i : Instr) : State := { s with agenda := s.agenda ++ [i] }

/-- The next free value, and the state that has read it (log 4). -/
def State.free (s : State) : Word × State := (Config.freeWord s.fresh, { s with fresh := s.fresh + 1 })

/-! Registers. -/

/-- s0 reads zero (R19). -/
def Regs.sget (r : Regs) (n : SReg) : Word := if n = 0 then 0 else Tab.get 0 r.s n.toNat
/-- The taint bit of s0 is clear (R19, R20). -/
def Regs.tget (r : Regs) (n : SReg) : Bool := if n = 0 then false else Tab.get false r.taint n.toNat
/-- A write to s0 is discarded (R19); any other write takes the value and its taint bit. -/
def Regs.sset (r : Regs) (n : SReg) (v : Word) (t : Bool) : Regs :=
  if n = 0 then r else { r with s := Tab.set r.s n.toNat v, taint := Tab.set r.taint n.toNat t }

/-- The vector register `n`. -/
def Regs.vget (r : Regs) (n : Nat) : VVal := Tab.get [] r.v n
/-- A write of vector register `n`. -/
def Regs.vset (r : Regs) (n : Nat) (v : VVal) : Regs := { r with v := Tab.set r.v n v }

/-- m0 reads all ones (R19). -/
def Regs.mget (r : Regs) (n : MReg) : BitVec 1024 := if n = 0 then BitVec.allOnes 1024 else Tab.get 0 r.m n.toNat
/-- A write to m0 is discarded (R19). -/
def Regs.mset (r : Regs) (n : MReg) (v : BitVec 1024) : Regs :=
  if n = 0 then r else { r with m := Tab.set r.m n.toNat v }

/-- Word `i` of the saved chain of slot `k` (R25, R34). -/
def Regs.xget (r : Regs) (k : Slot) (i : Nat) : Word := Tab.get 0 r.xpc (4 * slotIx k + i)
/-- A write of word `i` of the saved chain of slot `k`. -/
def Regs.xset (r : Regs) (k : Slot) (i : Nat) (v : Word) : Regs :=
  { r with xpc := Tab.set r.xpc (4 * slotIx k + i) v }

/-! The slot whose instruction acts. -/

/-- The core of the acting slot. -/
def State.cc (s : State) : Core := s.core s.cur.core
/-- The state with the acting slot's core changed. -/
def State.modCc (s : State) (f : Core → Core) : State := s.modCore s.cur.core f
/-- The acting slot. -/
def State.cs (s : State) : SlotState := s.cc.slot s.cur.slot
/-- The state with the acting slot changed. -/
def State.modCs (s : State) (f : SlotState → SlotState) : State := s.modCc (fun c => c.modSlot s.cur.slot f)

/-- A scalar source, as it stood before any instruction of the bundle wrote (R14). -/
def State.rs (s : State) (n : SReg) : Word := s.cc.src.sget n
/-- The taint bit of a scalar source (R20). -/
def State.rt (s : State) (n : SReg) : Bool := s.cc.src.tget n
/-- A vector source (R14). -/
def State.rv (s : State) (n : VReg) : VVal := s.cc.src.vget n.toNat
/-- A mask source (R14). -/
def State.rm (s : State) (n : MReg) : BitVec 1024 := s.cc.src.mget n

/-- The state with the acting core's registers changed. -/
def State.modRegs (s : State) (f : Regs → Regs) : State := s.modCc (fun c => { c with regs := f c.regs })
/-- A scalar result and its taint bit. -/
def State.ws (s : State) (n : SReg) (v : Word) (t : Bool) : State := s.modRegs (fun r => r.sset n v t)
/-- A vector result. -/
def State.wv (s : State) (n : VReg) (v : VVal) : State := s.modRegs (fun r => r.vset n.toNat v)
/-- A mask result. -/
def State.wm (s : State) (n : MReg) (v : BitVec 1024) : State := s.modRegs (fun r => r.mset n v)

/-! The chain (R110) and the groups (R11). -/

/-- The third position of the chain in sequence. -/
def Branch.none : Branch := { taken := false, target := 0, annul := false }

/-- ChainStep with the outcome of a branch (R110). -/
def SlotState.step (t : SlotState) (b : Branch) : SlotState :=
  { t with c0 := t.c1, c1 := t.c2, c2 := if b.taken then b.target else t.c2 + 32
           ann0 := t.ann1 || b.annul, ann1 := b.annul, redirect := Option.none }

/-- A chain is linear (R111). -/
def SlotState.linear (t : SlotState) : Bool :=
  t.c1 == t.c0 + 32 && t.c2 == t.c0 + 64 && !t.ann0 && !t.ann1

/-- The issue of the slot's bundle uses up the resume-without-wait flag that ERET put in force (R120), and a bundle
that was issued alone after a park is done (R16). -/
def SlotState.issued (t : SlotState) : SlotState :=
  { t with rww := t.rww && !t.resumed, resumed := false, solo := false, waitHalf := false, clwait := none, snap := none }

/-- The outcome of the GBR that redirects the acting slot at its bundle; none redirects it otherwise (R114). -/
def State.gbrOutcome (s : State) : Branch := s.cs.redirect.getD Branch.none

/-- The acting slot's chain advances with its own branch's outcome. -/
def State.branch (s : State) (b : Branch) : State := s.modCs (fun t => t.issued.step b)

/-- The acting slot's chain advances; a GBR of its joined group redirects it (R110, R114). -/
def State.advance (s : State) : State := s.branch s.gbrOutcome

/-- What slot B waited for has come: its chain advances as at issue. -/
def SlotState.answered (t : SlotState) : SlotState :=
  { t.issued.step (t.redirect.getD Branch.none) with await := Option.none }

/-- A scalar result, and the chain advances. -/
def State.retS (s : State) (sd : SReg) (v : Word) (t : Bool) : State := (s.ws sd v t).advance

/-- Two slots have the same chain and annul state (R11). -/
def SlotState.sameChain (a b : SlotState) : Bool :=
  a.c0 == b.c0 && a.c1 == b.c1 && a.c2 == b.c2 && a.ann0 == b.ann0 && a.ann1 == b.ann1

/-- The members of the joined group with label `g` that have not halted. -/
def Core.groupOf (c : Core) (g : Nat) : List Slot :=
  allSlots.filter (fun k => (c.slot k).group == g && !(c.slot k).halted)

/-- A member of the group has still to finish its part of the bundle that the group issued last (R16). -/
def SlotState.unsettled (t : SlotState) : Bool := t.solo || t.await.isSome

/-- The label that slot `k` takes: its own column when it forks, else the lowest column that stays joined with it. A
group with an unsettled member stays as it is until that member is done (R11, R16). -/
def Core.label (c : Core) (k : Slot) : Nat :=
  let t := c.slot k
  if t.halted then slotIx k
  else if (c.groupOf t.group).any (fun j => (c.slot j).unsettled) then t.group
  else match (c.groupOf t.group).find? (fun j => (c.slot j).sameChain t) with
    | some j => slotIx j
    | Option.none => slotIx k

/-- A wait for an outstanding move does not reach across forked slots (R14, R15): of each move, whether slot V stands in the joined
group of slot E. One that was in its group when slot E halted goes on waiting. -/
def Core.relink (c : Core) : Core :=
  if (c.slot .E).halted then c
  else { c with moves := c.moves.map (fun (m : Move) => { m with joinedV := (c.slot .V).group == (c.slot .E).group }) }

/-- The slots of `l` as a mask by column. -/
def slotMask (l : List Slot) : BitVec 4 := l.foldl (fun m k => m ||| (1#4 <<< slotIx k)) 0

/-- The slots of `l` have met: a move that issued before one of them issued before the next instruction of each (R12, R63). -/
def Core.met (c : Core) (l : List Slot) : Core :=
  { c with moves := c.moves.map (fun (m : Move) => if m.knows &&& slotMask l = 0 then m else { m with knows := m.knows ||| slotMask l }) }.relink

/-- The joined groups after an issue: a group stays joined until a member's chain differs (R11). -/
def Core.regroup (c : Core) : Core :=
  { c with slots := allSlots.map (fun k => (slotIx k, { c.slot k with group := c.label k })) }.relink

/-! Traps (R117 to R120). -/

/-- Causes 0x01 to 0x04 are fault-class (R117). -/
def faultClass (code : BitVec 8) : Bool := decide (1 ≤ code.toNat) && decide (code.toNat ≤ 4)

/-- The acting slot raises a task-handled trap. A fault-class instruction leaves the chain at its bundle, a
completion-class one has advanced it before (R117). -/
def State.raise (s : State) (code : BitVec 8) (detail : BitVec 32) (tval : Word) : State :=
  s.modCs (fun t => { t with pend := some { code, detail, tval } })

/-- Illegal operand raised at run time: TVAL holds the instruction's 64 bits (R32). -/
def State.illegal (s : State) (detail : BitVec 32 := 0) : State := s.raise 0x03 detail s.cur.word

/-- Misaligned: TVAL holds the address (R32). -/
def State.misaligned (s : State) (va : Word) : State := s.raise 0x04 0 va

/-- A bundle address in the layout of TVEC: [56:5], with copies of bit 56 above (R31, R34). -/
def bundleAddr (a : Word) : Word := ((a.extractLsb' 5 52 ++ 0#5 : BitVec 57).signExtend 64)

/-- TCAUSE (R32). -/
def causeWord (t : Trap) (k : Slot) : Word := t.detail ++ 0#22 ++ BitVec.ofNat 2 (slotIx k) ++ t.code

/-- What the entry does to one slot: its chain is saved, its parking abandoned, and it takes the handler's chain
(R118 steps 2 and 4). `again` says that it is to fault again when it issues after resume. A slot that has returned and not
issued since keeps the flag of R120, which only its issue and a write of XPCs0 clear; one that is parked or waits loses it
(R118). A slot that waits for a CLSET after a stop goes on waiting for it (R364). The outcome of a GBR that it was to take has
no place in the saved chain, and is dropped (log 62). -/
def SlotState.enter (t : SlotState) (tvec : Word) (again : Bool) (label : Nat) : SlotState :=
  { t with
    c0 := tvec, c1 := tvec + 32, c2 := tvec + 64, ann0 := false, ann1 := false
    returned := false, rww := again || (t.rww && t.resumed && t.park.isNone && t.await.isNone), resumed := false
    group := label, park := none, solo := false, await := none, redirect := none
    waitHalf := false, halfSaved := t.waitHalf, snap := none }

/-- The saved-chain words of a slot (R34, R118). -/
def Regs.saveChain (r : Regs) (k : Slot) (t : SlotState) : Regs :=
  (((r.xset k 0 (bundleAddr t.c0)).xset k 1 (bundleAddr t.c1)).xset k 2 (bundleAddr t.c2)).xset k 3
    (0#62 ++ ofBool1 t.ann1 ++ ofBool1 t.ann0)

/-- Taking a task-handled trap or the pre-emption notice: every slot that has not halted saves its chain, TCAUSE and
TVAL are written, the handler-busy state is set, and the slots start at TVEC as one joined group (R118). Other traps
raised in the same ck stay pending when they are of the completion class and fault again otherwise (R119). A slot that has
halted takes no part; when all have, every slot that entered has returned at once (R124). -/
def Core.takeTrap (c : Core) (k : Slot) (t : Trap) : Core :=
  let live := allSlots.filter (fun j => !(c.slot j).halted)
  let label := match live with | j :: _ => slotIx j | [] => 0
  let regs := live.foldl (fun r j => r.saveChain j (c.slot j)) c.regs
  let regs := if live.isEmpty && t.code == 0x70 then regs else { regs with tcause := causeWord t k, tval := t.tval }
  let again (j : Slot) : Bool := match (c.slot j).pend with | some u => faultClass u.code | Option.none => false
  let kept (j : Slot) : Option Trap :=
    if j = k then Option.none
    else match (c.slot j).pend with
      | some u => if faultClass u.code then Option.none else some { u with kept := true }
      | Option.none => Option.none
  { c with
    regs := regs
    slots := allSlots.map (fun j =>
      (slotIx j, if (c.slot j).halted then { c.slot j with pend := kept j }
                 else { (c.slot j).enter c.regs.tvec (again j) label with pend := kept j }))
    busy := !live.isEmpty
    entry70 := if t.code = 0x70 ∧ !live.isEmpty then some (c.regs.tcause, c.regs.tval) else Option.none }.met live

/-- Every slot that entered the handler has returned or halted (R120, R124). -/
def Core.allReturned (c : Core) : Bool := allSlots.all (fun k => (c.slot k).returned || (c.slot k).halted)

/-- The test that ERET and HALT make: the handler-busy state clears once every slot that entered has returned or
halted, and TCAUSE and TVAL are restored when the entry was 0x70 (R120, R124). -/
def Core.testReturn (c : Core) : Core :=
  if c.busy && c.allReturned then
    { c with
      busy := false
      regs := match c.entry70 with
        | some (tc, tv) => { c.regs with tcause := tc, tval := tv }
        | Option.none => c.regs
      entry70 := Option.none }
  else c

/-- ERET of slot `k`: the chain is restored from the saved-chain words as they stood when the bundle issued, and the
slot is marked returned (R120). -/
def Core.returnFrom (c : Core) (k : Slot) : Core :=
  let w3 := c.src.xget k 3
  (c.modSlot k (fun t =>
    { t.issued with
      c0 := c.src.xget k 0, c1 := c.src.xget k 1, c2 := c.src.xget k 2, ann0 := bit w3 0, ann1 := bit w3 1
      returned := true, rww := t.rww, resumed := true, redirect := Option.none
      waitHalf := t.halfSaved, halfSaved := false })).testReturn

/-- A trap or a notice of the core waits to be taken (R119, R122). -/
def Core.trapDue (c : Core) : Bool :=
  allSlots.any (fun k => match (c.slot k).pend with | some t => !t.kept || !c.busy | Option.none => false)
    || (c.notice && !c.busy)

end Sys2Proof.Machine
end

