-- ==== Sys2Proof/Machine/Scalar.lean ====
section
/-! DEFINITION. Scalar integer instructions (R102 to R108). -/

namespace Sys2Proof.Machine

/-- The outcome type of every meaning. -/
abbrev Out := Host.Outcome State Fault Refusal

/-- A two-source form: the result of `f` on s[SA] and s[SB], its taint bit the OR of theirs (R20, R102). -/
def State.alu2 (s : State) (sd sa sb : SReg) (f : Word → Word → Word) : State :=
  s.retS sd (f (s.rs sa) (s.rs sb)) (s.rt sa || s.rt sb)

/-- A one-source form (R20, R102). -/
def State.alu1 (s : State) (sd sa : SReg) (f : Word → Word) : State := s.retS sd (f (s.rs sa)) (s.rt sa)

/-- A three-source form (R20, R105). -/
def State.alu3 (s : State) (sd sa sb sc : SReg) (f : Word → Word → Word → Word) : State :=
  s.retS sd (f (s.rs sa) (s.rs sb) (s.rs sc)) (s.rt sa || s.rt sb || s.rt sc)

/-- The shift amount n = b[5:0] (R102). -/
def shamt (b : Word) : Nat := (bits b 0 6).toNat

/-- (sx(a) × sx(b))[127:64] (R103). -/
def mulHigh (a b : Word) : Word := ((a.signExtend 128 * b.signExtend 128) >>> 64).setWidth 64
/-- (a × b)[127:64], unsigned (R103). -/
def mulHighU (a b : Word) : Word := ((a.setWidth 128 * b.setWidth 128) >>> 64).setWidth 64

/-- The quotient rounded towards zero, with the two corners of R104. -/
def divS (a b : Word) : Word :=
  if b = 0 then BitVec.allOnes 64
  else if a = 0x8000000000000000 ∧ b = BitVec.allOnes 64 then a
  else BitVec.ofInt 64 (a.toInt.tdiv b.toInt)
/-- The remainder with the sign of the dividend (R104). -/
def remS (a b : Word) : Word :=
  if b = 0 then a
  else if a = 0x8000000000000000 ∧ b = BitVec.allOnes 64 then 0
  else BitVec.ofInt 64 (a.toInt - b.toInt * a.toInt.tdiv b.toInt)
/-- The unsigned quotient (R104). -/
def divU (a b : Word) : Word := if b = 0 then BitVec.allOnes 64 else BitVec.ofNat 64 (a.toNat / b.toNat)
/-- The unsigned remainder (R104). -/
def remU (a b : Word) : Word := if b = 0 then a else BitVec.ofNat 64 (a.toNat % b.toNat)

/-- The number of zero bits above the highest set bit among the `n` low bits (R103). -/
def leadZeros {w : Nat} (a : BitVec w) : Nat → Nat
  | 0 => 0
  | n + 1 => if bit a n then 0 else leadZeros a n + 1
/-- The number of zero bits below the lowest set bit, from bit `i`, with `n` bits to look at (R103). -/
def trailZeros {w : Nat} (a : BitVec w) (i : Nat) : Nat → Nat
  | 0 => 0
  | n + 1 => if bit a i then 0 else trailZeros a (i + 1) n + 1
/-- The number of set bits among the `n` low bits (R103). -/
def popCount {w : Nat} (a : BitVec w) : Nat → Nat
  | 0 => 0
  | n + 1 => popCount a n + (if bit a n then 1 else 0)

/-- The low `n` bits of `a` above the bits of `b`: the high word of a shift of the pair (R105). -/
def funnelL {w : Nat} (a b : BitVec w) (m : Nat) : BitVec w := if m = 0 then a else (a <<< m) ||| (b >>> (w - m))
/-- The low word of a right shift of the pair (R105). -/
def funnelR {w : Nat} (a b : BitVec w) (m : Nat) : BitVec w := if m = 0 then b else (b >>> m) ||| (a <<< (w - m))

/-- The truth table `tt` on each bit: tt[4 a[i] + 2 b[i] + c[i]] (R105). -/
def lop3Of {w : Nat} (tt : BitVec 8) (a b c : BitVec w) : BitVec w :=
  (List.range 8).foldl (fun r k =>
    if bit tt k then
      r ||| ((if k / 4 % 2 = 1 then a else ~~~a) &&& (if k / 2 % 2 = 1 then b else ~~~b) &&&
             (if k % 2 = 1 then c else ~~~c))
    else r) 0

/-- The condition of CND between a and b (R75, R106). -/
def condHolds (c : Cond) (a b : Word) : Bool :=
  match c with
  | .eq => a == b
  | .ne => a != b
  | .lt => a.slt b
  | .ge => !a.slt b
  | .ltu => a.ult b
  | .geu => !a.ult b

/-- The `wid` low bits, all ones (R107). -/
def lowMask (wid : Nat) : Word := BitVec.ofNat 64 (2 ^ wid - 1)
/-- x[wid - 1 : 0] zero-extended (R107). -/
def zextOf (x : Word) (wid : Nat) : Word := x &&& lowMask wid
/-- x[wid - 1 : 0] sign-extended from its top bit (R107). -/
def sextOf (x : Word) (wid : Nat) : Word := if bit x (wid - 1) then zextOf x wid ||| ~~~(lowMask wid) else zextOf x wid
/-- x[pos + wid - 1 : pos] in the low bits (R107). -/
def field (x : Word) (pos wid : Nat) : Word := zextOf (x >>> pos) wid
/-- `old` with bits [pos + wid - 1 : pos] replaced by a[wid - 1 : 0] (R107). -/
def insertField (old a : Word) (pos wid : Nat) : Word :=
  (old &&& ~~~(lowMask wid <<< pos)) ||| (zextOf a wid <<< pos)

/-- The bits of `a` in reverse order (R103). -/
def reverseBits (a : Word) : Word := a.reverse
/-- The bytes of `a` in reverse order (R103). -/
def reverseBytes (a : Word) : Word := wordOf (fun k => byteOf a (7 - k))
/-- The absolute value; the most negative value gives itself (R103). -/
def absOf (a : Word) : Word := if a.slt 0 then -a else a

/-- NOP (R76): the slot's chain advances. -/
def execNop (s : State) : Out := .next s.advance

/-- ADD (R103). -/
def execAdd (sd sa sb : SReg) (s : State) : Out := .next (s.alu2 sd sa sb (fun a b => a + b))
/-- SUB (R103). -/
def execSub (sd sa sb : SReg) (s : State) : Out := .next (s.alu2 sd sa sb (fun a b => a - b))
/-- MUL (R103). -/
def execMul (sd sa sb : SReg) (s : State) : Out := .next (s.alu2 sd sa sb (fun a b => a * b))
/-- MULH (R103). -/
def execMulh (sd sa sb : SReg) (s : State) : Out := .next (s.alu2 sd sa sb (fun a b => mulHigh a b))
/-- MULHU (R103). -/
def execMulhu (sd sa sb : SReg) (s : State) : Out := .next (s.alu2 sd sa sb (fun a b => mulHighU a b))
/-- DIV (R104). -/
def execDiv (sd sa sb : SReg) (s : State) : Out := .next (s.alu2 sd sa sb (fun a b => divS a b))
/-- DIVU (R104). -/
def execDivu (sd sa sb : SReg) (s : State) : Out := .next (s.alu2 sd sa sb (fun a b => divU a b))
/-- REM (R104). -/
def execRem (sd sa sb : SReg) (s : State) : Out := .next (s.alu2 sd sa sb (fun a b => remS a b))
/-- REMU (R104). -/
def execRemu (sd sa sb : SReg) (s : State) : Out := .next (s.alu2 sd sa sb (fun a b => remU a b))
/-- AND (R103). -/
def execAnd (sd sa sb : SReg) (s : State) : Out := .next (s.alu2 sd sa sb (fun a b => a &&& b))
/-- OR (R103). -/
def execOr (sd sa sb : SReg) (s : State) : Out := .next (s.alu2 sd sa sb (fun a b => a ||| b))
/-- XOR (R103). -/
def execXor (sd sa sb : SReg) (s : State) : Out := .next (s.alu2 sd sa sb (fun a b => a ^^^ b))
/-- ANDN (R103). -/
def execAndn (sd sa sb : SReg) (s : State) : Out := .next (s.alu2 sd sa sb (fun a b => a &&& ~~~b))
/-- ORN (R103). -/
def execOrn (sd sa sb : SReg) (s : State) : Out := .next (s.alu2 sd sa sb (fun a b => a ||| ~~~b))
/-- SHL (R103). -/
def execShl (sd sa sb : SReg) (s : State) : Out := .next (s.alu2 sd sa sb (fun a b => a <<< shamt b))
/-- SHR (R103). -/
def execShr (sd sa sb : SReg) (s : State) : Out := .next (s.alu2 sd sa sb (fun a b => a >>> shamt b))
/-- SAR (R103). -/
def execSar (sd sa sb : SReg) (s : State) : Out := .next (s.alu2 sd sa sb (fun a b => a.sshiftRight (shamt b)))
/-- ROTL (R103). -/
def execRotl (sd sa sb : SReg) (s : State) : Out := .next (s.alu2 sd sa sb (fun a b => a.rotateLeft (shamt b)))
/-- ROTR (R103). -/
def execRotr (sd sa sb : SReg) (s : State) : Out := .next (s.alu2 sd sa sb (fun a b => a.rotateRight (shamt b)))
/-- MIN (R103). -/
def execMin (sd sa sb : SReg) (s : State) : Out := .next (s.alu2 sd sa sb (fun a b => if b.slt a then b else a))
/-- MAX (R103). -/
def execMax (sd sa sb : SReg) (s : State) : Out := .next (s.alu2 sd sa sb (fun a b => if a.slt b then b else a))
/-- MINU (R103). -/
def execMinu (sd sa sb : SReg) (s : State) : Out := .next (s.alu2 sd sa sb (fun a b => if b.ult a then b else a))
/-- MAXU (R103). -/
def execMaxu (sd sa sb : SReg) (s : State) : Out := .next (s.alu2 sd sa sb (fun a b => if a.ult b then b else a))
/-- CLZ (R103). -/
def execClz (sd sa : SReg) (s : State) : Out := .next (s.alu1 sd sa (fun a => BitVec.ofNat 64 (leadZeros a 64)))
/-- CTZ (R103). -/
def execCtz (sd sa : SReg) (s : State) : Out := .next (s.alu1 sd sa (fun a => BitVec.ofNat 64 (trailZeros a 0 64)))
/-- POPC (R103). -/
def execPopc (sd sa : SReg) (s : State) : Out := .next (s.alu1 sd sa (fun a => BitVec.ofNat 64 (popCount a 64)))
/-- BREV (R103). -/
def execBrev (sd sa : SReg) (s : State) : Out := .next (s.alu1 sd sa (fun a => reverseBits a))
/-- BSWAP (R103). -/
def execBswap (sd sa : SReg) (s : State) : Out := .next (s.alu1 sd sa (fun a => reverseBytes a))
/-- ABS (R103). -/
def execAbs (sd sa : SReg) (s : State) : Out := .next (s.alu1 sd sa (fun a => absOf a))
/-- LOP3 (R105). -/
def execLop3 (sd sa sb sc : SReg) (tt : BitVec 8) (s : State) : Out := .next (s.alu3 sd sa sb sc (lop3Of tt))
/-- FSHL: m = c[5:0] (R105). -/
def execFshl (sd sa sb sc : SReg) (s : State) : Out := .next (s.alu3 sd sa sb sc (fun a b c => funnelL a b (shamt c)))
/-- FSHR: m = c[5:0] (R105). -/
def execFshr (sd sa sb sc : SReg) (s : State) : Out := .next (s.alu3 sd sa sb sc (fun a b c => funnelR a b (shamt c)))
/-- SEL: the taint bit is the OR of all three sources, whichever is chosen (R105). -/
def execSel (sd sa sb sc : SReg) (s : State) : Out := .next (s.alu3 sd sa sb sc (fun a b c => if c ≠ 0 then a else b))
/-- CMP writes 1 or 0 (R106). -/
def execCmp (c : Cond) (sd sa sb : SReg) (s : State) : Out :=
  .next (s.alu2 sd sa sb (fun a b => if condHolds c a b then 1 else 0))
/-- BFX (R107). -/
def execBfx (sd sa : SReg) (pos : BitVec 6) (wid : BitVec 7) (s : State) : Out :=
  .next (s.alu1 sd sa (fun a => sextOf (field a pos.toNat wid.toNat) wid.toNat))
/-- BFXU (R107). -/
def execBfxu (sd sa : SReg) (pos : BitVec 6) (wid : BitVec 7) (s : State) : Out :=
  .next (s.alu1 sd sa (fun a => field a pos.toNat wid.toNat))
/-- BFI reads its destination as a source (R107). -/
def execBfi (sd sa : SReg) (pos : BitVec 6) (wid : BitVec 7) (s : State) : Out :=
  .next (s.alu2 sd sd sa (fun old a => insertField old a pos.toNat wid.toNat))
/-- SEXT (R107). -/
def execSext (sd sa : SReg) (wid : BitVec 7) (s : State) : Out := .next (s.alu1 sd sa (fun a => sextOf a wid.toNat))
/-- ZEXT (R107). -/
def execZext (sd sa : SReg) (wid : BitVec 7) (s : State) : Out := .next (s.alu1 sd sa (fun a => zextOf a wid.toNat))
/-- LEA (R108). -/
def execLea (sd sa sb : SReg) (sh : BitVec 8) (s : State) : Out :=
  .next (s.alu2 sd sa sb (fun a b => a + (b <<< sh.toNat)))
/-- ADDI (R108). -/
def execAddi (sd sa : SReg) (imm : BitVec 32) (s : State) : Out := .next (s.alu1 sd sa (fun a => a + imm.signExtend 64))
/-- MOVI: the taint bit is cleared (R20, R108). -/
def execMovi (sd : SReg) (imm : BitVec 32) (s : State) : Out := .next (s.retS sd (imm.signExtend 64) false)
/-- MOVHI keeps the low half of its destination, and its taint bit (R108). -/
def execMovhi (sd : SReg) (imm : BitVec 32) (s : State) : Out :=
  .next (s.alu1 sd sd (fun old => imm ++ bits old 0 32))

end Sys2Proof.Machine
end

