-- ==== Sys2Proof/Machine/Park.lean ====
section
/-! DEFINITION. Parking a party and reporting it (R16, R328, R357), losing a context (R412), ending repair mode (R442),
and the timebase. -/

namespace Sys2Proof.Machine

/-- The count `d` after `t`; it never comes round to a lower value (R464). -/
def later (t d : Word) : Word := if t.toNat ≤ (t + d).toNat then t + d else t

/-- `d` ns pass. A count that is ahead of the master's holds until the master's reaches it (R464). -/
def State.elapse (s : State) (d : Word) : State :=
  match s.holdUntil with
  | Option.none => { s with timebase := later s.timebase d }
  | some m =>
    let n := later m d
    if n.toNat < s.timebase.toNat then { s with holdUntil := some n }
    else { s with timebase := n, holdUntil := Option.none }

/-- The device timebase in ns: a free amount has passed since it was last read (R39, log 4). -/
def State.now (s : State) : Word × State :=
  let (d, s) := s.free
  let s := s.elapse d
  (s.timebase, s)

/-- Ring `r` of a partition. -/
def Partition.ring (p : Partition) (r : Nat) : Ring := Tab.get {} p.rings r
/-- The partition with ring `r` changed. -/
def Partition.modRing (p : Partition) (r : Nat) (f : Ring → Ring) : Partition :=
  { p with rings := Tab.set p.rings r (f (p.ring r)) }

/-- The place of replicas among a partition's rings, behind its sixteen (R301). -/
def replicaRing : Nat := 16

/-- The number of the ring that a packet of ring `r` names itself by: a replica goes by its ring at the originator (log 33). -/
def Partition.ringNumber (p : Partition) (r : Nat) : BitVec 4 :=
  BitVec.ofNat 4 (match (p.ring r).run.bind (·.origin) with | some x => x.2 | Option.none => r)

/-- Queue `q` of a core. -/
def Core.queue (c : Core) : Queue → QState
  | .mq => c.mq | .cq0 => c.cq0 | .cq1 => c.cq1
/-- The core with queue `q` replaced. -/
def Core.setQueue (c : Core) (q : Queue) (x : QState) : Core :=
  match q with
  | .mq => { c with mq := x } | .cq0 => { c with cq0 := x } | .cq1 => { c with cq1 := x }
/-- The core with queue `q` changed. -/
def Core.modQueue (c : Core) (q : Queue) (f : QState → QState) : Core := c.setQueue q (f (c.queue q))

/-- Word `i` of a record or block. -/
def wordAt (l : List Word) (i : Nat) : Word := l.getD i 0

/-- TAG of a record (R85). -/
def Rec.tag (r : Rec) : BitVec 16 := bits (wordAt r.w 0) 0 16

/-- QU (R75). -/
def queueIx : Queue → Nat
  | .mq => 0 | .cq0 => 1 | .cq1 => 2

/-- The causes that go to the hypervisor's fault ring (R33, R357). -/
def hypervisorCause (c : BitVec 8) : Bool := c == 0x12 || c == 0x13

/-- The first of the 8,192 handles, from a free start, that no outstanding report of the function has (R328). -/
def freeHandle (used : List (Nat × Parked)) (start : Nat) : Nat :=
  match (List.range (used.length + 1)).find? (fun k => !used.any (fun h => h.1 == (start + k) % 8192)) with
  | some k => (start + k) % 8192
  | Option.none => start % 8192

/-- Word c0 of the report of a party (R328). -/
def reportHead (itag done : BitVec 16) (reason vcore : BitVec 8) (q : Bool) (qs : Nat) (handle : Nat) : Word :=
  itag ++ done ++ reason ++ vcore ++ ofBool1 q ++ BitVec.ofNat 2 qs ++ BitVec.ofNat 13 handle

/-- The number of a kind of access in a fault record (R357). -/
def kindCode : AccessKind → BitVec 4
  | .read => 0 | .write => 1 | .both => 2 | .fetch => 3

/-- TAG of node `n` of the launch (R284). -/
def Launch.tagOf (l : Launch) (n : Nat) : BitVec 16 :=
  match Tab.find? l.nodes n with
  | some x => bits (wordAt x.desc 7) 48 16
  | Option.none => 0

/-- TAG of node `n` of a partition's launch. -/
def Partition.tagOf (p : Partition) (n : Nat) : BitVec 16 :=
  match p.launch with | some l => l.tagOf n | Option.none => 0

/-- TAG of the node that a core runs. -/
def State.nodeTag (s : State) (c : Nat) : BitVec 16 :=
  match (s.core c).bind with
  | some b => (s.part b.part).tagOf b.node
  | Option.none => 0

/-- Word c0 of the report that parks a party, and the number of PARTY (R328). -/
def State.reportWord (s : State) (part : Nat) (who : Parked) (reason : BitVec 8) (handle : Nat) : Word × Nat :=
  let vc (c : Nat) : BitVec 8 := match (s.core c).bind with | some b => BitVec.ofNat 8 b.vcore | Option.none => 0
  match who with
  | .slot c k => (reportHead (s.nodeTag c) 0 reason (vc c) false (slotIx k) handle, 0)
  | .queue c q =>
    let x := (s.core c).queue q
    let tag := match x.recs with | r :: _ => r.tag | [] => 0
    (reportHead tag (BitVec.ofNat 16 (x.done + if x.phase = .signal then 1 else 0)) reason (vc c) true (queueIx q) handle, 0)
  | .limit c => (reportHead (s.nodeTag c) 0 reason (vc c) true 3 handle, 0)
  | .ring _ => (reportHead 0 0 reason 0 false 0 handle, 1)
  | .dispatcher n => (reportHead ((s.part part).tagOf n) 0 reason 0 false 0 handle, 2)
  | .completion => (reportHead 0 0 reason 0 false 0 handle, 3)

/-- Word c1 of a report: the packet whose launch holds the party, or the parked packet itself (R328). -/
def Partition.reportPacket (p : Partition) (who : Parked) (cause : BitVec 8) (party : Nat) : Word :=
  let of (w : List Word) (ring : Nat) : Word :=
    bits (wordAt w 0) 0 32 ++ cause ++ bits (wordAt w 0) 60 4 ++ p.ringNumber ring ++ 1#1 ++ 0#12 ++
      BitVec.ofNat 3 party
  match who with
  | .ring r => match (p.ring r).run with
    | some k => of k.words r
    | Option.none => of (p.ring r).head r
  | _ => match p.launch with
    | some l => of l.words l.ring
    | Option.none => of [] 0

/-- The report of a park goes to the function's completion ring, or, for causes 0x12 and 0x13 and for the completion
ring itself, to the physical function's fault ring; the handle becomes outstanding (R328, R357). -/
def State.report (s : State) (part : Nat) (who : Parked) (k : Park) : Nat × State :=
  let (f, s) := s.free
  let (time, s) := s.now
  let p := s.part part
  let h := freeHandle p.handles f.toNat
  let (c0, party) := s.reportWord part who k.reason h
  let s := s.modPart part (fun p => { p with handles := (h, who) :: p.handles })
  if hypervisorCause k.cause || who == .completion then
    let w0 : Word := 0#24 ++ BitVec.ofNat 3 party ++ BitVec.ofNat 5 part ++ k.cause ++ bits c0 0 24
    let d : Due := { words := [w0, k.addr, (if k.table then 4 else kindCode k.kind) ++ 0#4 ++
      bits k.reason 0 4 ++ BitVec.ofNat 52 k.ipa, time], pend := Option.none,
                     gen := p.rgen }
    (h, { s with faultDue := s.faultDue ++ [d] })
  else
    let gen := match who with
      | .ring r => match (p.ring r).run with | some k => k.gen | Option.none => p.rgen
      | _ => match p.launch with | some l => l.gen | Option.none => p.rgen
    let d : Due := { words := [c0, p.reportPacket who k.cause party, k.addr, time], pend := some 1, gen := gen }
    (h, s.modPart part (fun p => { p with due := p.due ++ [d] }))

/-- Repair mode of a core ends by a trap, a parking fault or the time limit: the slots stop, and the security
processor sets REPSTAT.ABORT (R442, R449). -/
def Core.abortRepair (c : Core) : Core :=
  { c with
    slots := allSlots.map (fun k => (slotIx k, { c.slot k with halted := true, pend := Option.none, park := Option.none,
                                                               await := Option.none }))
    repair := { c.repair with active := false, repstat := c.repair.repstat ||| 8 } }

/-- A fault parks a slot with its chain at the bundle; `during` says that the other members of its group have already
issued that bundle (R16). In repair mode it ends repair mode instead (R442). -/
def State.parkSlot (s : State) (c : Nat) (k : Slot) (p : Park) (during : Bool) : State :=
  match (s.core c).bind with
  | Option.none => s.modCore c Core.abortRepair
  | some b =>
    let (h, s) := s.report b.part (.slot c k) p
    s.modCore c (fun x => x.modSlot k (fun t => { t with park := some { p with handle := h }, solo := during }))

/-- A ring parks (R321, R324). -/
def State.parkRing (s : State) (part r : Nat) (k : Park) : State :=
  let (h, s) := s.report part (.ring r) k
  s.modPart part (fun p => p.modRing r (fun x => { x with park := some { k with handle := h } }))

/-- Node `n` of the launch changed. -/
def Launch.modNode (l : Launch) (n : Nat) (f : Node → Node) : Launch :=
  match Tab.find? l.nodes n with
  | some x => { l with nodes := Tab.set l.nodes n (f x) }
  | Option.none => l
/-- Node `n` of a partition's launch changed. -/
def State.modNode (s : State) (part n : Nat) (f : Node → Node) : State :=
  s.modPart part (fun p => { p with launch := p.launch.map (fun l => l.modNode n f) })

/-- The dispatcher parks on a shot-list read for node `n` (R292). -/
def State.parkDispatcher (s : State) (part n : Nat) (k : Park) : State :=
  let (h, s) := s.report part (.dispatcher n) k
  s.modNode part n (fun x => { x with park := some { k with handle := h } })

/-- The completion ring holds on a fault of its write (R327). -/
def State.parkCompletion (s : State) (part : Nat) (k : Park) : State :=
  let (h, s) := s.report part .completion k
  s.modPart part (fun p => { p with complPark := some { k with handle := h } })

/-- The acting slot parks while its instruction executes (R16). -/
def State.parkCs (s : State) (p : Park) : State := s.parkSlot s.cur.core s.cur.slot p true

/-- Leave that a queue's head holds goes back to its governor, and a request in the line is withdrawn (R425). -/
def State.releaseLeave (s : State) (c : Nat) (q : Queue) : State :=
  let n := ((s.core c).queue q).leave
  (s.modCluster (c / 8) (fun k =>
    { k with granted := k.granted - n, line := k.line.filter (fun x => !(x == (c, q))) })).modCore c
    (fun x => x.modQueue q (fun t => { t with leave := 0 }))

/-- A head that waits for its semaphores or for leave (R212). -/
def Phase.waits : Phase → Bool
  | .waiting | .leave => true
  | .idle | .run | .signal => false

/-- A head that is performed keeps waiting to signal; any other goes back to not started (R217, R365). -/
def Phase.atRest : Phase → Phase
  | .signal => .signal
  | .idle | .waiting | .leave | .run => .idle

/-- A run-time fault of a record parks its queue alone; the snapshot and the leave are dropped (R217). -/
def State.parkQueue (s : State) (c : Nat) (q : Queue) (p : Park) : State :=
  match (s.core c).bind with
  | Option.none => s.modCore c Core.abortRepair
  | some b =>
    let (h, s) := (s.releaseLeave c q).report b.part (.queue c q) p
    s.modCore c (fun x => x.modQueue q (fun t =>
      { t with park := some { p with handle := h }, snap := Option.none, phase := t.phase.atRest, cut := Option.none
               started := t.started && !t.phase.waits }))

/-- A launch is to end with a status and a detail, unless something has ended it before (R287, R329). -/
def State.endLaunch (s : State) (part : Nat) (status : BitVec 8) (detail : Word) : State :=
  s.modPart part (fun p => { p with launch := p.launch.map (fun l =>
    { l with ending := l.ending.or (some (status, detail)) }) })

/-- A trap that nothing handles parks the task, and the leaf ends the launch with status unhandled trap (R31, R119). -/
def State.unhandled (s : State) (c : Nat) (k : Slot) (code : BitVec 8) : State :=
  match (s.core c).bind with
  | Option.none => s.modCore c Core.abortRepair
  | some b =>
    (s.modCore c (fun x => { x with frozen := true })).endLaunch b.part 0x06
      (s.nodeTag c ++ BitVec.ofNat 16 b.node ++ 0#16 ++ code ++ 0#6 ++ BitVec.ofNat 2 (slotIx k))

/-- A handle is free again (R328). -/
def State.freeHandle (s : State) (part h : Nat) : State :=
  s.modPart part (fun p => { p with handles := p.handles.filter (fun x => x.1 != h) })

/-- A parked party goes on: it issues its instruction or record again, and its handle is free (R16, R328). -/
def State.unpark (s : State) (part : Nat) (h : Nat) (who : Parked) : State :=
  let s := s.freeHandle part h
  match who with
  | .slot c k => s.modCore c (fun x => x.modSlot k (fun t => { t with park := none }))
  | .queue c q => s.modCore c (fun x => x.modQueue q (fun t => { t with park := none }))
  | .limit c => s.modCore c (fun x => { x with overrun := none })
  | .ring r => s.modPart part (fun p => p.modRing r (fun x => { x with park := none }))
  | .dispatcher n => s.modNode part n (fun x => { x with park := none })
  | .completion => s.modPart part (fun p => { p with complPark := none })

/-- The partition that a party's work belongs to. -/
def State.partyPart (s : State) : Party → Option Nat
  | .slot c _ | .queue c _ => (s.core c).bind.map (·.part)
  | .ring p _ | .dispatcher p | .completion p => some p

/-- A fault parks the party that met it. The dispatcher parks only with a node, at its dispatch (R292). -/
def State.parkParty (s : State) (who : Party) (k : Park) : State :=
  match who with
  | .slot c j => s.parkSlot c j k true
  | .queue c q => s.parkQueue c q k
  | .ring p r => s.parkRing p r k
  | .dispatcher _ => s
  | .completion p => s.parkCompletion p k

/-- An event that loses the context of a party becomes due (R412, R413). In repair mode it ends repair mode (R442). -/
def State.lose (s : State) (l : Loss) : State :=
  match l.party with
  | Option.none => s
  | some who =>
    match s.partyPart who with
    | some p => s.post (.contextLoss p l)
    | Option.none =>
      match who with
      | .slot c _ | .queue c _ => s.modCore c Core.abortRepair
      | _ => s

end Sys2Proof.Machine
end

