-- ==== Sys2Proof/Machine/Meter.lean ====
section
/-! DEFINITION. Bandwidth limiters and what passes them (R347, R348, R386). -/

namespace Sys2Proof.Machine

/-- BURST × 1,024 bytes, in units of 1/1000 byte; 0 is read as 1 (R347). -/
def Bucket.size (b : Bucket) : Int := (max (bits b.reg 32 16).toNat 1 * 1024 * 1000 : Nat)

/-- The order of the limiters' registers. -/
def limiterIx : Limiter → Nat
  | .hbm => 0 | .fab => 1 | .host => 2 | .xp => 3

/-- The bucket at TIMEBASE `time`: RATE MB/s are RATE units of 1/1000 byte in each ns (R348). -/
def Bucket.refill (b : Bucket) (time : Word) : Bucket :=
  let ns := (time - b.at_).toNat
  { b with bytes := min b.size (b.bytes + ((bits b.reg 0 32).toNat * ns : Nat)), at_ := time }

/-- The bucket after a transfer of `n` bytes, once it has come up to 0; RATE 0 is no limit (R347, R348). -/
def Bucket.take (b : Bucket) (n : Nat) : Bucket :=
  if bits b.reg 0 32 = 0 then b else { b with bytes := b.bytes - (1000 * n : Nat) }

/-- ns until the bucket holds 0. -/
def Bucket.wait (b : Bucket) : Nat :=
  let r := (bits b.reg 0 32).toNat
  if b.bytes < 0 ∧ 0 < r then ((-b.bytes).toNat + r - 1) / r else 0

/-- A transfer of `n` bytes of a partition starts: time passes until its bucket is not below 0, and the bytes are counted (R347, R348,
R402). From the close of a pause to the resume nothing counts towards a charge (R403). -/
def State.transfer (s : State) (part : Nat) (which : Limiter) (n : Nat) : State :=
  let b := (Tab.get {} (s.part part).lims (limiterIx which)).refill s.timebase
  let s := s.elapse (BitVec.ofNat 64 b.wait)
  s.modPart part (fun p => { p with
    lims := Tab.set p.lims (limiterIx which) ((b.refill s.timebase).take n)
    fabBytes := p.fabBytes + (if which = .fab ∧ p.state ≠ 4 then n else 0)
    hostBytes := p.hostBytes + (if which = .host ∧ p.state ≠ 4 then n else 0) })

/-- A transfer over the fabric; `beyond` says that its far end is a partition of another number, or on another device (R347). -/
def State.transferFabric (s : State) (part n : Nat) (beyond : Bool) : State :=
  let s := s.transfer part .fab n
  if beyond then s.transfer part .xp n else s

/-- Where the addresses stand that name words of other devices, above every physical address: a window's target (R384). -/
def remoteBase : Nat := 2 ^ 52

/-- `n` bytes move between the LLC slices of a physical address and its HBM channel: they count for the partition that owns the
channel (R347). -/
def State.hbmMoves (s : State) (pa n : Nat) : State :=
  match (s.cluster (pa / Config.clusterBytes)).owner with
  | some q => s.transfer q .hbm n
  | Option.none => s

/-- The place is in host space. -/
def Place.inHost (p : Place) : Bool := p.home != 1 && p.home != 2 && decide (Config.hostBase ≤ p.pa) && decide (p.pa < remoteBase)

/-- `n` bytes of an access by `who` reach their holder: they pass the fabric at both of its ends, the host link, or a bypass slice
(R347, R386). What a cache or an LLC home answers passes none of them (log 64). -/
def State.meter (s : State) (who : Party) (p : Place) (n : Nat) : State :=
  let part := s.partyPart who
  let s := match p.win, part with
    | some (d, q), some m =>
      let beyond := d != s.device || q != m
      let s := s.transferFabric m n beyond
      if d = s.device then s.transferFabric q n beyond else s
    | _, _ => s
  if p.inHost then
    match (match p.win with | some x => some x.2 | Option.none => part) with
    | some m => s.transfer m .host n
    | Option.none => s
  else if p.home = 3 ∧ p.pa < Config.hbmEnd then s.hbmMoves p.pa n
  else s

end Sys2Proof.Machine
end

