-- ==== Sys2Proof/Machine/Rom.lean ====
section
/-! DEFINITION. The mask ROM of repair mode: the march test reel as spec/21 lists it (R443, R451). Words of the ROM that
the listing does not give read 0 (assumption log 1). -/

namespace Sys2Proof.Machine

/-- Slot A of the march reel from the label `march`. -/
def march_march : List Instr :=
  [.movi 10 1, .movi 2 3, .movi 30 0x3f0000,
   .movi 31 0x3f0100, .movi 39 0xdf00ff00]

/-- Slot A of the march reel from the label `pass`. -/
def march_pass : List Instr :=
  [.st .d .plain 0 10 31 8, .movi 11 0, .movi 12 0x400f40,
   .movi 13 3]

/-- Slot A of the march reel from the label `region`. -/
def march_region : List Instr :=
  [.ld .d false .plain 0 22 12 0, .ld .d false .plain 0 23 12 8, .movi 14 0x401000,
   .movi 15 6]

/-- Slot A of the march reel from the label `elem`. -/
def march_elem : List Instr :=
  [.ld .d false .plain 0 16 14 0, .bfx 17 16 2 1, .bfx 18 16 4 1,
   .bfxu 27 16 0 1, .shr 21 23 2, .add 19 22 0,
   .br .eq .none 27 0 6, .movi 20 8, .nop,
   .add 19 22 23, .addi 19 19 (-8), .movi 20 (-8)]

/-- Slot A of the march reel from the label `word`. -/
def march_word : List Instr :=
  [.bfxu 27 16 1 1, .br .eq .none 27 0 10, .nop,
   .nop, .ld .d false .plain 0 26 19 0, .br .eq .none 26 17 6,
   .nop, .nop, .call 40 .none 38,
   .addi 24 24 1, .addi 11 11 1]

/-- Slot A of the march reel from the label `write`. -/
def march_write : List Instr :=
  [.bfxu 27 16 3 1, .br .eq .none 27 0 4, .nop,
   .nop, .st .d .plain 0 18 19 0]

/-- Slot A of the march reel from the label `next`. -/
def march_next : List Instr :=
  [.addi 21 21 (-1), .br .ne .none 21 0 (-17), .add 19 19 20,
   .nop, .addi 14 14 8, .addi 15 15 (-1),
   .br .ne .none 15 0 (-34), .nop, .nop,
   .addi 12 12 64, .addi 13 13 (-1), .br .ne .none 13 0 (-43),
   .nop, .nop, .br .eq .none 11 0 9,
   .movi 27 5, .nop, .br .geu .none 10 27 6,
   .nop, .nop, .jmp .none (-56),
   .addi 10 10 1, .nop]

/-- Slot A of the march reel from the label `done`. -/
def march_done : List Instr :=
  [.cmp .ne 47 11 0, .or 47 47 25, .lea 47 47 28 16,
   .lea 47 47 10 24, .lea 47 47 24 32, .st .d .plain 0 47 31 0,
   .halt]

/-- Slot A of the march reel from the label `record`. -/
def march_record : List Instr :=
  [.ld .d false .plain 0 32 12 16, .ld .d false .plain 0 33 12 24, .ld .d false .plain 0 34 12 32,
   .sub 35 19 22, .shl 35 35 32, .shr 36 35 33,
   .and 36 36 34, .ld .d false .plain 0 33 12 40, .ld .d false .plain 0 34 12 48,
   .ld .d false .plain 0 38 12 56, .shr 37 35 33, .and 37 37 34,
   .lea 38 38 36 24, .lea 38 38 37 8, .movi 41 0]

/-- Slot A of the march reel from the label `srch`. -/
def march_srch : List Instr :=
  [.add 42 30 41, .ld .d false .plain 0 43 42 0, .and 44 43 39,
   .br .eq .none 44 38 14, .bfxu 44 43 31 1, .nop,
   .br .eq .none 44 0 18, .addi 41 41 8, .movi 44 128,
   .br .ltu .none 41 44 (-9), .nop, .nop,
   .movi 44 2, .or 25 25 44, .ret 40 .none,
   .nop, .nop]

/-- Slot A of the march reel from the label `found`. -/
def march_found : List Instr :=
  [.bfxu 44 43 16 8, .br .eq .none 44 10 13, .nop,
   .nop, .jmp .none 4, .nop,
   .nop]

/-- Slot A of the march reel from the label `fresh`. -/
def march_fresh : List Instr :=
  [.addi 28 28 1]

/-- Slot A of the march reel from the label `put`. -/
def march_put : List Instr :=
  [.lea 45 38 10 16, .st .d .plain 0 45 42 0, .ld .d false .plain 0 43 42 0,
   .bfxu 44 43 29 1, .lea 44 0 44 2, .or 25 25 44]

/-- Slot A of the march reel from the label `rdone`. -/
def march_rdone : List Instr :=
  [.ret 40 .none, .nop, .nop]

/-- Slot A of the 120 bundles of the march reel. -/
def marchA : List Instr :=
  march_march ++ march_pass ++ march_region ++ march_elem ++ march_word ++ march_write ++ march_next ++ march_done ++ march_record ++ march_srch ++ march_found ++ march_fresh ++ march_put ++ march_rdone

/-- The words of the data section: `regions`, then `elems`. -/
def marchData : List Word :=
  [0x00000000, 0x00200000, 0, 6, 31, 13, 255, 0x80000000,
   0x00200000, 0x00040000, 3, 6, 31, 13, 255, 0x80000000,
   0x00300000, 0x000A0000, 0, 15, 31, 8, 127, 0xC0000000,
   0x08, 0x1A, 0x0E, 0x1B, 0x0F, 0x02]

/-- Column `k` of bundle `b` of the reel: slots B, V and E halt in bundle 0 and have no instruction after it. -/
def marchInstr (b k : Nat) : Instr :=
  if k = 0 then marchA.getD b .nop else if b = 0 then .halt else .nop

/-- The ROM's word at byte offset 8n from 0x0040_0000: MAGIC, VERSION and FLAGS, CODEOFF, NBUNDLE and NSAFE of the
header (R97, R451), the code section, and the data section at 0xF40. -/
def romWord (n : Nat) : Word :=
  if n = 0 then 0x000000014C454552
  else if n = 1 then 0x40
  else if n = 2 then 120
  else if n < 8 then 0
  else if n < 8 + 480 then (encode 0 (marchInstr ((n - 8) / 4) ((n - 8) % 4))).getD 0
  else marchData.getD (n - 488) 0

/-- First address of the mask ROM, and its size in bytes (R443). -/
def romBase : Nat := 0x400000
/-- The mask ROM ends below 0x0040_4000 (R443). -/
def romSize : Nat := 0x4000

end Sys2Proof.Machine
end

