-- ==== Sys2Proof/Machine/Repair.lean ====
section
/-! DEFINITION. Repair mode: the windows that slot A reaches by address (R443), spare rows (R444), the repair table
(R445, R446), REPARM (R447), REPINJ (R448) and REPSTAT (R449). -/

namespace Sys2Proof.Machine

/-- Bank and row of core-store offset `o`, and the number of its word within the row (R444). -/
def csRow (o : Nat) : Nat × Nat × Nat := (o / 64 % 32, o / 8192, o % 8192 / 2048 * 8 + o % 64 / 8)

/-- Bank and row of row `r` of vector register `n` (R444). -/
def vecRow (n r : Nat) : Nat × Nat := (n / 8, n % 8 * 16 + r)

/-- The spare that an entry in force gives to a row: the highest such entry governs (R447). -/
def Repair.spareFor (r : Repair) (arr bank row : Nat) : Option Nat :=
  (r.force.find? (fun f => f.1 == arr && f.2.1 == bank && f.2.2.1 == row)).map (·.2.2.2)

/-- Number of word `i` of spare `sp` of core-store bank `bank`. -/
def spareWord (bank sp i : Nat) : Nat := (bank * 4 + sp) * 32 + i

/-- The injected fault forces its bit in a word of the row that no spare replaces (R448). -/
def Repair.stuck (r : Repair) (o : Nat) (w : Word) : Word :=
  if bit r.repinj 63 && decide ((bits r.repinj 3 18).toNat = o / 8) then
    let m : Word := 1#64 <<< (bits r.repinj 56 6).toNat
    if bit r.repinj 62 then w ||| m else w &&& ~~~m
  else w

/-- What the core store holds at offset `o` when `w` is stored there: the bit that REPINJ forces keeps its value, unless a spare has
replaced its row. Spares are seen in repair mode alone, so that after it a row stands for its spare (R447, R448). -/
def Core.kept (c : Core) (o : Nat) (w : Word) : Word :=
  let (b, r, _) := csRow o
  if (c.repair.spareFor 0 b r).isSome then w else c.repair.stuck o w

/-- The forced bit has its value in the core store (R448). -/
def Core.force (c : Core) : Core :=
  if bit c.repair.repinj 63 then
    let n := (bits c.repair.repinj 3 18).toNat
    { c with store := c.store.write n (c.kept (8 * n) (c.store.word n)) (c.store.sealAt n) }
  else c

/-- A core-store word and its seal at offset `o`, through the entries in force (R443, R447). -/
def Core.csWord (c : Core) (o : Nat) : Word × BitVec 8 :=
  let (b, r, i) := csRow o
  match c.repair.spareFor 0 b r with
  | some sp => (c.repair.spareCs.word (spareWord b sp i), c.repair.spareCs.sealAt (spareWord b sp i))
  | Option.none => (c.repair.stuck o (c.store.word (o / 8)), c.store.sealAt (o / 8))

/-- A core-store word and its seal written at offset `o`. -/
def Core.putCsWord (c : Core) (o : Nat) (w : Word) (sl : BitVec 8) : Core :=
  let (b, r, i) := csRow o
  match c.repair.spareFor 0 b r with
  | some sp => { c with repair := { c.repair with spareCs := c.repair.spareCs.write (spareWord b sp i) w sl } }
  | Option.none => { c with store := c.store.write (o / 8) (c.repair.stuck o w) sl }

/-- Element `e` of vn in the register-file window. -/
def Core.vecElem (c : Core) (n e : Nat) : Elem :=
  let (b, r) := vecRow n (e / 64)
  match c.repair.spareFor 1 b r with
  | some sp => Tab.get 0 c.repair.spareV ((b * 4 + sp) * 64 + e % 64)
  | Option.none => VVal.get (c.regs.vget n) e

/-- Element `e` of vn written. -/
def Core.putVecElem (c : Core) (n e : Nat) (x : Elem) : Core :=
  let (b, r) := vecRow n (e / 64)
  match c.repair.spareFor 1 b r with
  | some sp => { c with repair := { c.repair with spareV := Tab.set c.repair.spareV ((b * 4 + sp) * 64 + e % 64) x } }
  | Option.none => { c with regs := c.regs.vset n (VVal.ofFn (fun j => if j = e then x else VVal.get (c.regs.vget n) j)) }

/-- The fields of a repair table entry that a write stores (R445). -/
def entryRw : Word := 0xDFFFFF00

/-- BANK and ROW name a row of their array (R445). -/
def entryInRange (x : Word) : Bool :=
  if bit x 30 then decide ((bits x 24 5).toNat < 20) && decide ((bits x 8 8).toNat < 128) else true

/-- An ST.d to entry `k` of the repair table: a valid one in range takes the bank's next spare, or sets OVF when none is
left (R446). -/
def Repair.writeEntry (r : Repair) (k : Nat) (x : Word) : Repair :=
  let old := Tab.get 0 r.table k
  let y := (x &&& entryRw) ||| (old &&& ~~~entryRw)
  if bit x 31 && entryInRange x then
    let key := 32 * (bits x 30 1).toNat + (bits x 24 5).toNat
    let n := Tab.get 0 r.spares key
    if n < 4 then
      { r with table := Tab.set r.table k ((y &&& ~~~(0x20000003 : Word)) ||| BitVec.ofNat 64 n), spares := Tab.set r.spares key (n + 1) }
    else { r with table := Tab.set r.table k (y ||| 0x20000000) }
  else { r with table := Tab.set r.table k y }

/-- A write to REPARM puts in force every entry with VALID = 1 and OVF = 0, the highest number first (R447). -/
def Repair.arm (r : Repair) : Repair :=
  { r with force := ((List.range 16).reverse.map (fun k => Tab.get 0 r.table k)).filterMap (fun e =>
      if bit e 31 && !bit e 29 then
        some ((bits e 30 1).toNat, (bits e 24 5).toNat, (bits e 8 8).toNat, (bits e 0 2).toNat)
      else Option.none) }

/-- The program's fields of REPSTAT; ABORT is the security processor's (R449). -/
def repstatRw : Word := 0xFFFFFFFFFFFF0007

/-- The doubleword at address `a` of a window, or nothing where a load there is a parking fault (R443). -/
def Core.repairLoad (c : Core) (a : Nat) : Option Word :=
  if a < 0x200000 then some (c.csWord a).1
  else if a < 0x240000 then
    some (wordOf (fun k => (c.csWord (64 * ((a - 0x200000) / 8) + 8 * k)).2))
  else if a < 0x300000 then Option.none
  else if a < 0x3A0000 then
    let o := a - 0x300000
    some (c.vecElem (o / 4096) (o % 4096 / 4 + 1) ++ c.vecElem (o / 4096) (o % 4096 / 4))
  else if a < 0x3F0000 then Option.none
  else if a < 0x3F0080 then some (Tab.get 0 c.repair.table ((a - 0x3F0000) / 8))
  else if a = 0x3F0100 then some c.repair.repstat
  else if a = 0x3F0108 then some 0
  else if a = 0x3F0110 then some c.repair.repinj
  else if romBase ≤ a ∧ a < romBase + romSize then some (romWord ((a - romBase) / 8))
  else Option.none

/-- The core after a doubleword store at address `a` of a window, or nothing where it is a parking fault (R443, R448). -/
def Core.repairStore (c : Core) (a : Nat) (x : Word) : Option Core :=
  if a < 0x200000 then some (c.putCsWord a x (sealOf x))
  else if a < 0x240000 then
    let o := 64 * ((a - 0x200000) / 8)
    some ((List.range 8).foldl (fun c k => c.putCsWord (o + 8 * k) (c.csWord (o + 8 * k)).1 (byteOf x k)) c)
  else if a < 0x300000 then Option.none
  else if a < 0x3A0000 then
    let o := a - 0x300000
    some ((c.putVecElem (o / 4096) (o % 4096 / 4) (bits x 0 32)).putVecElem (o / 4096) (o % 4096 / 4 + 1) (bits x 32 32))
  else if a < 0x3F0000 then Option.none
  else if a < 0x3F0080 then some { c with repair := c.repair.writeEntry ((a - 0x3F0000) / 8) x }
  else if a = 0x3F0100 then
    some { c with repair := { c.repair with repstat := (x &&& repstatRw) ||| (c.repair.repstat &&& ~~~repstatRw) } }
  else if a = 0x3F0108 then some { c with repair := c.repair.arm }
  else Option.none

/-- The core is in repair mode (R442). -/
def Core.inRepair (c : Core) : Bool := c.repair.active && c.bind.isNone

/-- A core is still in repair mode: a slot of it has not halted (R442). -/
def Core.repairing (c : Core) : Bool := c.repair.active && c.bind.isNone && allSlots.any (fun k => !(c.slot k).halted)

/-- Slot A of the core still runs in repair mode, and stores to the windows (R442, R443). -/
def Core.repairStores (c : Core) : Bool := c.inRepair && !(c.slot .A).halted

/-- REPAIR_TABLE_WRITE: an ST.d of slot A to entry k (R446). -/
def execRepairTableWrite (core k : Nat) (x : Word) (s : State) : Host.Outcome State Fault Refusal :=
  .next (if (s.core core).repairStores && decide (k < 16) then
    s.modCore core (fun c => { c with repair := c.repair.writeEntry k x }) else s)

/-- REPARM (R447). -/
def execReparm (core : Nat) (s : State) : Host.Outcome State Fault Refusal :=
  .next (if (s.core core).repairStores then s.modCore core (fun c => { c with repair := c.repair.arm }) else s)

end Sys2Proof.Machine
end

