-- ==== Sys2Proof/Machine/Holder.lean ====
section
/-! DEFINITION. Words at their holders: the holder of a word (R170), reads through the caches and leases (R253), writes
(R254), partial-store merges (R173), evictions (R256), and the seal check of a consuming lane (R406). -/

namespace Sys2Proof.Machine

/-- The partition and the virtual core of a core that runs a task. -/
def State.bindOf (s : State) (c : Nat) : Option Bind := (s.core c).bind

/-- NCL of a partition (R28). -/
def Partition.ncl (p : Partition) : Nat := p.clusters.length

/-- Bits lo to lo + n - 1 set. -/
def maskBits (w lo n : Nat) : BitVec w := BitVec.ofNat w ((2 ^ n - 1) * 2 ^ lo)

/-- The peer group of a launch: p2 [63:52] of its packet (R323). -/
def Launch.peer (l : Launch) : BitVec 12 := if bits (wordAt l.words 0) 60 4 = 1 then bits (wordAt l.words 2) 52 12 else 0

/-- A fixed entry cl0 to cl3 as a core of virtual number `v` reads it (R199). -/
def fixedEntry (p : Partition) (v l : Nat) : ClEntry :=
  let n := p.ncl
  if l = 0 then { cores := maskBits 256 v 1, valid := true, ccm := maskBits 32 (v / 8) 1 }
  else if l = 1 then { cores := maskBits 256 (v / 8 * 8) 8, valid := true, ccm := maskBits 32 (v / 8) 1 }
  else if l = 2 then { cores := maskBits 256 0 (8 * n), valid := true, ccm := maskBits 32 0 n, home := true }
  else { cores := maskBits 256 0 (8 * n), valid := true, ccm := maskBits 32 0 n, home := true, sys := true,
         peer := match p.launch with | some x => x.peer | Option.none => 0 }

/-- The copy of entry `l` that a core holds (R47, R199). -/
def State.entry (s : State) (c l : Nat) : ClEntry :=
  if l < 4 then
    match (s.core c).bind with
    | some b => fixedEntry (s.part b.part) b.vcore l
    | Option.none => fixedEntry {} 0 l
  else Tab.get {} (s.core c).cl l

/-- The virtual number of a core; 0 for one that has none. -/
def State.vcoreOf (s : State) (c : Nat) : Nat := match (s.core c).bind with | some b => b.vcore | Option.none => 0

/-- The partition of a core; 0 for one that has none. -/
def State.partOf (s : State) (c : Nat) : Nat := match (s.core c).bind with | some b => b.part | Option.none => 0

/-! Membership (R269, R270). -/

/-- The peer group of a core's launch; 0 is none (R301). -/
def State.peerOf (s : State) (c : Nat) : BitVec 12 :=
  match (s.part (s.partOf c)).launch with
  | some l => l.peer
  | Option.none => 0

/-- The entry names the launch's peer group: every party of the launch's devices is a member (R269). -/
def ClEntry.namesGroup (e : ClEntry) (peer : BitVec 12) : Bool := e.sys && e.peer == peer && peer != 0

/-- A party on virtual core `v` is a member of the entry (R269). A party that runs on no core is no party of R17, and stands in
no mask: its order with the others is that of R324, and it counts as a member (log 63). -/
def ClEntry.member (e : ClEntry) (peer : BitVec 12) (v : Nat) : Bool :=
  decide (256 ≤ v) || bit e.cores v || e.namesGroup peer

/-- What a release on entry `e` by the party on virtual core `v` leaves with the keeper of a timestamp (R255, R270). -/
def ClEntry.release (e : ClEntry) (peer : BitVec 12) (v ts : Nat) : Release :=
  { core := v, mask := e.cores, group := e.namesGroup peer, ts }

/-- The release of a party that runs on no core. -/
def Release.ofNone (ts : Nat) : Release := { core := 256, mask := BitVec.allOnes 256, group := true, ts }

/-- Of the releases by one core on one list, the latest stays. -/
def keepRelease (r : Release) : List Release → List Release
  | [] => [r]
  | x :: l => if x.core = r.core ∧ x.mask = r.mask ∧ x.group = r.group then { x with ts := max x.ts r.ts } :: l
              else x :: keepRelease r l

/-- The release synchronises with an acquire on entry `e` by the party on virtual core `v`: each is a member of the other's list
(R270). -/
def Release.meets (r : Release) (e : ClEntry) (peer : BitVec 12) (v : Nat) : Bool :=
  (bit r.mask v || r.group) && e.member peer r.core

/-- The largest time among the releases that `f` admits. -/
def timeOf (l : List Release) (f : Release → Bool) : Nat := l.foldl (fun t r => if f r then max t r.ts else t) 0

/-- What an acquire adopts of a timestamp `rts` that the releases `l` have raised, when those which synchronise with it have come
to `t` (R255, R270): `t` at least. Where others stand behind it the acquire gains no order from them, and whether the device adopts
their time with the rest is a free value (log 63). -/
def State.adopts (s : State) (t rts : Nat) : Nat × State :=
  if rts ≤ t then (t, s)
  else
    let x := s.free
    (if bit x.1 0 then rts else t, x.2)

/-- The place of a physical address whose page has no attribute of its own. -/
def Place.plain (pa : Nat) : Place := { home := if Config.hostBase ≤ pa then 3 else 0, phys := 0, pa := pa, off := 0 }

/-- The place as partition `part` reaches it: words of host space have its own time (R252). -/
def Place.of (p : Place) (part : Option Nat) : Place := if p.inHost then { p with far := part } else p

/-- The place `d` bytes further on in the same page. -/
def Place.plus (p : Place) (d : Nat) : Place := { p with pa := p.pa + d, off := p.off + d }

/-- The place of address `b` in the page that maps address `a` to the place `p`. -/
def Place.from_ (p : Place) (a b : Nat) : Place := { p with pa := p.pa + b - a, off := p.off + b - a }

/-- The channel of a physical address of HBM, which is also its LLC slice (R249). -/
def channelOf (pa : Nat) : Nat :=
  let c := pa / Config.clusterBytes
  12 * c + (pa % Config.clusterBytes) / 256 % 12

/-- The slice of a cluster's L2, 0 to 47, in which a line stands (R3). R261 gives it for the lines of pages homed there; that a copy of
any other line stands in the slice of the same formula is the model's choice (log 72). -/
def l2Slice (line : Nat) : Nat := line % 48

/-- A physical address that names a target (R248). -/
def hasTarget (pa : Nat) : Bool := decide (pa < Config.hbmEnd) || (decide (Config.hostBase ≤ pa) && decide (pa < 2 ^ 52))

/-- Logical time of a party (R252). -/
def State.pts (s : State) : Party → Nat
  | .slot c k => ((s.core c).slot k).pts
  | .queue c q => ((s.core c).queue q).pts
  | .ring p r => ((s.part p).ring r).pts
  | .dispatcher p => (s.part p).dispPts
  | .completion _ => 0

/-- The state with the logical time of a party raised to `t` at least. -/
def State.raisePts (s : State) (who : Party) (t : Nat) : State :=
  match who with
  | .slot c k => s.modCore c (fun x => x.modSlot k (fun y => { y with pts := max y.pts t }))
  | .queue c q => s.modCore c (fun x => x.modQueue q (fun y => { y with pts := max y.pts t }))
  | .ring p r => s.modPart p (fun x => x.modRing r (fun y => { y with pts := max y.pts t }))
  | .dispatcher p => s.modPart p (fun x => { x with dispPts := max x.dispPts t })
  | .completion _ => s

/-- The core on which a party runs. -/
def partyCore : Party → Option Nat
  | .slot c _ | .queue c _ => some c
  | .ring .. | .dispatcher _ | .completion _ => Option.none

/-- The cluster of a core (R26). -/
def clusterOf (c : Nat) : Nat := c / 8

/-- The word at an address of another device, read as free value number `n`, with its seal: the word is a free value, and so is what its
seal differs by (R263, R386). -/
def remoteAt (n pa : Nat) : Word × BitVec 8 :=
  (Config.remoteWord n (pa / 8), sealOf (Config.remoteWord n (pa / 8)) ^^^ Config.remoteFlaw n (pa / 8))

/-- The word and its seal at the holder; a word of another device is read anew each time.
The ingress lane makes the seal of a word of host space; one that left poisoned comes back so (R265). -/
def State.holderWord (s : State) (p : Place) : Word × BitVec 8 :=
  if p.home = 1 then ((s.core p.phys).store.word (p.off / 8), (s.core p.phys).store.sealAt (p.off / 8))
  else if p.home = 2 then ((s.cluster p.phys).l2Home.word (p.pa / 8), (s.cluster p.phys).l2Home.sealAt (p.pa / 8))
  else if remoteBase ≤ p.pa then remoteAt s.fresh p.pa
  else if Config.hostBase ≤ p.pa then
    let w := s.mem.word (p.pa / 8)
    (w, if poisoned w (s.mem.sealAt (p.pa / 8)) then poisonSeal w else sealOf w)
  else (s.mem.word (p.pa / 8), s.mem.sealAt (p.pa / 8))

/-- What a second reading of the word gives: that of the holder's array, of HBM for a clean line (R173, R264), or another word of
another device. -/
def State.secondWord (s : State) (p : Place) : Word × BitVec 8 :=
  let x := s.holderWord p
  if p.home = 1 then secondIn (s.core p.phys).again (p.off / 8) x
  else if p.home = 2 then secondIn (s.cluster p.phys).again (p.pa / 8) x
  else if remoteBase ≤ p.pa then remoteAt (s.fresh + 1) p.pa
  else if Config.hostBase ≤ p.pa then x
  else secondIn s.again (p.pa / 8) x

/-- The word that a checking unit at the holder works with: `x` as first read, or the second reading of a damaged one (R173, R175). -/
def State.checked (s : State) (p : Place) (x : Word × BitVec 8) : Word × BitVec 8 :=
  if sealOk x.1 x.2 then x else s.secondWord p

/-- A line that is written is dirty in its home: its array has the only copy (R264). -/
def State.dirty (s : State) (p : Place) : State :=
  let keep (l : List Again) : List Again := l.filter (fun a => !(a.clean && a.n / 16 == p.pa / 128))
  if p.home = 2 then s.modCluster p.phys (fun c => { c with again := keep c.again })
  else
    { s with again := keep s.again
             homeDirty := if s.homeDirty.contains (p.pa / 128) then s.homeDirty else p.pa / 128 :: s.homeDirty }

/-- The holder's word and seal replaced. What a write leaves on another device is that device's. -/
def State.putHolder (s : State) (p : Place) (w : Word) (sl : BitVec 8) : State :=
  if p.home = 1 then s.modCore p.phys (fun c => { c with store := c.store.write (p.off / 8) (c.kept p.off w) sl })
  else if p.home = 2 then s.modCluster p.phys (fun c => { c with l2Home := c.l2Home.write (p.pa / 8) w sl })
  else if remoteBase ≤ p.pa then s
  else { s with mem := s.mem.write (p.pa / 8) w sl }

/-- The accesses of the holder's own partition take leases per line (attributes 00 and 10); the others keep one RTS (R250, R252). -/
def Place.leased (p : Place) : Bool := p.far.isNone && (p.home == 0 || p.home == 2)

/-- The holder of a word that another partition reaches through a window keeps leases for its own (R253). -/
def Place.lent (p : Place) : Bool := p.far.isSome && (p.home == 0 || p.home == 2)

/-- The home line's timestamps. A line that the home does not hold is filled with wts = rts = MEMTS (R256). -/
def State.homeTs (s : State) (p : Place) : HomeLine :=
  if p.home = 2 then
    match Tab.find? (s.cluster p.phys).l2HomeTs (p.pa / 128) with
    | some (w, r) => { wts := w, rts := r }
    | Option.none =>
      let t := Tab.get 0 (s.cluster p.phys).memts (l2Slice (p.pa / 128))
      { wts := t, rts := t }
  else
    match Tab.find? s.homes (p.pa / 128) with
    | some h => h
    | Option.none => { wts := Tab.get 0 s.memts (channelOf p.pa), rts := Tab.get 0 s.memts (channelOf p.pa) }

/-- The line belongs to a page that is kept in the LLC (R261). -/
def State.keptLine (s : State) (line : Nat) : Bool :=
  s.parts.any (fun x => x.2.pins.any (fun p => p.home == 0 && decide (p.pa ≤ 128 * line) && decide (128 * line < p.pa + p.size)))

/-- An LLC home evicts a line: MEMTS rises to the line's rts, and the line is filled again from HBM when it is next
needed (R256). One that has been written goes back to HBM (R347). -/
def State.evict (s : State) (line : Nat) : State :=
  match Tab.find? s.homes line with
  | Option.none => s
  | some h =>
    let c := channelOf (line * 128)
    let s := if s.homeDirty.contains line then s.hbmMoves (line * 128) 128 else s
    { s with homes := Tab.erase s.homes line, homeDirty := s.homeDirty.filter (· != line)
             memts := Tab.set s.memts c (max (Tab.get 0 s.memts c) h.rts) }

/-- Lines of 128 bytes that an LLC slice of 4 MiB holds (R2). -/
def llcLines : Nat := 32768

/-- Room for a line in its LLC slice: a full slice evicts one that is not kept first (R256, R261). Which one is a free value: the
spec does not say (log 4). -/
def State.llcRoom (s : State) (line : Nat) : State :=
  let here := s.homes.filter (fun h => channelOf (h.1 * 128) == channelOf (line * 128))
  if (Tab.find? s.homes line).isSome || decide (here.length < llcLines) then s
  else
    let l := here.filter (fun h => !s.keptLine h.1)
    let x := s.free
    match l[x.1.toNat % l.length]? with
    | some h => x.2.evict h.1
    | Option.none => s

/-- The home line's timestamps replaced. A line that enters an LLC slice takes its place there and is filled from HBM (R256, R347). -/
def State.setHomeTs (s : State) (p : Place) (h : HomeLine) : State :=
  if p.home = 2 then
    s.modCluster p.phys (fun c => { c with l2HomeTs := Tab.set c.l2HomeTs (p.pa / 128) (h.wts, h.rts) })
  else
    let s := s.llcRoom (p.pa / 128)
    let s := if (Tab.find? s.homes (p.pa / 128)).isSome then s else s.hbmMoves p.pa 128
    { s with homes := Tab.set s.homes (p.pa / 128) h }

/-- The key of the bypass slice of a place (R249, R252). Host space and the words behind windows have one for each partition that
reaches them: its time is its own. -/
def Place.bypass (p : Place) : Nat := match p.far with | some q => 384 + q | Option.none => channelOf p.pa

/-- The place is in a core store of the partition that reaches it. -/
def Place.banked (p : Place) : Bool := p.far.isNone && p.home == 1

/-- RTS of a core-store bank or of a bypass slice (R252). -/
def State.rts (s : State) (p : Place) : Nat :=
  if p.banked then Tab.get 0 s.bankRts (32 * p.phys + p.off / 64 % 32)
  else Tab.get 0 s.bypassRts p.bypass

/-- RTS replaced. -/
def State.setRts (s : State) (p : Place) (t : Nat) : State :=
  if p.banked then { s with bankRts := Tab.set s.bankRts (32 * p.phys + p.off / 64 % 32) t }
  else { s with bypassRts := Tab.set s.bypassRts p.bypass t }

/-- The releases that a core-store bank or a bypass slice has taken (R270). -/
def State.rels (s : State) (p : Place) : List Release :=
  if p.banked then Tab.get [] s.bankRels (32 * p.phys + p.off / 64 % 32)
  else Tab.get [] s.bypassRels p.bypass

/-- One more release there. -/
def State.addRel (s : State) (p : Place) (r : Release) : State :=
  let l := keepRelease r (s.rels p)
  if p.banked then { s with bankRels := Tab.set s.bankRels (32 * p.phys + p.off / 64 % 32) l }
  else { s with bypassRels := Tab.set s.bypassRels p.bypass l }

/-- The copy of a line that a cache holds for the party's partition, when its lease covers the party's time. -/
def hit (t : Tab CacheLine) (line part pts : Nat) : Option CacheLine :=
  match Tab.find? t line with
  | some l => if l.part = part ∧ pts ≤ l.rts then some l else Option.none
  | Option.none => Option.none

/-- A party reads through its lease cache: slots A and E (R250). -/
def usesLease : Party → Bool
  | .slot _ .A | .slot _ .E => true
  | _ => false

/-- The line of a place as its home holds it: 16 words with seals. -/
def State.holderLine (s : State) (p : Place) : List (Word × BitVec 8) :=
  (List.range 16).map (fun k => s.holderWord { p with pa := p.pa / 128 * 128 + 8 * k })

/-- Lines of 128 bytes that a lease cache of 128 KiB and an L2 slice of 256 KiB hold (R251). -/
def leaseLines : Nat := 1024
/-- The same of an L2 slice (R251). -/
def l2Lines : Nat := 2048

/-- Of the lines that a table lists, those of slice `k`. -/
def inSlice {α : Type} (slice : Nat → Nat) (t : Tab α) (k : Nat) : Tab α := t.filter (fun x => slice x.1 == k)

/-- A slice of `cap` lines has room for the line: it holds it already, or is not full (R251). -/
def roomIn (slice : Nat → Nat) (cap : Nat) (t : Tab CacheLine) (line : Nat) : Bool :=
  (Tab.find? t line).isSome || decide ((inSlice slice t (slice line)).length < cap)

/-- Slice `k` comes down to `cap` lines; those that leave it follow one another from place `out` on. -/
def trimSlice (slice : Nat → Nat) (cap : Nat) (t : Tab CacheLine) (k out : Nat) : Tab CacheLine :=
  let here := inSlice slice t k
  ((here.drop (out % here.length) ++ here.take (out % here.length)).take (here.length - cap)).foldl (fun t x => Tab.erase t x.1) t

/-- A line enters a cache: when its slice is full, others make room for it. -/
def keepLine (slice : Nat → Nat) (cap : Nat) (t : Tab CacheLine) (line : Nat) (l : CacheLine) (out : Nat) : Tab CacheLine :=
  Tab.set (if roomIn slice cap t line then t else trimSlice slice (cap - 1) t (slice line) out) line l

/-- Of `n` lines from number `a` on, those in slice `k` of a cluster's L2. -/
def linesIn (a n k : Nat) : Nat := (a + n + 47 - k) / 48 - (a + 47 - k) / 48

/-- Lines of slice `k` of a cluster's L2 that are left for copies: those of pinned pages, and the ways that the budget of the cluster's
holder reserves, are not (R251, R259, R261, log 72). -/
def State.l2Room (s : State) (c k : Nat) : Nat :=
  let pinned := s.parts.foldl (fun n x =>
    (x.2.pins.filter (fun y => y.home == 2 && y.phys == c)).foldl (fun n y => n + linesIn (y.pa / 128) (y.size / 128) k) n) 0
  let reserved := match (s.cluster c).holder with
    | some q => ((bits (Tab.get 0 (s.part q).budget ((s.part q).clusters.findIdx (· == c))) 48 5).toNat * l2Lines + 47) / 48
    | Option.none => 0
  l2Lines - max pinned reserved

/-- The copies in a cluster's L2 make room for a page that is pinned there; which leave is a free value (log 4). -/
def State.trimL2 (s : State) (c : Nat) : State :=
  let x := s.free
  x.2.modCluster c (fun k => { k with
    l2 := (List.range 48).foldl (fun t i => trimSlice l2Slice (s.l2Room c i) t i x.1.toNat) k.l2 })

/-- The lease cache of the core keeps the line. Which line leaves a full cache is a free value: the spec does not say
(R251, log 4). -/
def State.keepLease (s : State) (c line : Nat) (l : CacheLine) : State :=
  let x := if roomIn (fun _ => 0) leaseLines (s.core c).lease line then (0, s) else s.free
  x.2.modCore c (fun k => { k with lease := keepLine (fun _ => 0) leaseLines k.lease line l x.1.toNat })

/-- The same of the slice of a cluster's L2 in which the line stands. -/
def State.keepL2 (s : State) (c line : Nat) (l : CacheLine) : State :=
  let room := s.l2Room c (l2Slice line)
  let x := if roomIn l2Slice room (s.cluster c).l2 line then (0, s) else s.free
  x.2.modCluster c (fun k => { k with l2 := keepLine l2Slice room k.l2 line l x.1.toNat })

/-- The caches on the return path keep the line with the home's wts and rts (R253): the lease cache of slots A and E,
and the L2 of the core's cluster for attribute 00. -/
def State.keepCopy (s : State) (who : Party) (p : Place) (l : CacheLine) : State :=
  match partyCore who with
  | Option.none => s
  | some c =>
    let s := if usesLease who then s.keepLease c (p.pa / 128) l else s
    if p.home = 0 then s.keepL2 (clusterOf c) (p.pa / 128) l else s

/-- The home line after it has granted a lease to a reader of time `pts` (R253). -/
def HomeLine.grant (h : HomeLine) (pts : Nat) : HomeLine :=
  { h with rts := max h.rts (max (h.wts + Config.lease) (pts + Config.lease)) }

/-- A read that is performed at its holder and leaves no copy behind: that of an atomic which writes nothing (R253, R254). -/
def State.readAtHolder (s : State) (who : Party) (p : Place) : State :=
  if p.leased then
    let h := (s.homeTs p).grant (s.pts who)
    (s.setHomeTs p h).raisePts who h.wts
  else s

/-- A read that reaches the home and takes a lease of 32, or is served at a holder that keeps one RTS (R253). An
acquire adopts the word's wts here; what it adopts of an RTS depends on its list (R255, R270). -/
def State.readHome (s : State) (who : Party) (p : Place) (acq : Bool) : (Word × BitVec 8) × State :=
  if p.leased then
    let h := (s.homeTs p).grant (s.pts who)
    let s := s.setHomeTs p h
    let l : CacheLine := { words := s.holderLine p, wts := h.wts, rts := h.rts, part := (s.partyPart who).getD 255 }
    (s.holderWord p, (s.keepCopy who p l).raisePts who h.wts)
  else (s.holderWord p, if acq && (partyCore who).isNone then s.raisePts who (s.rts p) else s)

/-- A read of a word by a party: its lease cache, the cluster's L2, then the home (R253). An acquire is served at the
holder and never from a copy (R274). -/
def State.readWord (s : State) (who : Party) (p : Place) (acq : Bool) : (Word × BitVec 8) × State :=
  match (if acq || !p.leased then Option.none else partyCore who) with
  | Option.none => s.readHome who p acq
  | some c =>
    let part := (s.partyPart who).getD 255
    let line := p.pa / 128
    let fromLease := if usesLease who then hit (s.core c).lease line part (s.pts who) else Option.none
    let fromL2 := if p.home = 0 then hit (s.cluster (clusterOf c)).l2 line part (s.pts who) else Option.none
    match fromLease, fromL2 with
    | some l, _ => (l.words.getD (p.pa / 8 % 16) (0, 0), s.raisePts who l.wts)
    | Option.none, some l =>
      let s := if usesLease who then s.keepLease c line l else s
      (l.words.getD (p.pa / 8 % 16) (0, 0), s.raisePts who l.wts)
    | Option.none, Option.none => s.readHome who p acq

/-- The caches on the writer's path that hold the line take the new data with wts = rts = h.wts (R254). -/
def State.updateCopies (s : State) (who : Party) (p : Place) (t : Nat) : State :=
  match partyCore who with
  | Option.none => s
  | some c =>
    let fresh (x : CacheLine) : CacheLine := { x with words := s.holderLine p, wts := t, rts := t }
    let upd (tab : Tab CacheLine) : Tab CacheLine :=
      match Tab.find? tab (p.pa / 128) with
      | some x => Tab.set tab (p.pa / 128) (fresh x)
      | Option.none => tab
    let s := if usesLease who then s.modCore c (fun x => { x with lease := upd x.lease }) else s
    if p.home = 0 then s.modCluster (clusterOf c) (fun x => { x with l2 := upd x.l2 }) else s

/-- The timestamps of a write performed at its holder, and the writer's time (R254). One that comes through a window outlives the leases
that the holder has granted in its own partition's time. -/
def State.stamp (s : State) (who : Party) (p : Place) (release : Bool) : State :=
  if p.leased then
    let h := s.homeTs p
    let t := max (s.pts who) (h.rts + 1)
    (((s.setHomeTs p { wts := t, rts := t }).raisePts who t).updateCopies who p t).dirty p
  else
    let t := max (s.pts who) (s.rts p + 1)
    let s := s.raisePts who t
    let s := if p.lent then
        let n := (s.homeTs p).rts + 1
        (s.setHomeTs p { wts := n, rts := n }).dirty p
      else s
    if release then
      let s := s.setRts p t
      if (partyCore who).isNone then s.addRel p (.ofNone t) else s
    else s

/-- What became of a store at its holder. -/
inductive Stored where
  | done (s : State)
  /-- dropped: the holder's word is damaged, with the syndromes `y` (R173) -/
  | lost (y : Syndromes) (s : State)

/-- Merge of R173 for a contribution P: the new seal is formed from the old one, the bytes that are replaced, and P. -/
def mergeWord (w : Word) (sl : BitVec 8) (n mask : Word) (p : BitVec 8) : Word × BitVec 8 :=
  ((w &&& ~~~mask) ||| n, sl ^^^ sealOf (w &&& mask) ^^^ p)

/-- A store of `n` to the bytes `m` of a word at its holder, where `old` stands with its seal, with the contribution or the seal
`p`; bytes of `n` outside `m` are zero. A store that covers the whole word is written without a check (R172). Any other is merged:
the old word's seal is checked, a broken word is read once more, and one that is broken then too is marked poisoned (R173).
`poison` says that the stored bytes come from a poisoned
word: the result is written poisoned (R227). -/
def State.mergeOver (s : State) (old : Word × BitVec 8) (who : Party) (p : Place) (n : Word) (m pc : BitVec 8)
    (poison release : Bool) : Stored :=
  let s := s.meter who p ((List.range 8).filter (bit m)).length
  let seal_ (w : Word) (sl : BitVec 8) : BitVec 8 := if poison then poisonSeal w else sl
  if m = 0xFF then .done ((s.putHolder p n (seal_ n pc)).stamp who p release)
  else
    let x := s.checked p old
    if poisoned old.1 old.2 then .lost (0xFF, 0xFF) s
    else if !sealOk x.1 x.2 then .lost (syn old.1 old.2, syn x.1 x.2) (s.putHolder p x.1 (poisonSeal x.1))
    else
      let (w', sl') := mergeWord x.1 x.2 n (byteMask m) pc
      .done ((s.putHolder p w' (seal_ w' sl')).stamp who p release)

/-- The same over the word that the holder has. -/
def State.mergeHolder (s : State) (who : Party) (p : Place) (n : Word) (m pc : BitVec 8) (poison release : Bool) : Stored :=
  s.mergeOver (s.holderWord p) who p n m pc poison release

/-- A store by a producing lane, which forms the contribution itself (R172). -/
def State.writeHolder (s : State) (who : Party) (p : Place) (n : Word) (m : BitVec 8) (release : Bool) : Stored :=
  s.mergeHolder who p n m (sealOf n) false release

/-- A consuming lane that finds a mismatch drops the copies in its own lease cache and its cluster's L2 (R264). -/
def State.dropCopies (s : State) (who : Party) (p : Place) : State :=
  match partyCore who with
  | Option.none => s
  | some c =>
    let s := s.modCore c (fun x => { x with lease := Tab.erase x.lease (p.pa / 128) })
    s.modCluster (clusterOf c) (fun x => { x with l2 := Tab.erase x.l2 (p.pa / 128) })

/-- `n` seal errors that second readings have repaired are counted (R418). -/
def State.countSeal (s : State) (n : Nat) : State :=
  if n = 0 then s else { s with ecseal := BitVec.ofNat 64 (min (s.ecseal.toNat + n) (2 ^ 64 - 1)) }

/-- One word is read once more at its holder, past the lane's own copies; what the array served again stays in no cache (R264,
R406). -/
def State.readAgain (s : State) (who : Party) (p : Place) (acq : Bool) : (Word × BitVec 8) × State :=
  let y := s.secondWord p
  let s := s.meter who p 8
  let s := if remoteBase ≤ p.pa then s.free.2 else s
  let (x, t) := (s.dropCopies who p).readHome who p acq
  if y = x then (x, t) else (y, t.dropCopies who p)

/-- What a consuming lane gets of a word (R406). -/
inductive Consumed where
  | good (w : Word) (s : State)
  /-- the syndromes of both readings -/
  | lost (y1 y2 : BitVec 8) (s : State)

/-- Consume of R406 in one action: the word as read, and on a mismatch one more reading at the holder. ECSEAL counts the
errors that the second reading repaired (R418). -/
def State.consume (s : State) (who : Party) (p : Place) (acq : Bool) : Consumed :=
  let ((w, sl), s) := (s.meter who p 8).readWord who p acq
  if sealOk w sl then .good w s
  else
    let ((w', sl'), s) := s.readAgain who p acq
    if sealOk w' sl' then .good w' (s.countSeal 1) else .lost (syn w sl) (syn w' sl') s

/-- A loss by a word that failed both readings, with syndromes `y1` and `y2`: 0x62 for a poisoned word, else 0x60. `hbm`
says that the second reading counts as one from this device's HBM (R406, R413, R414). -/
def Loss.broken (y1 y2 : BitVec 8) (src : LossSource) (who : Party) (va : Word) (pa : Nat) (hbm : Bool) : Loss :=
  { cause := if y2 = 0xFF then 0x62 else 0x60, source := src, party := some who, va, pa := BitVec.ofNat 52 pa
    detail := 0#47 ++ ofBool1 hbm ++ y1 ++ y2, fromHbm := hbm }

/-- A loss found at a place of memory. A word reached through a fabric window has PA 0, and does not count as from this device's HBM
(R413, R414). -/
def Loss.found (y1 y2 : BitVec 8) (src : LossSource) (who : Party) (va : Word) (p : Place) : Loss :=
  let here := p.win.isNone && decide (p.pa < remoteBase)
  Loss.broken y1 y2 src who va (if here then p.pa else 0) (here && p.home != 1 && decide (p.pa < Config.hbmEnd))

/-- A loss found in an array of the core, which has neither a virtual nor a physical address. -/
def Loss.inside (y : Syndromes) (src : LossSource) (who : Party) : Loss := Loss.broken y.1 y.2 src who 0 0 false

end Sys2Proof.Machine
end

