-- ==== Sys2Proof/Machine/Translate.lean ====
section
/-! DEFINITION. Translation in two stages (R350 to R356), the caches of translations (R354), and pinned pages (R261,
R262). -/

namespace Sys2Proof.Machine

/-- A fault of a walk: its cause, the intermediate address it concerns and whether a stage-1 table read met it (R357),
a retired frame (R416), a refusal by the far end of a window (R385), or a lost context (R406). -/
inductive WalkFault where
  | fault (cause : BitVec 8) (table : Bool) (ipa : Nat)
  | retired (table : Bool) (ipa : Nat)
  | refused (cause reason : BitVec 8) (table : Bool) (ipa : Nat)
  | lost (y : Syndromes) (pa : Nat)
deriving DecidableEq, Repr

/-- The final stage-2 leaf of an address. -/
structure Leaf2 where
  pa : Nat
  base : Nat
  size : Nat
  r : Bool
  w : Bool
  x : Bool
  nc : Bool
  d : Bool
  /-- physical address and value of the entry -/
  at_ : Nat
  entry : Word
deriving DecidableEq, Repr

/-- A table entry read at its holder; the walker is the consuming lane, which reads a damaged one once more (R352, R406). -/
def State.readEntry (s : State) (pa : Nat) : Except WalkFault Word :=
  let x := (s.mem.word (pa / 8), s.mem.sealAt (pa / 8))
  let (w, sl) := if sealOk x.1 x.2 then x else secondIn s.again (pa / 8) x
  if sealOk w sl then .ok w else .error (.lost (syn x.1 x.2, syn w sl) pa)

/-- A table entry was damaged as first read, and sound as read again (R406). -/
def State.entryMended (s : State) (pa : Nat) : Bool :=
  !sealOk (s.mem.word (pa / 8)) (s.mem.sealAt (pa / 8)) && (match s.readEntry pa with | .ok _ => true | .error _ => false)

/-- The address field of an entry: bits [51:12]. -/
def entryAddr (e : Word) : Nat := (bits e 12 40).toNat * 4096

/-- A valid stage-2 table entry: every field but V and the address is 0 (R351). -/
def table2Ok (e : Word) : Bool := bit e 0 && e &&& 0xFFF0000000000FFE == 0

/-- A valid stage-2 leaf of a page of `size` bytes (R351): no reserved field, P64 only where the level allows it. -/
def leaf2Ok (e : Word) (size : Nat) (p64 : Bool) : Bool :=
  bit e 0 && bit e 1 && e &&& 0xFFF0000000000E00 == 0 && bit e 8 == p64 && decide (entryAddr e % size = 0)

/-- The leaf that an entry gives for the address `ipa`. -/
def mkLeaf2 (e : Word) (at_ ipa size : Nat) : Leaf2 :=
  { pa := entryAddr e + ipa % size, base := ipa / size * size, size := size, r := bit e 2, w := bit e 3, x := bit e 4,
    nc := bit e 7, d := bit e 6, at_ := at_, entry := e }

/-- The last level of stage 2: a 4 KiB leaf, or the first entry of a group of 16 (R353). -/
def State.stage2Last (s : State) (table ipa : Nat) : Except WalkFault Leaf2 := do
  let i := ipa / 2 ^ 12 % 512
  let e ← s.readEntry (table + 8 * i)
  if bit e 8 then
    let at_ := table + 8 * (i / 16 * 16)
    let e ← s.readEntry at_
    if leaf2Ok e 0x10000 true then .ok (mkLeaf2 e at_ ipa 0x10000) else .error (.fault 0x12 false ipa)
  else if leaf2Ok e 0x1000 false then .ok (mkLeaf2 e (table + 8 * i) ipa 0x1000)
  else .error (.fault 0x12 false ipa)

/-- A stage-2 level above the last: `size` is what a leaf here would map, and `rest` walks the next table. -/
def State.stage2Mid (s : State) (table ipa size : Nat) (rest : Nat → Except WalkFault Leaf2) :
    Except WalkFault Leaf2 := do
  let at_ := table + 8 * (ipa / size % 512)
  let e ← s.readEntry at_
  if bit e 1 then
    if leaf2Ok e size false then .ok (mkLeaf2 e at_ ipa size) else .error (.fault 0x12 false ipa)
  else if table2Ok e && hasTarget (entryAddr e) then rest (entryAddr e)
  else .error (.fault 0x12 false ipa)

/-- Some byte of the page at `pa` of `size` bytes lies in a retired frame (R416). -/
def State.retiredIn (s : State) (pa size : Nat) : Bool :=
  s.retired.any (fun f => decide (f.1 < pa + size) && decide (pa < f.1 + 4096))

/-- The walk from S2ROOT: a root of 8,192 entries, then leaves of 1 GiB, 2 MiB, and 4 KiB or 64 KiB; the address must
name a target (R248, R350, R352), and no byte of the leaf a retired frame (R416). -/
def State.stage2 (s : State) (root : Word) (ipa : Nat) : Except WalkFault Leaf2 := do
  if !bit root 0 || decide (2 ^ 52 ≤ ipa) then .error (.fault 0x12 false ipa)
  else
    let base := (bits root 16 36).toNat * 65536
    let e ← s.readEntry (base + 8 * (ipa / 2 ^ 39))
    if !table2Ok e || !hasTarget (entryAddr e) then .error (.fault 0x12 false ipa)
    else
      let l ← s.stage2Mid (entryAddr e) ipa (2 ^ 30)
        (fun t => s.stage2Mid t ipa (2 ^ 21) (fun t => s.stage2Last t ipa))
      if !hasTarget l.pa then .error (.fault 0x12 false ipa)
      else if s.retiredIn (l.pa / l.size * l.size) l.size then .error (.retired false ipa)
      else .ok l

/-- The table that a stage-2 entry names. -/
def State.next2 (s : State) (at_ : Nat) : Option Nat :=
  match s.readEntry at_ with
  | .ok e => if table2Ok e && hasTarget (entryAddr e) then some (entryAddr e) else Option.none
  | .error _ => Option.none

/-- The entries that a stage-2 walk reads, in its order. -/
def State.path2 (s : State) (root : Word) (ipa : Nat) : List Nat :=
  if !bit root 0 || decide (2 ^ 52 ≤ ipa) then []
  else
    let level (at_ : Nat) (rest : Nat → List Nat) : List Nat :=
      at_ :: (match s.next2 at_ with | some t => rest t | Option.none => [])
    level ((bits root 16 36).toNat * 65536 + 8 * (ipa / 2 ^ 39)) (fun t =>
      level (t + 8 * (ipa / 2 ^ 30 % 512)) (fun t =>
        level (t + 8 * (ipa / 2 ^ 21 % 512)) (fun t =>
          let i := ipa / 2 ^ 12 % 512
          (t + 8 * i) :: (match s.readEntry (t + 8 * i) with
            | .ok e => if bit e 8 then [t + 8 * (i / 16 * 16)] else []
            | .error _ => []))))

/-- ECSEAL counts the entries at `l` that a second reading has mended (R406, R418). -/
def State.countEntries (s : State) (l : List Nat) : State := s.countSeal (l.countP s.entryMended)

/-- A walk of stage 2, with the errors that it has mended counted. -/
def State.walk2 (s : State) (root : Word) (ipa : Nat) : Except WalkFault Leaf2 × State :=
  (s.stage2 root ipa, s.countEntries (s.path2 root ipa))

/-- A and D in the final leaf (R353): A for any access, D for a write when W is 1; the walker performs the update at
the entry's holder. -/
def State.markLeaf (s : State) (l : Leaf2) (write : Bool) : State :=
  let e := l.entry ||| 0x20 ||| (if write && l.w then 0x40 else 0)
  if e = l.entry then s else { s with mem := s.mem.store (l.at_ / 8) e }

/-- The fields of a stage-1 leaf. -/
structure Leaf1 where
  ipa : Nat
  base : Nat
  size : Nat
  r : Bool
  w : Bool
  x : Bool
  home : BitVec 2
  keep : Bool
  tgt : BitVec 8
deriving DecidableEq, Repr

/-- A valid stage-1 table entry (R351). -/
def table1Ok (e : Word) : Bool := bit e 0 && e &&& 0xFFF0000000000FFE == 0

/-- A valid stage-1 leaf (R351): TGT belongs to HOME, no reserved field. -/
def leaf1Ok (e : Word) (size : Nat) (p64 : Bool) : Bool :=
  let home := bits e 7 2
  bit e 0 && bit e 1 && e &&& 0xF000000000000860 == 0 && bit e 10 == p64 && decide (entryAddr e % size = 0) &&
    (home == 1 || (home == 2 && bits e 57 3 == 0) || bits e 52 8 == 0)

/-- The leaf that a stage-1 entry gives for the address `va` (57 bits). -/
def mkLeaf1 (e : Word) (va size : Nat) : Leaf1 :=
  { ipa := entryAddr e + va % size, base := va / size * size, size := size, r := bit e 2, w := bit e 3, x := bit e 4,
    home := bits e 7 2, keep := bit e 9, tgt := bits e 52 8 }

/-- Where a window leads: device, partition and intermediate address there (R383). -/
structure Remote where
  dev : Nat
  part : Nat
  ipa : Nat
deriving DecidableEq, Repr

/-- Window `i` of a partition as it maps `ipa`, when it is enabled and holds it (R383, R384). -/
def Partition.windowAt (p : Partition) (ipa i : Nat) : Option Remote :=
  let w0 := Tab.get 0 p.fwin (2 * i)
  let w1 := Tab.get 0 p.fwin (2 * i + 1)
  let n := (bits w0 57 6).toNat
  let base := (bits w0 21 31).toNat * 2 ^ 21 / 2 ^ n * 2 ^ n
  let to_ := (bits w1 21 31).toNat * 2 ^ 21 / 2 ^ n * 2 ^ n
  if bit w0 63 && decide (21 ≤ n) && decide (n ≤ 40) && decide (base ≤ ipa) && decide (ipa < base + 2 ^ n) then
    some { dev := (bits w1 52 12).toNat, part := (bits w1 16 5).toNat, ipa := to_ + (ipa - base) }
  else Option.none

/-- The lowest enabled window that holds the address decides (R384). -/
def Partition.window (p : Partition) (ipa : Nat) : Option Remote := (List.range 16).findSome? (p.windowAt ipa)

/-- The place as partition `part` reaches it through a window: in its own time, and past every copy (R252, R384). -/
def Place.through (p : Place) (r : Remote) (part : Nat) : Place := { p with far := some part, win := some (r.dev, r.part) }

/-- The place of a word of another device: it is reached as attribute 11 (R384). -/
def Remote.place (r : Remote) (part : Nat) : Place :=
  Place.through { home := 3, phys := 0, pa := remoteBase * (r.dev * 32 + r.part + 1) + r.ipa, off := 0 } r part

/-- A pause holds the partition's rings and its dispatcher (R388). -/
def Partition.pausing (p : Partition) : Bool :=
  match p.job with | some (.pause ..) => true | some (.remove ..) | some (.await _) | none => false

/-- A FACC entry admits the pair (R385). -/
def Partition.admits (p : Partition) (dev part : Nat) : Bool :=
  (List.range 16).any (fun i =>
    let w := Tab.get 0 p.facc i
    bit w 63 && (bits w 16 12).toNat == dev && (bits w 0 5).toNat == part)

/-- What the far end of a window answers (R385). -/
inductive FarEnd where
  | refused (cause reason : BitVec 8)
  | lost (y : Syndromes) (pa : Nat)
  /-- another device serves it -/
  | there
  /-- a partition of this device does: the leaf of its stage 2, and the holder's place -/
  | here (l : Leaf2) (p : Place)

/-- Partition `q` of this device on an access of the pair (dev, part) to its intermediate address `ipa`, rights apart (R384, R385). A
pinned page is reached at its pin. -/
def State.serves (s : State) (q dev part ipa : Nat) : FarEnd :=
  let p := s.part q
  if p.state = 0 ∨ 32 ≤ q ∨ !p.admits dev part then .refused 0x12 1
  else if p.state = 4 ∨ p.pausing then .refused 0x12 2
  else match s.stage2 p.s2root ipa with
    | .error (.lost y pa) => .lost y pa
    | .error _ => .refused 0x12 3
    | .ok l => .here l (match p.pins.find? (fun x => decide (x.pa ≤ l.pa) && decide (l.pa < x.pa + x.size)) with
      | some x => { home := x.home, phys := x.phys, pa := l.pa, off := x.frame + (l.pa - x.pa) }
      | none =>
        Place.of { home := if l.nc || decide (Config.hostBase ≤ l.pa) then 3 else 0, phys := 0, pa := l.pa, off := 0 } (some q))

/-- The walk of that access has counted the errors that it has mended (R418). -/
def State.served (s : State) (q dev part ipa : Nat) : State :=
  let p := s.part q
  if p.state = 0 ∨ 32 ≤ q ∨ !p.admits dev part ∨ p.state = 4 ∨ p.pausing then s else s.countEntries (s.path2 p.s2root ipa)

/-- The far end of a window of partition `part`: nothing answers on a device without a number (R382); a partition of this device serves
the access here; what another device answers is a free choice among serving it and the four refusals (log 4). -/
def State.farEnd (s : State) (part : Nat) (r : Remote) : FarEnd × State :=
  if !s.trained then (.refused 0x12 1, s)
  else if r.dev = s.device then
    (match s.serves r.part s.device part r.ipa with
      | .here l p => .here l (p.through r part)
      | .lost y _ => .lost y (r.place part).pa
      | x => x, s.served r.part s.device part r.ipa)
  else
    let (x, s) := s.free
    (match (bits x 0 3).toNat with
      | 1 => .refused 0x12 1 | 2 => .refused 0x12 2 | 3 => .refused 0x12 3 | 4 => .refused 0x13 4 | _ => .there, s)

/-- A stage-1 table entry: the read is a stage-2 access that needs R and sets A alone (R352, R353); an address in a window is
read at the far end, a damaged word once more (R384, R406). -/
def State.readEntry1 (s : State) (part : Nat) (ipa : Nat) : State × Except WalkFault Word :=
  match (s.part part).window ipa with
  | some r =>
    let get (s : State) (p : Place) : State × Except WalkFault Word :=
      let s := s.meter (.completion part) p 8
      let x := s.holderWord p
      if sealOk x.1 x.2 then (s, .ok x.1)
      else
        let y := s.secondWord p
        let s := (s.meter (.completion part) p 8).free.2
        if sealOk y.1 y.2 then (s.countSeal 1, .ok y.1) else (s, .error (.lost (syn x.1 x.2, syn y.1 y.2) (r.place part).pa))
    match s.farEnd part r with
    | (.refused c n, s) => (s, .error (.refused c n true ipa))
    | (.lost y pa, s) => (s, .error (.lost y pa))
    | (.there, s) => get s (r.place part)
    | (.here l p, s) => if l.r then get (s.markLeaf l false) p else (s, .error (.refused 0x13 4 true ipa))
  | Option.none =>
  match s.walk2 (s.part part).s2root ipa with
  | (.error (.fault c _ i), s) => (s, .error (.fault c true i))
  | (.error (.retired _ i), s) => (s, .error (.retired true i))
  | (.error (.refused c n _ i), s) => (s, .error (.refused c n true i))
  | (.error e, s) => (s, .error e)
  | (.ok l, s) =>
    if !l.r then (s, .error (.fault 0x13 true ipa))
    else
      let s := s.markLeaf l false
      (s.countEntries [l.pa], s.readEntry l.pa)

/-- The stage-1 levels from `shift` down: 48, 39, 30, 21 and 12 (R350). `n` counts the levels left. -/
def State.stage1 (part : Nat) (va : Nat) : Nat → Nat → State → State × Except WalkFault Leaf1
  | 0, _, s => (s, .error (.fault 0x10 false 0))
  | n + 1, table, s =>
    let size := 2 ^ (12 + 9 * n)
    let i := va / size % 512
    match s.readEntry1 part (table + 8 * i) with
    | (s, .error e) => (s, .error e)
    | (s, .ok e) =>
      if n = 0 then
        if bit e 10 then
          match s.readEntry1 part (table + 8 * (i / 16 * 16)) with
          | (s, .error e) => (s, .error e)
          | (s, .ok e) =>
            (s, if leaf1Ok e 0x10000 true then .ok (mkLeaf1 e va 0x10000) else .error (.fault 0x10 false 0))
        else (s, if leaf1Ok e 0x1000 false then .ok (mkLeaf1 e va 0x1000) else .error (.fault 0x10 false 0))
      else if bit e 1 then
        (s, if decide (n ≤ 2) && leaf1Ok e size false then .ok (mkLeaf1 e va size) else .error (.fault 0x10 false 0))
      else if table1Ok e then State.stage1 part va n (entryAddr e) s
      else (s, .error (.fault 0x10 false 0))

/-- The right that a kind of access needs (R352). -/
def rightOk (r w x : Bool) : AccessKind → Bool
  | .read => r
  | .write => w
  | .both => r && w
  | .fetch => x

/-- The access writes (R353). -/
def isWrite : AccessKind → Bool
  | .write | .both => true
  | .read | .fetch => false

/-- The cluster list's core for a partition-virtual core (R4). -/
def Partition.physCore (p : Partition) (v : Nat) : Option Nat := (p.clusters[v / 8]?).map (fun c => 8 * c + v % 8)

/-- Bytes pinned in a core's store, a cluster's L2 or a cluster's LLC slices. -/
def Partition.pinned (p : Partition) (home : BitVec 2) (phys : Nat) : Nat :=
  (p.pins.filter (fun x => x.home == home && x.phys == phys)).foldl (fun n x => n + x.size) 0

/-- The core-store budget of virtual core `v` in bytes, from the budget word of its cluster (R259). -/
def Partition.csBudget (p : Partition) (v : Nat) : Nat :=
  (bits (Tab.get 0 p.budget (v / 8)) (5 * (v % 8)) 5).toNat * 65536

/-- The frames of a pin region that the partition's pages leave free: the lowest offset for a page of `size` bytes
in the region that starts at `lo` (R260, R261: the leaf chooses; log 8). -/
def Partition.freeFrame (p : Partition) (phys lo size : Nat) : Option Nat :=
  ((List.range ((Config.coreStoreBytes - lo) / size)).map (fun k => lo + k * size)).find? (fun off =>
    !p.pins.any (fun x => x.home == 1 && x.phys == phys && decide (off < x.frame + x.size) && decide (x.frame < off + size)))

/-- The margin clusters lent to a partition have no budget: their owner is another partition (R342). -/
def State.borrowed (s : State) (part cluster : Nat) : Bool :=
  (s.cluster cluster).owner != some part

/-- A pin of a page that its leaf's attribute asks for: the place, or the quota reason of R262. `page` is the size of the stage-1 page;
the leaf pins the part of it that one stage-2 leaf maps. -/
def State.choosePin (s : State) (part : Nat) (l : Leaf1) (page pa leaf : Nat) : Except (BitVec 8) Pin :=
  let p := s.part part
  let paBase := pa / l.size * l.size
  if l.home = 1 then
    match p.physCore l.tgt.toNat with
    | Option.none => .error 2
    | some c =>
      if !(page == 0x1000 || page == 0x10000) then .error 3
      else if s.borrowed part (clusterOf c) || decide (p.csBudget l.tgt.toNat < p.pinned 1 c + l.size) then .error 1
      else
        match p.freeFrame c (Config.coreStoreBytes - (s.core c).csPin * 65536) l.size with
        | Option.none => .error 1
        | some f => .ok { va := l.base, size := l.size, pa := paBase, home := 1, tgt := l.tgt.toNat, phys := c, frame := f, leaf }
  else if l.home = 2 then
    match p.clusters[l.tgt.toNat]? with
    | Option.none => .error 2
    | some c =>
      if page == 2 ^ 30 then .error 3
      else if s.borrowed part c ||
          decide ((bits (Tab.get 0 p.budget l.tgt.toNat) 48 5).toNat * 0x40000 < p.pinned 2 c + l.size) then .error 1
      else .ok { va := l.base, size := l.size, pa := paBase, home := 2, tgt := l.tgt.toNat, phys := c, frame := 0, leaf }
  else
    let c := pa / Config.clusterBytes
    let v := p.clusters.findIdx (· == c)
    if page == 2 ^ 30 then .error 3
    else if decide ((bits (Tab.get 0 p.budget v) 53 5).toNat * 2 ^ 20 < p.pinned 0 c + l.size) then .error 1
    else .ok { va := l.base, size := l.size, pa := paBase, home := 0, tgt := 0, phys := c, frame := 0, leaf }

/-- The page's words move to the pin's place with their seals unchanged (R262). -/
def State.fillPin (s : State) (x : Pin) : State :=
  let copy (m : Mem) (at_ : Nat) : Mem := m.blit (at_ / 8) s.mem (x.pa / 8) (x.size / 8)
  if x.home = 1 then s.modCore x.phys (fun c => ({ c with store := copy c.store x.frame } : Core).force)
  else if x.home = 2 then s.modCluster x.phys (fun c => { c with l2Home := copy c.l2Home x.pa })
  else s

/-- The lines of a page leave their L2 home: MEMTS of their slices rises to their rts (R256). -/
def Cluster.dropHomes (c : Cluster) (x : Pin) : Cluster :=
  let mine (l : Nat) : Bool := decide (x.pa ≤ 128 * l) && decide (128 * l < x.pa + x.size)
  { c with
    l2HomeTs := c.l2HomeTs.filter (fun e => !mine e.1)
    memts := (c.l2HomeTs.filter (fun e => mine e.1)).foldl (fun m e =>
      Tab.set m (l2Slice e.1) (max (Tab.get 0 m (l2Slice e.1)) e.2.2)) c.memts }

/-- The page is written back to its HBM backing with its seals, and its frame or ways are scrubbed (R262). -/
def State.emptyPin (s : State) (x : Pin) : State :=
  let back (m : Mem) (at_ : Nat) : Mem := s.mem.blit (x.pa / 8) m (at_ / 8) (x.size / 8)
  if x.home = 1 then
    { s.modCore x.phys (fun c => ({ c with store := c.store.scrub (x.frame / 8) (x.size / 8) } : Core).force) with
      mem := back (s.core x.phys).store x.frame }
  else if x.home = 2 then
    { s.modCluster x.phys (fun c => { c.dropHomes x with l2Home := c.l2Home.scrub (x.pa / 8) (x.size / 8) }) with
      mem := back (s.cluster x.phys).l2Home x.pa }
  else s

/-- A page is pinned at the first access to it (R262): the pin that holds it already, or a new one. -/
def State.pinPage (s : State) (part : Nat) (l : Leaf1) (page pa leaf : Nat) : Except (BitVec 8) (Pin × State) :=
  match (s.part part).pins.find? (fun x => x.va == l.base && x.pa == pa / l.size * l.size && x.home == l.home) with
  | some x => .ok (x, s)
  | Option.none =>
    match s.choosePin part l page pa leaf with
    | .error r => .error r
    | .ok x =>
      let s := (s.modPart part (fun p => { p with pins := x :: p.pins })).fillPin x
      .ok (x, if x.home = 2 then s.trimL2 x.phys else s)

/-- The attribute of a page asks for a pin (R261). -/
def wantsPin (home : BitVec 2) (keep : Bool) : Bool := home == 1 || home == 2 || (home == 0 && keep)

/-- The outcome of a translation. -/
inductive Walked where
  | ok (p : Place) (s : State)
  | fault (k : Park) (s : State)
  | lost (l : Loss) (s : State)

/-- The effective home attribute: 11 when stage 2 demotes the page or the address lies in host space (R352). -/
def effHome (l1 : Leaf1) (l2 : Leaf2) : BitVec 2 :=
  if l2.nc || decide (Config.hostBase ≤ l2.pa) then 3 else l1.home

/-- The place of an address in a pinned page. -/
def Pin.place (x : Pin) (pa : Nat) : Place := { home := x.home, phys := x.phys, pa := pa, off := x.frame + (pa - x.pa) }

/-- The walk of R352 for an access of kind `k` of partition `part` by `who`: stage 1, stage 2, the rights, the quota,
and A and D in the final leaf only when every check has passed. The party keeps the translation (R354). An address in a fabric
window is translated at the far end each time (R384). -/
def State.walk (s : State) (part : Nat) (who : Party) (va : Word) (k : AccessKind) : Walked :=
  let p := s.part part
  let bad (cause reason : BitVec 8) (ipa : Nat) : Park := { cause, addr := va, reason, ipa, kind := k }
  let fail (s : State) : WalkFault → Walked
    | .fault c t ipa => .fault { bad c 0 ipa with table := t } s
    | .retired t ipa => .fault { bad 0x12 5 ipa with table := t } s
    | .refused c n t ipa => .fault { bad c n ipa with table := t } s
    | .lost y pa => .lost (Loss.found y.1 y.2 .walk who va (Place.plain pa)) s
  if !canonical va || !bit p.s1root 0 then .fault (bad 0x10 0 0) s
  else
    let v := (bits va 0 57).toNat
    match State.stage1 part v 5 ((bits p.s1root 12 40).toNat * 4096) s with
    | (s, .error e) => fail s e
    | (s, .ok l1) =>
      match p.window l1.ipa with
      | some r =>
        let allowed := rightOk l1.r l1.w l1.x k
        (match s.farEnd part r with
          | (.refused c n, s) => if c = 0x13 ∧ !allowed then .fault (bad 0x11 0 l1.ipa) s else .fault (bad c n l1.ipa) s
          | (.lost y pa, s) => fail s (.lost y pa)
          | (.there, s) => if !allowed then .fault (bad 0x11 0 l1.ipa) s else .ok (r.place part) s
          | (.here l pl, s) =>
            if !allowed then .fault (bad 0x11 0 l1.ipa) s
            else if !rightOk l.r l.w l.x k then .fault (bad 0x13 4 l1.ipa) s
            else .ok pl (s.markLeaf l (isWrite k)))
      | Option.none =>
      match s.walk2 p.s2root l1.ipa with
      | (.error e, s) => fail s e
      | (.ok l2, s) =>
        if !rightOk l1.r l1.w l1.x k then .fault (bad 0x11 0 l1.ipa) s
        else if !rightOk l2.r l2.w l2.x k then .fault (bad 0x13 0 l1.ipa) s
        else
          let home := effHome l1 l2
          let size := min l1.size l2.size
          let ok (s : State) (pl : Place) : Walked :=
            let c : Cached := { party := who, va := v / size * size, size, ipa := l1.ipa / size * size,
                                pa := l2.pa / size * size, r := l1.r && l2.r, w := l1.w && l2.w, x := l1.x && l2.x,
                                home, tgt := l1.tgt, keep := l1.keep,
                                dirty := l2.d || (isWrite k && l2.w), leaf := l2.at_ }
            let s := s.markLeaf l2 (isWrite k)
            .ok pl (s.modPart part (fun p => { p with tlb := c :: p.tlb.filter (fun x => !(x.party == who && x.va == c.va)) }))
          if wantsPin home l1.keep then
            match s.pinPage part { l1 with home := home, base := v / size * size, size := size } l1.size l2.pa l2.at_ with
            | .error r => .fault (bad 0x14 r l1.ipa) s
            | .ok (x, s) => ok s (x.place l2.pa)
          else ok s (Place.of { home, phys := 0, pa := l2.pa, off := 0 } (some part))

/-- A cached translation of the party for the address, with the rights that the access needs. A write through a
translation whose D is 0 walks again (R354). -/
def Partition.cached (p : Partition) (who : Party) (va : Word) (k : AccessKind) : Option Cached :=
  p.tlb.find? (fun c =>
    c.party == who && canonical va && decide (c.va ≤ (bits va 0 57).toNat) && decide ((bits va 0 57).toNat < c.va + c.size) &&
      rightOk c.r c.w c.x k && (!isWrite k || c.dirty))

/-- The place that a cached translation gives. A page that asks for a pin is reached at its pin; without one it is
walked again (R262). -/
def State.cachedPlace (s : State) (part : Nat) (c : Cached) (va : Word) : Option Place :=
  let pa := c.pa + ((bits va 0 57).toNat - c.va)
  if wantsPin c.home c.keep then
    ((s.part part).pins.find? (fun x => decide (x.pa ≤ pa) && decide (pa < x.pa + x.size) && x.home == c.home)).map
      (fun x => x.place pa)
  else some (Place.of { home := c.home, phys := 0, pa, off := 0 } (some part))

/-- Translate(va, acc) of R8: a cached translation (R354), or a walk (R352). -/
def State.translate (s : State) (part : Nat) (who : Party) (va : Word) (k : AccessKind) : Walked :=
  match ((s.part part).cached who va k).bind (fun c => s.cachedPlace part c va) with
  | some pl => .ok pl s
  | Option.none => s.walk part who va k

end Sys2Proof.Machine
end

