-- ==== Sys2Proof/Machine/Access.lean ====
section
/-! DEFINITION. What the memory and synchronising instructions of a slot share: the lists (R184, R199), acquire and
release over a joined group (R255, R267), the partition of the acting core, and scalar and vector accesses. -/

namespace Sys2Proof.Machine

/-- The party that the acting slot is (R17). -/
def State.me (s : State) : Party := .slot s.cur.core s.cur.slot

/-- The members of the joined group that issue the bundle; the acting slot alone when no bundle is open. -/
def State.issuing (s : State) : List Slot :=
  match s.opened with
  | some o => if o.core = s.cur.core then o.members else [s.cur.slot]
  | Option.none => [s.cur.slot]

/-- The members of the joined group for which a synchronising instruction acts (R267): a slot that issues its bundle again alone
acts for the whole group, which had issued that bundle with it (R16). -/
def State.members (s : State) : List Slot :=
  if s.cs.solo then (if (s.cc.groupOf s.cs.group).contains s.cur.slot then s.cc.groupOf s.cs.group else [s.cur.slot]) else s.issuing

/-- What R184 makes of entry `l` for a party of core `c`: it may go on, it holds while the entry is updating, or it
parks with stale list or list format. -/
inductive ListUse where
  | go
  | hold
  | park (k : Park)
deriving DecidableEq, Repr

/-- The check of a synchronising operation on its list (R184). -/
def State.useList (s : State) (c l : Nat) : ListUse :=
  let e := s.entry c l
  if bit (s.core c).updating l then .hold
  else if e.stale then .park { cause := 0x20, addr := BitVec.ofNat 64 l, list := some l }
  else if !e.valid then .park { cause := 0x21, addr := BitVec.ofNat 64 l, reason := 7, list := some l }
  else .go

/-- A synchronising instruction of the acting slot on list `l`: it goes on with `f`, holds at its bundle, or parks. -/
def State.onList (s : State) (l : Nat) (f : State → State) : State :=
  match s.useList s.cur.core l with
  | .go => f s
  | .hold => s
  | .park k => s.parkCs k

/-- List time of an instance (R274): the core's for cl0, the cluster's for cl1, the dispatcher's for every other. -/
def State.listTime (s : State) (c l : Nat) : Nat :=
  if l = 0 then (s.core c).cl0Time
  else if l = 1 then (s.cluster (clusterOf c)).cl1Time
  else match (s.core c).bind with
    | some b => Tab.get 0 (s.part b.part).listTime l
    | Option.none => 0

/-- List time raised to `t` at least. -/
def State.raiseListTime (s : State) (c l t : Nat) : State :=
  if l = 0 then s.modCore c (fun x => { x with cl0Time := max x.cl0Time t })
  else if l = 1 then s.modCluster (clusterOf c) (fun x => { x with cl1Time := max x.cl1Time t })
  else match (s.core c).bind with
    | some b => s.modPart b.part (fun p => { p with listTime := Tab.set p.listTime l (max (Tab.get 0 p.listTime l) t) })
    | Option.none => s

/-- Every member of the group changed by `f`. -/
def State.modMembers (s : State) (f : SlotState → SlotState) : State :=
  s.modCc (fun c => s.members.foldl (fun c k => c.modSlot k f) c)

/-- The release part of a synchronising instruction covers the accesses of every member of the group (R267): the
timestamp that it carries. -/
def State.releaseTs (s : State) : Nat :=
  s.members.foldl (fun t k => max t ((s.cc.slot k).pts)) 0

/-- The acquire part acts for every member of the group (R267): each takes the timestamp. -/
def State.acquireTs (s : State) (t : Nat) : State := s.modMembers (fun y => { y with pts := max y.pts t })

/-- The acquire part on entry `e` of what the releases `l` have raised to `rts` (R255, R270). -/
def State.acquireFrom (s : State) (e : ClEntry) (rts : Nat) (l : List Release) : State :=
  let c := s.cur.core
  let x := s.adopts (timeOf l (fun r => r.meets e (s.peerOf c) (s.vcoreOf c))) rts
  x.2.acquireTs x.1

/-- What the acting slot's release part on entry `e` leaves with the keeper of a timestamp (R255, R270). -/
def State.releaseOn (s : State) (e : ClEntry) : Release :=
  e.release (s.peerOf s.cur.core) (s.vcoreOf s.cur.core) s.releaseTs

/-- The acting slot's copy of entry `l`. -/
def State.myEntry (s : State) (l : ListIx) : ClEntry := s.entry s.cur.core l.toNat

/-- Before a release part, the acting slot carries the time of the group. -/
def State.gather (s : State) (release : Bool) : State := if release then s.raisePts s.me s.releaseTs else s

/-- The order has an acquire part (R185). -/
def MemOrder.acq : MemOrder → Bool
  | .acquire | .acqRel => true
  | .plain | .release => false

/-- The order has a release part (R185). -/
def MemOrder.rel : MemOrder → Bool
  | .release | .acqRel => true
  | .plain | .acquire => false

/-- An access of the acting slot with order `o` on list `l`: a plain one names no list, any other passes R184. -/
def State.ordered (s : State) (o : MemOrder) (l : ListIx) (f : State → State) : State :=
  if o = .plain then f s else s.onList l.toNat f

/-- After an acquire, every member of the group has the slot's time. -/
def State.spread (s : State) (acq : Bool) : State := if acq then s.acquireTs (s.pts s.me) else s

/-- What a read by the acting slot makes of the releases that its holder has taken, when the holder keeps one RTS (R255, R270): an
acquire adopts the time of those that synchronise with it; a plain read keeps them for a later FENCE, and an LDC for the accesses
that depend on it (R186, R277). -/
def State.heard (s : State) (p : Place) (acq : Bool) (l : ListIx) (ldc : Bool) : State :=
  if p.leased then s.spread acq
  else if acq then (s.acquireFrom (s.myEntry l) (s.rts p) (s.rels p)).spread acq
  else
    let rels := s.rels p
    if rels.isEmpty then s
    else s.modCs (fun t =>
      let add (old : List Release) : List Release := rels.foldl (fun o r => keepRelease r o) old
      { t with seen := add t.seen, dep := if ldc then add t.dep else t.dep })

/-- What a write by the acting slot leaves there: a release its own, a plain one those of the slot's release FENCEs (R186,
R255, R270). -/
def State.leaves (s : State) (p : Place) (rel : Bool) (l : ListIx) : State :=
  if p.leased then s
  else if rel then s.addRel p { s.releaseOn (s.myEntry l) with ts := s.rts p }
  else s.cs.fenced.foldl (fun s r => (s.setRts p (max (s.rts p) r.ts)).addRel p r) s

/-- A dependence-ordered access of slot A counts as following an acquire of the releases that its LDCs have read, on lists that name
its core (R276, R277). -/
def State.depend (s : State) (tainted : Bool) : State :=
  if tainted && s.cur.slot == .A && !s.cs.dep.isEmpty then
    s.raisePts s.me (timeOf s.cs.dep (fun r => bit r.mask (s.vcoreOf s.cur.core) || r.group))
  else s

/-- The acting slot's address is translated, and the access goes on at its place; a fault parks the slot, a lost table
entry loses the context (R169). A core with no task in its charge has no translation: the access is a parking fault of
repair mode (R443). -/
def State.at_ (s : State) (va : Word) (k : AccessKind) (f : Place → State → State) : State :=
  match s.cc.bind with
  | Option.none => s.parkCs { cause := 0x10, addr := va, kind := k }
  | some b =>
    match s.translate b.part s.me va k with
    | .ok p s => f p s
    | .fault k s => s.parkCs k
    | .lost l s => s.lose l

/-- Bytes of a scalar access (R176). -/
def Size.bytes : Size → Nat
  | .b => 1 | .h => 2 | .w => 4 | .d => 8

/-- The `n` bytes of a word at byte address `a`, in the low bits. -/
def pick (w : Word) (a n : Nat) : Word := field w (8 * (a % 8)) (8 * n)

/-- A loaded value, extended (R176). -/
def extend (x : Word) (n : Nat) (un : Bool) : Word := if un then zextOf x (8 * n) else sextOf x (8 * n)

/-- The `n` low bytes of `x` at the place of byte address `a` in a word. -/
def place8 (x : Word) (a n : Nat) : Word := zextOf x (8 * n) <<< (8 * (a % 8))

/-- The byte mask M of R172. -/
def byteSel (a n : Nat) : BitVec 8 := BitVec.ofNat 8 ((2 ^ n - 1) * 2 ^ (a % 8))

/-- An address that is a multiple of `n`, a power of two. -/
def aligned (va : Word) (n : Nat) : Bool := decide (va.toNat % n = 0)

/-- Scalar load of the acting slot: the word is read at issue, in program order (of the orders that R275 allows, log 11), and its
return becomes due (R176, R178).
`dep` says that its address is tainted, `ldc` that it is an LDC (R276). -/
def State.load (s : State) (va : Word) (n : Nat) (un : Bool) (o : MemOrder) (l : ListIx) (sd : SReg) (taint dep ldc : Bool) : State :=
  s.at_ va .read (fun p s =>
    let s := (s.depend dep).meter s.me p n
    let ((w, sl), s) := s.readWord s.me p (MemOrder.acq o)
    let s := s.heard p (MemOrder.acq o) l ldc
    let l : PendLoad := { slot := s.cur.slot, sd, va, place := p, bytes := n, un, taint, word := w, sl, again := false }
    ((s.modCc (fun c => { c with loads := c.loads ++ [l] })).post (.loadReturn s.cur.core)).advance)

/-- Scalar store of the acting slot (R172, R176). -/
def State.store (s : State) (va : Word) (n : Nat) (x : Word) (o : MemOrder) (l : ListIx) (dep : Bool) : State :=
  s.at_ va .write (fun p s =>
    let s := (s.depend dep).gather (MemOrder.rel o)
    match s.writeHolder s.me p (place8 x va.toNat n) (byteSel va.toNat n) (MemOrder.rel o) with
    | .done s => (s.leaves p (MemOrder.rel o) l).advance
    | .lost y s => (s.lose (Loss.found y.1 y.2 .merge s.me va p)).advance)

/-- An atomic at its holder, in one action (R187, R188): `f` takes the old operand and gives the new one, or nothing when the atomic
writes nothing, and is then a read at the holder (R254). The old word is checked at the holder, where a damaged one is read once
more, and returns to the slot (R174, R175). -/
def State.atomic (s : State) (va : Word) (n : Nat) (o : MemOrder) (l : ListIx) (sd : SReg) (taint dep : Bool)
    (f : Word → Option Word) : State :=
  s.at_ va .both (fun p s =>
    let s := (s.depend dep).meter s.me p n
    let x := s.holderWord p
    let (w, sl) := s.checked p x
    if !sealOk w sl then (s.lose (Loss.found (syn x.1 x.2) (syn w sl) .atomic s.me va p)).advance
    else
      let s := s.countSeal (if sealOk x.1 x.2 then 0 else 1)
      let x := pick w va.toNat n
      let s := s.heard p (MemOrder.acq o) l false
      let s := match f x with
        | some y =>
          let s := s.gather (MemOrder.rel o)
          let v := place8 y va.toNat n
          match s.mergeOver (w, sl) s.me p v (byteSel va.toNat n) (sealOf v) false (MemOrder.rel o) with
          | .done s => s.leaves p (MemOrder.rel o) l
          | .lost y s => s.lose (Loss.found y.1 y.2 .merge s.me va p)
        | Option.none => s.readAtHolder s.me p
      let s := s.spread (MemOrder.acq o)
      let l : PendLoad := { slot := s.cur.slot, sd, va, place := p, bytes := n, un := true, taint, word := w, sl,
                            again := false }
      ((s.modCc (fun c => { c with loads := c.loads ++ [l] })).post (.loadReturn s.cur.core)).advance)

/-! Vector accesses (R179 to R182). -/

/-- The active elements of a mask, ascending. -/
def activeOf (m : BitVec 1024) : List Nat := (List.range 1024).filter (fun e => bit m e)

/-- The first address of a list in each 4 KiB page that the list touches, in their order. -/
def pagesOf (l : List Word) : List Word :=
  l.foldl (fun r a => if r.any (fun b => b.toNat / 4096 == a.toNat / 4096) then r else r ++ [a]) []

/-- Every page of an access is translated before any effect (R182), by the first address of the access that lies in it, which is
the one that a fault reports (R169, R328): the place of that address. -/
def State.atPages (s : State) (k : AccessKind) : List Word → List (Word × Place) →
    (List (Word × Place) → State → State) → State
  | [], done, f => f done s
  | a :: r, done, f => s.at_ a k (fun pl s => State.atPages s k r ((a, pl) :: done) f)

/-- The place of an address in a translated page. -/
def placeIn (l : List (Word × Place)) (va : Word) : Place :=
  match l.find? (fun x => x.1.toNat / 4096 == va.toNat / 4096) with
  | some (a, p) => p.from_ a.toNat va.toNat
  | Option.none => Place.plain 0

/-- Vector load: the distinct words of the active elements are read, and their return becomes due (R179 to R183). -/
def State.vload (s : State) (vd : VReg) (elems : List (Nat × Word)) (o : MemOrder) (l : ListIx) : State :=
  let acq := MemOrder.acq o
  s.atPages .read (pagesOf (elems.map (·.2))) [] (fun pages s =>
    let (ws, s) := elems.foldl (fun (acc : List VWord × State) (e : Nat × Word) =>
      let (ws, s) := acc
      let n := e.2.toNat / 8
      if ws.any (fun x => x.n == n) then (ws, s)
      else
        let p := placeIn pages (BitVec.ofNat 64 (8 * n))
        let ((w, sl), s) := (s.meter s.me p 8).readWord s.me p acq
        (ws ++ [{ n, place := p, word := w, sl }], s.heard p acq l false)) ([], s)
    let s := s.spread acq
    let v : PendVec := { vd, elems, words := ws, again := false }
    ((s.modCc (fun c => { c with vloads := c.vloads ++ [v] })).post (.vectorLoadReturn s.cur.core)).advance)

/-- A store of a vector instruction to one word: address, bytes, and which of them. -/
structure WordStore where
  va : Word
  n : Word
  m : BitVec 8

/-- Vector store: every page is translated before the first word is written; the words are written in order (R179 to
R182). -/
def State.vstore (s : State) (l : List WordStore) (o : MemOrder) (li : ListIx) : State :=
  let release := MemOrder.rel o
  s.atPages .write (pagesOf (l.map (·.va))) [] (fun pages s =>
    let s := s.gather release
    (l.foldl (fun s x =>
      let p := placeIn pages x.va
      match s.writeHolder s.me p x.n x.m release with
      | .done s => s.leaves p release li
      | .lost y s => s.lose (Loss.found y.1 y.2 .merge s.me x.va p)) s).advance)

/-- The lowest row, 0 to 15, whose address a + i p is not 64-byte aligned (R169). -/
def badRow (a p : Word) : Option Word :=
  ((List.range 16).map (fun i => a + BitVec.ofNat 64 i * p)).find? (fun x => !aligned x 64)

/-- Address of element `e` of a row access with pitch `p` (R179, R180). -/
def rowAddr (a p : Word) (e : Nat) : Word := a + BitVec.ofNat 64 (e / 64) * p + BitVec.ofNat 64 (4 * (e % 64))

/-- The word stores of the rows of a register: a whole word when both its elements are active, four bytes when one is
(R179). -/
def rowStores (v : VVal) (m : BitVec 1024) (a p : Word) : List WordStore :=
  ((List.range 512).filter (fun k => bit m (2 * k) || bit m (2 * k + 1))).map (fun k =>
    let lo : BitVec 32 := if bit m (2 * k) then v.get (2 * k) else 0
    let hi : BitVec 32 := if bit m (2 * k + 1) then v.get (2 * k + 1) else 0
    { va := rowAddr a p (2 * k), n := hi ++ lo
      m := (if bit m (2 * k + 1) then 0xF#4 else 0) ++ (if bit m (2 * k) then 0xF#4 else 0) })

end Sys2Proof.Machine
end

