-- ==== Sys2Proof/Machine/Float.lean ====
section
/-! DEFINITION. Floating-point formats, exact values and rounding (R48 to R58, R131 to R135, R141). -/

namespace Sys2Proof.Machine

/-- A binary format with a sign bit: width, exponent bits, significand bits with the implicit one, bias (R48). -/
structure Fmt where
  w : Nat
  eb : Nat
  p : Nat
  bias : Nat
  /-- the encodings with every exponent bit set are infinity and NaN -/
  ieee : Bool
  /-- the encoding with every bit but the sign set is the one NaN (E4M3) -/
  oneNan : Bool
deriving DecidableEq, Repr

/-- FP32 (R48). -/
def fp32 : Fmt := { w := 32, eb := 8, p := 24, bias := 127, ieee := true, oneNan := false }
/-- FP16 (R48). -/
def fp16 : Fmt := { w := 16, eb := 5, p := 11, bias := 15, ieee := true, oneNan := false }
/-- BF16 (R48). -/
def bf16 : Fmt := { w := 16, eb := 8, p := 8, bias := 127, ieee := true, oneNan := false }
/-- E5M2 (R48). -/
def e5m2 : Fmt := { w := 8, eb := 5, p := 3, bias := 15, ieee := true, oneNan := false }
/-- E4M3 (R48). -/
def e4m3 : Fmt := { w := 8, eb := 4, p := 4, bias := 7, ieee := false, oneNan := true }
/-- E2M1 (R48). -/
def e2m1 : Fmt := { w := 4, eb := 2, p := 2, bias := 1, ieee := false, oneNan := false }

/-- DAZ and FTZ apply to FP32, FP16 and BF16 (R56). -/
def Fmt.flushes (f : Fmt) : Bool := decide (16 ≤ f.w)

/-- A rounding mode (RM of R35). -/
inductive Rm where
  | rne | rtz | rdn | rup
deriving DecidableEq, Repr

/-- The controls of FPCTL that arithmetic reads (R35, R57). -/
structure FpEnv where
  rm : Rm
  sat : Bool
  ftz : Bool
  daz : Bool
deriving DecidableEq, Repr

/-- RM of two bits (R35). -/
def Rm.ofCode (c : BitVec 2) : Rm := if c = 0 then .rne else if c = 1 then .rtz else if c = 2 then .rdn else .rup

/-- The controls that FPCTL holds (R35). -/
def FpEnv.ofCtl (x : Word) : FpEnv :=
  { rm := .ofCode (bits x 0 2), sat := bit x 2, ftz := bit x 3, daz := bit x 4 }

/-- Conditions in the order of FPFLAGS: NV, DZ, OF, UF, NX (R36). -/
abbrev Conds := BitVec 5
/-- NV: invalid. -/
def cNV : Conds := 16
/-- DZ: division by zero. -/
def cDZ : Conds := 8
/-- OF: overflow. -/
def cOF : Conds := 4
/-- UF: underflow. -/
def cUF : Conds := 2
/-- NX: inexact. -/
def cNX : Conds := 1

/-- A result and the conditions that it raises. -/
structure Res where
  v : Nat
  c : Conds := 0
deriving DecidableEq, Repr

/-- A floating-point datum. The fraction of a NaN is left-aligned in 23 bits, with the quiet bit on top (R49, R50). -/
inductive FVal where
  | nan (neg : Bool) (frac : Nat)
  | inf (neg : Bool)
  | zero (neg : Bool)
  /-- ± m × 2^e, m positive -/
  | num (neg : Bool) (m : Nat) (e : Int)
deriving DecidableEq, Repr

/-- The exponent of the least normal number (R54). -/
def Fmt.emin (f : Fmt) : Int := 1 - (f.bias : Int)

/-- The sign bit of an encoding. -/
def Fmt.sign (f : Fmt) (x : Nat) : Bool := x / 2 ^ (f.w - 1) % 2 = 1
/-- The fraction field. -/
def Fmt.frac (f : Fmt) (x : Nat) : Nat := x % 2 ^ (f.p - 1)
/-- The exponent field. -/
def Fmt.expo (f : Fmt) (x : Nat) : Nat := x / 2 ^ (f.p - 1) % 2 ^ f.eb

/-- An encoding is a NaN (R48). -/
def Fmt.isNan (f : Fmt) (x : Nat) : Bool :=
  let top := f.expo x == 2 ^ f.eb - 1
  if f.ieee then top && f.frac x != 0 else f.oneNan && top && f.frac x == 2 ^ (f.p - 1) - 1

/-- The datum that an encoding stands for; `daz` reads a subnormal of a format that flushes as zero of its sign (R48,
R56). -/
def Fmt.decode (f : Fmt) (daz : Bool) (x : Nat) : FVal :=
  let s := f.sign x
  let fr := f.frac x
  let ex := f.expo x
  if f.isNan x then .nan s (fr * 2 ^ (24 - f.p))
  else if f.ieee && ex == 2 ^ f.eb - 1 then .inf s
  else if ex = 0 then
    if fr = 0 || (daz && f.flushes) then .zero s else .num s fr (f.emin - (f.p - 1 : Nat))
  else .num s (fr + 2 ^ (f.p - 1)) ((ex : Int) - f.bias - (f.p - 1 : Nat))

/-- A signalling NaN: its quiet bit is clear (R49). -/
def FVal.snan : FVal → Bool
  | .nan _ fr => !decide (fr / 2 ^ 22 % 2 = 1)
  | _ => false

/-- A NaN. -/
def FVal.isNan : FVal → Bool
  | .nan .. => true
  | _ => false

/-- The datum with its sign replaced. -/
def FVal.withSign (s : Bool) : FVal → FVal
  | .nan _ fr => .nan s fr
  | .inf _ => .inf s
  | .zero _ => .zero s
  | .num _ m e => .num s m e

/-- The sign of a datum. -/
def FVal.neg : FVal → Bool
  | .nan s _ | .inf s | .zero s | .num s _ _ => s

/-- The datum with its sign inverted. -/
def FVal.flip (v : FVal) : FVal := v.withSign (!v.neg)

/-- The sign bit in place. -/
def Fmt.signBit (f : Fmt) (s : Bool) : Nat := if s then 2 ^ (f.w - 1) else 0

/-- Zero of a sign. -/
def Fmt.zero (f : Fmt) (s : Bool) : Nat := f.signBit s
/-- The NaN of a format with the fraction of a NaN, made quiet (R49, R50). -/
def Fmt.nan (f : Fmt) (s : Bool) (frac : Nat) : Nat :=
  if f.ieee then
    f.signBit s + (2 ^ f.eb - 1) * 2 ^ (f.p - 1) + (frac / 2 ^ (24 - f.p)) % 2 ^ (f.p - 2) + 2 ^ (f.p - 2)
  else f.signBit s + (2 ^ (f.w - 1) - 1)
/-- The default NaN (R50). -/
def Fmt.defNan (f : Fmt) : Nat := f.nan false 0
/-- The largest finite significand, and the exponent of its unit (R48). -/
def Fmt.maxM (f : Fmt) : Nat := if f.oneNan then 2 ^ f.p - 2 else 2 ^ f.p - 1
/-- The largest exponent of a unit in the last place. -/
def Fmt.maxQ (f : Fmt) : Int := (2 ^ f.eb - 1 : Nat) - (if f.ieee then 1 else 0) - (f.bias : Int) - (f.p - 1 : Nat)
/-- The encoding of m × 2^q, with q the exponent of the spacing there. -/
def Fmt.pack (f : Fmt) (s : Bool) (m : Nat) (q : Int) : Nat :=
  if m < 2 ^ (f.p - 1) then f.signBit s + m
  else f.signBit s + (q + (f.p - 1 : Nat) + f.bias).toNat * 2 ^ (f.p - 1) + (m - 2 ^ (f.p - 1))
/-- The largest finite number of a sign. -/
def Fmt.maxFin (f : Fmt) (s : Bool) : Nat := f.pack s f.maxM f.maxQ
/-- Infinity, or in a format without one the NaN that stands for it (R55). -/
def Fmt.infinity (f : Fmt) (s : Bool) : Nat :=
  if f.ieee then f.signBit s + (2 ^ f.eb - 1) * 2 ^ (f.p - 1) else f.nan s 0

/-- Overflow(x, fmt, mode) (R55). -/
def overflow (env : FpEnv) (f : Fmt) (s : Bool) : Res :=
  let toMax := env.sat || !(f.ieee || f.oneNan) ||
    (match env.rm with | .rne => false | .rtz => true | .rdn => !s | .rup => s)
  { v := if toMax then f.maxFin s else f.infinity s, c := cOF ||| cNX }

/-- The increment of a rounding mode: `n` is the truncated integer, `r` the remainder of `d` units, `sticky` says that
something lies below it (R54). -/
def roundUp (rm : Rm) (neg : Bool) (n r d : Nat) (sticky : Bool) : Bool :=
  match rm with
  | .rne => decide (d < 2 * r) || (decide (2 * r = d) && (sticky || decide (n % 2 = 1)))
  | .rtz => false
  | .rdn => neg && (decide (r ≠ 0) || sticky)
  | .rup => !neg && (decide (r ≠ 0) || sticky)

/-- Round(x, fmt, mode) of R54 for the finite nonzero number ± x with m × 2^e ≤ x, and x < (m + 1) × 2^e when `sticky`
says that x is not m × 2^e itself. A sticky number carries more than p + 1 bits in `m`. -/
def round (env : FpEnv) (f : Fmt) (neg : Bool) (m : Nat) (e : Int) (sticky : Bool) : Res :=
  let q : Int := max ((Nat.log2 m : Nat) + e) f.emin - (f.p - 1 : Nat)
  let sh := (q - e).toNat
  let n := m * 2 ^ (e - q).toNat / 2 ^ sh
  let r := m * 2 ^ (e - q).toNat % 2 ^ sh
  let y := n + (if roundUp env.rm neg n r (2 ^ sh) sticky then 1 else 0)
  let inexact := decide (r ≠ 0) || sticky
  if f.maxQ < q ∨ f.maxM * 2 ^ (f.maxQ - q).toNat < y then overflow env f neg
  else
    let tiny := decide (y < 2 ^ (f.p - 1))
    if tiny && y != 0 && env.ftz && f.flushes then { v := f.zero neg, c := cUF ||| cNX }
    else { v := f.pack neg y q, c := (if inexact then cNX else 0) ||| (if inexact && tiny then cUF else 0) }

/-- The delivery of an exact datum in a format; `nv` are conditions found before. -/
def deliver (env : FpEnv) (f : Fmt) (v : FVal) (c : Conds := 0) : Res :=
  match v with
  | .nan s fr => { v := f.nan s fr, c }
  | .inf s => if f.ieee then { v := f.infinity s, c } else { overflow env f s with c := c ||| cOF ||| cNX }
  | .zero s => { v := f.zero s, c }
  | .num s m e => let r := round env f s m e false; { r with c := r.c ||| c }

/-- The result of an invalid operation (R50). -/
def invalid (f : Fmt) : Res := { v := f.defNan, c := cNV }

/-- NV when a NaN of the list is signalling (R62). -/
def nvOf (l : List FVal) : Conds := if l.any FVal.snan then cNV else 0

/-- The first NaN of the operands (R50). -/
def firstNan (l : List FVal) : Option FVal := l.find? FVal.isNan

/-- The sum of two data that are no NaN; nothing when it is ∞ − ∞ (R54). -/
def addVal (rm : Rm) (a b : FVal) : Option FVal :=
  let cancel := FVal.zero (rm == .rdn)
  match a, b with
  | .inf s, .inf t => if s = t then some (.inf s) else none
  | .inf s, _ => some (.inf s)
  | _, .inf t => some (.inf t)
  | .zero s, .zero t => some (if s = t then .zero s else cancel)
  | .zero _, y => some y
  | x, .zero _ => some x
  | .num s m e, .num t n g =>
    let k := min e g
    let x : Int := (if s then -1 else 1) * (m * 2 ^ (e - k).toNat : Nat) + (if t then -1 else 1) * (n * 2 ^ (g - k).toNat : Nat)
    some (if x = 0 then cancel else .num (decide (x < 0)) x.natAbs k)
  | x, _ => some x

/-- The product of two data that are no NaN; nothing when it is 0 × ∞ (R50). -/
def mulVal (a b : FVal) : Option FVal :=
  let s := a.neg != b.neg
  match a, b with
  | .inf _, .zero _ | .zero _, .inf _ => none
  | .inf _, _ | _, .inf _ => some (.inf s)
  | .zero _, _ | _, .zero _ => some (.zero s)
  | .num _ m e, .num _ n g => some (.num s (m * n) (e + g))
  | x, _ => some x

/-- Round(a + b) (R131). -/
def fAdd (env : FpEnv) (f : Fmt) (a b : FVal) : Res :=
  match firstNan [a, b] with
  | some n => deliver env f n (nvOf [a, b])
  | none => match addVal env.rm a b with
    | some v => deliver env f v
    | none => invalid f

/-- The negation of a datum that is no NaN, which keeps its sign as an operand (R50). -/
def FVal.minus (v : FVal) : FVal := if v.isNan then v else v.flip

/-- Round(a × b) (R131). -/
def fMul (env : FpEnv) (f : Fmt) (a b : FVal) : Res :=
  match firstNan [a, b] with
  | some n => deliver env f n (nvOf [a, b])
  | none => match mulVal a b with
    | some v => deliver env f v
    | none => invalid f

/-- Round(± a × b ± c), rounded once (R132). -/
def fFma (env : FpEnv) (f : Fmt) (negProd negC : Bool) (a b c : FVal) : Res :=
  match firstNan [a, b] with
  | some n => deliver env f n (nvOf [a, b, c])
  | none =>
    match mulVal a b with
    | none => if c.isNan then deliver env f c cNV else invalid f
    | some p =>
      if c.isNan then deliver env f c (nvOf [c])
      else match addVal env.rm (if negProd then p.flip else p) (if negC then c.flip else c) with
        | some v => deliver env f v
        | none => invalid f

/-- `a` is below `b`, with −0 equal to +0; neither is a NaN. -/
def fLt (a b : FVal) : Bool :=
  match addVal .rne b a.flip with
  | some (.num s _ _) => !s
  | some (.inf s) => !s
  | _ => false

/-- −0 is below +0 (R131). -/
def fLtZ (a b : FVal) : Bool :=
  match a, b with
  | .zero s, .zero t => s && !t
  | .inf s, .inf t => s && !t
  | _, _ => fLt a b

/-- The smaller or larger operand (R131). -/
def fMinMax (env : FpEnv) (f : Fmt) (wantMax : Bool) (a b : FVal) : Res :=
  match firstNan [a, b] with
  | some n => deliver env f n (nvOf [a, b])
  | none => deliver env f (if fLtZ a b != wantMax then a else b)

/-- The sign forms: `a` with another sign; a signalling NaN raises NV (R133). -/
def fSign (env : FpEnv) (f : Fmt) (s : Bool) (a : FVal) : Res := deliver env f (a.withSign s) (nvOf [a])

/-- VCLASS of an encoding (R134). -/
def fClass (f : Fmt) (x : Nat) : Nat :=
  match f.decode false x with
  | .nan .. => if f.isNan x && (f.decode false x).snan then 0 else 1
  | .inf s => if s then 2 else 9
  | .zero s => if s then 5 else 6
  | .num s m _ => if m < 2 ^ (f.p - 1) then (if s then 4 else 7) else (if s then 3 else 8)

/-- A floating-point comparison: eq, ne, lt, le, gt, ge and un by number, and its conditions (R135). -/
def fCmp (c : Nat) (a b : FVal) : Bool × Conds :=
  let un := a.isNan || b.isNan
  let sig := nvOf [a, b]
  let nv : Conds := if un && decide (2 ≤ c) && decide (c ≤ 5) then cNV else sig
  let lt := !un && fLt a b
  let gt := !un && fLt b a
  let eq := !un && !lt && !gt
  (match c with
    | 0 => eq
    | 1 => !eq
    | 2 => lt
    | 3 => lt || eq
    | 4 => gt
    | 5 => gt || eq
    | _ => un, nv)

/-- Conversion between floating-point formats (R141). -/
def fCvt (env : FpEnv) (src dst : Fmt) (x : Nat) : Res :=
  let a := src.decode env.daz x
  deliver env dst a (nvOf [a])

/-- An integer in a floating-point format (R53). -/
def fOfInt (env : FpEnv) (dst : Fmt) (x : Int) : Res :=
  if x = 0 then { v := dst.zero false } else round env dst (decide (x < 0)) x.natAbs 0 false

/-- A number rounded to an integer, and whether it changed (R53). -/
def roundInt (rm : Rm) (neg : Bool) (m : Nat) (e : Int) : Int × Bool :=
  let x := m * 2 ^ e.toNat
  let d := 2 ^ (-e).toNat
  let n := x / d + (if roundUp rm neg (x / d) (x % d) d false then 1 else 0)
  ((if neg then -(n : Int) else n), decide (x % d ≠ 0))

/-- The encoding of an integer in `w` bits. -/
def intBits (w : Nat) (x : Int) : Nat := (x % (2 ^ w : Nat)).toNat
/-- The least and the largest integer of a type. -/
def intMin (w : Nat) (signed : Bool) : Int := if signed then -(2 ^ (w - 1) : Nat) else 0
/-- The largest integer of a type. -/
def intMax (w : Nat) (signed : Bool) : Int := if signed then (2 ^ (w - 1) : Nat) - 1 else (2 ^ w : Nat) - 1

/-- Floating point to integer (R53). -/
def fToInt (env : FpEnv) (src : Fmt) (w : Nat) (signed : Bool) (x : Nat) : Res :=
  match src.decode env.daz x with
  | .nan .. => { v := 0, c := cNV }
  | .inf s => { v := intBits w (if s then intMin w signed else intMax w signed), c := cNV }
  | .zero _ => { v := 0 }
  | .num s m e =>
    let (n, inexact) := roundInt env.rm s m e
    if n < intMin w signed then { v := intBits w (intMin w signed), c := cNV }
    else if intMax w signed < n then { v := intBits w (intMax w signed), c := cNV }
    else { v := intBits w n, c := if inexact then cNX else 0 }

/-- SRBits (R59): SEED and SRSTEP, GPOS, destination element and sub-element. -/
def srBits (seed step : BitVec 32) (gpos e i : Nat) : Nat :=
  let h := seed + 0x9E3779B9 * step
  let h := h ^^^ (BitVec.ofNat 32 gpos * 0x85EBCA6B)
  let h := h ^^^ (BitVec.ofNat 32 (2 * e + i) * 0xC2B2AE35)
  let h := h ^^^ (h >>> 16)
  let h := h * 0x7FEB352D
  let h := h ^^^ (h >>> 15)
  let h := h * 0x846CA68B
  let h := h ^^^ (h >>> 16)
  h.toNat % 65536

/-- StochBF16 of a source encoding, widened exactly to FP32 after DAZ in its own format (R58). -/
def stochBf16 (env : FpEnv) (src : Fmt) (x u : Nat) : Res :=
  let a := src.decode env.daz x
  match a with
  | .nan .. => deliver env bf16 a (nvOf [a])
  | .inf s => { v := bf16.infinity s }
  | .zero _ | .num .. =>
    let y := (deliver { rm := .rne, sat := false, ftz := false, daz := false } fp32 a).v
    let sgn := y / 2 ^ 31 % 2 = 1
    let t := y / 65536 % 32768
    let d := y % 65536
    let t := if 0x10000 ≤ d + u then t + 1 else t
    if t = 0x7F80 then { v := if env.sat then bf16.maxFin sgn else bf16.infinity sgn, c := cOF ||| cNX }
    else
      let c : Conds := (if d ≠ 0 then cNX else 0) ||| (if d ≠ 0 ∧ t < 0x80 then cUF else 0)
      if env.ftz ∧ t ≠ 0 ∧ t < 0x80 then { v := bf16.zero sgn, c := cUF ||| cNX }
      else { v := bf16.signBit sgn + t, c }

end Sys2Proof.Machine
end

