-- ==== Sys2Proof/Machine/Flags.lean ====
section
/-! DEFINITION. FPFLAGS and the arithmetic trap 0x50 (R36, R62 to R64), and the writing of vector destinations under a
mask (R129). -/

namespace Sys2Proof.Machine

/-- The enables of FPCTL in the order of FPFLAGS: FPCTL has TENV lowest, FPFLAGS has NX lowest (R35, R36). -/
def enables (fpctl : Word) : Conds :=
  bits fpctl 8 1 ++ bits fpctl 9 1 ++ bits fpctl 10 1 ++ bits fpctl 11 1 ++ bits fpctl 12 1

/-- DETAIL of trap 0x50 (R64). -/
def arithDetail (elem : Nat) (raised enabled : Conds) : BitVec 32 :=
  0#6 ++ BitVec.ofNat 10 elem ++ 0#6 ++ raised ++ enabled

/-- The OR of a list of conditions. -/
def orConds (l : List (Nat × Conds)) : Conds := l.foldl (fun c x => c ||| x.2) 0

/-- The lowest element with an enabled condition: the least of the list (R64). -/
def lowestElem (l : List (Nat × Conds)) (en : Conds) : Nat :=
  (l.filter (fun x => x.2 &&& en != 0)).foldl (fun n x => min n x.1) 1023

/-- The conditions of an instruction by element: FPFLAGS takes their OR, and an enabled one raises 0x50, completion class
(R63, R64). -/
def State.conditions (s : State) (l : List (Nat × Conds)) : State :=
  let c := orConds l
  let en := enables s.cc.src.fpctl
  let s := if c = 0 then s else s.modRegs (fun r => { r with fpflags := r.fpflags ||| c.setWidth 64 })
  if c &&& en = 0 then s else s.raise 0x50 (arithDetail (lowestElem l en) c (c &&& en)) 0

/-- The value of an element and the conditions it raises. -/
structure ElemRes where
  v : Elem
  c : Conds := 0

/-- A vector result: element e becomes `f e` where the mask is set and keeps its bits elsewhere; an empty mask writes
nothing (R129). -/
def State.vwrite (s : State) (vd : VReg) (mk : MReg) (f : Nat → ElemRes) : State :=
  let m := s.rm mk
  let old := s.rv vd
  if m = 0 then s.advance
  else
    ((s.wv vd (VVal.ofFn (fun e => if bit m e then (f e).v else old.get e))).advance).conditions
      ((activeOf m).map (fun e => (e, (f e).c)))

/-- A vector result without conditions. -/
def State.vput (s : State) (vd : VReg) (mk : MReg) (f : Nat → Elem) : State :=
  let m := s.rm mk
  let old := s.rv vd
  if m = 0 then s.advance
  else (s.wv vd (VVal.ofFn (fun e => if bit m e then f e else old.get e))).advance

/-- The controls as the instruction reads them at issue (R57). -/
def State.env (s : State) : FpEnv := FpEnv.ofCtl s.cc.src.fpctl

end Sys2Proof.Machine
end

