-- ==== Sys2Proof/Machine/Record.lean ====
section
/-! DEFINITION. Engine records (R85 to R87, R218, R224, R226, R228), geometry blocks (R89) and the checks that an
enqueue makes of them (R88, R209, R219, R221). -/

namespace Sys2Proof.Machine

/-! Fields of a record (R85). -/

/-- Bits of word `i` of a record as a number. -/
def Rec.num (r : Rec) (i lo n : Nat) : Nat := (bits (wordAt r.w i) lo n).toNat
/-- A signed field of word `i` of a record. -/
def Rec.int (r : Rec) (i lo n : Nat) : Int := (bits (wordAt r.w i) lo n).toInt
/-- One bit of word `i` of a record. -/
def Rec.flag (r : Rec) (i k : Nat) : Bool := bit (wordAt r.w i) k

/-- KIND. -/
def Rec.kind (r : Rec) : Nat := r.num 0 58 6
/-- LS. -/
def Rec.ls (r : Rec) : Nat := r.num 0 53 5
/-- WAIT. -/
def Rec.wait (r : Rec) : Nat := r.num 0 48 3
/-- BOUND. -/
def Rec.bound (r : Rec) : Nat := r.num 0 16 32
/-- SEMA. -/
def Rec.semA (r : Rec) : Nat := r.num 1 56 8
/-- THRA. -/
def Rec.thrA (r : Rec) : Nat := r.num 1 32 24
/-- SEMB. -/
def Rec.semB (r : Rec) : Nat := r.num 1 24 8
/-- THRB. -/
def Rec.thrB (r : Rec) : Nat := r.num 1 0 24
/-- INC. -/
def Rec.inc (r : Rec) : Nat := r.num 2 48 8
/-- RMT. -/
def Rec.rmt (r : Rec) : Bool := r.flag 2 47
/-- TGT. -/
def Rec.tgt (r : Rec) : Nat := r.num 2 39 8
/-- TRIPk. -/
def Rec.trip (r : Rec) (k : Nat) : Nat := r.num 3 (16 * k) 16
/-- CLS (R214). -/
def Rec.cls (r : Rec) : Nat := r.num 7 60 4
/-- BASEA. -/
def Rec.baseA (r : Rec) : Nat := r.num 7 32 16
/-- BASEB. -/
def Rec.baseB (r : Rec) : Nat := r.num 7 16 16
/-- BASEC. -/
def Rec.baseC (r : Rec) : Nat := r.num 7 0 16

/-! Matrix kinds (R218, R224). -/

/-- AT. -/
def Rec.at_ (r : Rec) : Nat := r.num 2 36 3
/-- BT. -/
def Rec.bt (r : Rec) : Nat := r.num 2 33 3
/-- AS. -/
def Rec.scaled (r : Rec) : Bool := r.flag 2 32
/-- PRE. -/
def Rec.pre (r : Rec) : Bool := r.flag 2 31
/-- FWD. -/
def Rec.fwd (r : Rec) : Bool := r.flag 2 30
/-- CMP. -/
def Rec.cmp (r : Rec) : Bool := r.flag 2 29
/-- WBG. -/
def Rec.wbg (r : Rec) : Nat := r.num 2 0 13
/-- TILE. -/
def Rec.tile (r : Rec) : Nat := r.num 7 48 4
/-- LEN of MCHAIN. -/
def Rec.len (r : Rec) : Nat := r.num 2 0 2 + 1
/-- POS of MCHAIN. -/
def Rec.chainPos (r : Rec) : Nat := r.num 2 2 2
/-- ROWS of segment `s` of an MGRP (R221). -/
def Rec.segRows (r : Rec) (s : Nat) : Nat := (bits (r.segs.getD s 0) 0 7).toNat + 1
/-- WBG_s of segment `s` (R221). -/
def Rec.segWbg (r : Rec) (s : Nat) : Nat := (bits (r.segs.getD s 0) 16 13).toNat
/-- A rows of one K-step (R219). -/
def Rec.rows (r : Rec) : Nat :=
  if r.kind = 2 then (List.range (r.trip 0)).foldl (fun n s => n + r.segRows s) 0 else r.trip 0
/-- Granules of one A row: 128 bytes, or 256 for BF16 (R219). -/
def Rec.rowGranules (r : Rec) : Nat := if r.at_ = 2 then 4 else 2
/-- Core-store granule of row `i` of K-step `k` (R220). -/
def Rec.rowGranule (r : Rec) (i k : Nat) : Int := r.baseA + i * r.int 4 0 16 + k * r.int 4 16 16
/-- Data granules G of a weight set in mode `bt` (R235). -/
def dataGranules (bt : Nat) : Nat := if bt = 5 then 512 else 256
/-- Scale granules S (R235). -/
def scaleGranules (bt : Nat) : Nat := if bt = 4 then 16 else if bt = 2 ∨ bt = 3 then 8 else 0
/-- First granule of the set of segment `s` in K-step `k` (R220, R221). -/
def Rec.setGranule (r : Rec) (k s : Nat) : Int :=
  (if r.kind = 2 then r.segWbg s else r.wbg : Nat) + k * r.int 5 16 16
/-- Granules of an uncompressed set (R219). -/
def Rec.setSize (r : Rec) : Nat := dataGranules r.bt + scaleGranules r.bt
/-- A set at granule `g` lies in the weight buffer (R219). -/
def Rec.setFits (r : Rec) (g : Int) : Bool := decide (0 ≤ g) && decide (g + r.setSize ≤ 8192)

/-! Geometry blocks (R89). -/

/-- SPACE. -/
def geoSpace (g : List Word) : Nat := (bits (wordAt g 0) 62 2).toNat
/-- ND. -/
def geoNd (g : List Word) : Nat := (bits (wordAt g 0) 59 3).toNat
/-- Bytes of an element. -/
def geoEs (g : List Word) : Nat := 2 ^ (bits (wordAt g 0) 57 2).toNat
/-- BASE: a core-store offset, or a virtual address extended from bit 56. -/
def geoBase (g : List Word) : Word :=
  if geoSpace g = 1 then (bits (wordAt g 0) 0 57).setWidth 64 else (bits (wordAt g 0) 0 57).signExtend 64
/-- SI of dimension `d`. -/
def geoSi (g : List Word) (d : Nat) : Nat := if d ≤ 2 then (bits (wordAt g (d + 1)) 56 8).toNat else 1
/-- STRIDE of dimension `d`. -/
def geoStride (g : List Word) (d : Nat) : Int := (bits (wordAt g (d + 1)) 0 56).toInt
/-- A block breaks R89. -/
def geoBroken (g : List Word) : Bool :=
  decide (2 ≤ geoSpace g) || geoNd g == 0 ||
  (List.range 3).any (fun d => geoSi g d == 0 || (decide (geoNd g ≤ d) && geoSi g d != 1)) ||
  (List.range 7).any (fun d => decide (geoNd g ≤ d) && geoStride g d != 0) ||
  (List.range 4).any (fun i => bits (wordAt g (i + 4)) 56 8 != 0) ||
  (geoSpace g == 1 && bits (wordAt g 0) 21 36 != 0)

/-! Copy kinds (R87, R225, R226). -/

/-- SQ, the queue of a shot-list record. -/
def Rec.sq (r : Rec) : Nat := r.num 2 16 2
/-- FTAG of a SCALEFEED. -/
def Rec.ftag (r : Rec) : BitVec 16 := bits (wordAt r.w 2) 0 16
/-- The block that gives ND: the source's, or the destination's for FILL. -/
def Rec.shape (r : Rec) : List Word := if r.kind = 0x11 then r.dst else r.src
/-- The window of dimension `d`. -/
def Rec.window (r : Rec) (d : Nat) : Nat := if d ≤ 3 then r.num 3 (16 * d) 16 else r.num 4 (16 * (d - 4)) 16
/-- C_d, the elements along dimension `d` (R225). -/
def Rec.extent (r : Rec) (d : Nat) : Nat :=
  let si := if r.kind = 0x11 ∨ 2 < d then 1 else geoSi r.src d
  (r.window d + si - 1) / si
/-- Elements of the record. -/
def Rec.volume (r : Rec) : Nat := (List.range (geoNd r.shape)).foldl (fun n d => n * r.extent d) 1
/-- Bytes that the record moves. -/
def Rec.bytes (r : Rec) : Nat := geoEs r.shape * r.volume
/-- n_d of the element of a rank, n_0 fastest (R225). -/
def Rec.index (r : Rec) (rank d : Nat) : Nat :=
  rank / (List.range d).foldl (fun n j => n * r.extent j) 1 % r.extent d
/-- Offset of the element with the indices `n` in the grid of block `g` (R225). -/
def geoOffset (g : List Word) (n : Nat → Nat) : Int :=
  (List.range (geoNd g)).foldl (fun x d => x + n d * geoSi g d * geoStride g d) 0
/-- Address of the element of a rank in the grid of block `g`, modulo 2^64 (R225). -/
def Rec.address (r : Rec) (g : List Word) (rank : Nat) : Word :=
  geoBase g + BitVec.ofInt 64 (geoOffset g (r.index rank))
/-- The lowest and the highest address of the elements of a core-store grid, as exact numbers. -/
def Rec.span (r : Rec) (g : List Word) : Int × Int :=
  (List.range (geoNd g)).foldl (fun x d =>
    let y : Int := (r.extent d - 1 : Nat) * geoSi g d * geoStride g d
    if y < 0 then (x.1 + y, x.2) else (x.1, x.2 + y)) ((geoBase g).toNat, (geoBase g).toNat)
/-- A core-store grid leaves the task array of `lim` bytes (reason 9, R260). -/
def Rec.leaves (r : Rec) (lim : Nat) (g : List Word) : Bool :=
  geoSpace g == 1 && (decide ((r.span g).1 < 0) || decide ((lim : Int) < (r.span g).2 + geoEs g))
/-- BASE and the strides in use are multiples of the element size. -/
def geoAligned (g : List Word) : Bool :=
  (geoBase g).toNat % geoEs g == 0 && (List.range (geoNd g)).all (fun d => geoStride g d % geoEs g == 0)

/-! The checks (R88, R209). -/

/-- Where a record is enqueued from. -/
inductive Enqueuer where
  | menq
  | cenq (q : Queue)
  | qjoin (q : Queue)
  | shot
deriving DecidableEq, Repr

/-- A matrix kind. -/
def Rec.isMatrix (r : Rec) : Bool := decide (1 ≤ r.kind) && decide (r.kind ≤ 5)
/-- A copy kind. -/
def Rec.isCopy (r : Rec) : Bool := decide (0x10 ≤ r.kind) && decide (r.kind ≤ 0x13)

/-- The kind matches the instruction and queue (R86). -/
def Rec.kindOk (r : Rec) : Enqueuer → Bool
  | .menq => r.isMatrix
  | .cenq _ | .shot => r.isCopy
  | .qjoin _ => r.kind == 0x20

/-- The record asks the governor for leave (R214). -/
def Rec.needsLeave (r : Rec) : Bool :=
  r.kind == 1 || r.kind == 2 || r.kind == 3 || (r.isCopy && decide (65536 < r.bytes))

/-- Words 3 to 7 are zero. -/
def Rec.tailZero (r : Rec) : Bool :=
  wordAt r.w 3 == 0 && wordAt r.w 4 == 0 && wordAt r.w 5 == 0 && wordAt r.w 6 == 0 && wordAt r.w 7 == 0

/-- The fields that every kind has in common hold only what they may (R85, R212 to R215). -/
def Rec.commonOk (r : Rec) : Bool :=
  r.num 0 51 2 == 0 &&
  (r.wait != 0 || wordAt r.w 1 == 0) && (r.wait != 1 || r.num 1 0 32 == 0) &&
  (r.inc != 0 || (r.num 2 56 8 == 0 && !r.rmt)) && (r.rmt || r.tgt == 0) &&
  (r.wait != 0 || r.inc != 0 || r.ls == 0)

/-- The unused and reserved fields of the kind are zero (reason 4; R87, R218, R222, R224, R226, R228). A block that is not there is
not looked at, here and in the checks below (log 66). -/
def Rec.kindFieldsOk (r : Rec) (x : Enqueuer) : Bool :=
  let unused (d : Nat) : Bool := decide (0 < geoNd r.shape) && decide (geoNd r.shape ≤ d) && r.window d != 0
  if r.kind = 1 then
    r.num 2 13 16 == 0 && r.num 3 32 32 == 0 && r.num 4 32 32 == 0 && r.num 5 0 16 == 0 && r.num 5 32 32 == 0 &&
      wordAt r.w 6 == 0 && r.num 7 52 8 == 0 && r.baseB == 0 && r.baseC == 0
  else if r.kind = 2 then
    r.num 2 13 16 == 0 && r.num 3 32 32 == 0 && r.num 4 32 32 == 0 && r.num 5 0 16 == 0 && r.num 5 32 32 == 0 &&
      wordAt r.w 6 == 0 && r.num 7 52 8 == 0 && r.baseB == 0 && !r.pre && r.wbg == 0
  else if r.kind = 3 then
    r.num 2 13 16 == 0 && r.at_ == 0 && !r.scaled && !r.pre && !r.fwd && wordAt r.w 3 == 0 && wordAt r.w 4 == 0 &&
      wordAt r.w 5 == 0 && wordAt r.w 6 == 0 && r.num 7 0 60 == 0
  else if r.kind = 4 then r.num 2 0 39 == 0 && r.tailZero
  else if r.kind = 5 then r.num 2 4 35 == 0 && r.tailZero
  else if r.kind = 0x20 then r.num 2 3 36 == 0 && r.tailZero
  else
    (r.kind == 0x12 || r.num 2 0 16 == 0) && r.num 2 18 21 == 0 &&
      (match x with | .shot => r.sq == 1 || r.sq == 2 | _ => r.sq == 0) &&
      r.num 4 48 16 == 0 && r.num 5 32 32 == 0 && (r.kind == 0x11 || r.num 5 0 32 == 0) && wordAt r.w 6 == 0 &&
      r.num 7 48 12 == 0 && (r.cls == 0 || r.shape.isEmpty || decide (65536 < r.bytes)) &&
      (r.kind == 0x13 || r.baseC == 0) &&
      (match x with
        | .shot => r.baseA == 0 && r.baseB == 0 && (r.kind != 0x11 || r.src.all (· == 0)) &&
            (r.kind == 0x10 || r.kind == 0x11 || r.dst.all (· == 0))
        | _ => (r.kind != 0x11 || r.baseA == 0) && (r.kind == 0x10 || r.kind == 0x11 || r.baseB == 0)) &&
      !(List.range 7).any unused

/-- The geometry blocks that the kind uses. -/
def Rec.blocks (r : Rec) : List (List Word) :=
  if r.kind = 0x10 then [r.src, r.dst]
  else if r.kind = 0x11 then [r.dst]
  else if r.kind = 0x12 ∨ r.kind = 0x13 then [r.src]
  else []

/-- A trip count or a window in use is zero (reason 6). -/
def Rec.tripZero (r : Rec) : Bool :=
  if r.kind = 1 ∨ r.kind = 2 then r.trip 0 == 0 || r.trip 1 == 0
  else if r.isCopy then (List.range (geoNd r.shape)).any (fun d => r.window d == 0)
  else false

/-- An operand type, a mode or a pairing is broken (reason 8; R219, R226, R228). -/
def Rec.typesBroken (r : Rec) : Bool :=
  if r.kind = 1 ∨ r.kind = 2 then
    let pair := (decide (r.at_ ≤ 1) && decide (r.bt ≤ 4)) || (r.at_ == 2 && r.bt == 5) ||
      ((r.at_ == 3 || r.at_ == 4) && (r.bt == 6 || r.bt == 7))
    !pair || (r.scaled && (decide (1 < r.at_) || ((r.kind == 1 || !r.segs.isEmpty) && r.rows % 2 == 1))) || decide (128 < r.trip 0) ||
      (r.fwd && (r.scaled || r.baseA != 0 || r.num 4 0 32 != 0)) || (r.bt == 4 && r.tile % 2 == 1)
  else if r.kind = 0x10 then
    !r.src.isEmpty && !r.dst.isEmpty && (geoNd r.src != geoNd r.dst || geoEs r.src != geoEs r.dst)
  else if r.kind = 0x12 then !r.src.isEmpty && geoEs r.src != 8
  else if r.kind = 0x13 then !r.src.isEmpty && r.bytes % 64 != 0
  else if r.kind = 0x20 then r.num 2 0 3 == 0
  else false

/-- The expansion would leave the task array of `lim` bytes or the weight buffer (reason 9, R260). -/
def Rec.outOfRange (r : Rec) (lim : Nat) : Bool :=
  if r.kind = 1 ∨ r.kind = 2 then
    let ks := [0, r.trip 1 - 1]
    let rowOut (i k : Nat) : Bool :=
      decide (r.rowGranule i k < 0) || decide ((lim : Int) < 64 * (r.rowGranule i k + r.rowGranules))
    (!r.fwd && ks.any (fun k => [0, r.rows - 1].any (fun i => rowOut i k))) ||
    (r.kind == 2 && decide (lim < 64 * r.baseC + 4 * r.trip 0)) ||
    (r.kind == 1 && ((r.pre && !r.setFits (r.setGranule 0 0)) ||
      (decide (1 < r.trip 1) && (!r.setFits (r.setGranule 1 0) || !r.setFits (r.setGranule (r.trip 1 - 1) 0)))))
  else if r.kind = 3 then !r.setFits r.wbg
  else if r.kind = 0x13 then r.leaves lim r.src || decide (8192 < r.baseC + r.bytes / 64)
  else r.blocks.any (r.leaves lim)

/-- A segment table is broken (reason 11; R221). -/
def Rec.segsBroken (r : Rec) : Bool :=
  r.kind == 2 && (r.segs.any (fun e => bits e 7 9 != 0 || bits e 29 3 != 0) || decide (128 < r.rows) ||
    (List.range (r.trip 0)).any (fun s => !r.setFits (r.setGranule 0 s) || !r.setFits (r.setGranule (r.trip 1 - 1) s)))

/-- An MCHAIN position does not fit the core's row (reason 12; R224). -/
def Rec.chainBroken (r : Rec) (vcore : Nat) : Bool :=
  r.kind == 5 && (decide (r.len ≤ r.chainPos) || decide (vcore % 4 < r.chainPos) ||
    decide (3 < vcore % 4 - r.chainPos + r.len - 1))

/-- The number of the first check that fails. -/
def firstReason : List (Nat × Bool) → Option Nat
  | [] => none
  | (n, true) :: _ => some n
  | (_, false) :: r => firstReason r

/-- The first check that the record, with its blocks, fails (R209). `out` says that a block of it lies outside the task array and
has not been read (reason 9, R260). -/
def Rec.reason (r : Rec) (x : Enqueuer) (vcore ncl lim : Nat) (out : Bool := false) : Option Nat :=
  firstReason [(2, !r.kindOk x), (3, decide (3 < r.wait) || r.bound == 0), (4, !r.commonOk || !r.kindFieldsOk x),
    (5, decide (0x8000 ≤ r.baseA) || decide (0x8000 ≤ r.baseB) || decide (0x8000 ≤ r.baseC)),
    (6, r.tripZero), (7, r.blocks.any (fun g => !g.isEmpty && geoBroken g)), (8, r.typesBroken), (9, out || r.outOfRange lim),
    (10, !r.blocks.all geoAligned), (11, r.segsBroken), (12, r.chainBroken vcore),
    (13, r.rmt && decide (8 * ncl ≤ r.tgt))]

end Sys2Proof.Machine
end

