-- ==== Sys2Proof/Machine/Sync.lean ====
section
/-! DEFINITION. Join bits and system instructions (R125, R126, R198 to R202), semaphores (R190 to R194), partition barriers
(R195 to R197), and the answers that slot B waits for. -/

namespace Sys2Proof.Machine

/-! Join bits. -/

/-- JSET: a release on cl0 (R125, R255). -/
def execJset (j : BitVec 8) (s : State) : Out :=
  let s := s.gather true
  let t := s.releaseTs
  .next ((s.modCc (fun c => { c with
    regs := { c.regs with j := c.regs.j ||| (1#32 <<< j.toNat) }
    joinTs := Tab.set c.joinTs j.toNat t })).advance)

/-- JCLR (R125). -/
def execJclr (j : BitVec 8) (s : State) : Out :=
  .next ((s.modRegs (fun r => { r with j := r.j &&& ~~~(1#32 <<< j.toNat) })).advance)

/-- JWAIT: an acquire on cl0, or illegal operand with DETAIL := n (R125). -/
def execJwait (j : BitVec 8) (s : State) : Out :=
  .next (if bit s.cc.regs.j j.toNat then (s.acquireTs (Tab.get 0 s.cc.joinTs j.toNat)).advance
         else s.illegal (j.setWidth 32))

/-! Control registers (R25, R126). -/

/-- A control register that a task may write, as it reads (R25). -/
def Regs.crGet (r : Regs) (n : Nat) : Option Word :=
  if n = 0x008 then some r.tvec
  else if n = 0x009 then some r.tcause
  else if n = 0x00A then some r.tval
  else if 0x010 ≤ n ∧ n < 0x020 then some (Tab.get 0 r.xpc (n - 0x010))
  else if n = 0x020 then some r.fpctl
  else if n = 0x021 then some r.fpflags
  else if n = 0x022 then some r.mchk
  else Option.none

/-- MCHK clamps TOLEXP to 4 to 23 (R37). -/
def clampTol (v : Word) : Word :=
  let x := zextOf v 5
  if x.ult 4 then 4 else if x.ult 24 then x else 23

/-- The bits of FPCTL that a write stores (R35). -/
def fpctlRw : Word := 0xFFFFFFFF00001F3F
/-- The bits of TCAUSE that a write stores (R32). -/
def tcauseRw : Word := 0xFFFFFFFF000003FF

/-- Store(name, v): a write under the register's own rules; a write of FPCTL sets SRSTEP to 0 (R126). -/
def Regs.crPut (r : Regs) (n : Nat) (v : Word) : Option Regs :=
  if n = 0x008 then some { r with tvec := bundleAddr v }
  else if n = 0x009 then some { r with tcause := v &&& tcauseRw }
  else if n = 0x00A then some { r with tval := v }
  else if 0x010 ≤ n ∧ n < 0x020 then
    some { r with xpc := Tab.set r.xpc (n - 0x010) (if n % 4 = 3 then v &&& 3 else bundleAddr v) }
  else if n = 0x020 then some { r with fpctl := v &&& fpctlRw, srstep := 0 }
  else if n = 0x021 then some { r with fpflags := v &&& 0x1F }
  else if n = 0x022 then some { r with mchk := clampTol v }
  else Option.none

/-- KID (R26). -/
def State.kid (s : State) (c : Nat) : Word := 0#32 ++ BitVec.ofNat 12 s.device ++ 0#12 ++ BitVec.ofNat 8 c

/-- PART (R28). -/
def State.partWord (s : State) (p : Nat) : Word :=
  0#16 ++ (s.part p).rgen ++ 0#18 ++ BitVec.ofNat 6 (s.part p).ncl ++ 0#3 ++ BitVec.ofNat 5 p

/-- A launch register of the core's partition; 0 for a core that runs no task of one. -/
def State.ofPart (s : State) (c : Nat) (f : Nat → Word) : Word :=
  match (s.core c).bind with
  | some b => f b.part
  | Option.none => 0

/-- A control register as CRD reads it (R25 to R40). -/
def State.crRead (s : State) (c n : Nat) : Option (Word × State) :=
  match (s.core c).regs.crGet n with
  | some v => some (v, s)
  | Option.none =>
    if n = 0x000 then some (s.kid c, s)
    else if n = 0x001 then some ((s.core c).regs.vcore, s)
    else if n = 0x002 then some (s.ofPart c s.partWord, s)
    else if n = 0x004 then some (s.ofPart c (fun p => (s.part p).clapper), s)
    else if n = 0x005 then some (s.ofPart c (fun p => (s.part p).phole), s)
    else if n = 0x030 then
      if s.repeatable then some ((s.core c).src.cyc, s)
      else
        let (d, s) := s.free
        let v := (s.core c).regs.cyc + d
        some (v, s.modCore c (fun x => { x with regs := { x.regs with cyc := v } }))
    else if n = 0x031 then some s.now
    else if n = 0x032 then some ((s.cluster (clusterOf c)).cadence.setWidth 64, s)
    else if 0x040 ≤ n ∧ n < 0x050 then some (s.ofPart c (fun p => Tab.get 0 (s.part p).ba (n - 0x040)), s)
    else Option.none

/-- CRD (R126): the taint bit is clear (R20). -/
def execCrd (sd : SReg) (n : BitVec 12) (s : State) : Out :=
  .next (match s.crRead s.cur.core n.toNat with
    | some (v, s) => s.retS sd v false
    | Option.none => s.illegal)

/-- A write to XPCs0 clears the resume-without-wait flag of slot s (R120). -/
def Core.clearRww (c : Core) (n : Nat) : Core :=
  if n = 0x010 then c.modSlot .A (fun t => { t with rww := false })
  else if n = 0x014 then c.modSlot .B (fun t => { t with rww := false })
  else if n = 0x018 then c.modSlot .V (fun t => { t with rww := false })
  else if n = 0x01C then c.modSlot .E (fun t => { t with rww := false })
  else c

/-- A write of a control register by the acting slot (R25, R126). -/
def State.crWrite (s : State) (n : Nat) (v : Word) : State :=
  match s.cc.regs.crPut n v with
  | some r => (s.modCc (fun c => { c with regs := r }.clearRww n)).advance
  | Option.none => s.illegal

/-- CWR (R126). -/
def execCwr (n : BitVec 12) (sa : SReg) (s : State) : Out := .next (s.crWrite n.toNat (s.rs sa))

/-- CRSET (R126): a register that is read only, or that does not exist, raises illegal operand (R25). -/
def execCrset (n : BitVec 12) (sa : SReg) (s : State) : Out :=
  .next (match s.cc.regs.crGet n.toNat with
    | some v => s.crWrite n.toNat (v ||| s.rs sa)
    | Option.none => s.illegal)

/-- CRCLR (R126). -/
def execCrclr (n : BitVec 12) (sa : SReg) (s : State) : Out :=
  .next (match s.cc.regs.crGet n.toNat with
    | some v => s.crWrite n.toNat (v &&& ~~~(s.rs sa))
    | Option.none => s.illegal)

/-! The circulation table (R198 to R202). -/

/-- Word `k` of an entry image (R198). -/
def ClEntry.word (e : ClEntry) (k : Nat) : Word :=
  if k < 4 then e.cores.extractLsb' (64 * k) 64
  else if k = 4 then
    ofBool1 e.valid ++ ofBool1 e.stale ++ 0#10 ++ e.ver ++ e.peer ++ 0#2 ++ ofBool1 e.sys ++ ofBool1 e.home ++ e.ccm
  else 0

/-- The entry that an image holds; its VER and STALE are ignored (R200). -/
def ClEntry.ofImage (w : List Word) : ClEntry :=
  let w4 := wordAt w 4
  { cores := wordAt w 3 ++ wordAt w 2 ++ wordAt w 1 ++ wordAt w 0
    valid := bit w4 63, peer := bits w4 36 12, sys := bit w4 33, home := bit w4 32, ccm := bits w4 0 32 }

/-- The virtual clusters of the cores of a mask. -/
def clusterSpan (m : BitVec 256) : List Nat :=
  (List.range 32).filter (fun v => m.extractLsb' (8 * v) 8 != 0)

/-- The lowest reason for which an image with VALID = 1 fails (R200). -/
def imageReason (w : List Word) (ncl : Nat) : Option Nat :=
  let e := ClEntry.ofImage w
  if !e.valid then Option.none
  else if e.cores.toNat ≥ 2 ^ (8 * ncl) then some 1
  else if e.ccm.toNat ≥ 2 ^ ncl then some 2
  else if (clusterSpan e.cores).length > 1 && !e.home then some 3
  else if e.peer != 0 && !e.sys then some 4
  else if e.cores == 0 && e.ccm == 0 && !e.home && !e.sys then some 5
  else if bits (wordAt w 4) 52 10 != 0 || bits (wordAt w 4) 34 2 != 0 || wordAt w 5 != 0 || wordAt w 6 != 0 ||
      wordAt w 7 != 0 then some 6
  else Option.none

/-- Bytes of a core's task array: what its core-store budget leaves of the core store (R260). -/
def Core.taskBytes (c : Core) : Nat := Config.coreStoreBytes - c.csPin * 65536

/-- Words read from the task array of a core's store at an offset, each consumed by the party that needs them: the values,
or the syndromes of the first word that both readings find damaged (R406). -/
def Core.taskWords (c : Core) (off n : Nat) : Except Syndromes (List Word) :=
  (List.range n).foldr (fun k r =>
    let x := (c.store.word (off / 8 + k), c.store.sealAt (off / 8 + k))
    let (w, sl) := if sealOk x.1 x.2 then x else secondIn c.again (off / 8 + k) x
    if sealOk w sl then r.map (w :: ·) else .error (syn x.1 x.2, syn w sl)) (.ok [])

/-- How many of those words the first reading finds damaged. -/
def Core.taskFlaws (c : Core) (off n : Nat) : Nat :=
  (List.range n).countP (fun k => !sealOk (c.store.word (off / 8 + k)) (c.store.sealAt (off / 8 + k)))

/-- CLSET: the image is read and checked, and the dispatcher is asked; slot B waits for the completion (R200, R201). -/
def execClset (entry : BitVec 8) (sa : SReg) (s : State) : Out :=
  let off := s.rs sa
  .next (
    if !aligned off 64 then s.misaligned off
    else if s.cc.taskBytes ≤ off.toNat then s.illegal
    else
      match s.cc.bind with
      | Option.none => s.parkCs { cause := 0x21, addr := entry.setWidth 64 }
      | some b =>
        match s.cc.taskWords off.toNat 8 with
        | .error y => s.lose (Loss.inside y .enqueue s.me)
        | .ok w =>
          let s := s.countSeal (s.cc.taskFlaws off.toNat 8)
          match imageReason w (s.part b.part).ncl with
          | some r => s.parkCs { cause := 0x21, addr := entry.setWidth 64, reason := BitVec.ofNat 8 r }
          | Option.none =>
            let n := (s.part b.part).clsetNum
            let x : ClSet := { entry := entry.toNat, image := ClEntry.ofImage w, origin := .slotB s.cur.core,
                               accepted := false, num := n }
            ((s.modPart b.part (fun p => { p with clsets := p.clsets ++ [x], clsetNum := n + 1 })).modCs
              (fun t => { t with await := some (.clset entry.toNat n) })).post (.clsetComplete b.part (bits entry 0 5)))

/-- CLGET (R202). -/
def execClget (sd : SReg) (entry : BitVec 8) (k : BitVec 3) (s : State) : Out :=
  .next (s.retS sd ((s.entry s.cur.core entry.toNat).word k.toNat) false)

/-- TSPAWN: a release on cl2, which stands whatever the check finds; then the dispatcher is asked (R117, R127). -/
def execTspawn (sa : SReg) (s : State) : Out :=
  let va := s.rs sa
  let s := s.gather true
  .next (
    if !aligned va 64 then s.misaligned va
    else if s.cc.bind.isNone then s.parkCs { cause := 0x10, addr := va }
    else (s.modCs (fun t => { t with await := some (.tspawn va) })).post (.tspawnAccept s.cur.core))

/-! Semaphores. -/

/-- The count of semaphore `n` of a core (R45). -/
def Core.sem (c : Core) (n : Nat) : BitVec 32 := Tab.get 0 c.sems n
/-- The count replaced. -/
def Core.setSem (c : Core) (n : Nat) (v : BitVec 32) : Core := { c with sems := Tab.set c.sems n v }

/-- SEMSIG: a release; slot B waits for the result of the add (R190, R191). Its list is checked before its target (log 62). -/
def execSemsig (sem : BitVec 8) (inc : BitVec 8) (ls : ListIx) (rmt : Bool) (sa : SReg) (s : State) : Out :=
  .next (s.onList ls.toNat (fun s =>
    let c := s.cur.core
    let ncl := match s.cc.bind with | some b => (s.part b.part).ncl | Option.none => 0
    if rmt && (bits (s.rs sa) 8 56 != 0 || decide (8 * ncl ≤ (s.rs sa).toNat)) then s.illegal
    else
      let target := if rmt then (s.rs sa).toNat else s.vcoreOf c
      let s := s.gather true
      let e := s.myEntry ls
      let x : Signal := { from_ := s.me, part := s.partOf c, target, sem, inc, remote := rmt, pts := s.releaseTs
                          vcore := s.vcoreOf c, mask := e.cores, group := e.namesGroup (s.peerOf c) }
      (s.modCs (fun t => { t with await := some (.signal sem target rmt), snap := some (ls.toNat, e) })).post (.semaphoreAdd x)))

/-- The threshold of SEMWAIT and SEMACQ (R192). -/
def State.threshold (s : State) (sa : SReg) (imm : BitVec 20) : BitVec 32 := bits (s.rs sa + imm.setWidth 64) 0 32

/-- A wait of slot B on a semaphore: it has an effect only once the count has reached the threshold (R192). -/
def State.semMeet (s : State) (sem : BitVec 8) (sa : SReg) (imm : BitVec 20) (ls : ListIx) (take : Bool) : State :=
  s.onList ls.toNat (fun s =>
    let n := s.cc.sem sem.toNat
    let t := s.threshold sa imm
    if n.ult t then s
    else
      let s := s.acquireFrom (s.myEntry ls) (Tab.get 0 s.cc.semRts sem.toNat) (Tab.get [] s.cc.semRels sem.toNat)
      (if take then s.modCc (fun c => c.setSem sem.toNat (n - t)) else s).advance)

/-- SEMWAIT (R192). -/
def execSemwait (sem : BitVec 8) (sa : SReg) (imm : BitVec 20) (ls : ListIx) (s : State) : Out :=
  .next (s.semMeet sem sa imm ls false)
/-- SEMACQ (R192). -/
def execSemacq (sem : BitVec 8) (sa : SReg) (imm : BitVec 20) (ls : ListIx) (s : State) : Out :=
  .next (s.semMeet sem sa imm ls true)
/-- SEMSET (R193). -/
def execSemset (sem : BitVec 8) (sa : SReg) (s : State) : Out :=
  .next ((s.modCc (fun c => c.setSem sem.toNat (bits (s.rs sa) 0 32))).advance)
/-- SEMRD (R193). -/
def execSemrd (sd : SReg) (sem : BitVec 8) (s : State) : Out :=
  .next (s.retS sd ((s.cc.sem sem.toNat).setWidth 64) false)

/-! Partition barriers. -/

/-- PHASE, ARRIVED and EXPECT of a barrier (R24). -/
structure Barrier where
  phase : BitVec 32
  arrived : BitVec 16
  expect : BitVec 16
deriving DecidableEq, Repr

/-- Barrier `b` of a partition. -/
def Partition.barrier (p : Partition) (b : Nat) : Barrier :=
  let w := Tab.get 0 p.bn b
  { phase := bits w 32 32, arrived := bits w 16 16, expect := bits w 0 16 }

/-- Barrier `b` replaced. -/
def Partition.setBarrier (p : Partition) (b : Nat) (x : Barrier) : Partition :=
  { p with bn := Tab.set p.bn b (x.phase ++ x.arrived ++ x.expect) }

/-- A phase of barrier `b` completes: the timestamp of its arrivals and their releases are kept for the waiters, for those too that
come to wait for it after later phases have ended (R197, R255, R270). -/
def Partition.phaseDone (p : Partition) (b : Nat) (x : Barrier) : Partition :=
  let past := (Tab.get [] p.bnPast b).filter (fun y => y.1 != x.phase)
  { p.setBarrier b { x with phase := x.phase + 1, arrived := 0 } with
    bnTs := Tab.set p.bnTs b (Tab.get 0 p.bnNow b), bnNow := Tab.set p.bnNow b 0
    bnRels := Tab.set p.bnRels b (Tab.get [] p.bnNowRels b), bnNowRels := Tab.set p.bnNowRels b []
    bnPast := Tab.set p.bnPast b ((x.phase, Tab.get 0 p.bnNow b, Tab.get [] p.bnNowRels b) :: past) }

/-- What a waiter with token `t` of barrier `b` acquires: the timestamp and the releases of the phase that it arrived in, and of the
phase that has ended last (R197, R255; log 63). -/
def Partition.phaseTs (p : Partition) (b : Nat) (t : BitVec 32) : Nat × List Release :=
  let now := (Tab.get 0 p.bnTs b, Tab.get [] p.bnRels b)
  match (Tab.get [] p.bnPast b).find? (fun y => y.1 == t) with
  | some y => (max now.1 y.2.1, y.2.2 ++ now.2)
  | Option.none => now

/-- BARSET: the dispatcher is asked (R195, R196). -/
def execBarset (b : BitVec 8) (sa : SReg) (s : State) : Out :=
  let x := s.rs sa
  .next (
    if bits x 16 48 != 0 then s.illegal
    else if s.cc.bind.isNone then s.parkCs { cause := 0x10 }
    else (s.modCs (fun t => { t with await := some (.barset b.toNat (bits x 0 16)) })).post (.barrierAnswer s.cur.core))

/-- An arrival: the dispatcher is asked (R195, R197). -/
def State.arrive (s : State) (ls : ListIx) (w : Await) : State :=
  if s.cc.bind.isNone then s.parkCs { cause := 0x10 }
  else s.onList ls.toNat (fun s =>
    let e := s.myEntry ls
    ((s.gather true).modCs (fun t => { t with await := some w, snap := some (ls.toNat, e) })).post (.barrierAnswer s.cur.core))

/-- The snapshot that the arrival of a BARARW has left for its wait (R184). -/
def SlotState.held (t : SlotState) : Option ClEntry := if t.waitHalf then t.snap.map (·.2) else Option.none

/-- Wait(b) of R197 with the acquire on entry `e`: it has an effect only once the phase of the token is over. -/
def State.waitPhase (s : State) (part : Nat) (b : BitVec 8) (e : ClEntry) : State :=
  match Tab.find? s.cc.tokens b.toNat with
  | Option.none => s.illegal (b.setWidth 32)
  | some t =>
    let p := s.part part
    if (p.barrier b.toNat).phase = t then s
    else
      ((s.acquireFrom e (p.phaseTs b.toNat t).1 (p.phaseTs b.toNat t).2).modCc
        (fun c => { c with tokens := Tab.erase c.tokens b.toNat })).advance

/-- Wait(b) of R197. The wait of a BARARW goes by the snapshot of its arrival and checks no list; when a stop or a trap has come
between, it checks its list as it issues again (R184, log 62). -/
def State.barWait (s : State) (b : BitVec 8) (ls : ListIx) : State :=
  match s.cc.bind with
  | Option.none => s.parkCs { cause := 0x10 }
  | some d =>
    match s.cs.held with
    | some e => s.waitPhase d.part b e
    | Option.none => s.onList ls.toNat (fun s => s.waitPhase d.part b (s.myEntry ls))

/-- BARARR (R197). -/
def execBararr (b : BitVec 8) (ls : ListIx) (s : State) : Out := .next (s.arrive ls (.bararr b.toNat))
/-- BARWAIT (R197). -/
def execBarwait (b : BitVec 8) (ls : ListIx) (s : State) : Out := .next (s.barWait b ls)
/-- BARARW: the arrival, or the wait once the arrival has been counted (R197, R364). -/
def execBararw (b : BitVec 8) (ls : ListIx) (s : State) : Out :=
  .next (if s.cs.waitHalf then s.barWait b ls else s.arrive ls (.bararw b.toNat))

/-! Answers. -/

/-- Slot B of a core goes on: `f` acts on it, the groups form anew, and a trap that it raised is taken (R11, R119). -/
def State.answerB (s : State) (c : Nat) (f : SlotState → SlotState) : State :=
  let s := s.modCore c (fun x => (x.modSlot .B f).regroup)
  if (s.core c).trapDue then s.post (.trapEntry c) else s

/-- A slot that completes and raises a completion-class trap. -/
def SlotState.trapped (t : SlotState) (code : BitVec 8) (detail : BitVec 32) : SlotState :=
  { t.answered with pend := some { code, detail, tval := 0 } }

/-- BARRIER_ANSWER: the dispatcher performs what slot B of a core has asked of a barrier (R196, R197). -/
def execBarrierAnswer (core : Nat) (s : State) : Out :=
  .next (match (s.core core).bind, ((s.core core).slot .B).await with
    | some d, some (.barset b e) =>
      let x : Barrier := { (s.part d.part).barrier b with expect := e }
      let s := s.modPart d.part (fun p =>
        if e.toNat ≥ 1 ∧ x.arrived.toNat ≥ e.toNat then p.phaseDone b x else p.setBarrier b x)
      s.answerB core SlotState.answered
    | some d, some (.bararr b) => arriveAt d.part b false
    | some d, some (.bararw b) => arriveAt d.part b true
    | _, _ => s)
where
  /-- Arrive(b) of R197; `half` says that a BARARW goes on to wait. -/
  arriveAt (part b : Nat) (half : Bool) : State :=
    let x := (s.part part).barrier b
    if x.expect = 0 ∨ Tab.find? (s.core core).tokens b = some x.phase then
      s.answerB core (fun t => t.trapped 0x31 (BitVec.ofNat 32 b))
    else
      let t := (s.core core).slot .B
      let r := (match t.snap with | some x => x.2 | Option.none => {}).release (s.peerOf core) (s.vcoreOf core) t.pts
      let s := s.modCore core (fun c => { c with tokens := Tab.set c.tokens b x.phase })
      let y : Barrier := { x with arrived := x.arrived + 1 }
      let s := s.modPart part (fun p =>
        let p := { p with bnNow := Tab.set p.bnNow b (max (Tab.get 0 p.bnNow b) r.ts)
                          bnNowRels := Tab.set p.bnNowRels b (keepRelease r (Tab.get [] p.bnNowRels b)) }
        if y.arrived = y.expect then p.phaseDone b y else p.setBarrier b y)
      s.answerB core (fun t =>
        if half then { t with await := Option.none, waitHalf := true, solo := true } else t.answered)

/-- The physical core whose semaphore a signal reaches: the sender's own, or the one of its virtual number (R190, R213). -/
def State.signalCore (s : State) (x : Signal) : Option Nat :=
  match x.from_ with
  | .slot c _ | .queue c _ =>
    if !x.remote || x.target = s.vcoreOf c then some c else (s.part x.part).physCore x.target
  | .ring .. | .dispatcher _ | .completion _ => (s.part x.part).physCore x.target

/-- DETAIL of semaphore overflow (R191). -/
def signalDetail (x : Signal) : BitVec 32 := 0#15 ++ ofBool1 x.remote ++ BitVec.ofNat 8 x.target ++ x.sem

/-- The add of a signal at its core: the count saturates, and RTS takes the sender's time (R191, R255). -/
def Core.addSem (c : Core) (x : Signal) : Core :=
  let n := (c.sem x.sem.toNat).toNat + x.inc.toNat
  { c.setSem x.sem.toNat (BitVec.ofNat 32 (min n 0xFFFFFFFF)) with
    semRts := Tab.set c.semRts x.sem.toNat (max (Tab.get 0 c.semRts x.sem.toNat) x.pts)
    semRels := Tab.set c.semRels x.sem.toNat
      (keepRelease { core := x.vcore, mask := x.mask, group := x.group, ts := x.pts } (Tab.get [] c.semRels x.sem.toNat)) }

/-- The exact sum passes 0xFFFF_FFFF (R191). -/
def Core.semOverflows (c : Core) (x : Signal) : Bool :=
  decide (0xFFFFFFFF < (c.sem x.sem.toNat).toNat + x.inc.toNat)

/-- The slot that takes the trap of a queue's signal: slot E, or the lowest column that has not halted (R215). -/
def Core.trapSlot (c : Core) : Option Slot :=
  if (c.slot .E).halted then allSlots.find? (fun k => !(c.slot k).halted) else some .E

/-- Semaphore overflow by the signal of a queue: a completion-class trap in that core (R215). A slot that holds a trap
already takes this one after it: the signal's result comes again. -/
def State.queueOverflow (s : State) (c : Nat) (q : Queue) (x : Signal) : State :=
  let k := s.core c
  match k.trapSlot with
  | Option.none => s.unhandled c .E 0x30
  | some j =>
    if k.busy || k.regs.tvec == 0 then s.unhandled c j 0x30
    else if (k.slot j).pend.isSome then s.post (.semaphoreAdd { x with inc := 0 })
    else
      let d : BitVec 32 := 0#12 ++ BitVec.ofNat 2 (queueIx q) ++ 1#1 ++ ofBool1 x.remote ++ BitVec.ofNat 8 x.target ++ x.sem
      (s.modCore c (fun k => k.modSlot j (fun t => { t with pend := some { code := 0x30, detail := d, tval := 0 } }))).post
        (.trapEntry c)

/-- SEMAPHORE_ADD: Signal(sem, inc, L) of R8 at the target core, and its result to the signaller (R191, R215). A loss of the context has
stopped every signal of the partition (R413). -/
def execSemaphoreAdd (x : Signal) (s : State) : Out :=
  .next (match (if (s.part x.part).lost then Option.none else s.signalCore x) with
    | Option.none => s
    | some c =>
      let past := (s.core c).semOverflows x
      let s := s.modCore c (fun k => k.addSem x)
      match x.from_ with
      | .slot k _ =>
        if ((s.core k).slot .B).await = some (.signal x.sem x.target x.remote) then
          s.answerB k (fun t => if past then t.trapped 0x30 (signalDetail x) else t.answered)
        else s
      | .queue k q => if past || x.inc == 0 then s.queueOverflow k q x else s
      | .ring .. | .dispatcher _ | .completion _ => s)

end Sys2Proof.Machine
end

