-- ==== Sys2Proof/Machine/Enqueue.lean ====
section
/-! DEFINITION. Slot E's engine instructions: accumulator moves (R203 to R207), enqueues (R208), SLATE, the shot list
(R210, R229, R230) and QSTAT (R211). -/

namespace Sys2Proof.Machine

/-! Enqueue. -/

/-- What the enqueue makes of the record at `ra` (R208, R209). -/
inductive Checked where
  | ok (r : Rec)
  | park (reason : Nat)
  | lost (y : Syndromes)

/-- 32-bit entry `i` of a list of words. -/
def entry32 (l : List Word) (i : Nat) : BitVec 32 := bits (wordAt l (i / 2)) (32 * (i % 2)) 32

/-- The granules that a record's blocks stand in: source block, destination block, segment table and its words. -/
def Rec.reads (r : Rec) : Nat × Nat × Nat :=
  (if r.kind = 0x10 ∨ r.kind = 0x12 ∨ r.kind = 0x13 then 8 else 0,
   if r.kind = 0x10 ∨ r.kind = 0x11 then 8 else 0,
   if r.kind = 2 ∧ r.trip 0 ≤ 128 ∧ 64 * r.baseC + 4 * r.trip 0 ≤ 0x200000 then (r.trip 0 + 1) / 2 else 0)

/-- The record at `ra` with every block that its kind names, read from the task array, their seals first, and checked (R208, R209). A record or a block in the pin
region is not read: reason 9, in its turn (R260). -/
def Core.checkRecord (c : Core) (x : Enqueuer) (ra : Word) (vcore ncl : Nat) : Checked :=
  if !aligned ra 64 || decide (0x200000 ≤ ra.toNat) then .park 1
  else if c.taskBytes ≤ ra.toNat then .park 9
  else
    match c.taskWords ra.toNat 8 with
    | .error y => .lost y
    | .ok w =>
      let r : Rec := { w := w }
      let (a, b, n) := r.reads
      let out (base words : Nat) : Bool := decide (0 < words) && decide (c.taskBytes < 64 * base + 8 * words)
      let na := if out r.baseA a then 0 else a
      let nb := if out r.baseB b then 0 else b
      let nn := if out r.baseC n then 0 else n
      match c.taskWords (64 * r.baseA) na, c.taskWords (64 * r.baseB) nb, c.taskWords (64 * r.baseC) nn with
      | .error y, _, _ | _, .error y, _ | _, _, .error y => .lost y
      | .ok src, .ok dst, .ok seg =>
        let r : Rec := { r with src, dst, segs := if nn = 0 then [] else (List.range (r.trip 0)).map (entry32 seg) }
        match r.reason x vcore ncl c.taskBytes (out r.baseA a || out r.baseB b || out r.baseC n) with
        | some n => .park n
        | none => .ok r

/-- The record joins queue `q` with what it is ordered after: the records of every queue, the moves that have issued, and
the logical time `t` (R41, R216, R228). -/
def Core.append (c : Core) (q : Queue) (r : Rec) (t : Nat) : Core :=
  let r : Rec := { r with before := [c.mq.enq, c.cq0.enq, c.cq1.enq], moves := c.moveSeq, ts := t }
  c.modQueue q (fun y => { y with recs := y.recs ++ [r], enq := y.enq + 1 })

/-- A queue holds 32 records (R44, R372). A performed head keeps its place until its signal has been sent or, while that is parked,
tried again; that it does, though DEPTH counts it no more, is the model's choice (log 74). -/
def Core.queueFull (c : Core) (q : Queue) : Bool := decide (Config.queueDepth ≤ (c.queue q).recs.length)

/-- The check of the acting slot's enqueue. -/
def State.checkEnqueue (s : State) (x : Enqueuer) (ra : Word) : Checked :=
  s.cc.checkRecord x ra (s.vcoreOf s.cur.core) (match s.cc.bind with | some b => (s.part b.part).ncl | none => 0)

/-- How many words of a record and its blocks the first reading finds damaged. -/
def Core.recordFlaws (c : Core) (ra : Word) (r : Rec) : Nat :=
  let (a, b, n) := r.reads
  c.taskFlaws ra.toNat 8 + c.taskFlaws (64 * r.baseA) a + c.taskFlaws (64 * r.baseB) b + c.taskFlaws (64 * r.baseC) n

/-- The record address of an enqueue. -/
def State.recordAddr (s : State) (sa : SReg) (imm : BitVec 20) : Word := s.rs sa + imm.setWidth 64

/-- Enqueue(q) of R208. A full queue holds slot E, and nothing has happened (R44). -/
def State.enqueue (s : State) (x : Enqueuer) (q : Queue) (ra : Word) : State :=
  if s.cc.bind.isNone then s.parkCs { cause := 0x42, addr := ra }
  else match s.checkEnqueue x ra with
    | .park n => s.parkCs { cause := 0x42, addr := ra, reason := BitVec.ofNat 8 n }
    | .lost y => s.lose (Loss.inside y .enqueue s.me)
    | .ok r =>
      if s.cc.queueFull q then s
      else ((s.countSeal (s.cc.recordFlaws ra r)).modCc (fun c => c.append q r (s.pts s.me))).advance

/-- MENQ (R208). -/
def execMenq (sa : SReg) (imm : BitVec 20) (s : State) : Out := .next (s.enqueue .menq .mq (s.recordAddr sa imm))
/-- CENQ (R208). -/
def execCenq (q : Queue) (sa : SReg) (imm : BitVec 20) (s : State) : Out :=
  .next (s.enqueue (.cenq q) q (s.recordAddr sa imm))
/-- QJOIN (R208, R228). -/
def execQjoin (q : Queue) (sa : SReg) (imm : BitVec 20) (s : State) : Out :=
  .next (s.enqueue (.qjoin q) q (s.recordAddr sa imm))

/-- SLATE: the stage counter saturates (R210). -/
def execSlate (n : BitVec 8) (s : State) : Out :=
  .next (if n = 0 then s.illegal
    else (s.modCc (fun c => { c with stage := BitVec.ofNat 32 (min (c.stage.toNat + n.toNat) 0xFFFFFFFF) })).advance)

/-- The queue as its oldest record that has not been performed shows it: a head that has still to signal is performed (R211). -/
def QState.shown (x : QState) : QState :=
  if x.phase == .signal then { x with recs := x.recs.drop 1, done := x.done + 1, phase := .idle } else x

/-- The word of QSTAT (R211). -/
def Core.qstat (c : Core) (q : Queue) : Word :=
  let x := (c.queue q).shown
  let cause : BitVec 8 := match x.park with | some p => p.cause | none => 0
  let waits := x.phase == .waiting
  match x.recs with
  | [] => cause ++ 0#40 ++ BitVec.ofNat 16 x.done
  | r :: _ =>
    let unmetA := decide ((Tab.get 0 c.sems r.semA).toNat < r.thrA)
    let sem := if !waits then 0 else if unmetA then r.semA else r.semB
    cause ++ BitVec.ofNat 8 sem ++ ofBool1 waits ++ ofBool1 (x.phase == .leave) ++ ofBool1 (x.phase == .run) ++ 0#7 ++
      BitVec.ofNat 6 x.recs.length ++ r.tag ++ BitVec.ofNat 16 x.done

/-- QSTAT (R211). -/
def execQstat (sd : SReg) (q : Queue) (s : State) : Out := .next (s.retS sd (s.cc.qstat q) false)

/-! The shot list. -/

/-- The next entry of the shot list, when the stage counter has released it (R230). -/
def Core.released (c : Core) : Option Shot :=
  match c.shots.drop c.shotsDone with
  | x :: _ => if x.stage ≤ c.stage.toNat then some x else none
  | [] => none

/-- An entry that a SLATE has released has not entered its queue: it holds slot E (R210). -/
def Core.slateHeld (c : Core) : Bool :=
  (c.shots.drop c.shotsDone).any (fun x => decide (0 < x.stage) && decide (x.stage ≤ c.stage.toNat))

/-- SHOT_REPLAY: the released entry enters its queue once it has room (R230). -/
def State.shotReplay (s : State) (c : Nat) : Option State :=
  let k := s.core c
  match k.released with
  | some x =>
    if k.queueFull x.q then none
    else some (s.setCore c { k.append x.q x.rcd (k.slot .E).pts with shotsDone := k.shotsDone + 1 })
  | none => none

/-- SHOT_REPLAY (R230). -/
def execShotReplay (core : Nat) (s : State) : Out := .next ((s.shotReplay core).getD s)

/-! Accumulator moves. -/

/-- A move issues (R205). A 33rd outstanding move holds slot E. -/
def State.issueMove (s : State) (k : MoveKind) (tl sl : BitVec 4) : State :=
  let c := s.cc
  if Config.maxMoves ≤ c.moves.length then s
  else
    let m : Move := { seq := c.moveSeq, kind := k, tile := tl.toNat, slice := sl.toNat, fpctl := c.src.fpctl,
                      mqBefore := c.mq.enq, knows := slotMask (allSlots.filter (fun k => (c.slot k).group == s.cs.group))
                      joinedV := (c.slot .V).group == s.cs.group }
    (s.modCc (fun c => { c with moves := c.moves ++ [m], moveSeq := c.moveSeq + 1 })).advance

/-- ACCLD (R204). -/
def execAccld (cv : Bool) (vd : VReg) (tl sl : BitVec 4) (s : State) : Out := .next (s.issueMove (.ld cv vd) tl sl)
/-- ACCST: vd is read at issue (R204, R205). -/
def execAccst (vd : VReg) (tl sl : BitVec 4) (s : State) : Out := .next (s.issueMove (.st vd (s.rv vd)) tl sl)
/-- ACCZ (R204). -/
def execAccz (tl : BitVec 4) (s : State) : Out := .next (s.issueMove .zero tl 0)

/-- Conditions that wait for an ACCWAIT, as one: with the element of the oldest move (R206). -/
def mergeConds : List MoveCond → Option MoveCond
  | [] => none
  | x :: l => some (l.foldl (fun a b =>
      { (if b.seq < a.seq then b else a) with raised := a.raised ||| b.raised, enabled := a.enabled ||| b.enabled }) x)

/-- DETAIL of the conditions that an ACCWAIT reports (R206). -/
def moveDetail (l : List MoveCond) : BitVec 32 :=
  match mergeConds l with
  | some x => arithDetail x.elem x.raised x.enabled
  | none => arithDetail 0 0 0

/-- ACCWAIT (R206). -/
def execAccwait (n : BitVec 6) (s : State) : Out :=
  .next (
    if n.toNat < s.cc.moves.length then s
    else
      match s.cc.conds with
      | [] => s.advance
      | l => (s.advance.modCc (fun c => { c with conds := [] })).raise 0x50 (moveDetail l) 0)

/-- Slice `sl` of tile `tl`: zeros while the tile's zero flag is set (R41, R203). -/
def Core.slice (c : Core) (tl sl : Nat) : VVal := if bit c.accZero tl then [] else Tab.get [] c.acc (16 * tl + sl)

/-- The tile without its stored slices. -/
def Core.dropTile (c : Core) (tl : Nat) : Core := { c with acc := c.acc.filter (fun x => !(x.1 / 16 == tl)) }

/-- The first write of any part of a tile clears its zero flag: the other parts hold zeros from then on (R41). -/
def Core.openTile (c : Core) (tl : Nat) : Core :=
  if bit c.accZero tl then { c.dropTile tl with accZero := c.accZero &&& ~~~(1#16 <<< tl) } else c

/-- A slice is written (R41, R204). -/
def Core.setSlice (c : Core) (tl sl : Nat) (v : VVal) : Core :=
  let c := c.openTile tl
  { c with acc := Tab.set c.acc (16 * tl + sl) v }

/-- The tiles that a record writes (R219, R220). -/
def Rec.tiles (r : Rec) : List Nat :=
  if r.kind = 1 ∨ r.kind = 2 then (if r.bt = 4 then [r.tile, r.tile + 1] else [r.tile]) else []

/-- A record that had entered mq before the move, and writes its tile, has not been performed (R41). -/
def Core.moveHeld (c : Core) (m : Move) : Bool :=
  (c.mq.recs.zipIdx).any (fun x => decide (c.mq.done + x.2 < m.mqBefore) && x.1.tiles.contains m.tile &&
    !(x.2 == 0 && c.mq.phase == .signal))

/-- The sub-elements of a slice in BF16 with their conditions, by position: rounded in RNE under the other controls of
FPCTL (R204). -/
def bf16Slice (fpctl : Word) (v : VVal) : List Res :=
  (List.range 1024).map (fun e => fCvt { FpEnv.ofCtl fpctl with rm := .rne } fp32 bf16 (v.get e).toNat)

/-- The register after a converted move: half `sl` mod 2 of it is replaced (R203). -/
def packHalf (old : VVal) (sl : Nat) (l : List Res) : VVal :=
  let at_ (e : Nat) : BitVec 16 := match l[e]? with | some r => BitVec.ofNat 16 r.v | none => 0
  VVal.ofFn (fun e => if e / 512 = sl % 2 then at_ (2 * (e % 512) + 1) ++ at_ (2 * (e % 512)) else old.get e)

/-- The conditions of a converted move by element of vd (R206). -/
def halfConds (sl : Nat) (l : List Res) : List (Nat × Conds) :=
  (l.zipIdx).map (fun x => (512 * (sl % 2) + x.2 / 2, x.1.c))

/-- The effect of a move on the core (R204, R206). -/
def Core.performMove (c : Core) (m : Move) : Core :=
  match m.kind with
  | .ld false vd => { c with regs := c.regs.vset vd.toNat (VVal.ofFn (c.slice m.tile m.slice).get) }
  | .ld true vd =>
    let l := bf16Slice m.fpctl (c.slice m.tile m.slice)
    let cs := halfConds m.slice l
    let raised := orConds cs
    let enabled := raised &&& enables m.fpctl
    let regs := c.regs.vset vd.toNat (packHalf (c.regs.vget vd.toNat) m.slice l)
    { c with
      regs := { regs with fpflags := regs.fpflags ||| raised.setWidth 64 }
      conds := if enabled = 0 then c.conds
               else c.conds ++ [{ seq := m.seq, raised, enabled, elem := lowestElem cs (enables m.fpctl) }] }
  | .st _ v => c.setSlice m.tile m.slice v
  | .zero => { c.dropTile m.tile with accZero := c.accZero ||| (1#16 <<< m.tile) }

/-- ACC_MOVE_PERFORMED: the outstanding move at position `pos` is performed once the earlier moves of its tile and the
records that it waits for have been (R41, R205). -/
def State.movePerformed (s : State) (c pos : Nat) : Option State :=
  let k := s.core c
  match k.moves[pos]? with
  | none => none
  | some m =>
    if (k.moves.take pos).any (fun x => x.tile == m.tile) || k.moveHeld m then none
    else some (s.setCore c { k.performMove m with moves := k.moves.take pos ++ k.moves.drop (pos + 1) })

/-- ACC_MOVE_PERFORMED (R205). -/
def execAccMovePerformed (core pos : Nat) (s : State) : Out := .next ((s.movePerformed core pos).getD s)

end Sys2Proof.Machine
end

