-- ==== Sys2Proof/Machine/Matrix.lean ====
section
/-! DEFINITION. The arithmetic of the matrix array (R67 to R71), the decompressor (R219, R234, R235), the checks of a K-step
(R243, R244) and its commit into the tile (R233). -/

namespace Sys2Proof.Machine

/-! Operands. -/

/-- A value in the array: a datum with its scale applied exactly, or an integer (R67, R70). -/
inductive Cell where
  | num (v : FVal)
  | int (x : Int)
deriving DecidableEq, Repr

/-- The array rounds to nearest even, keeps subnormals and sets no flag (R67, R69). -/
def arrayEnv : FpEnv := { rm := .rne, sat := false, ftz := false, daz := false }

/-- The default NaN of the array (R69). -/
def arrayNan : Elem := 0x7FC00000

/-- A result of the array: every NaN is the default NaN (R69). -/
def arrayElem (r : Res) : Elem := if fp32.isNan r.v then arrayNan else BitVec.ofNat 32 r.v

/-- A datum with the E8M0 scale `x`; scale 0xFF makes it a NaN (R67). -/
def scaled (v : FVal) (x : Nat) : FVal :=
  if x = 255 then .nan false 0
  else match v with
    | .num s m e => .num s m (e + x - 127)
    | v => v

/-- The format of a weight in mode `bt` (R218). -/
def weightFmt (bt : Nat) : Fmt := if bt = 4 then e2m1 else if bt = 5 then bf16 else if bt = 1 ∨ bt = 3 then e5m2 else e4m3

/-- The format of an A element of type `at_` (R218). -/
def aFmt (at_ : Nat) : Fmt := if at_ = 2 then bf16 else if at_ = 1 then e5m2 else e4m3

/-- An 8-bit integer, signed or not. -/
def int8 (signed : Bool) (x : BitVec 8) : Int := if signed then x.toInt else x.toNat

/-- The weights of a processing element: one, or two in MXFP4 mode (R374). -/
def peCells (mode : Nat) (w : BitVec 32) : List Cell :=
  let sc0 := (bits w 8 8).toNat
  if mode = 4 then
    [.num (scaled (e2m1.decode false (bits w 16 4).toNat) sc0),
     .num (scaled (e2m1.decode false (bits w 20 4).toNat) (bits w 0 8).toNat)]
  else if mode = 5 then [.num (scaled (bf16.decode false (bits w 16 16).toNat) sc0)]
  else if 6 ≤ mode then [.int (int8 (mode == 6) (bits w 16 8))]
  else [.num (scaled ((weightFmt mode).decode false (bits w 16 8).toNat) sc0)]

/-- The word of a processing element whose weight is zero, in a mode without scales: what both planes hold at dispatch
(R220, R374). -/
def zeroPe : BitVec 32 := 0x00007F00

/-- The words of array row `k` (R374). -/
def Plane.row (p : Plane) (k : Nat) : List (BitVec 32) := p.pes.getD k (List.replicate 128 zeroPe)

/-- The weights of array row `k`, by output column (R231). -/
def Plane.cells (p : Plane) (k : Nat) : List Cell := (p.row k).flatMap (peCells p.mode)

/-- Output columns of a mode: 256 in MXFP4 mode, else 128 (R219). -/
def columns (mode : Nat) : Nat := if mode = 4 then 256 else 128
/-- The array column of output `j` (R232). -/
def arrayColumn (mode j : Nat) : Nat := if mode = 4 then j / 2 else j

/-- The bytes of words, in order. -/
def bytesOf (l : List Word) : List Byte := l.flatMap (fun w => (List.range 8).map (byteOf w))

/-- A list in pieces of `n`. -/
def chunks {α : Type} (n : Nat) : Nat → List α → List (List α)
  | 0, _ => []
  | k + 1, l => l.take n :: chunks n k (l.drop n)

/-- The 16-bit words of words, in order. -/
def halves (l : List Word) : List (BitVec 16) := l.flatMap (fun w => (List.range 4).map (fun k => bits w (16 * k) 16))

/-- The A elements of a row with its four scales, by K position (R67, R219). -/
def aCells (at_ : Nat) (a : ARow) : List Cell :=
  let sc (k : Nat) : Nat := (bits a.scales (8 * (k / 32)) 8).toNat
  if at_ = 2 then (halves a.words).map (fun x => .num (bf16.decode false x.toNat))
  else if 3 ≤ at_ then (bytesOf a.words).map (fun x => .int (int8 (at_ == 3) x))
  else ((bytesOf a.words).zipIdx).map (fun x => .num (scaled ((aFmt at_).decode false x.1.toNat) (sc x.2)))

/-! Arithmetic. -/

/-- P: the product, computed exactly and rounded once (R67), or modulo 2^32 (R70). -/
def mulCell : Cell → Cell → Elem
  | .int a, .int b => BitVec.ofInt 32 (a * b)
  | .num a, .num b =>
    if a.isNan || b.isNan then arrayNan
    else match mulVal a b with
      | some v => arrayElem (deliver arrayEnv fp32 v)
      | none => arrayNan
  | _, _ => arrayNan

/-- A sum of the array: rounded to nearest even in FP32 (R68), or modulo 2^32 in INT8 mode (R70). -/
def addElem (mode : Nat) (a b : Elem) : Elem :=
  if 6 ≤ mode then a + b
  else arrayElem (fAdd arrayEnv fp32 (fp32.decode false a.toNat) (fp32.decode false b.toNat))

/-- One level of the tree T (R65). -/
def treeLevel {α : Type} (op : α → α → α) : List α → List α
  | a :: b :: r => op a b :: treeLevel op r
  | l => l

/-- The tree T over 2^n inputs (R65). -/
def sumTree {α : Type} (op : α → α → α) : Nat → List α → List α
  | 0, l => l
  | n + 1, l => sumTree op n (treeLevel op l)

/-- The tree sum of the outputs of a row. -/
def treeSum (mode : Nat) (l : List Elem) : Elem := (sumTree (addElem mode) 8 l).headD 0

/-- A cell as an element: rounded once, or modulo 2^32. That a scaled weight outside the range of FP32 is rounded, to an infinity, before
it enters the tree sums of R243 is the model's choice (log 76). -/
def Cell.elem : Cell → Elem
  | .num v => arrayElem (deliver arrayEnv fp32 v)
  | .int x => BitVec.ofInt 32 x

/-- The magnitude of a cell. -/
def Cell.abs : Cell → Cell
  | .num v => .num (v.withSign false)
  | .int x => .int x.natAbs

/-- An element as a factor of the checksum column. -/
def elemCell (mode : Nat) (x : Elem) : Cell := if 6 ≤ mode then .int x.toInt else .num (fp32.decode false x.toNat)

/-- The checksum weights of an array row: W_k above w_k (R243). -/
def rowSums (mode : Nat) (l : List Cell) : Word :=
  treeSum mode (l.map (fun c => c.abs.elem)) ++ treeSum mode (l.map Cell.elem)

/-- w_k of a plane. -/
def Plane.w (p : Plane) (k : Nat) : Cell := elemCell p.mode (bits (p.sums.getD k 0) 0 32)
/-- W_k of a plane. -/
def Plane.wAbs (p : Plane) (k : Nat) : Cell := elemCell p.mode (bits (p.sums.getD k 0) 32 32)

/-- The products that column `n` has taken `d` ck after a row's entry: c(n) of R367. -/
def taken (d n : Nat) : Nat := min (d + 1 - n) 128

/-- A partial sum takes one more product. -/
def accum (mode : Nat) (s : Option Elem) (p : Elem) : Option Elem :=
  match s with
  | none => some p
  | some x => some (addElem mode x p)

/-- What the sums of a row have come to `d` ck after its entry, from where its frame left them (R68, R232, R367). -/
def InRow.at_ (r : InRow) (at_ d : Nat) : RowFrame :=
  let mode := r.plane.mode
  let d0 : Nat → Nat := fun n => match r.frame with | some f => taken f.d n | none => 0
  let start (l : Option Elem) (n : Nat) : Option Elem := if d0 n = 0 then none else l
  let sums0 : List (Option Elem) := (List.range (columns mode)).map (fun j =>
    start (match r.frame with | some f => f.sums[j]? | none => none) (arrayColumn mode j))
  let x0 := start (r.frame.map (·.x)) 128
  let r0 := start (r.frame.map (·.r)) 128
  let go (n k : Nat) (s : Option Elem) (p : Elem) : Option Elem :=
    if d0 n ≤ k ∧ k < taken d n then accum mode s p else s
  let (sums, x, y) := ((aCells at_ r.a).zipIdx).foldl (fun (acc : List (Option Elem) × Option Elem × Option Elem) a =>
    let (sums, x, y) := acc
    ((sums.zip (r.plane.cells a.2)).zipIdx.map (fun z =>
        go (arrayColumn mode z.2) a.2 z.1.1 (mulCell a.1 z.1.2)),
      go 128 a.2 x (mulCell a.1 (r.plane.w a.2)), go 128 a.2 y (mulCell a.1.abs (r.plane.wAbs a.2)))) (sums0, x0, r0)
  { d, sums := sums.map (·.getD 0), x := x.getD 0, r := y.getD 0 }

/-- The age at which the sums of a row and its checks have settled (R233). -/
def settledAge : Nat := 259

/-- The whole row (R68, R243). -/
def InRow.done (r : InRow) (at_ : Nat) : RowFrame :=
  match r.frame with
  | some f => if settledAge ≤ f.d then f else r.at_ at_ settledAge
  | none => r.at_ at_ settledAge

/-! The check. -/

/-- |X − Y| ≤ 2^−tol × R, computed exactly; passed without a comparison when one of them is no finite number (R244). -/
def checkPass (mode tol : Nat) (x y r : Elem) : Bool :=
  if 6 ≤ mode then x == y
  else
    let finite (v : FVal) : Bool := match v with | .nan .. | .inf _ => false | _ => true
    let a := fp32.decode false x.toNat
    let b := fp32.decode false y.toNat
    let c := fp32.decode false r.toNat
    if !(finite a && finite b && finite c) then true
    else match addVal .rne a b.flip with
      | some (.num _ m e) => !fLt c (.num false m (e + tol))
      | _ => true

/-- The check of a row (R243, R244). -/
def RowFrame.pass (f : RowFrame) (mode tol : Nat) : Bool := checkPass mode tol f.x (treeSum mode f.sums) f.r

/-- Sums taken in order, from the first. -/
def ascending (mode : Nat) (l : List Elem) : Elem := ((l.foldl (fun s x => accum mode s x) none).getD 0)

/-- The check of the corner over the rows of a K-step, in ascending row (R244). -/
def cornerPass (mode tol : Nat) (l : List RowFrame) : Bool :=
  let z := match l with
    | [] => []
    | f :: r => r.foldl (fun s g => (s.zip g.sums).map (fun p => addElem mode p.1 p.2)) f.sums
  checkPass mode tol (ascending mode (l.map (·.x))) (treeSum mode z) (ascending mode (l.map (·.r)))

/-- The lowest row that fails its check, or 128 for the corner; nothing when the K-step passes (R245). -/
def failingRow (mode tol : Nat) (l : List (Nat × RowFrame)) : Option Nat :=
  match l.find? (fun x => !x.2.pass mode tol) with
  | some x => some x.1
  | none => if cornerPass mode tol (l.map (·.2)) then none else some 128

/-! The commit. -/

/-- Row `i` of tile `tl` takes the sums `l` of its 128 columns (R68). -/
def Core.addRow (c : Core) (mode tl i : Nat) (l : List Elem) : Core :=
  let v := c.slice tl (i / 8)
  let v := v ++ List.replicate (1024 - v.length) 0
  let a := 128 * (i % 8)
  let row := ((v.drop a).zip l).map (fun x => addElem mode x.1 x.2)
  c.setSlice tl (i / 8) (v.take a ++ row ++ v.drop (a + row.length))

/-- A K-step's sums are added into its tile: columns 128 to 255 of MXFP4 mode into the next one (R219, R233). -/
def Core.commitRows (c : Core) (mode tl : Nat) (l : List (Nat × RowFrame)) : Core :=
  l.foldl (fun c x =>
    let c := c.addRow mode tl x.1 (x.2.sums.take 128)
    if mode = 4 then c.addRow mode (tl + 1) x.1 (x.2.sums.drop 128) else c) c

/-! The decompressor. -/

/-- What the decompressor makes of a weight set. -/
inductive Delivered where
  | ok (p : Plane)
  /-- the compressed layout is broken (R235) -/
  | desync
  /-- a seal failed both readings: its syndrome -/
  | lost (y : BitVec 8)

/-- The words of a granule of the weight buffer, each consumed; an unfilled granule reads as zeros without a check (R42,
R234). The weight buffer keeps one copy. -/
def Core.granule (c : Core) (g : Nat) : Except (BitVec 8) (List Word) :=
  match Tab.find? c.wbuf g with
  | none => .ok (List.replicate 8 0)
  | some l =>
    match l.find? (fun x => !sealOk x.1 x.2) with
    | some x => .error (syn x.1 x.2)
    | none => .ok (l.map (·.1))

/-- The words of consecutive granules. -/
def Core.granules (c : Core) (g n : Nat) : Except (BitVec 8) (List Word) :=
  (List.range n).foldr (fun k r => match c.granule (g + k), r with
    | .ok a, .ok b => .ok (a ++ b)
    | .error y, _ => .error y
    | _, .error y => .error y) (.ok [])

/-- The data granules that a presence map names: each is the next one of `l`, or zeros (R235). -/
def spread : List Bool → List (List Word) → List Word
  | [], _ => []
  | true :: m, x :: l => x ++ spread m l
  | true :: m, [] => List.replicate 8 0 ++ spread m []
  | false :: m, l => List.replicate 8 0 ++ spread m l

/-- The words of the processing elements of one array row (R219, R374). -/
def peRow (bt : Nat) (data : List Word) (scales : List Byte) : List (BitVec 32) :=
  if bt = 5 then (halves data).map (fun x => x ++ 0x7F00#16)
  else if bt = 4 then
    ((bytesOf data).zip (chunks 2 128 scales)).map (fun x => 0#8 ++ x.1 ++ x.2.getD 0 0x7F ++ x.2.getD 1 0x7F)
  else if bt = 2 ∨ bt = 3 then ((bytesOf data).zip scales).map (fun x => 0#8 ++ x.1 ++ x.2 ++ 0#8)
  else (bytesOf data).map (fun x => 0#8 ++ x ++ 0x7F00#16)

/-- A plane from the data words and the scale bytes of a set, with its checksum weights (R219, R243). -/
def mkPlane (bt : Nat) (data scales : List Word) : Plane :=
  let sc := chunks (2 * scaleGranules bt * 8) 4 (bytesOf scales)
  let rows := (chunks (dataGranules bt / 16) 128 data).zipIdx.map (fun x => peRow bt x.1 (sc.getD (x.2 / 32) []))
  { mode := bt, pes := rows, sums := rows.map (fun r => rowSums bt (r.flatMap (peCells bt))) }

/-- The weight set at granule `g` in mode `bt` (R219, R235). -/
def Core.weightSet (c : Core) (bt : Nat) (cmp : Bool) (g : Nat) : Delivered :=
  let n := dataGranules bt
  let k := scaleGranules bt
  if cmp then
    match c.granule g with
    | .error y => .lost y
    | .ok m =>
      let bit_ := (bytesOf m).flatMap (fun b => (List.range 8).map (fun i => bit b i))
      let p := (bit_.take n).count true
      if (bit_.drop n).contains true || decide (n - 1 < p) then .desync
      else match c.granules (g + 1) p, c.granules (g + 1 + p) k with
        | .ok d, .ok s => .ok (mkPlane bt (spread (bit_.take n) (chunks 8 p d)) s)
        | .error y, _ | _, .error y => .lost y
  else
    match c.granules g n, c.granules (g + n) k with
    | .ok d, .ok s => .ok (mkPlane bt d s)
    | .error y, _ | _, .error y => .lost y

end Sys2Proof.Machine
end

