-- ==== Sys2Proof/Machine/Engine.lean ====
section
/-! DEFINITION. The life of an engine record (R212 to R217), leave (R425), the matrix records (R220 to R224, R234 to R247),
JOIN (R228), and the timing detectors (R409, R410). Each action gives nothing when it cannot happen. -/

namespace Sys2Proof.Machine

/-! Start, wait, leave, signal (R212 to R215). -/

/-- The task's queues run: its state is in place, and no stop has brought its slots to rest (R292, R363). -/
def Core.running (c : Core) : Bool :=
  match c.stop with
  | .none | .soft _ => !c.loading
  | .slots .. => false

/-- The matrix array finishes the K-step that has begun to enter, unless the stop is hard (R363, R366). -/
def Core.finishing (c : Core) : Bool :=
  match c.stop with
  | .slots hard .. => !hard
  | .none | .soft _ => true

/-- A K-step has begun to enter: rows of it stand in the array or in staging, or its replay is due (R245, R246). -/
def Staged.begun (g : Staged) : Bool := !g.rows.isEmpty || g.replay

/-- The core's record stands inside a K-step: it is at none of the boundaries of R246. -/
def Core.inFlight (c : Core) : Bool := c.staged.any Staged.begun || c.ahead.any Staged.begun

/-- The head of a queue. -/
def Core.head (c : Core) (q : Queue) : Option Rec := (c.queue q).recs.head?

/-- The head of a queue in a phase, when nothing parks it. -/
def Core.headIn (c : Core) (q : Queue) (p : Phase) : Option Rec :=
  let x := c.queue q
  if x.park.isNone && x.phase == p then x.recs.head? else none

/-- Records of a queue that have been performed (R228). -/
def QState.performed (x : QState) : Nat := x.done + (if x.phase == .signal then 1 else 0)

/-- The records that a JOIN waits for have been performed (R228). -/
def Core.joinReady (c : Core) (r : Rec) : Bool :=
  (!r.flag 2 0 || decide (r.before.getD 0 0 ≤ c.mq.performed)) &&
  (!r.flag 2 1 || decide (r.before.getD 1 0 ≤ c.cq0.performed)) &&
  (!r.flag 2 2 || decide (r.before.getD 2 0 ≤ c.cq1.performed))

/-- What the units of a request are: 0.5 A × (CLS + 1) (R425). -/
def Rec.leaveUnits (r : Rec) : Nat := r.cls + 1

/-- The governor's current rises by the request, which its head now holds. -/
def State.grant (s : State) (c : Nat) (q : Queue) (n : Nat) : State :=
  (s.modCluster (c / 8) (fun k => { k with granted := k.granted + n })).modCore c
    (fun x => x.modQueue q (fun t => { t with phase := .run, leave := n }))

/-- A head whose wait is over asks for leave, or issues (R214). In repeatable mode leave comes at once (R430). -/
def State.proceed (s : State) (c : Nat) (q : Queue) (r : Rec) : State :=
  if !r.needsLeave then s.modCore c (fun x => x.modQueue q (fun t => { t with phase := .run }))
  else if s.repeatable then s.grant c q r.leaveUnits
  else (s.modCluster (c / 8) (fun k => { k with line := k.line ++ [(c, q)] })).modCore c
    (fun x => x.modQueue q (fun t => { t with phase := .leave }))

/-- The time of the queues that a JOIN names: later records and its signal are ordered after theirs (R228, R278). -/
def Core.joinedTime (c : Core) (r : Rec) : Nat :=
  if r.kind ≠ 0x20 then 0
  else max (if r.flag 2 0 then c.mq.pts else 0) (max (if r.flag 2 1 then c.cq0.pts else 0) (if r.flag 2 2 then c.cq1.pts else 0))

/-- A queue of a core loses its context (R412). -/
def State.loseQueue (s : State) (c : Nat) (q : Queue) (y : Syndromes) (src : LossSource) : State :=
  s.lose (Loss.inside y src (.queue c q))

/-- The head of a queue starts: the copy that its enqueue made is consumed, its list is checked and snapshotted, MCHK is captured,
and the queue is ordered after what stood before the enqueue (R37, R184, R212, R216, R406; log 67). -/
def State.startRecord (s : State) (c : Nat) (q : Queue) : Option State :=
  let k := s.core c
  match (if k.running then k.headIn q .idle else none) with
  | none => none
  | some r =>
    if r.kind == 0x20 && !k.joinReady r then none
    else match r.broken, s.useList c r.ls with
      | some y, _ => some (s.loseQueue c q (y, y) .enqueue)
      | none, .hold => none
      | none, .park p => some (s.parkQueue c q { p with reason := 0 })
      | none, .go =>
        let x := k.queue q
        let e := s.entry c r.ls
        let s := s.modCore c (fun k => { k.modQueue q (fun t =>
          { t with snap := some (r.ls, e), mchk := if t.started then t.mchk else k.regs.mchk, started := true
                   pts := max (max t.pts r.ts) (k.joinedTime r), phase := .waiting }) with
          activeFor := if q == .mq && !k.inFlight then none else k.activeFor
          shadowFor := if q == .mq && !k.inFlight then none else k.shadowFor })
        some (if r.wait = 0 || x.waitMet then s.proceed c q r else s)

/-- A semaphore of the record's own core is at or above a threshold (R213). -/
def Core.semMet (c : Core) (sem thr : Nat) : Bool := decide (thr ≤ (c.sem sem).toNat)

/-- The condition of WAIT (R213). -/
def Core.waitMet (c : Core) (r : Rec) : Bool :=
  let a := c.semMet r.semA r.thrA
  let b := c.semMet r.semB r.thrB
  if r.wait = 1 then a else if r.wait = 2 then a && b else a || b

/-- The entry of the head's list: as its snapshot holds it, and as the core holds it for a record that a park has made drop its
snapshot (R217). -/
def State.listOfHead (s : State) (c : Nat) (q : Queue) (r : Rec) : ClEntry :=
  match ((s.core c).queue q).snap with
  | some x => x.2
  | none => s.entry c r.ls

/-- The evaluation that finds the condition true acquires from every semaphore found at its threshold (R213, R270). -/
def State.waitSatisfied (s : State) (c : Nat) (q : Queue) : Option State :=
  let k := s.core c
  match (if k.running then k.headIn q .waiting else none) with
  | none => none
  | some r =>
    if k.waitMet r then
      let met := (if k.semMet r.semA r.thrA then [r.semA] else []) ++ (if r.wait ≠ 1 ∧ k.semMet r.semB r.thrB then [r.semB] else [])
      let rts := met.foldl (fun t n => max t (Tab.get 0 k.semRts n)) 0
      let rels := met.flatMap (fun n => Tab.get [] k.semRels n)
      let e := s.listOfHead c q r
      let x := s.adopts (timeOf rels (fun y => y.meets e (s.peerOf c) (s.vcoreOf c))) rts
      let s := x.2.modCore c (fun k => k.modQueue q (fun t => { t with waitMet := true, pts := max t.pts x.1 }))
      some (s.proceed c q r)
    else none

/-- RECORD_WAIT_SATISFIED (R213). -/
def execRecordWaitSatisfied (core : Nat) (q : Queue) (s : State) : Out := .next ((s.waitSatisfied core q).getD s)

/-- The members of the core's chain, from the west, that still hold their links (R224, R242). -/
def State.chain (s : State) (c : Nat) : List Nat :=
  let k := s.core c
  if k.chainLen ≤ 1 then [c]
  else (List.range k.chainLen).filterMap (fun p =>
    let d := c - k.chainPos + p
    if (s.core d).chainLen = k.chainLen ∧ (s.core d).chainPos = p then some d else none)

/-- A chain stands at a K-step boundary when every member does, with no row between two arrays (R246). -/
def State.atBoundary (s : State) (c : Nat) : Bool :=
  (s.chain c).all (fun d => !(s.core d).inFlight && (s.core d).west.isEmpty)

/-- A stopped head gives back what it holds: its leave or its place in the line, and its snapshot. One that waits has not started
(R365, R425). -/
def State.restQueue (s : State) (c : Nat) (q : Queue) : State :=
  (s.releaseLeave c q).modCore c (fun x => x.modQueue q (fun t =>
    { t with snap := none, phase := t.phase.atRest, started := t.started && !t.phase.waits }))

/-- A stop has brought the core's slots to rest (R363). -/
def Core.stopped (c : Core) : Bool := match c.stop with | .slots .. => true | .none | .soft _ => false

/-- A stop takes hold of a queue at an issue boundary of its head: of a matrix record at a K-step boundary (R246, R365). -/
def State.stopQueue (s : State) (c : Nat) (q : Queue) : Option State :=
  let k := s.core c
  let x := k.queue q
  let boundary := q != .mq || s.atBoundary c
  if k.stopped && x.park.isNone && (x.phase.waits || (x.phase == .run && boundary)) then some (s.restQueue c q) else none

/-- The governor grants the head of its line when it fits, or stands alone (R425); repeatable mode does not consult ALLOT
(R430). The request of a head that a stop has reached is withdrawn (R365). -/
def State.leaveGrant (s : State) (cl : Nat) : Option State :=
  let k := s.cluster cl
  match k.line with
  | [] => none
  | (c, q) :: rest =>
    match (if (s.core c).running then (s.core c).headIn q .leave else none) with
    | none =>
      let t := s.modCluster cl (fun k => { k with line := rest })
      some (if (s.core c).running then t else t.restQueue c q)
    | some r =>
      if s.repeatable || decide (k.granted + r.leaveUnits ≤ k.allot) || k.granted == 0 then
        some ((s.modCluster cl (fun k => { k with line := rest })).grant c q r.leaveUnits)
      else none

/-- LEAVE_GRANT (R425). -/
def execLeaveGrant (cluster : Nat) (s : State) : Out := .next ((s.leaveGrant cluster).getD s)

/-- The head has been performed: it returns its leave, and its signal is due (R212, R214). A bound that has fired while its last K-step
stood staged is forgotten with it, so that it signals without a park (log 62). -/
def State.performed (s : State) (c : Nat) (q : Queue) : State :=
  (s.releaseLeave c q).modCore c (fun k => k.modQueue q (fun t => { t with phase := .signal, cut := none }))

/-- The head leaves its queue. -/
def QState.pop (x : QState) : QState :=
  { x with recs := x.recs.drop 1, done := x.done + 1, phase := .idle, snap := none, waitMet := false, started := false,
           pos := 0, cut := none }

/-- The completion signal of a performed record, a release of what its queue has done; a target that is gone parks the
queue (R215). A head that a park or a stop has made drop its snapshot takes its list again first (R184, R217). -/
def State.recordPerformed (s : State) (c : Nat) (q : Queue) : Option State :=
  let k := s.core c
  match k.headIn q .signal with
  | none => none
  | some r =>
    let done (s : State) : State := s.modCore c (fun k =>
      { k.modQueue q QState.pop with markDone := if q == .mq then false else k.markDone })
    if r.inc = 0 then some (done s)
    else match (if (k.queue q).snap.isSome then .go else s.useList c r.ls) with
    | .hold => none
    | .park p => some (s.parkQueue c q { p with reason := 0 })
    | .go =>
      let part := s.partOf c
      let sem : BitVec 8 := bits (wordAt r.w 2) 56 8
      if r.rmt && decide (8 * (s.part part).ncl ≤ r.tgt) then
        some (s.parkQueue c q { cause := 0x20, addr := 0#48 ++ sem ++ BitVec.ofNat 8 r.tgt, reason := 1 })
      else
        let target := if r.rmt then r.tgt else s.vcoreOf c
        let e := s.listOfHead c q r
        let x : Signal := { from_ := .queue c q, part, target, sem, inc := BitVec.ofNat 8 r.inc, remote := r.rmt,
                            pts := (k.queue q).pts, vcore := s.vcoreOf c, mask := e.cores, group := e.namesGroup (s.peerOf c) }
        some ((done s).post (.semaphoreAdd x))

/-- RECORD_PERFORMED (R215). -/
def execRecordPerformed (core : Nat) (q : Queue) (s : State) : Out := .next ((s.recordPerformed core q).getD s)

/-- JOIN: it started once the records it names had been performed, and it is performed when its wait is over (R228). -/
def State.joinStep (s : State) (c : Nat) (q : Queue) : Option State :=
  match (s.core c).headIn q .run with
  | some r => if r.kind = 0x20 then some (s.performed c q) else none
  | none => none

/-- The head is of a kind and has not started: it starts; else `f` says what it does next. -/
def State.ofKind (s : State) (c : Nat) (q : Queue) (kind : Nat) (f : Option State) : State :=
  match (s.core c).head q with
  | some r => if r.kind = kind then ((s.startRecord c q).or f).getD s else s
  | none => s

/-- JOIN (R228). -/
def execJoin (core : Nat) (q : Queue) (s : State) : Out := .next (s.ofKind core q 0x20 (s.joinStep core q))

/-! Matrix records. -/

/-- The segment of row `i`, and its first row (R221). -/
def Rec.segOf (r : Rec) (i : Nat) : Nat × Nat :=
  if r.kind = 2 then
    (List.range (r.trip 0)).foldl (fun (x : Nat × Nat × Nat) s =>
      let n := x.2.2 + r.segRows s
      if i < x.2.2 then x else (s, x.2.2, n)) (0, 0, 0) |> fun x => (x.1, x.2.1)
  else (0, 0)

/-- The rows in flight, in the order of their entry. -/
def Core.flight (c : Core) : List InRow :=
  (match c.staged with | some g => g.rows | none => []) ++ (match c.ahead with | some g => g.rows | none => [])

/-- The K-step in which the next row enters: the oldest that has not committed, while it has rows to come, then the one behind it.
No third one enters before the oldest has committed (R233). After the record's last row it is the last. -/
def Core.front (c : Core) (r : Rec) : Staged :=
  match c.staged with
  | none => { k := c.mq.pos }
  | some g => if g.rows.length < r.rows || g.k + 1 == r.trip 1 then g else c.ahead.getD { k := g.k + 1 }

/-- That K-step replaced. -/
def Core.putFront (c : Core) (g : Staged) : Core :=
  match c.staged with
  | some h => if h.k = g.k then { c with staged := some g } else { c with ahead := some g }
  | none => { c with staged := some g }

/-- Row `i` of K-step `k` comes with a token, which brings in its weight set. An MMA with PRE = 0 begins with the active plane as it
stands (R220, R221). -/
def Rec.bringsSet (r : Rec) (k i : Nat) : Bool := i == (r.segOf i).2 && !(r.kind == 1 && !r.pre && k == 0)

/-- Row `i` of K-step `k` brings in a weight set that is not in the active plane yet: its segment (R220, R221). -/
def Core.needsSwap (c : Core) (r : Rec) (k i : Nat) : Option Nat :=
  let seg := (r.segOf i).1
  if r.bringsSet k i && c.activeFor != some (k, seg) then some seg else none

/-- The weight set that comes after set `u` of the record (R223). -/
def Rec.nextSet (r : Rec) (u : Nat × Nat) : Option (Nat × Nat) :=
  if r.kind = 2 ∧ u.2 + 1 < r.trip 0 then some (u.1, u.2 + 1) else if u.1 + 1 < r.trip 1 then some (u.1 + 1, 0) else none

/-- The checks before a record's first row (R220). -/
def Core.startFault (c : Core) (r : Rec) : Bool :=
  c.mq.pos == 0 && !c.inFlight &&
    ((r.kind == 1 && !r.pre && c.active.mode != r.bt) || r.fwd != decide (1 ≤ c.chainPos))

/-- An earlier move of a tile that the record writes is outstanding (R41). -/
def Core.recordHeld (c : Core) (r : Rec) : Bool :=
  c.moves.any (fun m => decide (m.seq < r.moves) && r.tiles.contains m.tile)

/-! The bound (R217). -/

/-- A bound fires: a record that issues stops at its next issue boundary, and one that waits stops at once. Whether and
when it fires is outside R1. -/
def State.boundOverrun (s : State) (c : Nat) (q : Queue) : Option State :=
  let k := s.core c
  let x := k.queue q
  match x.recs with
  | [] => none
  | r :: _ =>
    if x.park.isSome || x.phase == .signal || !k.running || (x.phase == .idle && r.kind != 0x20) then none
    else if q == .mq && x.phase == .run && (r.kind == 1 || r.kind == 2) && !s.atBoundary c then
      some (s.modCore c (fun k => k.modQueue q (fun t => { t with cut := some 0x40 })))
    else some (s.parkQueue c q { cause := 0x40 })

/-- CYCLE_BOUND_OVERRUN (R217). -/
def execCycleBoundOverrun (core : Nat) (q : Queue) (s : State) : Out := .next ((s.boundOverrun core q).getD s)

/-- A member's record takes part in its chain: it has started, its wait is over, it holds leave, and its array is to take rows
(R242, R247). -/
def Core.inStep (c : Core) : Bool :=
  match (if c.finishing then c.headIn .mq .run else none) with
  | some r => (r.kind == 1 || r.kind == 2) && r.fwd == decide (1 ≤ c.chainPos)
  | none => false

/-- The followers of a chain head let it enter a row: none is missing, and all are ready (R239, R242). -/
def State.followersReady (s : State) (c : Nat) : Bool :=
  let k := s.core c
  k.chainPos != 0 || k.chainLen ≤ 1 ||
    ((s.chain c).length == k.chainLen && ((s.chain c).drop 1).all (fun d => (s.core d).inStep))

/-- A new K-step may begin to enter a member's array: no cut is due, the queues run, and no replay is in progress (R239, R245,
R247). -/
def Core.beginsStep (c : Core) : Bool := c.mq.cut.isNone && c.running && !c.staged.any (·.replay)

/-- A new K-step may begin: in every member of a chain at its head, since the chain has its boundaries together (R246); a follower
takes what its head has let in. -/
def State.stepBegins (s : State) (c : Nat) : Bool :=
  (s.core c).chainPos != 0 || (s.chain c).all (fun d => (s.core d).beginsStep)

/-- The head of a chain, or a core alone, waits for an entry of its scale FIFO inside a K-step or at the end mark (R239, R240). -/
def Core.starved (c : Core) : Bool :=
  match c.headIn .mq .run with
  | some r =>
    let g := c.front r
    r.scaled && c.fifo.isEmpty && g.begun &&
      (if g.rows.length < r.rows then decide (g.kept.length ≤ g.rows.length) else g.k + 1 == r.trip 1 && !c.markDone)
  | none => false

/-- The K-steps in flight wait for what another record or another member has to bring, and a bound ends the hold (R239, R242; log
68). -/
def State.heldUp (s : State) (c : Nat) : Bool :=
  let l := s.chain c
  l.length != (s.core c).chainLen || !l.all (fun d => (s.core d).inStep) ||
    (match l with | d :: _ => (s.core d).starved | [] => false)

/-- The scales that a K-step has popped: they stay with it until it commits (R240). -/
def Staged.popped (g : Staged) : List (BitVec 32) := g.rows.map (·.a.scales) ++ g.kept.drop g.rows.length

/-- The K-step without its rows, to enter again with its scales. -/
def Staged.again (g : Staged) : Staged := { k := g.k, kept := g.popped, replay := g.replay }

/-- The rows in flight are dropped, with what they have staged: the active plane is the one before their first token, and their sets
are preloaded again (R245, R246). -/
def Core.dropRows (c : Core) : Core :=
  { c with
    active := (c.flight.findSome? (·.swapped)).getD c.active, activeFor := none, shadowFor := none, west := []
    staged := c.staged.map Staged.again, ahead := c.ahead.map Staged.again }

/-- The row in flight that is row `n` of the record, counted over its K-steps. -/
def Core.rowAt (c : Core) (r : Rec) (n : Nat) : Option InRow :=
  let of_ (g : Option Staged) : Option InRow :=
    match g with
    | some g => if g.k = n / r.rows then g.rows[n % r.rows]? else none
    | none => none
  (of_ c.staged).or (of_ c.ahead)

/-- The rows of its record that have entered a member's array, counted over its K-steps. -/
def Core.rowsIn (c : Core) (r : Rec) : Nat := (match c.staged with | some g => g.k | none => c.mq.pos) * r.rows + c.flight.length

/-- The rows of its record that have reached a follower, entered or waiting at its west edge. -/
def Core.rowsSeen (c : Core) (r : Rec) : Nat :=
  c.rowsIn r + (c.west.filter (fun w => match w with | .row _ => true | .mark => false)).length

/-- The end mark has reached a follower (R224). -/
def Core.markSeen (c : Core) : Bool := c.markDone || c.west.contains .mark

/-- What a chain head with record `r` sends to a follower with record `q` next: a row that has entered its own array, or the end
mark after its last one (R224, R241). The mark of a scaled head goes east once its own end-mark check has passed: a DESIGN CHOICE of
log 24. -/
def Core.sends (h : Core) (r : Rec) (f : Core) (q : Rec) : Option West :=
  let n := f.rowsSeen q
  match h.rowAt r n with
  | some x => some (.row x.a)
  | none => if n = r.rows * r.trip 1 ∧ !f.markSeen ∧ (h.markDone || !r.scaled) then some .mark else none

/-- A row or the end mark travels from a chain head to a follower (R241). -/
def State.forward (s : State) (c : Nat) : Option State :=
  let h := s.core c
  match h.headIn .mq .run with
  | none => none
  | some r =>
    if h.chainPos ≠ 0 ∨ h.chainLen ≤ 1 ∨ !(r.kind == 1 || r.kind == 2) then none
    else ((s.chain c).drop 1).findSome? (fun d =>
      let f := s.core d
      match (if f.inStep then f.head .mq else none) with
      | some q => (h.sends r f q).map (fun w => s.modCore d (fun f => { f with west := f.west ++ [w] }))
      | none => none)

/-- The words of an A row, each consumed from the task array (R220). -/
def Core.aWords (c : Core) (r : Rec) (i k : Nat) : Except Syndromes (List Word) :=
  c.taskWords (64 * (r.rowGranule i k).toNat) (8 * r.rowGranules)

/-- What the next row takes from the scale FIFO (R220, R240). -/
inductive Scales where
  | ok (x : BitVec 32)
  | wait
  | desync
  | lost (y : BitVec 8)

/-- The scales of row `i`: a word serves an even row and the odd one after it, and leaves the FIFO with the odd one. A K-step that
enters again uses the scales that it kept. -/
def Core.scalesFor (c : Core) (r : Rec) (g : Staged) (i : Nat) : Scales :=
  if !r.scaled then .ok 0x7F7F7F7F
  else match g.kept[i]?, c.fifo with
    | some x, _ => .ok x
    | none, [] => .wait
    | none, .mark _ :: _ => .desync
    | none, .scale w sl tag :: _ =>
      if tag ≠ r.tag then .desync
      else if !sealOk w sl then .lost (syn w sl)
      else .ok (bits w (32 * (i % 2)) 32)

/-! Time in the array (R223, R232, R233, R237 to R241). -/

/-- T_WP of a mode: ck in which a preload fills a plane (R223). -/
def preloadCk (bt : Nat) : Nat := if bt = 5 then 136 else 72

/-- Ck from the entry of the first row of the last set in flight to that of the youngest row (R237). -/
def Rec.tokenAge (r : Rec) (l : List InRow) : Option Nat :=
  l.foldl (fun (x : Option Nat) y => if (r.segOf y.a.row).2 = y.a.row then some 0 else x.map (· + y.gap)) none

/-- Ages of the rows `l` that have entered since the last resume, the youngest of age `y`: each row follows the one before it by
its gap (R223, R237, R238). -/
def freshAges (y : Nat) (l : List InRow) : List Nat :=
  (l.foldr (fun r (x : List Nat × Nat) => ((match x.1 with | [] => y | b :: _ => b + x.2) :: x.1, r.gap)) ([], 0)).1

/-- The smallest age of the rows that a resume has put back. -/
def minFrame (l : List InRow) : Nat :=
  (l.filterMap (fun r => r.frame.map (·.d))).foldl min settledAge

/-- The age of every row in flight when the youngest has age `y`. Rows with a frame have aged since the resume, which stands for T + 1
of the earlier freeze (R380). -/
def rowAges (y : Nat) (l : List InRow) : List Nat :=
  let fresh := l.filter (·.frame.isNone)
  let new := freshAges y fresh
  let more := match new, fresh with | a :: _, r :: _ => max (a + 1) (a + r.gap - minFrame l) | _, _ => y
  (l.filterMap (fun r => r.frame.map (fun f => f.d + more))) ++ new

/-- The numbers of the rows in flight within their record, counted over its K-steps. -/
def Core.rowNums (c : Core) (r : Rec) : List Nat :=
  let of_ (g : Option Staged) : List Nat := match g with | some g => (List.range g.rows.length).map (g.k * r.rows + ·) | none => []
  of_ c.staged ++ of_ c.ahead

/-- The rows in flight with their ages, when the youngest has age `y`. -/
def Core.ages (c : Core) (y : Nat) : List (Nat × Nat) :=
  match c.head .mq with
  | some r => (c.rowNums r).zip (rowAges y c.flight)
  | none => []

/-- How much older row `n` is than the youngest one in the array of the core's chain head (R241). -/
def State.older (s : State) (c n : Nat) : Option Nat := Tab.find? ((s.core ((s.chain c).headD c)).ages 0) n

/-- The age of the chain head's youngest row when the youngest one of member `d` has age `a` (R241). -/
def State.headAge (s : State) (d a : Nat) : Option Nat :=
  let k := s.core d
  ((k.head .mq).bind (fun r => (k.rowNums r).getLast?)).bind (fun n => (s.older d n).map (fun o => a + 130 * k.chainPos - o))

/-- The least age of the chain head's youngest row, as far as what its members have done tells. -/
def State.since (s : State) (c : Nat) : Nat :=
  (s.chain c).foldl (fun n d => max n ((s.headAge d (s.core d).late).getD 0)) 0

/-- Ck between the row before and the next one: the interval I at the cluster's CADENCE; a token comes T_WP after the last one at least
(R223, R237, R238), and no row comes before what has already happened. A follower's rows come as its head's have (R241). -/
def State.gapOf (s : State) (c : Nat) (r : Rec) (token : Bool) : Nat :=
  let cad := (s.cluster (clusterOf c)).cadence.toNat
  let n := if r.bt = 5 then max cad 2 else cad
  let k := s.core c
  let h := s.core ((s.chain c).headD c)
  match (if r.fwd then (h.head .mq).bind (fun q => h.rowAt q (k.rowsIn r)) else none) with
  | some x => x.gap
  | none => max (s.since c) (match (if token then r.tokenAge k.flight else none) with
    | some t => max n (preloadCk r.bt - t)
    | none => n)

/-- A ck of the matrix array passes (R410). -/
def Core.matrixCk (c : Core) : Core := { c with detected := c.detected.filterMap (fun x => passCk (decide (4 ≤ x.1)) x) }

/-- The core after row `a` has entered, in a ck of its own: its set is swapped in, and its scale word is gone after the odd row
(R220, R236). -/
def Core.enter (c : Core) (r : Rec) (g : Staged) (a : ARow) (swap : Option Nat) (gap : Nat) : Core :=
  let old := match swap with | some _ => some c.active | none => none
  let c := match swap with
    | some seg => { c with active := c.shadow, shadow := c.active, activeFor := some (g.k, seg), shadowFor := none }
    | none => { c with activeFor := c.activeFor.or (some (g.k, (r.segOf a.row).1)) }
  let row : InRow := { a, plane := c.active, swapped := old, gap }
  { (c.matrixCk.putFront { g with rows := g.rows ++ [row] }) with
    fifo := if r.scaled && decide (g.kept.length ≤ a.row) && a.row % 2 == 1 then c.fifo.drop 1 else c.fifo
    west := if r.fwd then c.west.drop 1 else c.west
    late := 0 }

/-- Row `i` enters, waits, or parks the record before it enters (R220, R224, R239). -/
def State.enterRow (s : State) (c : Nat) (r : Rec) (g : Staged) (i : Nat) : Option State :=
  let k := s.core c
  let swap := k.needsSwap r g.k i
  let gap := s.gapOf c r swap.isSome
  if (match swap with | some seg => k.shadowFor != some (g.k, seg) | none => false) then none
  else if r.fwd then
    match k.west with
    | [] => none
    | .mark :: _ => some (s.parkQueue c .mq { cause := 0x41 })
    | .row a :: _ => some (s.setCore c (k.enter r g { a with row := i } swap gap))
  else if !s.followersReady c then none
  else
    match k.scalesFor r g i with
    | .wait => none
    | .desync => some (s.parkQueue c .mq { cause := 0x41 })
    | .lost y => some (s.loseQueue c .mq (y, y) .scalePop)
    | .ok sc =>
      match k.aWords r i g.k with
      | .error y => some (s.loseQueue c .mq y .matrixA)
      | .ok w =>
        some ((s.setCore c (k.enter r g { row := i, words := w, scales := sc } swap gap)).countSeal
          (k.taskFlaws (64 * (r.rowGranule i g.k).toNat) (8 * r.rowGranules)))

/-- After the last row, with the earlier K-steps committed: the end mark of the FIFO or of the chain (R220, R224, R240). -/
def State.endMark (s : State) (c : Nat) (r : Rec) (g : Staged) : Option State :=
  let k := s.core c
  if k.markDone || g.k + 1 ≠ r.trip 1 || !k.staged.all (fun h => h.k == g.k) then none
  else if r.scaled then
    match k.fifo with
    | [] => none
    | .mark tag :: rest =>
      some (if tag = r.tag then s.setCore c { k with fifo := rest, markDone := true } else s.parkQueue c .mq { cause := 0x41 })
    | .scale .. :: _ => some (s.parkQueue c .mq { cause := 0x41 })
  else if r.fwd then
    match k.west with
    | [] => none
    | .mark :: rest => some (s.setCore c { k with west := rest, markDone := true })
    | .row _ :: _ => some (s.parkQueue c .mq { cause := 0x41 })
  else none

/-- The next action of an MMA or MGRP at the head of mq (R220, R221). A cut stops it at the next boundary; a bound also ends a hold
inside a K-step, whose rows are then dropped and enter again on resume (R242, R247; log 68). -/
def State.matrixStep (s : State) (c : Nat) : Option State :=
  let k := s.core c
  match (if k.finishing then k.headIn .mq .run else none) with
  | none => none
  | some r =>
    if !(r.kind == 1 || r.kind == 2) then none
    else if k.mq.cut.isSome && (s.atBoundary c || s.heldUp c) then
      some ((s.modCore c Core.dropRows).parkQueue c .mq { cause := 0x40 })
    else if !k.running && !k.inFlight && k.west.isEmpty then none
    else if k.startFault r then some (s.parkQueue c .mq { cause := 0x41 })
    else if k.recordHeld r then none
    else
      let g := k.front r
      let i := g.rows.length
      let next := if i < r.rows then (if g.begun || s.stepBegins c then s.enterRow c r g i else none) else s.endMark c r g
      next.or (s.forward c)

/-- MMA (R220). -/
def execMma (core : Nat) (s : State) : Out := .next (s.ofKind core .mq 1 (s.matrixStep core))
/-- MGRP (R221). -/
def execMgrp (core : Nat) (s : State) : Out := .next (s.ofKind core .mq 2 (s.matrixStep core))

/-- The weight set that the head of mq needs next: the granule, and the K-step and segment it is for (R220 to R222). It is the one
after the set that has been swapped in, from that token on (R223, R237), or that of the next row to enter. -/
def Core.wantedSet (c : Core) (r : Rec) : Option (Nat × Option (Nat × Nat)) :=
  if r.kind = 3 then some (r.wbg, none)
  else if (r.kind = 1 ∨ r.kind = 2) && !c.startFault r then
    let g := c.front r
    let next := match c.activeFor with
      | some u => r.nextSet u
      | none => if g.rows.length < r.rows then (c.needsSwap r g.k g.rows.length).map (fun seg => (g.k, seg)) else none
    next.bind (fun u => if c.shadowFor = some u then none else some ((r.setGranule u.1 u.2).toNat, some u))
  else none

/-- PRELOAD_DELIVERY: the decompressor delivers a set to the shadow plane (R234, R235). A WPRE is then performed (R222). -/
def State.preload (s : State) (c : Nat) : Option State :=
  let k := s.core c
  match (if k.finishing && (k.running || !s.atBoundary c) then k.headIn .mq .run else none) with
  | none => none
  | some r =>
    match k.wantedSet r with
    | none => none
    | some (g, for_) =>
      match k.weightSet r.bt r.cmp g with
      | .lost y => some (s.loseQueue c .mq (y, y) .decompressor)
      | .desync => some (s.parkQueue c .mq { cause := 0x41 })
      | .ok p =>
        let after := match for_ with | some _ => (r.tokenAge k.flight).map (preloadCk r.bt - ·) | none => none
        let s := s.setCore c { k with shadow := p, shadowFor := for_, late := max k.late (after.getD 0) }
        some (if r.kind = 3 then s.performed c .mq else s)

/-- PRELOAD_DELIVERY (R234). -/
def execPreloadDelivery (core : Nat) (s : State) : Out := .next ((s.preload core).getD s)

/-- WPRE: it starts; its preload is the delivery above (R222). -/
def execWpre (core : Nat) (s : State) : Out := .next (s.ofKind core .mq 3 (s.preload core))

/-- WSWAP: the token exchanges the planes (R222, R236). -/
def State.swapStep (s : State) (c : Nat) : Option State :=
  let k := s.core c
  match (if k.running then k.headIn .mq .run else none) with
  | some r =>
    if r.kind = 4 then some ((s.setCore c { k with active := k.shadow, shadow := k.active }).performed c .mq) else none
  | none => none

/-- WSWAP (R222). -/
def execWswap (core : Nat) (s : State) : Out := .next (s.ofKind core .mq 4 (s.swapStep core))

/-- The head of mq is an MCHAIN of length `n` whose position is `p`, and has started. -/
def Core.chainAt (c : Core) (n p : Nat) : Bool :=
  match (if c.mq.park.isNone && c.mq.phase != .idle then c.head .mq else none) with
  | some r => r.kind == 5 && r.len == n && r.chainPos == p
  | none => false

/-- The partners of an MCHAIN on core `c`, with their positions (R224). -/
def Rec.partners (r : Rec) (c : Nat) : List (Nat × Nat) := (List.range r.len).map (fun p => (c - r.chainPos + p, p))

/-- The core's MCHAIN is performed: its links are set (R224). -/
def State.linked (s : State) (c : Nat) (r : Rec) : State :=
  (s.modCore c (fun k => { k with chainLen := r.len, chainPos := r.chainPos, west := [], chainMet := false })).performed c .mq

/-- MCHAIN is performed in each partner once every partner has started one with the same length and its own position (R224). -/
def State.chainStep (s : State) (c : Nat) : Option State :=
  let k := s.core c
  match (if k.running then k.headIn .mq .run else none) with
  | none => none
  | some r =>
    if r.kind ≠ 5 then none
    else if k.chainMet then some (s.linked c r)
    else
      let l := r.partners c
      if l.all (fun x => (s.core x.1).chainAt r.len x.2) then
        some ((l.foldl (fun s x => s.modCore x.1 (fun k => { k with chainMet := true })) s).linked c r)
      else none

/-- MCHAIN (R224). -/
def execMchain (core : Nat) (s : State) : Out := .next (s.ofKind core .mq 5 (s.chainStep core))

/-! The commit of a K-step (R233, R245). -/

/-- The K-step of a member whose rows have all entered, with the end mark where its record has one. A park of the record leaves it to
commit (R233, R240). -/
def Core.kstepReady (c : Core) : Option (Rec × Staged) :=
  match (if c.mq.park.isSome then c.head .mq else if c.finishing then c.headIn .mq .run else none), c.staged with
  | some r, some g =>
    if (r.kind == 1 || r.kind == 2) && g.rows.length == r.rows &&
        (g.k + 1 != r.trip 1 || c.markDone || !(r.scaled || r.fwd)) then some (r, g) else none
  | _, _ => none

/-- The finished rows of a K-step. -/
def Staged.results (g : Staged) (at_ : Nat) : List (Nat × RowFrame) := g.rows.map (fun x => (x.a.row, x.done at_))

/-- TOLEXP that the record captured (R37). -/
def QState.tol (x : QState) : Nat := (bits x.mchk 0 5).toNat

/-- The lowest row of a member's K-step that fails, or 128 (R245). -/
def Core.kstepFails (c : Core) : Option Nat :=
  match c.kstepReady with
  | some (r, g) => failingRow r.bt c.mq.tol (g.results r.at_)
  | none => none

/-- The K-step is added into the tile; the record goes on, or has been performed (R233). -/
def State.commitKstep (s : State) (c : Nat) : State :=
  let k := s.core c
  match k.kstepReady with
  | none => s
  | some (r, g) =>
    let s := s.setCore c { k.matrixCk.commitRows r.bt r.tile (g.results r.at_) with
      staged := k.ahead, ahead := none, mq := { k.mq with pos := g.k + 1 } }
    if g.k + 1 = r.trip 1 then s.performed c .mq else s

/-- The K-step is entered again, with the scales that it keeps and its weight sets preloaded again; the rows behind it are dropped
(R245). -/
def Core.replayKstep (c : Core) : Core :=
  let c := c.dropRows
  { c with staged := c.staged.map (fun g => { g with replay := true }) }

/-- A loss by a second failure of a K-step (R245, R414). -/
def State.checkLost (s : State) (c row : Nat) : State :=
  match (s.core c).kstepReady with
  | none => s
  | some (r, g) =>
    s.lose { cause := 0x61, source := .matrixCheck, party := some (.queue c .mq), va := 0, pa := 0
             detail := r.tag ++ BitVec.ofNat 32 g.k ++ BitVec.ofNat 16 row, fromHbm := false }

/-- The last K-step of a chain head waits until its end mark has reached every follower (R242). -/
def State.markPending (s : State) (l : List Nat) (g : Staged) : Bool :=
  match l with
  | c :: fs =>
    (match (s.core c).head .mq with | some r => g.k + 1 == r.trip 1 | none => false) && !fs.all (fun d => (s.core d).markSeen)
  | [] => false

/-- The age of the chain head's youngest row when the oldest K-step commits: 4 ck after the last member's last check (R233, R241,
R245). -/
def State.commitDue (s : State) (c : Nat) : Option Nat :=
  let l := s.chain c
  if !l.all (fun d => (s.core d).kstepReady.isSome) then none
  else match (s.core (l.headD c)).kstepReady with
    | some (r, g) => (s.older c (g.k * r.rows + r.rows - 1)).map (fun o => 263 + 130 * (l.length - 1) - o)
    | none => none

/-- A K-step has committed: what that says of the age of the rows behind it. -/
def State.pastCommit (s t : State) (l : List Nat) : State :=
  match l with
  | [] => t
  | c :: _ =>
    match s.commitDue c with
    | some n => l.foldl (fun t d => t.modCore d (fun k => { k with late := max k.late (n - (s.headAge d 0).getD n) })) t
    | none => t

/-- KSTEP_COMMIT: the checks of every member of the chain have settled. All commit, or all replay once, or the context is
lost (R233, R245, R411). -/
def State.kstepCommit (s : State) (c : Nat) : Option State :=
  let l := s.chain c
  let gs := l.filterMap (fun d => (s.core d).kstepReady.map (·.2))
  match gs with
  | [] => none
  | g :: _ =>
    if gs.length ≠ l.length ∨ l.length ≠ (s.core c).chainLen ∨ !gs.all (fun h => h.k == g.k) ∨ s.markPending l g then none
    else
      let replay := gs.any (·.replay)
      match l.findSome? (fun d => ((s.core d).kstepFails).map (fun row => (d, row))) with
      | none =>
        let s := s.pastCommit (l.foldl State.commitKstep s) l
        some (if replay then { s with ecmrep := if s.ecmrep == BitVec.allOnes 64 then s.ecmrep else s.ecmrep + 1 } else s)
      | some (d, row) =>
        if replay then some (s.checkLost d row)
        else some (l.foldl (fun s d => s.modCore d Core.replayKstep) s)

/-- KSTEP_COMMIT (R233). -/
def execKstepCommit (core : Nat) (s : State) : Out := .next ((s.kstepCommit core).getD s)

/-- A member's preload is delivered T_WP after the token before it has entered (R223, R237). -/
def State.preloadDue (s : State) (d : Nat) : Option Nat :=
  let k := s.core d
  match k.headIn .mq .run with
  | some r => if (k.wantedSet r).isSome then (r.tokenAge k.flight).bind (fun t => s.headAge d (preloadCk r.bt - t)) else none
  | none => none

/-- The next row enters a member's array: the head's in the first ck at which nothing holds it, a follower's 130 ck later for each
array between (R239, R241). -/
def State.rowDue (s : State) (d : Nat) : Option Nat :=
  let k := s.core d
  match k.headIn .mq .run with
  | none => none
  | some r =>
    if k.chainPos ≠ 0 then (s.older d (k.rowsIn r)).map (130 * k.chainPos - ·)
    else
      let g := k.front r
      let i := g.rows.length
      if k.finishing && (r.kind == 1 || r.kind == 2) && decide (i < r.rows) && !k.recordHeld r && (g.begun || s.stepBegins d) &&
          k.inFlight && (s.enterRow d r g i).isSome then
        some (s.gapOf d r (k.needsSwap r g.k i).isSome)
      else none

/-- What the arrays of a chain do next by themselves, with the age of the head's youngest row then. -/
def State.dues (s : State) (c : Nat) : List Nat :=
  (s.commitDue c).toList ++ (s.chain c).flatMap (fun d => (s.preloadDue d).toList ++ (s.rowDue d).toList)

/-- The next action of a core's matrix array. Rows, preloads and commits of a chain come in the order of their times; rows go on to
the followers at once (R241). -/
def State.arrayStep (s : State) (c : Nat) : Option State :=
  let inTime (t : Option Nat) (f : Option State) : Option State :=
    match t with
    | some n => if (s.dues c).all (fun m => decide (n ≤ m)) then f else none
    | none => f
  (s.forward c).or <| (inTime (s.preloadDue c) (s.preload c)).or <| (inTime (s.commitDue c) (s.kstepCommit c)).or <|
    inTime (s.rowDue c) (s.matrixStep c)

/-! Timing detectors. -/

/-- TIMING_DETECTION: the ck is replayed and counted, and no value changes. A second detection in the stage, in the replay or in the
first logical ck after it, loses the context (R409, R410). Stages are those of R414: 1 to 5; which of
the two scalar slots a detection of stage 1 concerns is a free value (log 26). -/
def execTimingDetection (core stage lane : Nat) (s : State) : Out :=
  .next (
    if stage = 0 ∨ 5 < stage then s
    else if (s.core core).detected.any (fun x => x.1 == stage) then
      let s := s.modCore core (fun k => { k with detected := k.detected.filter (fun x => x.1 != stage) })
      let x := if stage = 1 then s.free else (0, s)
      let s := x.2
      let who : Party := if stage = 1 then .slot core (if bit x.1 0 then .B else .A) else if stage ≤ 3 then .slot core .V else .queue core .mq
      s.lose { cause := 0x63, source := .timing, party := some who, va := 0, pa := 0
               detail := 0#40 ++ BitVec.ofNat 8 stage ++ BitVec.ofNat 16 lane, fromHbm := false }
    else
      let s := s.modCore core (fun k => { k with detected := k.detected ++ [(stage, false)] })
      let n := Tab.get 0 s.ecrepl (clusterOf core)
      { s with ecrepl := Tab.set s.ecrepl (clusterOf core) (if n == BitVec.allOnes 64 then n else n + 1) })

end Sys2Proof.Machine
end

