-- ==== Sys2Proof/Machine/Copy.lean ====
section
/-! DEFINITION. Copy records (R225 to R227): one element at a time, in rank order. -/

namespace Sys2Proof.Machine

/-- A seal contribution moved by `n` byte positions upwards: a multiplication by x^(8n) in the field of the code (R227). -/
def sealUp : Nat → BitVec 8 → BitVec 8
  | 0, p => p
  | n + 1, p => sealUp n ((List.range 8).foldl (fun c _ => crcStep c false) p)

/-- A seal contribution moved from byte position `a` of a word to byte position `b`. The order of x modulo g(x) is 127, so
that 127 - 1 = 126 bytes upwards are one byte downwards. -/
def moveSeal (p : BitVec 8) (a b : Nat) : BitVec 8 := sealUp (if a ≤ b then b - a else 127 - (a - b)) p

/-- An element on its way: its bytes at the destination's place in a word, which bytes, the contribution or whole seal,
and whether the source word was poisoned (R227). -/
structure Carried where
  n : Word
  m : BitVec 8
  p : BitVec 8
  poison : Bool

/-- The `es` bytes at byte `a` of a source word, for byte `b` of a destination word: an element, or several that lie side by side in
both. A whole word keeps its seal; else the contribution comes from the source word's seal and the bytes outside those that are
delivered, which form none (R227). -/
def carry (w : Word) (sl : BitVec 8) (es a b : Nat) : Carried :=
  if es = 8 then { n := w, m := 0xFF, p := sl, poison := false }
  else
    let outside := w &&& ~~~(place8 (BitVec.allOnes 64) a es)
    { n := place8 (pick w a es) b es, m := byteSel b es, p := moveSeal (sl ^^^ sealOf outside) (a % 8) (b % 8)
      poison := poisoned w sl }

/-- Where an address of a block's grid is, for a queue of core `c`. -/
inductive Reached where
  | ok (p : Place) (s : State)
  | stop (s : State)

/-- The place of an address: an offset in the task array, or a translated virtual address; a fault parks the queue at the
element (R217, R225). -/
def State.reach (s : State) (c : Nat) (q : Queue) (g : List Word) (a : Word) (k : AccessKind) : Reached :=
  if geoSpace g = 1 then .ok { home := 1, phys := c, pa := 0, off := a.toNat } s
  else match s.translate (s.partOf c) (.queue c q) a k with
    | .ok p s => .ok p s
    | .fault p s => .stop (s.parkQueue c q p)
    | .lost l s => .stop (s.lose l)

/-- The word of an element of `n` bytes; a place that a copy reaches by offset stands in the task array. -/
def State.copyWord (s : State) (c : Nat) (q : Queue) (g : List Word) (p : Place) (n : Nat) : (Word × BitVec 8) × State :=
  if geoSpace g = 1 then (s.holderWord p, s) else (s.meter (.queue c q) p n).readWord (.queue c q) p false

/-- The source word `x` of a copy that leaves for the host: the egress lane fetches a damaged one once more (R265). -/
def State.egressWord (s : State) (who : Party) (src dst : Place) (x : Word × BitVec 8) : (Word × BitVec 8) × State :=
  if !dst.inHost || sealOk x.1 x.2 then (x, s)
  else
    let (y, t) := if src.leased || src.far.isSome then s.readAgain who src false else (s.secondWord src, s)
    (y, t.countSeal (if sealOk y.1 y.2 then 1 else 0))

/-- An element whose seal or contribution is damaged leaves for the host: its write goes out marked poisoned, and the context
is lost (R265). `w` is its source word as first read, and `y` as the egress lane sends it. -/
def egressLoss (who : Party) (va : Word) (src dst : Place) (w y : Word × BitVec 8) (x : Carried) : Option Loss :=
  if dst.inHost = true ∧ (x.poison ∨ x.p ≠ sealOf x.n) then
    some (Loss.found (syn w.1 w.2) (syn y.1 y.2) .egress who va src)
  else none

/-- What leaves for the host damaged is marked poisoned (R265). -/
def Carried.sentTo (x : Carried) (dst : Place) : Carried :=
  { x with poison := x.poison || (dst.inHost && x.p != sealOf x.n) }

/-- How many elements of `es` bytes, from position `pos` of a record on, move as one: they lie side by side in one word at the source
`src` and in one at the destination `dst`. So a whole aligned word lands as one, and its seal with it (R227, log 73). -/
def runOf (es left pos : Nat) (src dst : Nat → Word) : Nat :=
  let beside (f : Nat → Word) (k : Nat) : Bool :=
    f (pos + k) == f pos + BitVec.ofNat 64 (k * es) && decide ((f pos).toNat % 8 + (k + 1) * es ≤ 8)
  1 + ((List.range 7).takeWhile (fun k => decide (k + 1 < left) && beside src (k + 1) && beside dst (k + 1))).length

/-- Where a record's element at `pos` comes from: a FILL's pattern repeats from word to word. -/
def Rec.source (r : Rec) (pos : Nat) : Word := if r.kind = 0x11 then r.address r.dst pos else r.address r.src pos

/-- Where it goes to: the weight buffer is filled densely. -/
def Rec.target (r : Rec) (pos : Nat) : Word :=
  if r.kind = 0x13 then BitVec.ofNat 64 (pos * geoEs r.shape) else r.address r.dst pos

/-- The elements of a copy record that move as one from position `pos` on. -/
def Rec.run (r : Rec) (pos : Nat) : Nat := runOf (geoEs r.shape) (r.volume - pos) pos r.source r.target

/-- A loss, if there is one. -/
def State.loseIf (s : State) : Option Loss → State
  | some l => s.lose l
  | none => s

/-- The element goes to its destination's holder (R172, R173, R227). -/
def State.deliverTo (s : State) (c : Nat) (q : Queue) (va : Word) (p : Place) (x : Carried) (next : State → State) : State :=
  match s.mergeHolder (.queue c q) p x.n x.m x.p x.poison false with
  | .done s => next s
  | .lost y s => s.lose (Loss.found y.1 y.2 .merge (.queue c q) va p)

/-- What is carried goes to byte `d` of the weight buffer's granules from `base` on, packed densely, and the other bytes stay as they
are until theirs come; the granule's flag is set (R42, R226, R313). The word's old seal counts for nothing, since each of its bytes is
replaced. -/
def Core.fillWeight (c : Core) (base d : Nat) (x : Carried) : Core :=
  let g := base + d / 64
  let old := Tab.get (List.replicate 8 (0, 0)) c.wbuf g
  let (w, sl) := old.getD (d % 64 / 8) (0, 0)
  let new := if x.m = 0xFF then (x.n, x.p) else mergeWord w (if d % 8 = 0 then sealOf w else sl) x.n (byteMask x.m) x.p
  { c with wbuf := Tab.set c.wbuf g (old.set (d % 64 / 8) (new.1, if x.poison then poisonSeal new.1 else new.2)) }

/-- The record has moved `k` elements; after the last one it is performed, a SCALEFEED after its end mark (R220, R226). -/
def State.moved (s : State) (c : Nat) (q : Queue) (r : Rec) (k : Nat) : State :=
  let n := ((s.core c).queue q).pos + k
  let s := s.modCore c (fun k => k.modQueue q (fun t => { t with pos := n }))
  if n = r.volume ∧ r.kind ≠ 0x12 then s.performed c q else s

/-- FILL's pattern (R226): its elements are the low bytes of one 64-bit word. -/
def Rec.pattern (r : Rec) : Word := let p : BitVec 32 := bits (wordAt r.w 5) 0 32; p ++ p

/-- The elements of a FILL that lie side by side (R226). -/
def Rec.elements (r : Rec) (es : Nat) : Word :=
  let x := zextOf r.pattern (8 * es)
  (List.range (8 / es)).foldl (fun w k => w ||| (x <<< (8 * es * k))) 0

/-- The next elements of a copy record (R225, R227). -/
def State.copyStep (s : State) (c : Nat) (q : Queue) : Option State :=
  let k := s.core c
  match (if k.running then k.headIn q .run else none) with
  | none => none
  | some r =>
    let pos := (k.queue q).pos
    let es := geoEs r.shape
    let a := r.address r.src pos
    let b := r.address r.dst pos
    let run := r.run pos
    let len := run * es
    if !r.isCopy then none
    else if r.kind = 0x12 && decide (Config.fifoDepth ≤ k.fifo.length) then none
    else if r.kind = 0x12 && pos == r.volume then
      some ((s.setCore c { k with fifo := k.fifo ++ [.mark r.ftag] }).performed c q)
    else if r.kind = 0x11 then
      some (match s.reach c q r.dst b .write with
        | .stop s => s
        | .ok p s =>
          let n := place8 (r.elements es) b.toNat len
          s.deliverTo c q b p { n, m := byteSel b.toNat len, p := sealOf n, poison := false } (fun s => s.moved c q r run))
    else
      some (match s.reach c q r.src a .read with
        | .stop s => s
        | .ok pa s =>
          if r.kind = 0x10 then
            match s.reach c q r.dst b .write with
            | .stop s => s
            | .ok pb s =>
              let (w, s) := s.copyWord c q r.src pa len
              let (y, s) := s.egressWord (.queue c q) pa pb w
              let x := carry y.1 y.2 len a.toNat b.toNat
              (s.deliverTo c q b pb (x.sentTo pb) (fun s => s.moved c q r run)).loseIf (egressLoss (.queue c q) a pa pb w y x)
          else
            let ((w, sl), s) := s.copyWord c q r.src pa len
            if r.kind = 0x12 then
              (s.modCore c (fun k => { k with fifo := k.fifo ++ [.scale w sl r.ftag] })).moved c q r run
            else (s.modCore c (fun k => k.fillWeight r.baseC (pos * es) (carry w sl len a.toNat (pos * es)))).moved c q r run)

/-- COPY (R225). -/
def execCopyRecord (core : Nat) (q : Queue) (s : State) : Out := .next (s.ofKind core q 0x10 (s.copyStep core q))
/-- FILL (R226). -/
def execFill (core : Nat) (q : Queue) (s : State) : Out := .next (s.ofKind core q 0x11 (s.copyStep core q))
/-- SCALEFEED (R226). -/
def execScalefeed (core : Nat) (q : Queue) (s : State) : Out := .next (s.ofKind core q 0x12 (s.copyStep core q))
/-- WBFILL (R226). -/
def execWbfill (core : Nat) (q : Queue) (s : State) : Out := .next (s.ofKind core q 0x13 (s.copyStep core q))

/-- The next action of any queue, for the scheduler. -/
def State.queueStep (s : State) (c : Nat) (q : Queue) : Option State :=
  (s.stopQueue c q).or <| (s.startRecord c q).or <| (s.waitSatisfied c q).or <| (s.recordPerformed c q).or <| (s.joinStep c q).or <|
    (s.copyStep c q).or <|
    if q = .mq then
      (s.arrayStep c).or <| (s.swapStep c).or <| s.chainStep c
    else none

end Sys2Proof.Machine
end

