-- ==== Sys2Proof/Machine/Operands.lean ====
section
/-! DEFINITION. The registers that an instruction writes: what R14 compares among the instructions of one bundle. -/

namespace Sys2Proof.Machine

/-- The scalar register that an instruction writes (R19, R73 to R80; VCOMPRESS writes its count to s[SC], VMXQ its scales
to s[VB]). -/
def destS : Instr → Option SReg
  | .add sd _ _ => some sd
  | .sub sd _ _ => some sd
  | .mul sd _ _ => some sd
  | .mulh sd _ _ => some sd
  | .mulhu sd _ _ => some sd
  | .div sd _ _ => some sd
  | .divu sd _ _ => some sd
  | .rem sd _ _ => some sd
  | .remu sd _ _ => some sd
  | .and sd _ _ => some sd
  | .or sd _ _ => some sd
  | .xor sd _ _ => some sd
  | .andn sd _ _ => some sd
  | .orn sd _ _ => some sd
  | .shl sd _ _ => some sd
  | .shr sd _ _ => some sd
  | .sar sd _ _ => some sd
  | .rotl sd _ _ => some sd
  | .rotr sd _ _ => some sd
  | .min sd _ _ => some sd
  | .max sd _ _ => some sd
  | .minu sd _ _ => some sd
  | .maxu sd _ _ => some sd
  | .clz sd _ => some sd
  | .ctz sd _ => some sd
  | .popc sd _ => some sd
  | .brev sd _ => some sd
  | .bswap sd _ => some sd
  | .abs sd _ => some sd
  | .lop3 sd _ _ _ _ => some sd
  | .fshl sd _ _ _ => some sd
  | .fshr sd _ _ _ => some sd
  | .sel sd _ _ _ => some sd
  | .cmp _ sd _ _ => some sd
  | .bfx sd _ _ _ => some sd
  | .bfxu sd _ _ _ => some sd
  | .bfi sd _ _ _ => some sd
  | .sext sd _ _ => some sd
  | .zext sd _ _ => some sd
  | .lea sd _ _ _ => some sd
  | .addi sd _ _ => some sd
  | .movi sd _ => some sd
  | .movhi sd _ => some sd
  | .call sd _ _ => some sd
  | .callr sd _ _ => some sd
  | .ld _ _ _ _ sd _ _ => some sd
  | .ldc _ _ sd _ _ => some sd
  | .amoAdd _ _ _ sd _ _ _ => some sd
  | .amoAnd _ _ _ sd _ _ _ => some sd
  | .amoOr _ _ _ sd _ _ _ => some sd
  | .amoXor _ _ _ sd _ _ _ => some sd
  | .amoMin _ _ _ sd _ _ _ => some sd
  | .amoMax _ _ _ sd _ _ _ => some sd
  | .amoMinu _ _ _ sd _ _ _ => some sd
  | .amoMaxu _ _ _ sd _ _ _ => some sd
  | .amoSwap _ _ _ sd _ _ _ => some sd
  | .cas _ _ _ sd _ _ _ _ => some sd
  | .crd sd _ => some sd
  | .clget sd _ _ => some sd
  | .semrd sd _ => some sd
  | .qstat sd _ => some sd
  | .mpopc sd _ _ => some sd
  | .mfirst sd _ _ => some sd
  | .vext sd _ _ _ => some sd
  | .vcompress _ _ sc _ => some sc
  | .vmxq _ _ _ _ sb _ => some sb
  | _ => none

/-- The vector registers that an instruction writes: VUNPACK writes two (R144). Stores and ACCST read VD. -/
def destV : Instr → List VReg
  | .vadd _ vd _ _ _ => [vd]
  | .vsub _ vd _ _ _ => [vd]
  | .vmul _ vd _ _ _ => [vd]
  | .vmin _ vd _ _ _ => [vd]
  | .vmax _ vd _ _ _ => [vd]
  | .vcpysgn _ vd _ _ _ => [vd]
  | .vfma _ vd _ _ _ _ => [vd]
  | .vfms _ vd _ _ _ _ => [vd]
  | .vfnma _ vd _ _ _ _ => [vd]
  | .vabs _ vd _ _ => [vd]
  | .vneg _ vd _ _ => [vd]
  | .vclass _ vd _ _ => [vd]
  | .vrcp _ vd _ _ => [vd]
  | .vrsq _ vd _ _ => [vd]
  | .vsqrt _ vd _ _ => [vd]
  | .vexp2 _ vd _ _ => [vd]
  | .vlog2 _ vd _ _ => [vd]
  | .vtanh _ vd _ _ => [vd]
  | .viadd _ vd _ _ _ => [vd]
  | .visub _ vd _ _ _ => [vd]
  | .vimul _ vd _ _ _ => [vd]
  | .vimulh _ vd _ _ _ => [vd]
  | .vimin _ vd _ _ _ => [vd]
  | .vimax _ vd _ _ _ => [vd]
  | .vshl _ vd _ _ _ => [vd]
  | .vshr _ vd _ _ _ => [vd]
  | .vsar _ vd _ _ _ => [vd]
  | .vrotl _ vd _ _ _ => [vd]
  | .vand _ vd _ _ _ => [vd]
  | .vor _ vd _ _ _ => [vd]
  | .vxor _ vd _ _ _ => [vd]
  | .vimad _ vd _ _ _ _ => [vd]
  | .vfshl _ vd _ _ _ _ => [vd]
  | .vfshr _ vd _ _ _ _ => [vd]
  | .vlop3 _ vd _ _ _ _ _ => [vd]
  | .vpopc _ vd _ _ => [vd]
  | .vclz _ vd _ _ => [vd]
  | .vcvt _ _ vd _ _ => [vd]
  | .vpack _ _ vd _ _ _ => [vd]
  | .vunpack _ _ vd _ _ => [vd, vd + 1]
  | .vmxq _ _ vd _ _ _ => [vd]
  | .vmxd _ _ vd _ _ _ => [vd]
  | .vsel vd _ _ _ => [vd]
  | .vmov vd _ _ => [vd]
  | .vmovs vd _ _ _ => [vd]
  | .vins vd _ _ _ _ => [vd]
  | .vmovi _ vd _ _ => [vd]
  | .vrotr _ vd _ _ _ => [vd]
  | .vbcr _ vd _ _ _ => [vd]
  | .vredr _ _ vd _ _ => [vd]
  | .vscanr _ _ vd _ _ => [vd]
  | .vrotc _ vd _ _ _ => [vd]
  | .vbcc _ vd _ _ _ => [vd]
  | .vredc _ _ vd _ _ => [vd]
  | .vtrn vd _ _ => [vd]
  | .vperm vd _ _ _ => [vd]
  | .vcompress vd _ _ _ => [vd]
  | .vexpand vd _ _ => [vd]
  | .vld _ _ vd _ _ _ => [vd]
  | .vldb _ _ vd _ _ _ => [vd]
  | .vlds _ _ vd _ _ _ _ => [vd]
  | .vgath _ _ vd _ _ _ => [vd]
  | .accld _ vd _ _ => [vd]
  | _ => []

/-- The mask register that an instruction writes. -/
def destM : Instr → Option MReg
  | .vcmp _ _ md _ _ _ => some md
  | .mand md _ _ _ => some md
  | .mor md _ _ _ => some md
  | .mxor md _ _ _ => some md
  | .mnot md _ _ => some md
  | _ => none

/-- The vector registers that an instruction names, read or written (R14, R205). -/
def usesV : Instr → List VReg
  | .vadd _ vd va vb _ => [vd, va, vb]
  | .vsub _ vd va vb _ => [vd, va, vb]
  | .vmul _ vd va vb _ => [vd, va, vb]
  | .vmin _ vd va vb _ => [vd, va, vb]
  | .vmax _ vd va vb _ => [vd, va, vb]
  | .vcpysgn _ vd va vb _ => [vd, va, vb]
  | .vfma _ vd va vb vc _ => [vd, va, vb, vc]
  | .vfms _ vd va vb vc _ => [vd, va, vb, vc]
  | .vfnma _ vd va vb vc _ => [vd, va, vb, vc]
  | .vabs _ vd va _ => [vd, va]
  | .vneg _ vd va _ => [vd, va]
  | .vclass _ vd va _ => [vd, va]
  | .vrcp _ vd va _ => [vd, va]
  | .vrsq _ vd va _ => [vd, va]
  | .vsqrt _ vd va _ => [vd, va]
  | .vexp2 _ vd va _ => [vd, va]
  | .vlog2 _ vd va _ => [vd, va]
  | .vtanh _ vd va _ => [vd, va]
  | .vcmp _ _ _ va vb _ => [va, vb]
  | .viadd _ vd va vb _ => [vd, va, vb]
  | .visub _ vd va vb _ => [vd, va, vb]
  | .vimul _ vd va vb _ => [vd, va, vb]
  | .vimulh _ vd va vb _ => [vd, va, vb]
  | .vimin _ vd va vb _ => [vd, va, vb]
  | .vimax _ vd va vb _ => [vd, va, vb]
  | .vshl _ vd va vb _ => [vd, va, vb]
  | .vshr _ vd va vb _ => [vd, va, vb]
  | .vsar _ vd va vb _ => [vd, va, vb]
  | .vrotl _ vd va vb _ => [vd, va, vb]
  | .vand _ vd va vb _ => [vd, va, vb]
  | .vor _ vd va vb _ => [vd, va, vb]
  | .vxor _ vd va vb _ => [vd, va, vb]
  | .vimad _ vd va vb vc _ => [vd, va, vb, vc]
  | .vfshl _ vd va vb vc _ => [vd, va, vb, vc]
  | .vfshr _ vd va vb vc _ => [vd, va, vb, vc]
  | .vlop3 _ vd va vb vc _ _ => [vd, va, vb, vc]
  | .vpopc _ vd va _ => [vd, va]
  | .vclz _ vd va _ => [vd, va]
  | .vcvt _ _ vd va _ => [vd, va]
  | .vpack _ _ vd va vb _ => [vd, va, vb]
  | .vunpack _ _ vd va _ => [vd, va, vd + 1]
  | .vmxq _ _ vd va _ _ => [vd, va]
  | .vmxd _ _ vd va _ _ => [vd, va]
  | .vsel vd va vb _ => [vd, va, vb]
  | .vmov vd va _ => [vd, va]
  | .vmovs vd va _ _ => [vd, va]
  | .vext _ va _ _ => [va]
  | .vins vd va _ _ _ => [vd, va]
  | .vmovi _ vd _ _ => [vd]
  | .vrotr _ vd va _ _ => [vd, va]
  | .vbcr _ vd va _ _ => [vd, va]
  | .vredr _ _ vd va _ => [vd, va]
  | .vscanr _ _ vd va _ => [vd, va]
  | .vrotc _ vd va _ _ => [vd, va]
  | .vbcc _ vd va _ _ => [vd, va]
  | .vredc _ _ vd va _ => [vd, va]
  | .vtrn vd va _ => [vd, va]
  | .vperm vd va vb _ => [vd, va, vb]
  | .vcompress vd va _ _ => [vd, va]
  | .vexpand vd va _ => [vd, va]
  | .vld _ _ vd _ _ _ => [vd]
  | .vst _ _ vd _ _ _ => [vd]
  | .vldb _ _ vd _ _ _ => [vd]
  | .vlds _ _ vd _ _ _ _ => [vd]
  | .vsts _ _ vd _ _ _ _ => [vd]
  | .vgath _ _ vd vb _ _ => [vd, vb]
  | .vscat _ _ vd vb _ _ => [vd, vb]
  | .accld _ vd _ _ => [vd]
  | .accst vd _ _ => [vd]
  | _ => []

/-- Two instructions of one bundle name the same destination, s0 and m0 excepted (R14, R19). -/
def sameDest (i j : Instr) : Bool :=
  (match destS i, destS j with | some a, some b => a == b && a != 0 | _, _ => false) ||
  (destV i).any (fun a => (destV j).contains a) ||
  (match destM i, destM j with | some a, some b => a == b && a != 0 | _, _ => false)

end Sys2Proof.Machine
end

