-- ==== Sys2Proof/Machine/Gate.lean ====
section
/-! DEFINITION. What holds or parks a slot's instruction before its bundle issues: lists (R184), unmet waits (R192, R197),
full queues (R44), outstanding moves (R205, R206), the shot list (R230). -/

namespace Sys2Proof.Machine

/-- The order and the list of a memory instruction. -/
def accessList : Instr → Option (MemOrder × ListIx)
  | .ld _ _ o l _ _ _ => some (o, l)
  | .st _ o l _ _ _ => some (o, l)
  | .amoAdd _ o l _ _ _ _ => some (o, l)
  | .amoAnd _ o l _ _ _ _ => some (o, l)
  | .amoOr _ o l _ _ _ _ => some (o, l)
  | .amoXor _ o l _ _ _ _ => some (o, l)
  | .amoMin _ o l _ _ _ _ => some (o, l)
  | .amoMax _ o l _ _ _ _ => some (o, l)
  | .amoMinu _ o l _ _ _ _ => some (o, l)
  | .amoMaxu _ o l _ _ _ _ => some (o, l)
  | .amoSwap _ o l _ _ _ _ => some (o, l)
  | .cas _ o l _ _ _ _ _ => some (o, l)
  | .vld o l _ _ _ _ => some (o, l)
  | .vst o l _ _ _ _ => some (o, l)
  | .vldb o l _ _ _ _ => some (o, l)
  | .vlds o l _ _ _ _ _ => some (o, l)
  | .vsts o l _ _ _ _ _ => some (o, l)
  | .vgath o l _ _ _ _ => some (o, l)
  | .vscat o l _ _ _ _ => some (o, l)
  | _ => none

/-- The list of a synchronising instruction (R184). -/
def listOf (i : Instr) : Option ListIx :=
  match accessList i with
  | some (o, l) => if o = .plain then none else some l
  | none =>
    match i with
    | .fenceAcq l | .fenceRel l | .fenceFull l => some l
    | .semsig _ _ l _ _ => some l
    | .semwait _ _ _ l | .semacq _ _ _ l => some l
    | .bararr _ l | .barwait _ l | .bararw _ l => some l
    | _ => none

/-- What an enqueue meets: a full queue holds it when the record is good (R44). -/
def State.gateEnqueue (s : State) (x : Enqueuer) (q : Queue) (ra : Word) : Bool :=
  s.cc.queueFull q && (match s.checkEnqueue x ra with | .ok _ => true | .park _ | .lost _ => false)

/-- Wait(b) of R197 holds while the token's phase lasts. -/
def State.phaseLasts (s : State) (b : BitVec 8) : Bool :=
  match s.cc.bind, Tab.find? s.cc.tokens b.toNat with
  | some d, some t => ((s.part d.part).barrier b.toNat).phase == t
  | _, _ => false

/-- A CRD of FPFLAGS waits for the flags of a converted move that has issued before it and is outstanding (R63, R206). R63 asks this
of CRD alone: a CWR, CRSET or CRCLR that is so ordered acts at once, and the move ORs its flags in later (log 62). -/
def State.flagsDue (s : State) (n : BitVec 12) : Bool :=
  n == 0x021 && s.cc.moves.any (fun m => match m.kind with
    | .ld cv _ => cv && bit m.knows (slotIx s.cur.slot)
    | .st .. | .zero => false)

/-- The acting slot's instruction holds for a reason of its own. -/
def State.holds (s : State) : Instr → Bool
  | .semwait sem sa imm _ | .semacq sem sa imm _ => (s.cc.sem sem.toNat).ult (s.threshold sa imm)
  | .barwait b _ => s.phaseLasts b
  | .bararw b _ => s.cs.waitHalf && s.phaseLasts b
  | .menq sa imm => s.gateEnqueue .menq .mq (s.recordAddr sa imm)
  | .cenq q sa imm => s.gateEnqueue (.cenq q) q (s.recordAddr sa imm)
  | .qjoin q sa imm => s.gateEnqueue (.qjoin q) q (s.recordAddr sa imm)
  | .accld .. | .accst .. | .accz .. => decide (Config.maxMoves ≤ s.cc.moves.length)
  | .crd _ n => s.flagsDue n
  | .accwait n => decide (n.toNat < s.cc.moves.length)
  | _ => false

/-- An outstanding ACCLD has still to write a vector register that the instruction names. The wait does not reach across
forked slots (R14, R15, R205). -/
def State.moveHazard (s : State) (i : Instr) : Bool :=
  s.cc.moves.any (fun m => (s.cur.slot == .E || m.joinedV) &&
    match m.kind with
    | .ld _ vd => (usesV i).contains vd
    | .st .. | .zero => false)

/-- Entries of the shot list that have been released enter their queues first: an enqueue waits for all of them, and an
entry released by SLATE holds slot E (R210, R230). -/
def State.shotHazard (s : State) (i : Instr) : Bool :=
  s.cur.slot == .E && (s.cc.slateHeld ||
    (match i with | .menq .. | .cenq .. | .qjoin .. => s.cc.released.isSome | _ => false))

/-- Slot `k` waits for the CLSET that it had issued before a stop (R364). -/
def State.clwaits (s : State) (c : Nat) (k : Slot) : Bool :=
  match ((s.core c).slot k).clwait, (s.core c).bind with
  | some (_, n), some b => (s.part b.part).clsets.any (fun x => x.num == n)
  | _, _ => false

/-- The instruction may issue, holds at its bundle, or parks there. Its list is looked at first: before the alignment that it
checks as it executes, and before its wait, so that an unmet wait on a stale or invalid list parks (log 62). The wait of a BARARW
goes by the snapshot of its arrival (R184). -/
def State.gate (s : State) (i : Instr) : ListUse :=
  if s.cc.bind.isNone then .go
  else if s.moveHazard i || s.shotHazard i then .hold
  else
    let own : ListUse := if s.holds i then .hold else .go
    match (if s.cs.held.isSome then none else listOf i) with
    | none => own
    | some l =>
      match s.useList s.cur.core l.toNat with
      | .go => own
      | x => x

end Sys2Proof.Machine
end

