-- ==== Sys2Proof/Machine/Issue.lean ====
section
/-! DEFINITION. How slots issue: fetch (R46, R116), rendezvous (R12), the hazard of one bundle (R14), groups (R11), parked
members (R16). -/

namespace Sys2Proof.Machine

/-- What a fetch gives. -/
inductive Fetched where
  | ok (ws : List Word) (s : State)
  | park (k : Park) (s : State)
  | lost (l : Loss) (s : State)

/-- The four words of the bundle at `x` for slot `k`: from the mask ROM in repair mode (R442, R443), else from the code
bytes as they stood at dispatch, translated and with their seals checked (R46, R116): a page that is mapped, or mapped to another
frame, only after dispatch gives the bytes that the frame held at dispatch (log 62). A damaged word is fetched once more from its
holder, past the lane's own copies (R175, R264, R406). Code that a fabric window reaches on another device is the bytes of its far
end as they stood at dispatch (R384). -/
def State.fetch (s : State) (c : Nat) (k : Slot) (x : Word) : Fetched :=
  match (s.core c).bind with
  | Option.none =>
    if romBase ≤ x.toNat ∧ x.toNat + 32 ≤ romBase + romSize then
      .ok ((List.range 4).map (fun i => romWord ((x.toNat - romBase) / 8 + i))) s
    else .park { cause := 0x10, addr := x, kind := .fetch } s
  | some b =>
    match s.translate b.part (.slot c k) x .fetch with
    | .fault p s => .park p s
    | .lost l s => .lost l s
    | .ok p s =>
      let ws : List (Word × BitVec 8) :=
        if remoteBase ≤ p.pa then (List.range 4).map (fun i => remoteAt (s.core c).codeAt (p.pa + 8 * i))
        else (s.core c).code.words (p.pa / 8) 4
      let again : List (Word × BitVec 8) := ws.zipIdx.map (fun w =>
        if sealOk w.1.1 w.1.2 then w.1 else s.secondWord (p.plus (8 * w.2)))
      let flaws := ws.countP (fun w => !sealOk w.1 w.2)
      let s := if flaws = 0 then s else s.dropCopies (.slot c k) p
      match (ws.zip again).zipIdx.find? (fun w => !sealOk w.1.2.1 w.1.2.2) with
      | some ((w, w'), i) =>
        .lost (Loss.found (syn w.1 w.2) (syn w'.1 w'.2) .fetch (.slot c k) (x + BitVec.ofNat 64 (8 * i)) (p.plus (8 * i))) s
      | Option.none => .ok (again.map (·.1)) (s.countSeal flaws)

/-- The slots that issue next from the group with label `g`: a member that a resume lets issue again alone (R16), else
every member, unless one of them is parked or waits for an answer. -/
def Core.issuers (c : Core) (g : Nat) : List Slot :=
  let ms := c.groupOf g
  match ms.find? (fun k => (c.slot k).solo && (c.slot k).park.isNone && (c.slot k).await.isNone) with
  | some k => [k]
  | Option.none =>
    if ms.any (fun k => (c.slot k).unsettled || (c.slot k).park.isSome) then [] else ms

/-- The sync bit of column `k` of a bundle (R9). -/
def colSync (ws : List Word) (k : Slot) : Bool := syncBit (ws.getD (slotIx k) 0)

/-- Slot `k` has arrived at bundle `x`: its chain stands there, and nothing parks or stalls a member of its group
(R12, R16). -/
def Core.arrived (c : Core) (x : Word) (k : Slot) : Bool :=
  (c.slot k).c0 == x && (c.groupOf (c.slot k).group).all (fun j => (c.slot j).park.isNone && !(c.slot j).unsettled)

/-- What the rendezvous of bundle `x` asks of the issuers `ms` (R12): they issue, they wait, or they meet others. A member
that was parked during execution, and a slot whose resume-without-wait flag is in force, do not wait (R16, R120). -/
inductive Meet where
  | issue | wait | meet
deriving DecidableEq, Repr

/-- The slots that must meet at a bundle (R12): those with the sync bit set that have not halted. -/
def Core.party (c : Core) (ws : List Word) : List Slot := allSlots.filter (fun k => colSync ws k && !(c.slot k).halted)

/-- What the rendezvous of `x` asks of the issuers (R12, R120). A slot that has resumed issues without a wait even when a third slot
that must meet there has not arrived; the others then wait for it in vain until it comes again (log 62). -/
def Core.meetAt (c : Core) (ws : List Word) (x : Word) (ms : List Slot) : Meet :=
  if ms.any (fun k => (c.slot k).solo) || !ms.any (fun k => colSync ws k) then .issue
  else
    let must := c.party ws
    if must.all (fun k => ms.contains k) then .issue
    else if must.all (fun k => c.arrived x k) then .meet
    else if ms.all (fun k => !colSync ws k || ((c.slot k).rww && (c.slot k).resumed)) then .issue
    else .wait

/-- What the bundle's decode, holds and parks make of one member. -/
inductive Ready where
  | go
  | hold
  | park (k : Slot) (p : Park)

/-- The state in which a member looks at its instruction before its bundle opens: the registers as they stand are its sources
(R14). -/
def State.facing (s : State) (c : Nat) (m : Member) : State :=
  { s.modCore c (fun x => { x with src := x.regs }) with cur := { core := c, slot := m.slot, word := m.word } }

/-- The first member that holds or parks decides for the group (R11, R16). -/
def State.ready (s : State) (c : Nat) : List Member → Ready
  | [] => .go
  | m :: r =>
    let here : Ready :=
      if s.clwaits c m.slot then .hold
      else if m.annulled then .go
      else match decode m.slot m.word with
        | .trap _ => .go
        | .ok i =>
          match (s.facing c m).gate i with
          | .go => .go
          | .hold => .hold
          | .park p => .park m.slot p
    match here with
    | .go => State.ready s c r
    | x => x

/-- The instruction that a live member decodes to. -/
def Member.instr (m : Member) : Option Instr :=
  if m.annulled then Option.none
  else match decode m.slot m.word with
    | .ok i => some i
    | .trap _ => Option.none

/-- The highest column that names a destination which another instruction of the bundle names (R14). -/
def clash (ms : List Member) : Option Member :=
  ms.reverse.find? (fun m => ms.any (fun n => m.slot != n.slot &&
    (match m.instr, n.instr with | some i, some j => sameDest i j | _, _ => false)))

/-- CYC counts the bundle once for each of `n` members in repeatable mode, but not while the handler of a notice runs (R38,
R122). -/
def State.countIssue (s : State) (c n : Nat) : State :=
  if s.repeatable then
    s.modCore c (fun x => if x.entry70.isSome then x else { x with regs := { x.regs with cyc := x.regs.cyc + BitVec.ofNat 64 n } })
  else s

/-- The bundle opens: the registers are the sources of all its instructions (R14), before CYC counts it. A member that issues its
bundle again alone reads the registers as they then stand (log 62), and its bundle has been counted (R38). -/
def State.openBundle (s : State) (c : Nat) (ms : List Member) : State :=
  let n := (ms.filter (fun m => !((s.core c).slot m.slot).solo)).length
  { (s.modCore c (fun x => { x with src := x.regs, detected := x.detected.filterMap (fun y => passCk (decide (y.1 ≤ 3)) y) })).countIssue c n with
    opened := some { core := c, members := ms.map (·.slot), todo := ms } }

/-- A bundle whose instructions name one destination twice is rejected as a whole with illegal operand (R14). -/
def State.rejectBundle (s : State) (c : Nat) (m : Member) : State :=
  (s.modCore c (fun x => x.modSlot m.slot (fun t => { t with pend := some { code := 0x03, detail := 0, tval := m.word } })))
    |>.post (.trapEntry c)

/-- The members of the bundle with words `ws`. -/
def Core.membersOf (c : Core) (ws : List Word) (ms : List Slot) : List Member :=
  ms.map (fun k => { slot := k, word := ws.getD (slotIx k) 0, annulled := (c.slot k).ann0 })

/-- Every one of the slots parks before the bundle issues (R16, R116); one that was to issue it again alone still is. -/
def State.parkAll (s : State) (c : Nat) (p : Park) (ms : List Slot) : State :=
  ms.foldl (fun s k => s.parkSlot c k p ((s.core c).slot k).solo) s

/-- The slots of the core may issue: the task is not parked by a trap (R31) or a limit (R299), its state is in place (R292),
and no stop has brought the slots to rest (R363). -/
def Core.issues (c : Core) : Bool := !c.frozen && !c.loading && c.overrun.isNone && c.running

/-- A joined group tries to issue its next bundle; nothing when it cannot. -/
def State.tryIssue (s : State) (c g : Nat) : Option State :=
  let x := s.core c
  match x.issuers g with
  | [] => Option.none
  | k :: r =>
    if !x.issues then Option.none
    else
      let ms := k :: r
      let a := (x.slot k).c0
      match s.fetch c k a with
      | .park p s => some (s.parkAll c p ms)
      | .lost l s => some (s.lose l)
      | .ok ws s =>
        match x.meetAt ws a ms with
        | .wait => Option.none
        | .meet => some (s.post (.rendezvous c a))
        | .issue =>
          let mem := x.membersOf ws ms
          match s.ready c mem with
          | .hold => Option.none
          | .park k p => some (s.parkSlot c k p (x.slot k).solo)
          | .go =>
            match clash mem with
            | some m => some (s.rejectBundle c m)
            | Option.none => some (s.openBundle c mem)

/-- The bundle is done: the groups are formed anew, and a trap that waits is taken before any slot issues (R11, R118,
R119). -/
def State.closeBundle (s : State) (c : Nat) : State :=
  let s := { s.modCore c Core.regroup with opened := Option.none }
  if (s.core c).trapDue then s.post (.trapEntry c) else s

/-- A decode fault: TVAL holds the word and DETAIL is 0 (R32, R82). -/
def State.decodeTrap (s : State) (code : BitVec 8) : State := s.raise code 0 s.cur.word

/-- The groups that the rendezvous of a bundle at `x` joins take the label of its lowest column (R12). -/
def Core.meet (c : Core) (ws : List Word) (x : Word) : Core :=
  let must := c.party ws
  if must.all (fun k => c.arrived x k) then
    let labels := must.map (fun k => (c.slot k).group)
    let joined := allSlots.filter (fun k => labels.contains (c.slot k).group && !(c.slot k).halted)
    match joined with
    | [] => c
    | l :: _ =>
      { c with
        slots := allSlots.map (fun k =>
          (slotIx k, if joined.contains k then { c.slot k with group := slotIx l } else c.slot k)) }.met joined
  else c

/-- RENDEZVOUS (R12): the slots that must meet at the bundle, and the groups they belong to, become one joined group once
all of them have it as their current address. -/
def execRendezvous (core : Nat) (addr : Word) (s : State) : Out :=
  match s.fetch core .A addr with
  | .ok ws s => .next (s.modCore core (fun c => c.meet ws addr))
  | .park _ _ | .lost _ _ => .next s

end Sys2Proof.Machine
end

