-- ==== Sys2Proof/Machine/Trap.lean ====
section
/-! DEFINITION. TRAP_ENTRY (R118, R119, R122), and the completion of a CLSET (R201, R281). -/

namespace Sys2Proof.Machine

/-- The trap that is taken next: of the lowest column, fresh or kept (R119). -/
def Core.nextTrap (c : Core) : Option (Slot × Trap) :=
  allSlots.findSome? (fun k => match (c.slot k).pend with
    | some t => if !t.kept || !c.busy then some (k, t) else none
    | none => none)

/-- The pre-emption notice as it is entered (R122). -/
def noticeTrap : Trap := { code := 0x70, detail := 0, tval := 0 }

/-- The handles of the slots that are parked, which the entry abandons (R118). -/
def State.dropParks (s : State) (part c : Nat) : State :=
  allSlots.foldl (fun s k => match ((s.core c).slot k).park with
    | some p => s.freeHandle part p.handle
    | none => s) s

/-- Slot B holds the CLSET with number `n` at the entry: an accepted one has taken effect, and the chain after it is saved; one
that waits is withdrawn (R118, R201). -/
def State.settleClset (s : State) (part c n : Nat) : State :=
  let mine (x : ClSet) : Bool := x.num == n
  if (s.part part).clsets.any (fun x => mine x && x.accepted) then
    s.modCore c (fun k => k.modSlot .B SlotState.answered)
  else
    (s.modPart part (fun p => { p with clsets := p.clsets.filter (fun x => !mine x) })).modCore c
      (fun k => k.modSlot .B (fun t => { t with await := none }))

/-- Slot `k` has returned to its bundle and holds there, in an instruction that has not taken effect (R118, R192). -/
def State.stalled (s : State) (c : Nat) (k : Slot) : Bool :=
  !((s.core c).slot k).halted && ((s.core c).slot k).resumed && (match s.fetch c k ((s.core c).slot k).c0 with
    | .ok ws t => (match t.ready c ((t.core c).membersOf ws ((t.core c).groupOf ((t.core c).slot k).group)) with
      | .hold => true
      | .go | .park .. => false)
    | .park .. | .lost .. => false)

/-- The resume-without-wait flag of a slot that is stalled is clear (R118). -/
def State.clearStalled (s : State) (c : Nat) : State :=
  let l := allSlots.filter (s.stalled c)
  s.modCore c (fun x => l.foldl (fun x k => x.modSlot k (fun t => { t with rww := false })) x)

/-- The entry for a trap of slot `k` (R118), or the end of the launch: a trap while a handler runs, or with no handler, is
handled by nothing (R31, R119). A trap that an earlier entry has kept comes at once when the handler ends, before any slot could stall
(R119). When every slot has halted, the next trap that waits is taken after it (R124). -/
def State.enterTrap (s : State) (part c : Nat) (k : Slot) (t : Trap) : State :=
  if (s.core c).busy || (s.core c).regs.tvec == 0 then s.unhandled c k t.code
  else
    let s := ((if t.kept then s else s.clearStalled c).dropParks part c).modCore c (fun x => x.takeTrap k t)
    if (s.core c).trapDue then s.post (.trapEntry c) else s

/-- TRAP_ENTRY (R118, R119, R122). In repair mode a trap ends repair mode (R442). While slot B waits for the dispatcher's answer
the entry waits with it (log 62). A notice that finds TVEC = 0 is not delivered (R122). -/
def execTrapEntry (core : Nat) (s : State) : Out :=
  let c := s.core core
  .next (
    if c.frozen || !c.trapDue then s
    else match c.bind with
      | none => s.modCore core Core.abortRepair
      | some b =>
        match (c.slot .B).await with
        | some (.clset _ n) => go b.part (s.settleClset b.part core n)
        | some _ => s.post (.trapEntry core)
        | none => go b.part s)
where
  /-- The trap that comes first, or the notice. -/
  go (part : Nat) (s : State) : State :=
    match (s.core core).nextTrap with
    | some (k, t) => s.enterTrap part core k t
    | none =>
      if (s.core core).notice then
        let s := s.modCore core (fun c => { c with notice := false })
        if (s.core core).regs.tvec == 0 then s
        else ((s.clearStalled core).dropParks part core).modCore core (fun x => x.takeTrap .A noticeTrap)
      else s

/-! CLSET. -/

/-- The physical cores of a partition. -/
def Partition.cores (p : Partition) : List Nat := p.clusters.flatMap (fun c => (List.range 8).map (fun k => 8 * c + k))

/-- `f` acts on every core of a partition. -/
def State.modCores (s : State) (part : Nat) (f : Core → Core) : State :=
  (s.part part).cores.foldl (fun s c => s.modCore c f) s

/-- The parties parked on list `e` of a partition, with their handles (R281). -/
def State.parkedOn (s : State) (part e : Nat) : List (Nat × Parked) :=
  let on (p : Option Park) : Bool := match p with | some k => k.list == some e | none => false
  (s.part part).handles.filter (fun h => match h.2 with
    | .slot c k => on ((s.core c).slot k).park
    | .queue c q => on ((s.core c).queue q).park
    | .ring r => on ((s.part part).ring r).park
    | .limit _ | .dispatcher _ | .completion => false)

/-- The leaf resumes every party parked on the list (R281). -/
def State.resumeList (s : State) (part e : Nat) : State :=
  (s.parkedOn part e).foldl (fun s h => s.unpark part h.1 h.2) s

/-- A record, or an instruction that has issued and is not yet performed, of the partition's cores has snapshotted another
version of list `e` than `ver`. -/
def State.oldSnapshot (s : State) (part e : Nat) (ver : BitVec 4) : Bool :=
  let old (x : Option (Nat × ClEntry)) : Bool := match x with
    | some (l, v) => l == e && v.ver != ver
    | none => false
  (s.part part).cores.any (fun c =>
    [Queue.mq, .cq0, .cq1].any (fun q => old ((s.core c).queue q).snap) ||
    allSlots.any (fun k => old ((s.core c).slot k).snap))

/-- An entry names what is at or above NCL: a departure makes it stale (R280). -/
def ClEntry.names (e : ClEntry) (ncl : Nat) : Bool :=
  e.valid && (decide (2 ^ (8 * ncl) ≤ e.cores.toNat) || decide (2 ^ ncl ≤ e.ccm.toNat))

/-- The oldest CLSET of entry `e` replaced by `f` of it. -/
def modFirst (e : Nat) (f : ClSet → Option ClSet) : List ClSet → List ClSet
  | [] => []
  | x :: r => if x.entry = e then (match f x with | some y => y :: r | none => r) else x :: modFirst e f r

/-- The next step of the oldest CLSET of entry `e`: it is accepted and the entry is updating everywhere; every core takes the
new version, which is stale only where a departure since its check has removed what it names (R280); it completes when no record holds
the old one, and the parties parked on the entry go on (R201, R281). -/
def State.clsetStep (s : State) (part e : Nat) : Option State :=
  match (s.part part).clsets.find? (fun x => x.entry == e) with
  | none => none
  | some x =>
    let sets (f : ClSet → Option ClSet) : State := s.modPart part (fun p => { p with clsets := modFirst e f p.clsets })
    if !x.accepted then
      some ((sets (fun x => some { x with accepted := true })).modCores part
        (fun c => { c with updating := c.updating ||| (1#32 <<< e) }))
    else if !x.replaced then
      let new : ClEntry := { x.image with stale := x.image.names (s.part part).ncl, ver := (Tab.get {} (s.part part).cl e).ver + 1 }
      let s := (sets (fun x => some { x with replaced := true })).modPart part (fun p => { p with cl := Tab.set p.cl e new })
      some (s.modCores part (fun c =>
        { c with cl := Tab.set c.cl e new, updating := c.updating &&& ~~~(1#32 <<< e) }))
    else if s.oldSnapshot part e (Tab.get {} (s.part part).cl e).ver then none
    else
      let s := (sets (fun _ => none)).resumeList part e
      some (match x.origin with
        | .slotB c =>
          if ((s.core c).slot .B).await = some (.clset e x.num) then s.answerB c SlotState.answered else s
        | .ring _ => s)

/-- CLSET_COMPLETE (R201): a CLSET that has not completed comes again. -/
def execClsetComplete (part : Nat) (entry : ListIx) (s : State) : Out := .next ((s.clsetStep part entry.toNat).getD s)

end Sys2Proof.Machine
end

