-- ==== Sys2Proof/Machine/Accept.lean ====
section
/-! DEFINITION. Acceptance of a launch record (R282 to R285) and of the reels that it names (R97 to R100). -/

namespace Sys2Proof.Machine

/-! Reads by virtual address of the scheduler, the dispatcher and a ring: each word is consumed (R175). -/

/-- The outcome of a read: a value, a translation fault, or a lost context. -/
inductive Got (α : Type) where
  | ok (x : α) (s : State)
  | fault (k : Park) (s : State)
  | lost (l : Loss) (s : State)

/-- What follows a read that succeeds. -/
def Got.andThen {α β : Type} (g : Got α) (f : α → State → Got β) : Got β :=
  match g with
  | .ok x s => f x s
  | .fault k s => .fault k s
  | .lost l s => .lost l s

/-- The aligned word at `va`, read by `who`. -/
def State.getWord (s : State) (part : Nat) (who : Party) (va : Word) : Got Word :=
  match s.translate part who va .read with
  | .fault k s => .fault k s
  | .lost l s => .lost l s
  | .ok p s =>
    match s.consume who p false with
    | .good w s => .ok w s
    | .lost y1 y2 s => .lost (Loss.found y1 y2 .control who va p) s

/-- `n` words from `va` on, after those in `done`. -/
def State.getWords (part : Nat) (who : Party) : Nat → Word → List Word → State → Got (List Word)
  | 0, _, l, s => .ok l s
  | n + 1, va, l, s =>
    match s.getWord part who va with
    | .ok w s => State.getWords part who n (va + 8) (l ++ [w]) s
    | .fault k s => .fault k s
    | .lost y s => .lost y s

/-- `n` entries of 32 bits from the 4-byte aligned address `va` on. -/
def State.getEntries (s : State) (part : Nat) (who : Party) (va : Word) (n : Nat) : Got (List (BitVec 32)) :=
  let skip := (bits va 2 1).toNat
  if n = 0 then .ok [] s
  else (State.getWords part who ((n + skip + 1) / 2) (va &&& ~~~7) [] s).andThen (fun l s =>
    .ok ((List.range n).map (fun i => bits (wordAt l ((i + skip) / 2)) (32 * ((i + skip) % 2)) 32)) s)

/-! Descriptors (R284, R285). -/

/-- A bundle address in the form of ENTRY (R284). -/
def entryForm (a : Word) : Bool := canonical a && aligned a 32

/-- NSUCC. -/
def Node.nsucc (n : Node) : Nat := (bits (wordAt n.desc 6) 48 16).toNat
/-- NOPS. -/
def Node.nops (n : Node) : Nat := (bits (wordAt n.desc 6) 40 8).toNat
/-- NSHOT. -/
def Node.nshot (n : Node) : Nat := (bits (wordAt n.desc 6) 32 8).toNat
/-- PRED. -/
def Node.pred (n : Node) : Nat := (bits (wordAt n.desc 6) 16 16).toNat
/-- TAG. -/
def Node.tag (n : Node) : BitVec 16 := bits (wordAt n.desc 7) 48 16
/-- LIMIT (R299). -/
def Node.limit (n : Node) : Nat := (bits (wordAt n.desc 7) 32 16).toNat
/-- SHARE. -/
def Node.share (n : Node) : Bool := bit (wordAt n.desc 7) 13
/-- AFTER. -/
def Node.after (n : Node) : Bool := bit (wordAt n.desc 7) 12
/-- CHAIN. -/
def Node.chain (n : Node) : Bool := bit (wordAt n.desc 7) 11
/-- The number of members: GANG + 1. -/
def Node.members (n : Node) : Nat := (bits (wordAt n.desc 7) 8 3).toNat + 1
/-- REEL. -/
def Node.reel (n : Node) : Word := wordAt n.desc 5

/-- The descriptor alone keeps to R284; `spawned` says that TSPAWN names it. -/
def Node.descOk (n : Node) (spawned : Bool) : Bool :=
  let d := wordAt n.desc
  entryForm (d 0) && (d 1 == 0 || entryForm (d 1)) &&
    aligned (d 2) 4 && (n.nsucc != 0 || d 2 == 0) &&
    aligned (d 3) 16 && (n.nops != 0 || d 3 == 0) && decide (n.nops ≤ 64) &&
    aligned (d 4) 16 && (n.nshot != 0 || d 4 == 0) && decide (n.nshot ≤ 64) &&
    aligned (d 5) 64 && bits (d 6) 0 16 == 0 && bits (d 7) 14 18 == 0 && bits (d 7) 2 6 == 0 &&
    (!n.chain || n.members == 4) && (spawned || (!n.share && !n.after))

/-- An operand entry as a range: BASE is read as a signed number (R285). -/
def operand (w0 w1 : Word) : Int × Nat × Bool := ((bits w0 0 57).toInt, (bits w1 0 40).toNat, bit w1 63)

/-- An operand entry keeps to R285. -/
def operandOk (w0 w1 : Word) : Bool :=
  let r := operand w0 w1
  canonical w0 && bits w1 40 23 == 0 && r.2.1 != 0 && decide (r.1 + r.2.1 ≤ 2 ^ 56)

/-- A list names no number twice. -/
def distinct : List Nat → Bool
  | [] => true
  | x :: r => !r.contains x && distinct r

/-- What the reading of a descriptor with its lists comes to. `entries` holds the raw successor list. -/
structure ReadNode where
  node : Node
  /-- it keeps to R284 and R285 -/
  ok : Bool
  /-- its successors are below NNODE, and none is named twice -/
  succOk : Bool

/-- A descriptor with its lists, read and checked (R284, R285). The lists of a broken descriptor are not read. -/
def State.getNode (s : State) (part : Nat) (who : Party) (va : Word) (nnode : Nat) (spawned : Bool) : Got ReadNode :=
  (State.getWords part who 8 va [] s).andThen (fun d s =>
    let n : Node := { desc := d }
    if !n.descOk spawned then .ok { node := n, ok := false, succOk := false } s
    else (s.getEntries part who (wordAt d 2) n.nsucc).andThen (fun es s =>
      (State.getWords part who (2 * n.nops) (wordAt d 3) [] s).andThen (fun ws s =>
        let ix := es.map (fun e => (bits e 0 16).toNat)
        let ok := es.all (fun e => bits e 16 16 == 0) &&
          (List.range n.nops).all (fun i => operandOk (wordAt ws (2 * i)) (wordAt ws (2 * i + 1)))
        .ok { node := { n with succ := ix
                               ops := (List.range n.nops).map (fun i => operand (wordAt ws (2 * i)) (wordAt ws (2 * i + 1)))
                               left := n.pred, cls := (bits (wordAt d 7) 0 2).toNat }
              ok, succOk := ix.all (fun i => decide (i < nnode)) && distinct ix } s)))

/-! The graph (R283). -/

/-- Where the nodes of `front` lead, `k` edges on at most, beside those in `seen`. -/
def leads (succ : Nat → List Nat) : Nat → List Nat → List Nat → List Nat
  | 0, _, seen => seen
  | k + 1, front, seen =>
    let new := (front.flatMap succ).foldl (fun l x => if l.contains x || seen.contains x then l else l ++ [x]) []
    match new with
    | [] => seen
    | _ :: _ => leads succ k new (seen ++ new)

/-- The lowest node that lies on a cycle (R283). -/
def onCycle (nodes : List Node) : Option Nat :=
  let succ (i : Nat) : List Nat := match nodes[i]? with | some n => n.succ | none => []
  (List.range nodes.length).find? (fun i => (leads succ nodes.length [i] []).contains i)

/-- The lowest node whose PRED is not the number of entries that name it (R283). -/
def wrongPred (nodes : List Node) : Option Nat :=
  (List.range nodes.length).find? (fun i =>
    match nodes[i]? with
    | some n => n.pred != (nodes.filter (fun m => m.succ.contains i)).length
    | none => false)

/-! The reel (R97 to R100). -/

/-- The header of a reel keeps to R97 and R100. -/
def reelOk (h : List Word) : Bool :=
  bits (wordAt h 0) 0 32 == 0x4C454552 && bits (wordAt h 0) 32 16 == 1 && bits (wordAt h 0) 48 16 == 0 &&
    aligned (wordAt h 1) 32 && aligned (wordAt h 3) 8 && aligned (wordAt h 4) 32 && bits (wordAt h 5) 32 32 == 0

/-- BUNDLE of a safe-point entry (R98). -/
def safeBundle (e : Word) : Nat := (bits e 0 32).toNat
/-- LIVE of a safe-point entry (R98). -/
def safeLive (e : Word) : Nat := (bits e 32 16).toNat

/-- Strictly rising. -/
def rising : List Nat → Bool
  | x :: y :: r => decide (x < y) && rising (y :: r)
  | _ => true

/-- The check of a reel (R100). -/
def State.checkReel (s : State) (part : Nat) (who : Party) (base : Word) : Got Bool :=
  (State.getWords part who 8 base [] s).andThen (fun h s =>
    if !reelOk h then .ok false s
    else
      let nb := (bits (wordAt h 2) 0 32).toNat
      let ns := (bits (wordAt h 2) 32 32).toNat
      let nl := (bits (wordAt h 5) 0 32).toNat
      (State.getWords part who ns (base + wordAt h 3) [] s).andThen (fun safe s =>
        (State.getWords part who (4 * nl) (base + wordAt h 4) [] s).andThen (fun live s =>
          .ok (rising (safe.map safeBundle) &&
            safe.all (fun e => bits e 48 16 == 0 && decide (safeBundle e < nb) && decide (safeLive e < nl)) &&
            (List.range nl).all (fun i => !bit (wordAt live (4 * i)) 0 && !bit (wordAt live (4 * i + 3)) 32)) s)))

/-! Acceptance. -/

/-- What acceptance comes to (R283): a checked graph, or STATUS and DETAIL. -/
abbrev Accepted := Except (BitVec 8 × Word) Graph

/-- Every descriptor from index `i` on, `n` of them; the first that fails is named (R283). -/
def State.getNodes (part : Nat) (who : Party) (table : Word) (nnode : Nat) :
    Nat → Nat → List Node → State → Got (Except Nat (List Node))
  | 0, _, l, s => .ok (.ok l) s
  | n + 1, i, l, s =>
    match s.getNode part who (table + BitVec.ofNat 64 (64 * i)) nnode false with
    | .ok r s => if r.ok && r.succOk then State.getNodes part who table nnode n (i + 1) (l ++ [r.node]) s else .ok (.error i) s
    | .fault k s => .fault k s
    | .lost y s => .lost y s

/-- The distinct reels in the order of the lowest node that names each (R283). -/
def reelsOf (nodes : List Node) : List Word :=
  (nodes.map Node.reel).foldl (fun l x => if l.contains x then l else l ++ [x]) []

/-- The first reel that fails (R283). -/
def State.checkReels (part : Nat) (who : Party) : List Word → State → Got (Option Word)
  | [], s => .ok none s
  | b :: r, s =>
    match s.checkReel part who b with
    | .ok true s => State.checkReels part who r s
    | .ok false s => .ok (some b) s
    | .fault k s => .fault k s
    | .lost y s => .lost y s

/-- The header of a launch record keeps to R282. -/
def headerOk (h : List Word) : Bool :=
  bits (wordAt h 0) 0 32 == 0x48505247 && bits (wordAt h 0) 32 16 == 1 && bits (wordAt h 0) 48 16 == 0 && wordAt h 3 == 0 &&
    (bits (wordAt h 1) 0 32).toNat != 0 &&
    decide ((bits (wordAt h 1) 0 32).toNat + (bits (wordAt h 1) 32 32).toNat ≤ 65535) && aligned (wordAt h 2) 64

/-- Acceptance of the launch record at `va` (R283). -/
def State.accept (s : State) (part : Nat) (who : Party) (va : Word) : Got Accepted :=
  let bad (i : Nat) : Accepted := .error (0x03, BitVec.ofNat 64 i)
  (State.getWords part who 4 va [] s).andThen (fun h s =>
    if !headerOk h then .ok (bad 0xFFFF) s
    else
      let nnode := (bits (wordAt h 1) 0 32).toNat
      (State.getNodes part who (va + wordAt h 2) nnode nnode 0 [] s).andThen (fun r s =>
        match r with
        | .error i => .ok (bad i) s
        | .ok nodes =>
          match wrongPred nodes, onCycle nodes with
          | some i, _ => .ok (bad i) s
          | none, some i => .ok (bad i) s
          | none, none =>
            (State.checkReels part who (reelsOf nodes) s).andThen (fun b s =>
              .ok (match b with
                | some x => .error (0x04, x)
                | none => .ok { nodes, nspawn := (bits (wordAt h 1) 32 32).toNat }) s)))

/-! The ready pool (R286). -/

/-- Node `n` becomes ready: it takes the next SEQ (R286). -/
def State.makeReady (s : State) (part n : Nat) : State :=
  let q := (s.part part).seqNext
  (s.modNode part n (fun x => { x with st := .ready, seq := q, waited := 0 })).modPart part
    (fun p => { p with seqNext := q + 1 })

/-- The state of a launch's lifetime at its start: semaphores, barriers, ba, CLAPPER and PHOLE (R5, R18). -/
def State.beginLaunch (s : State) (part : Nat) (ba : List Word) (clapper phole : Word) : State :=
  (s.modCores part (fun c => { c with sems := [], semRts := [], semRels := [] })).modPart part (fun p =>
    { p with bn := [], bnTs := [], bnNow := [], bnRels := [], bnNowRels := [], bnPast := [], ba := (ba.zipIdx).map (fun x => (x.2, x.1)), clapper, phole })

/-- A launch takes its graph: its nodes enter the dispatcher's store, and those whose PRED is 0 become ready in ascending
index (R283). -/
def State.startGraph (s : State) (part : Nat) (l : Launch) (g : Graph) (ts : Nat) : State :=
  let nodes : Tab Node := (g.nodes.zipIdx).map (fun x => (x.2, { x.1 with ts := ts }))
  let s := { s with launches := s.launches + 1 }
  let s := s.modPart part (fun p =>
    { p with launch := some { l with id := s.launches, nodes, nnode := g.nodes.length, nspawn := g.nspawn }, reserve := none })
  nodes.foldl (fun s x => if x.2.left = 0 then s.makeReady part x.1 else s) s

end Sys2Proof.Machine
end

