-- ==== Sys2Proof/Machine/Events.lean ====
section
/-! DEFINITION. Events of the functions: PEND, PMASK and the messages of a virtual function (R358, R359), the entries of the
physical function (R462), and host memory as the device reaches it (R248, R265). -/

namespace Sys2Proof.Machine

/-- Something leaves for the host. -/
def State.send (s : State) (x : Sent) : State := { s with sent := s.sent ++ [x] }

/-- A write of the host to a register or to configuration space: none reaches the device before boot has ended, and a stopped boot
shows BOOTST and the mailbox alone (R432, R437). -/
def State.onHost (s : State) (f : State → State) : State := if s.bootDone then f s else s

/-- The bits of a word that are set, of the first eight. -/
def setBits (w : Word) : List Nat := (List.range 8).filter (fun n => bit w n)

/-- `f` acts on PEND and PMASK of a function; a message leaves for each bit whose PEND and not PMASK rises while the function
is running (R358). -/
def State.changePend (s : State) (part : Nat) (f : Partition → Partition) : State :=
  let p := s.part part
  let q := f p
  let rise := (q.pend &&& ~~~q.pmask) &&& ~~~(p.pend &&& ~~~p.pmask)
  let s := s.setPart part q
  if q.vfstate = 0 then (setBits rise).foldl (fun s n => s.send (.msi (some (part + 1)) n)) s else s

/-- An event sets its bit in PEND (R358). -/
def State.raiseEvent (s : State) (part n : Nat) : State :=
  s.changePend part (fun p => { p with pend := p.pend ||| (1#64 <<< n) })

/-- VFSTATE is written; on a return to running one message leaves for each pending bit that is not masked (R359). -/
def State.setVfstate (s : State) (part v : Nat) : State :=
  let p := s.part part
  let s := s.setPart part { p with vfstate := v }
  if v = 0 ∧ p.vfstate ≠ 0 then
    (setBits (p.pend &&& ~~~p.pmask)).foldl (fun s n => s.send (.msi (some (part + 1)) n)) s
  else s

/-- VFSTATE: the hypervisor writes 0 and 1 (R359). -/
def execVfstate (part : Nat) (x : Word) (s : State) : Out :=
  .next (s.onHost (fun s => if part < 32 ∧ (x = 0 ∨ x = 1) then s.setVfstate part x.toNat else s))

/-- Entry `n` of the physical function's MSI-X table is masked: bit 0 of its vector control, which is set at reset (R462,
log 3). -/
def State.masked (s : State) (n : Nat) : Bool := bit (Tab.get (1#64 <<< 32) s.msix (2 * n + 1)) 32

/-- An event of the physical function: a message, or the PBA bit of a masked entry (R462). -/
def State.pfEvent (s : State) (n : Nat) : State :=
  if s.masked n then { s with pba := s.pba ||| (1#8 <<< n) } else s.send (.msi none n)

/-- MSIX_VECTOR_UNMASK: unmasking sends one message when the PBA bit is set (R462). -/
def State.unmask (s : State) (n : Nat) : State :=
  let w := Tab.get (1#64 <<< 32) s.msix (2 * n + 1)
  let s := { s with msix := Tab.set s.msix (2 * n + 1) (w &&& ~~~(1#64 <<< 32)) }
  if bit s.pba n then { s with pba := s.pba &&& ~~~(1#8 <<< n) }.send (.msi none n) else s

/-- MSIX_VECTOR_UNMASK (R462). -/
def execMsixVectorUnmask (entry : Nat) (s : State) : Out :=
  .next (s.onHost (fun s => if entry < 8 ∧ s.masked entry then s.unmask entry else s))

/-- The capability table has been rewritten: its generation is even again, 2 higher (R346, R462). -/
def State.capChanged (s : State) : State := { s with capGen := s.capGen + 2 }.pfEvent 5

/-- The physical address of a PCI Express memory address (R248). -/
def hostPa (a : Word) : Nat := Config.hostBase + a.toNat % Config.hostBase

/-- The aligned word at a PCI Express memory address; ingress makes its seal (R265). -/
def State.hostWord (s : State) (a : Word) : Word := s.mem.word (hostPa a / 8)

/-- `n` words of host memory. -/
def State.hostWords (s : State) (a : Word) (n : Nat) : List Word :=
  (List.range n).map (fun i => s.hostWord (a + BitVec.ofNat 64 (8 * i)))

/-- Words written to host memory. -/
def State.putHost (s : State) (a : Word) (l : List Word) : State :=
  { s with mem := (l.zipIdx).foldl (fun m x => m.store (hostPa (a + BitVec.ofNat 64 (8 * x.2)) / 8) x.1) s.mem }

end Sys2Proof.Machine
end

