-- ==== Sys2Proof/Machine/Dispatcher.lean ====
section
/-! DEFINITION. The dispatcher of a partition: holds (R288, R289), the choice of the next node (R290, R291, R293), dispatch
(R292), completion (R13, R286, R287), TSPAWN (R294 to R296), the resident limit (R299), and the clapper (R301). -/

namespace Sys2Proof.Machine

/-! Completion of a packet and of a launch. -/

/-- A packet's completion: its record is made, with TIMEBASE as it stands, and waits to be written (R327 to R329). -/
def State.completePacket (s : State) (part r : Nat) (status : BitVec 8) (detail : Word) : State :=
  match ((s.part part).ring r).run with
  | none => s
  | some k =>
    let (time, s) := s.now
    let c1 : Word := bits (wordAt k.words 0) 0 32 ++ status ++ bits (wordAt k.words 0) 60 4 ++ (s.part part).ringNumber r ++ 0#16
    let d : Due := { words := [BitVec.ofNat 64 k.pos, c1, detail, time]
                     pend := if bit (wordAt k.words 0) 57 then some 0 else none, gen := k.gen, ring := some r }
    s.modPart part (fun p => { p.modRing r (fun x => { x with run := some { k with done := true } }) with due := p.due ++ [d] })

/-- The core is at the end of R13: its slots have halted, its queues and moves are done, and nothing is on its way. -/
def Core.finished (c : Core) : Bool :=
  allSlots.all (fun k => (c.slot k).halted && (c.slot k).pend.isNone && (c.slot k).await.isNone) && !c.loading &&
    c.mq.recs.isEmpty && c.cq0.recs.isEmpty && c.cq1.recs.isEmpty && c.moves.isEmpty && c.loads.isEmpty &&
    c.vloads.isEmpty

/-- The physical core of a seat, where its member stands. -/
def Partition.seatCore (p : Partition) (x : Seat) : Option Nat := if x.away then none else p.physCore x.vcore

/-- The core after its node has left it: what does not have the task's lifetime stays (R5). -/
def Core.vacate (c : Core) : Core :=
  { store := c.store, served := c.served, csPin := c.csPin, sems := c.sems, semRts := c.semRts, semRels := c.semRels, cl := c.cl
    updating := c.updating, cl0Time := c.cl0Time, lease := c.lease, repair := c.repair
    slots := allSlots.map (fun k => (slotIx k, { halted := true })) }

/-- The latest time of a core's parties. -/
def Core.lastPts (c : Core) : Nat :=
  max (allSlots.foldl (fun t k => max t (c.slot k).pts) 0) (max c.mq.pts (max c.cq0.pts c.cq1.pts))

/-- A core is taken from its task. Leave and cached translations of its parties go (R425, R354). -/
def State.vacateCore (s : State) (c : Nat) : State :=
  let s := ((s.releaseLeave c .mq).releaseLeave c .cq0).releaseLeave c .cq1
  let s := match (s.core c).bind with
    | some b => s.modPart b.part (fun p =>
        { p with tlb := p.tlb.filter (fun x => match x.party with | .slot d _ | .queue d _ => d != c | _ => true) })
    | none => s
  s.modCore c Core.vacate

/-- No node of the launch is on cores, or waits to return to them. -/
def Launch.quiet (l : Launch) : Bool :=
  l.nodes.all (fun x => x.2.st != .dispatched && !(x.2.st == .ready && x.2.requeued))

/-- The status with which the launch completes now, if it does (R287). -/
def Launch.outcome (l : Launch) : Option (BitVec 8 × Word) :=
  if l.closed then none
  else match l.ending with
    | some e => if l.quiet then some e else none
    | none => if l.clapper.isNone && l.nodes.all (fun x => x.2.st == .complete) then some (0, 0) else none

/-- The launch completes when nothing of it is left to run: its packet acquires from every node completion, and its record
is made (R287, R324). -/
def State.settleLaunch (s : State) (part : Nat) : State :=
  match (s.part part).launch with
  | none => s
  | some l =>
    match l.outcome with
    | none => s
    | some (status, detail) =>
      let s := s.modPart part (fun p =>
        { p.modRing l.ring (fun r => { r with pts := max r.pts p.dispPts }) with launch := some { l with closed := true } })
      s.completePacket part l.ring status detail

/-! Nodes that complete (R286). -/

/-- The members of a node have met R13. A member that a trap has parked for good counts, once the launch is ending (R31). -/
def State.membersDone (s : State) (part : Nat) (l : Launch) (n : Node) : Bool :=
  n.seats.all (fun x => x.done || match (s.part part).seatCore x with
    | some c => (s.core c).finished || ((s.core c).frozen && l.ending.isSome)
    | none => false)

/-- One successor loses a predecessor that completed at time `t` (R252, R286). -/
def State.lower (s : State) (part : Nat) (t : Nat) (n : Nat) : State :=
  match (s.part part).launch.bind (fun l => Tab.find? l.nodes n) with
  | none => s
  | some x =>
    let s := s.modNode part n (fun x => { x with left := x.left - 1, ts := max x.ts t })
    if x.left = 1 ∧ x.st = .waiting then s.makeReady part n else s

/-- A node completes: its cores are free, and its successors' counts fall in list order (R286). -/
def State.nodeDone (s : State) (part n : Nat) : Option State :=
  match (s.part part).launch with
  | none => none
  | some l =>
    match Tab.find? l.nodes n with
    | none => none
    | some x =>
      if x.st ≠ .dispatched ∨ !s.membersDone part l x then none
      else
        let cores := x.seats.filterMap (s.part part).seatCore
        let parked := cores.any (fun c => (s.core c).frozen)
        let t := x.seats.foldl (fun t y => max t y.pts) (cores.foldl (fun t c => max t (s.core c).lastPts) x.ts)
        let s := cores.foldl (fun s c => s.vacateCore c) s
        let s := (s.modNode part n (fun x => { x with st := .complete, seats := [] })).modPart part
          (fun p => { p with dispPts := max p.dispPts t })
        let s := if parked then s else x.succ.foldl (fun s m => s.lower part t m) s
        some (s.settleLaunch part)

/-- NODE_COMPLETE (R286). -/
def execNodeComplete (part node : Nat) (s : State) : Out := .next ((s.nodeDone part node).getD s)

/-! Holds (R288, R289). -/

/-- Two ranges conflict: they overlap in a byte, and one of them may be written (R288). -/
def rangesConflict (r q : Int × Nat × Bool) : Bool :=
  decide (r.1 < q.1 + q.2.1) && decide (q.1 < r.1 + r.2.1) && (r.2.2 || q.2.2)

/-- The node's ranges are tracked: it is dispatched, or re-queued (R289, R297). -/
def Node.tracked (n : Node) : Bool := n.st == .dispatched || (n.st == .ready && n.requeued)

/-- A ready node conflicts with a tracked one (R288). A re-queued node never does (R297). -/
def Launch.conflicted (l : Launch) (n : Node) : Bool :=
  !n.requeued && l.nodes.any (fun y => y.2.tracked && !(n.share && n.spawner == some y.1) &&
    n.ops.any (fun r => y.2.ops.any (rangesConflict r)))

/-- A ready node is held: by a conflict, by the number of ranges, or by a fault of its shot list (R288, R289, R292). -/
def Launch.held (l : Launch) (n : Node) : Bool :=
  n.park.isSome || l.conflicted n || (!n.requeued &&
    decide (Config.maxRanges < (l.nodes.filter (fun y => y.2.tracked)).foldl (fun k y => k + y.2.ops.length) n.ops.length))

/-! Cores (R290, R293, R378). -/

/-- The core-store budget that virtual core `v` has at its next dispatch. It goes on covering the frames that pages occupy
(R260, log 8). -/
def State.nextPin (s : State) (part v : Nat) : Nat :=
  let p := s.part part
  match p.physCore v with
  | none => 0
  | some c =>
    let b := if s.borrowed part (clusterOf c) then 0 else p.csBudget v / 65536
    p.pins.foldl (fun n x => if x.home = 1 ∧ x.phys = c then max n ((Config.coreStoreBytes - x.frame + 65535) / 65536) else n) b

/-- Bytes of the task array that a member placed on virtual core `v` finds (R260). -/
def State.nextArray (s : State) (part v : Nat) : Nat := Config.coreStoreBytes - s.nextPin part v * 65536

/-- The virtual cores of a node that every one of them still has (R378). -/
def Partition.homeSeats (p : Partition) (n : Node) : Bool := n.seats.all (fun x => decide (x.vcore < 8 * p.ncl))

/-- Virtual core `v` is kept for a re-queued node other than `n` (R378). -/
def Partition.keptFor (p : Partition) (l : Launch) (n v : Nat) : Bool :=
  l.nodes.any (fun y => y.1 != n && y.2.st == .ready && y.2.requeued && p.homeSeats y.2 && y.2.seats.any (fun x => x.vcore == v))

/-- Virtual core `v` holds no node. -/
def State.emptyCore (s : State) (part v : Nat) : Bool :=
  match (s.part part).physCore v with
  | some c => (s.core c).bind.isNone && !(s.core c).repair.active
  | none => false

/-- No node but `n` has reserved core `v`, and `n` takes its own reserved cores only, when it has any (R293). -/
def Partition.unreserved (p : Partition) (n v : Nat) : Bool :=
  match p.reserve with
  | some (m, cs) => if m = n then cs.contains v else !cs.contains v
  | none => true

/-- Core `v` may take node `n`, reservations apart: it holds no node, no other node is to return to it, and its cluster is not
departing (R290, R378). -/
def State.openFor (s : State) (part : Nat) (l : Launch) (n v : Nat) : Bool :=
  s.emptyCore part v && !(s.part part).departing.contains (v / 8) && !(s.part part).keptFor l n v

/-- Bytes of task array that each member needs, by GPOS: those that it had at its stop (R378). -/
def Node.needs (n : Node) : List Nat := n.seats.map (·.csSize) ++ List.replicate (n.members - n.seats.length) 0

/-- The members, by GPOS, on the first of the ascending cores that suit them. -/
def seatOn (ok : Nat → Nat → Bool) : List Nat → List Nat → Option (List Nat)
  | [], _ => some []
  | _ :: _, [] => none
  | m :: ms, v :: vs => if ok v m then (seatOn ok ms vs).map (v :: ·) else seatOn ok (m :: ms) vs

/-- The cores on which a ready node fits, in the order of GPOS (R290). A re-queued node goes back to its virtual cores, which no
reservation takes from it; when one of them has gone it is placed like any other (R378). -/
def State.fits (s : State) (part : Nat) (l : Launch) (i : Nat) (n : Node) : Option (List Nat) :=
  let p := s.part part
  let ok (v k : Nat) : Bool := s.openFor part l i v && p.unreserved i v && decide (k ≤ s.nextArray part v)
  if n.requeued && p.homeSeats n then
    if n.seats.all (fun x => s.openFor part l i x.vcore && decide (x.csSize ≤ s.nextArray part x.vcore)) then
      some (n.seats.map (·.vcore))
    else none
  else if n.chain then
    ((List.range (2 * p.ncl)).map (fun r => (List.range 4).map (fun k => 4 * r + k))).find? (fun row =>
      (row.zip n.needs).all (fun x => ok x.1 x.2))
  else if n.members = 1 then seatOn ok n.needs (List.range (8 * p.ncl))
  else (List.range p.ncl).findSome? (fun c => seatOn ok n.needs ((List.range 8).map (fun k => 8 * c + k)))

/-- The cluster or row with the most cores that hold no node, the first among equals, as its cores (R293). -/
def mostEmpty (empty : Nat → Bool) : List (List Nat) → List Nat
  | [] => []
  | x :: r =>
    let y := mostEmpty empty r
    if (x.filter empty).length < (y.filter empty).length then y else x

/-- The cores that node `n` reserves (R293). Rows that tie are taken by cluster first, and of one cluster the north row before the
south row: the rule names both keys and not which comes first (log 62). -/
def State.reserveFor (s : State) (part : Nat) (l : Launch) (i : Nat) (n : Node) : List Nat :=
  let p := s.part part
  let empty (v : Nat) : Bool := s.emptyCore part v && !p.keptFor l i v
  let clusters := (List.range p.ncl).filter (fun c => !p.departing.contains c)
  mostEmpty empty (if n.chain then
      clusters.flatMap (fun c => [(List.range 4).map (fun k => 8 * c + k), (List.range 4).map (fun k => 8 * c + 4 + k)])
    else clusters.map (fun c => (List.range 8).map (fun k => 8 * c + k)))

/-! Dispatch (R292). -/

/-- What the shot list of a node comes to (R229): its entries, or a refusal. -/
abbrev ShotList := Option (List Shot)

/-- The queue that the SQ field of a shot names (R229, R230). -/
def Rec.shotQueue (r : Rec) : Queue := if r.sq = 2 then .cq1 else .cq0

/-- The group of an entry: a record and its two blocks (R229). -/
def shotOf (stage : Nat) (w : List Word) : Shot :=
  let r : Rec := { w := w.take 8, src := (w.drop 8).take 8, dst := (w.drop 16).take 8 }
  { stage, q := r.shotQueue, rcd := r }

/-- The entries of a shot list with their groups, `n` of them from `va` on, checked as an enqueue checks (R229). -/
def State.getShots (part : Nat) (ncl : Nat) (lim : List Nat) : Nat → Word → List Shot → State → Got ShotList
  | 0, _, l, s => .ok (some l) s
  | n + 1, va, l, s =>
    match State.getWords part (.dispatcher part) 2 va [] s with
    | .fault k s => .fault k s
    | .lost y s => .lost y s
    | .ok e s =>
      let stage := (bits (wordAt e 1) 0 8).toNat
      if !aligned (wordAt e 0) 64 || bits (wordAt e 1) 8 56 != 0 || l.any (fun x => decide (stage < x.stage)) then .ok none s
      else
        match State.getWords part (.dispatcher part) 24 (wordAt e 0) [] s with
        | .fault k s => .fault k s
        | .lost y s => .lost y s
        | .ok w s =>
          let x := shotOf stage w
          if lim.any (fun b => (x.rcd.reason .shot 0 ncl b).isSome) then .ok none s
          else State.getShots part ncl lim n (va + 16) (l ++ [x]) s

/-- Code bytes as they stand at dispatch: HBM, with the pages that a core store or an L2 holds in their place, for the partition or
for one whose memory a window of it reaches (R46, R384). -/
def State.image (s : State) (part : Nat) : Mem :=
  (s.parts.flatMap (fun x => x.2.pins) ++ (s.part part).pins).foldl (fun m x =>
    if x.home = 1 then m.blit (x.pa / 8) (s.core x.phys).store (x.frame / 8) (x.size / 8)
    else if x.home = 2 then m.blit (x.pa / 8) (s.cluster x.phys).l2Home (x.pa / 8) (x.size / 8)
    else m) s.mem

/-- Physical address of save slot m (R370). -/
def Partition.slotAddr (p : Partition) (m : Nat) : Nat := (bits p.svroot 23 29).toNat * 0x800000 + m * 0x800000

/-- The save slot at `a` lies wholly in channels bound to the partition (R371). -/
def State.slotBound (s : State) (part a : Nat) : Bool :=
  let mine (x : Nat) : Bool := decide (x < Config.hbmEnd) && (s.cluster (x / Config.clusterBytes)).owner == some part
  mine a && mine (a + 0x7FFFFF)

/-- The lowest free save slot that a member may bind (R371). `taken` holds the slots bound already. -/
def State.freeSlot (s : State) (part : Nat) (taken : List Nat) : Option Nat :=
  ((List.range (bits (s.part part).svroot 52 12).toNat).map (s.part part).slotAddr).find? (fun a =>
    !taken.contains a && s.slotBound part a)

/-- Save slots that the members of a launch have bound. -/
def Launch.slotsTaken (l : Launch) : List Nat := l.nodes.flatMap (fun y => y.2.seats.filterMap (·.save))

/-- The seats of a node that is dispatched for the first time, each with its save slot (R371). -/
def State.newSeats (s : State) (part : Nat) : List Nat → List Nat → List Seat
  | [], _ => []
  | v :: r, taken =>
    let a := s.freeSlot part taken
    { vcore := v, save := a } :: State.newSeats s part r (match a with | some a => a :: taken | none => taken)

/-- VCORE (R27). -/
def vcoreWord (v gpos glast : Nat) : Word := 0#49 ++ BitVec.ofNat 3 glast ++ 0#1 ++ BitVec.ofNat 3 gpos ++ BitVec.ofNat 8 v

/-- The slots of a task at its entry: one joined group (R10, R11). -/
def entrySlots (entry : Word) (ts : Nat) : Tab SlotState :=
  allSlots.map (fun k => (slotIx k, { c0 := entry, c1 := entry + 32, c2 := entry + 64, group := 0, pts := ts }))

/-- The core takes a node in `b`: its task state has its reset values (R5, R292), and its task array is cleared when the core
last served another launch (R43). -/
def Core.place (c : Core) (b : Bind) (csPin launch : Nat) : Core :=
  let n := Config.coreStoreBytes - csPin * 65536
  ({ c.vacate with
    bind := some b, csPin := csPin, served := some launch
    store := if c.served = some launch then c.store else c.store.scrub 0 (n / 8)
    regs := { vcore := vcoreWord b.vcore b.gpos b.glast } } : Core).force

/-- The task starts at its entry (R10, R292). -/
def Core.enterTask (c : Core) (n : Node) (shots : List Shot) : Core :=
  { c with
    regs := { c.regs with tvec := wordAt n.desc 1 }
    slots := entrySlots (wordAt n.desc 0) n.ts
    shots := shots, mq := { pts := n.ts }, cq0 := { pts := n.ts }, cq1 := { pts := n.ts } }

/-- Member `x` of node `i` is placed; a re-queued one waits for its saved state, one that was done stays halted. -/
def State.placeSeat (s : State) (part i : Nat) (l : Launch) (y : Node) (shots : List Shot) (gpos : Nat) (x : Seat) : State :=
  match (s.part part).physCore x.vcore with
  | none => s
  | some c =>
    let b : Bind := { part, node := i, gpos, glast := y.members - 1, vcore := x.vcore }
    let pin := s.nextPin part x.vcore
    let code := s.image part
    let n := s.fresh
    s.modCore c (fun k =>
      let k := { k.place b pin l.id with code := code, codeAt := n }
      if y.requeued then { k with loading := !x.done } else k.enterTask y shots)

/-- NODE_DISPATCH (R292): node `i` goes to the virtual cores `vs`. A fault of the shot list holds it, and a bad entry refuses
it. -/
def State.dispatchNode (s : State) (part i : Nat) (l : Launch) (n : Node) (vs : List Nat) : State :=
  let place (shots : List Shot) (s : State) : State :=
    let seats := if n.requeued then (n.seats.zip vs).map (fun x => { x.1 with vcore := x.2, away := false })
                 else s.newSeats part vs l.slotsTaken
    let s := (seats.zipIdx).foldl (fun s x => s.placeSeat part i l n shots x.2 x.1) s
    s.modNode part i (fun y => { y with st := .dispatched, seats, requeued := false })
  if n.requeued then place [] s
  else match State.getShots part (s.part part).ncl (vs.map (s.nextArray part)) n.nshot (wordAt n.desc 4) [] s with
    | .fault k s => s.parkDispatcher part i k
    | .lost y s => s.lose y
    | .ok none s =>
      (((s.modNode part i (fun y => { y with st := .refused })).endLaunch part 0x07
        (n.tag ++ BitVec.ofNat 16 i ++ 0#32))).settleLaunch part
    | .ok (some shots) s => place shots s

/-! The dispatch step (R291). -/

/-- A node may be chosen: ready, and, once the launch is ending, only to return to its cores (R287). -/
def Launch.eligible (l : Launch) (n : Node) : Bool :=
  n.st == .ready && (l.ending.isNone || n.requeued) && !l.held n

/-- `x` is chosen before `y`: a smaller CLASS, or a smaller SEQ (R291). -/
def sooner (x y : Node) : Bool := decide (x.cls < y.cls) || (x.cls == y.cls && decide (x.seq < y.seq))

/-- The ready nodes that fit, each with its cores. -/
def State.candidates (s : State) (part : Nat) (l : Launch) : List (Nat × Node × List Nat) :=
  l.nodes.filterMap (fun y => if l.eligible y.2 then (s.fits part l y.1 y.2).map (fun vs => (y.1, y.2, vs)) else none)

/-- The first choice. -/
def choose : List (Nat × Node × List Nat) → Option (Nat × Node × List Nat)
  | [] => none
  | x :: r => match choose r with
    | some y => if sooner y.2.1 x.2.1 then some y else some x
    | none => some x

/-- Ageing of one ready node that was not chosen (R291); reaching 64 it rises a class, or reserves. -/
def State.age (s : State) (part i : Nat) : State :=
  match (s.part part).launch with
  | none => s
  | some l =>
    match Tab.find? l.nodes i with
    | none => s
    | some n =>
      if n.st ≠ .ready then s
      else if n.waited + 1 < 64 then s.modNode part i (fun y => { y with waited := y.waited + 1 })
      else
        let s := s.modNode part i (fun y => { y with waited := 0, cls := y.cls - 1 })
        if n.cls = 0 ∧ !l.held n ∧ (s.part part).reserve.isNone then
          s.modPart part (fun p => { p with reserve := some (i, s.reserveFor part l i n) })
        else s

/-- The ready nodes in the order of SEQ. -/
def insertSeq (x : Nat × Node) : List (Nat × Node) → List (Nat × Node)
  | [] => [x]
  | y :: r => if x.2.seq ≤ y.2.seq then x :: y :: r else y :: insertSeq x r

/-- A reserving node that a conflict newly holds gives its reservation up, and its WAITED counts from 0 (R293). -/
def State.giveUp (s : State) (part : Nat) (l : Launch) : Option State :=
  (s.part part).reserve.bind (fun x =>
    match Tab.find? l.nodes x.1 with
    | some n =>
      if l.conflicted n then
        some ((s.modNode part x.1 (fun y => { y with waited := 0 })).modPart part (fun p => { p with reserve := none }))
      else none
    | none => some (s.modPart part (fun p => { p with reserve := none })))

/-- The step of R291 with the launch `l`, when a ready node fits. -/
def State.dispatchOne (s : State) (part : Nat) (l : Launch) : Option State :=
  match choose (s.candidates part l) with
  | none => none
  | some (i, n, vs) =>
    let s := s.modPart part (fun p => { p with reserve := match p.reserve with
      | some (j, cs) => if j = i then none else some (j, cs)
      | none => none })
    let s := s.dispatchNode part i l n vs
    let others := (l.nodes.filter (fun y => y.2.st == .ready && y.1 != i)).foldr insertSeq []
    some (others.foldl (fun s y => s.age part y.1) s)

/-- A dispatch step, when a ready node fits, or a reservation is given up (R291, R293). A partition dispatches while it is live or
resizing (R335, R388). -/
def State.dispatchStep (s : State) (part : Nat) : Option State :=
  let p := s.part part
  match p.launch with
  | none => none
  | some l =>
    if l.closed || l.clapper.isSome || p.pausing || !(p.state == 1 || p.state == 2) then none
    else match s.giveUp part l with
      | none => s.dispatchOne part l
      | some t =>
        match (t.part part).launch with
        | some l => (t.dispatchOne part l).or (some t)
        | none => some t

/-- DISPATCH_STEP (R291). -/
def execDispatchStep (part : Nat) (s : State) : Out := .next ((s.dispatchStep part).getD s)

/-! TSPAWN (R294 to R296). -/

/-- Slot B of the core refuses a TSPAWN of the descriptor at `va`: a fault-class trap (R295). -/
def State.refuseSpawn (s : State) (c : Nat) (va : Word) (reason : Nat) : State :=
  s.answerB c (fun t => { t with await := none, pend := some { code := 0x03, detail := BitVec.ofNat 32 reason, tval := va } })

/-- The lowest reason for which an acceptance fails, but for the reel (R296). -/
def Launch.spawnReason (l : Launch) (r : ReadNode) : Option Nat :=
  if !r.ok || r.node.pred != 0 then some 1
  else if l.nnode + l.nspawn ≤ l.nodes.length then some 2
  else if r.node.succ.any (fun i => decide (l.nnode ≤ i)) then some 3
  else if r.node.succ.any (fun i => match Tab.find? l.nodes i with | some y => y.left == 0 | none => true) then some 4
  else none

/-- A spawned node joins the graph (R294). -/
def State.addNode (s : State) (part : Nat) (l : Launch) (n : Node) (spawner ts : Nat) : State :=
  let i := l.nodes.length
  let s := n.succ.foldl (fun s m => s.modNode part m (fun y => { y with left := y.left + 1 })) s
  let n : Node := { n with spawner := some spawner, ts, left := if n.after then 1 else 0 }
  let s := s.modPart part (fun p => { p with launch := p.launch.map (fun l => { l with nodes := Tab.set l.nodes i n }) })
  if n.after then s.modNode part spawner (fun y => { y with succ := y.succ ++ [i] }) else s.makeReady part i

/-- TSPAWN_ACCEPT: the dispatcher reads the descriptor that slot B of a core names and accepts or refuses it; a fault of
the reads parks slot B (R127, R294, R296). The rule says so for the descriptor and its two lists; a fault of the reel's read parks
it as well (log 62). -/
def State.spawn (s : State) (c : Nat) (b : Bind) (va : Word) (l : Launch) : State :=
  let who : Party := .dispatcher b.part
  let unwait (s : State) : State := s.modCore c (fun k => k.modSlot .B (fun t => { t with await := none }))
  match s.getNode b.part who va l.nnode true with
  | .fault k s => (unwait s).parkSlot c .B k true
  | .lost y s => s.lose y
  | .ok r s =>
    match l.spawnReason r with
    | some n => s.refuseSpawn c va n
    | none =>
      match s.checkReel b.part who r.node.reel with
      | .fault k s => (unwait s).parkSlot c .B k true
      | .lost y s => s.lose y
      | .ok false s => s.refuseSpawn c va 5
      | .ok true s => (s.addNode b.part l r.node b.node ((s.core c).slot .B).pts).answerB c SlotState.answered

/-- TSPAWN_ACCEPT (R294). -/
def execTspawnAccept (core : Nat) (s : State) : Out :=
  .next (match (s.core core).bind, ((s.core core).slot .B).await with
    | some b, some (.tspawn va) =>
      match (s.part b.part).launch with
      | some l => s.spawn core b va l
      | none => s
    | _, _ => s)

/-! The resident limit (R299). -/

/-- The node that a core runs. -/
def State.nodeOf (s : State) (c : Nat) : Option Node :=
  (s.core c).bind.bind (fun b => (s.part b.part).launch.bind (fun l => Tab.find? l.nodes b.node))

/-- A member passes its limit: its slots stop at their next bundle boundary, and it is reported with queue field 3 (R299).
Whether and when the limit fires is outside R1. -/
def State.limitOverrun (s : State) (c : Nat) : Option State :=
  match (s.core c).bind, s.nodeOf c with
  | some b, some n =>
    if n.limit = 0 ∨ (s.core c).overrun.isSome ∨ (s.core c).finished ∨ !(s.core c).running then none
    else
      let (h, s) := s.report b.part (.limit c) { cause := 0x40 }
      some (s.modCore c (fun k => { k with overrun := some h }))
  | _, _ => none

/-- RESIDENT_LIMIT_OVERRUN (R299). -/
def execResidentLimitOverrun (core : Nat) (s : State) : Out := .next ((s.limitOverrun core).getD s)

/-! The clapper (R301). -/

/-- The other members of the peer group that the words of a LAUNCH name (R301, R323). -/
def State.groupOf (s : State) (words : List Word) : List Nat :=
  (Tab.get [] s.peers (bits (wordAt words 2) 52 12).toNat).filter (· != s.device)

/-- K of a LAUNCH (R323). -/
def clapperKey (words : List Word) : BitVec 32 := bits (wordAt words 2) 0 32

/-- The device says `x` to each of the devices `l`. -/
def State.tell (s : State) (part : Nat) (l : List Nat) (x : ClapperSays) : State :=
  l.foldl (fun s d => s.send (.clapper d part x)) s

/-- A launch with a peer group ends before its start; the originator tells the other members (R301). -/
def State.clapperFails (s : State) (part device : Nat) : State :=
  let s := match (s.part part).launch with
    | some l => if (l.clapper.bind (·.origin)).isSome then s else s.tell part (s.groupOf l.words) (.abort device)
    | none => s
  ((s.modPart part (fun p => { p with launch := p.launch.map (fun l => { l with nodes := [], clapper := none }) })).endLaunch
    part 0x08 (BitVec.ofNat 64 device)).settleLaunch part

/-- The launch of a partition that waits for its peers. -/
def Partition.waitsPeers (p : Partition) : Option Clapper := p.launch.bind (fun l => if l.closed then none else l.clapper)

/-- A clapper that waits changed. -/
def State.setClapper (s : State) (part : Nat) (x : Option Clapper) : State :=
  s.modPart part (fun p => { p with launch := p.launch.map (fun l => { l with clapper := x }) })

/-- CLAPPER_REPORT: a peer reports; after the last report the originator sets the start, 20,000 ns on, and sends it to the others
(R301). -/
def execClapperReport (part device : Nat) (ready : Bool) (s : State) : Out :=
  .next (match (s.part part).launch, (s.part part).waitsPeers with
    | some l, some x =>
      if !x.missing.contains device then s
      else if !ready then s.clapperFails part device
      else
        let (time, s) := s.now
        let rest := x.missing.filter (· != device)
        if rest.isEmpty then
          (s.setClapper part (some { x with missing := rest, start := some (time + 20000) })).tell part (s.groupOf l.words)
            (.start (clapperKey l.words) (time + 20000))
        else s.setClapper part (some { x with missing := rest })
    | _, _ => s)

/-- CLAPPER_START: TIMEBASE reaches Ts, and the first dispatch step is taken (R301). -/
def State.clapperStart (s : State) (part : Nat) : Option State :=
  match (s.part part).waitsPeers.bind (·.start) with
  | none => none
  | some ts =>
    let s := { s with timebase := if s.timebase < ts then ts else s.timebase }
    let s := s.setClapper part none
    some ((s.dispatchStep part).getD s)

/-- CLAPPER_START (R301): the start arrives from the originator with the launch's K, or TIMEBASE reaches it. -/
def execClapperStart (part : ClapperStart) (s : State) : Out :=
  .next (match part.stamp with
    | none => (s.clapperStart part.part).getD s
    | some (key, ts) =>
      match (s.part part.part).launch, (s.part part.part).waitsPeers with
      | some l, some x =>
        if x.origin.isSome && clapperKey l.words == key then s.setClapper part.part (some { x with start := some ts }) else s
      | _, _ => s)

/-- CLAPPER_ABORT: a member has not reported within 1 s, and the originator aborts the launch; or its abort arrives (R301). -/
def execClapperAbort (part : ClapperAbort) (s : State) : Out :=
  .next (match (s.part part.part).waitsPeers, part.device with
    | none, _ => s
    | some x, some d => if x.origin.isSome then s.clapperFails part.part d else s
    | some x, none =>
      match x.missing with
      | [] => s
      | d :: _ => { s with timebase := if s.timebase < x.limit then x.limit else s.timebase }.clapperFails part.part d)

end Sys2Proof.Machine
end

