-- ==== Sys2Proof/Machine/Rings.lean ====
section
/-! DEFINITION. Submission rings (R318 to R324), the launch slot (R325), END (R326), the completion ring (R327) and its
records, PRESUME (R328), and pigeonholes (R331 to R334). -/

namespace Sys2Proof.Machine

/-! The ring's registers (R318 to R320). -/

/-- Slots of a ring. -/
def Ring.size (r : Ring) : Nat := 2 ^ r.log2sz.toNat

/-- Doorbell(x) of R320. -/
def Ring.doorbell (r : Ring) (x : Nat) : Ring :=
  if x < r.wi then { r with back := true }
  else
    let r := { r with wi := x }
    if r.size < x - r.rd ∧ !r.overrun then { r with overrun := true, overrunDue := some x } else r

/-- LOG2SZ is one that a ring may have (R319). -/
def sizeOk (l : BitVec 5) : Bool := decide (4 ≤ l.toNat) && decide (l.toNat ≤ 16)

/-- A write of RCFG, but for END and RESET: `none` when it is refused as a whole (R319). -/
def Ring.configure (r : Ring) (x : Word) : Option Ring :=
  let r' : Ring := if r.enable then r else { r with loc := bit x 3, log2sz := bits x 4 5 }
  if bit x 0 && !sizeOk r'.log2sz then none else some { r' with enable := bit x 0 }

/-- RESET takes effect (R319). -/
def Ring.reset (r : Ring) : Ring :=
  { r with rd := r.wi, overrun := false, overrunDue := none, back := false, park := none, resetDue := false }

/-- RCFG as it reads (R319). -/
def Ring.rcfg (r : Ring) : Word := 0#55 ++ r.log2sz ++ ofBool1 r.loc ++ 0#2 ++ ofBool1 r.enable
/-- RSTAT as it reads (R319). -/
def Ring.rstat (r : Ring) : Word :=
  0#60 ++ ofBool1 r.park.isSome ++ ofBool1 r.back ++ ofBool1 r.overrun ++ ofBool1 (r.run.isSome || r.stuck)

/-- Ring `r` of a partition changed. -/
def State.modRing (s : State) (part r : Nat) (f : Ring → Ring) : State := s.modPart part (fun p => p.modRing r f)

/-- With no packet running, the record of an overrun is made, and a RESET that waited takes effect (R319, R320). -/
def State.settleRing (s : State) (part r : Nat) : State :=
  let x := (s.part part).ring r
  if x.run.isSome then s
  else
    let s := match x.overrunDue with
      | none => s
      | some wi =>
        let (time, s) := s.now
        let d : Due := { words := [BitVec.ofNat 64 x.rd, 0#32 ++ 0x01#8 ++ 0#4 ++ BitVec.ofNat 4 r ++ 0#16, BitVec.ofNat 64 wi, time]
                         pend := none, gen := (s.part part).rgen }
        (s.modPart part (fun p => { p with due := p.due ++ [d] })).modRing part r (fun x => { x with overrunDue := none })
    if x.resetDue then s.modRing part r Ring.reset else s

/-- A register of a ring is reached: the numbers name one. -/
def ringOk (part r : Nat) : Bool := decide (part < 32) && decide (r < 16)

/-- DOORBELL (R320). -/
def execDoorbell (part ring : Nat) (x : Word) (s : State) : Out :=
  .next (s.onHost (fun s =>
    if ringOk part ring then (s.modRing part ring (fun r => r.doorbell x.toNat)).settleRing part ring else s))

/-- ENABLE: a write of RCFG (R319). -/
def execEnable (part ring : Nat) (x : Word) (s : State) : Out :=
  .next (s.onHost (fun s => if ringOk part ring then s.modRing part ring (fun r => (r.configure x).getD r) else s))

/-- RESET: at once when no packet runs, and the handle of a parked fetch is free; else when the packet completes (R319,
R321). -/
def State.resetRing (s : State) (part r : Nat) : State :=
  let x := (s.part part).ring r
  if x.run.isSome then s.modRing part r (fun x => { x with resetDue := true })
  else
    let s := match x.park with | some k => s.freeHandle part k.handle | none => s
    (s.settleRing part r).modRing part r Ring.reset

/-- RESET (R319). -/
def execRingReset (part ring : Nat) (s : State) : Out :=
  .next (s.onHost (fun s => if ringOk part ring then s.resetRing part ring else s))

/-! Packets (R322, R323). -/

/-- A field of a packet's word as a number. -/
def pfield (w : List Word) (i lo n : Nat) : Nat := (bits (wordAt w i) lo n).toNat
/-- KIND. -/
def pkind (w : List Word) : Nat := pfield w 0 60 4
/-- ACQ and REL. -/
def pacq (w : List Word) : Nat := pfield w 0 52 5
def prel (w : List Word) : Nat := pfield w 0 47 5
/-- NBA and NAD of an INVOKE. -/
def pnba (w : List Word) : Nat := pfield w 1 51 5
def pnad (w : List Word) : Nat := pfield w 1 43 8
/-- OP and HKIND of a PHOLE (R331). -/
def phop (w : List Word) : Nat := pfield w 1 60 4
def phkind (w : List Word) : Nat := pfield w 1 58 2

/-- Slots that the fetch takes: a reserved LEN counts as 0 (R320). -/
def slotsOf (p0 : Word) : Nat := if bits p0 58 2 = 3 then 1 else (bits p0 58 2).toNat + 1

/-- Slots that the kind requires (R323). -/
def slotsNeeded (w : List Word) : Nat := if pkind w = 2 then (3 + pnba w + 7) / 8 else 1

/-- Words from `i` on are zero. -/
def tailClear (w : List Word) (i : Nat) : Bool := (w.drop i).all (· == 0)

/-- A reserved word or field of the body is not zero (R322, R323, R331). -/
def packetReserved (w : List Word) : Bool :=
  pfield w 0 32 15 != 0 ||
  match pkind w with
  | 0 => !tailClear w 1
  | 1 => pfield w 2 32 20 != 0 || !tailClear w 3
  | 2 => pfield w 1 32 11 != 0 || !tailClear w (3 + pnba w)
  | 3 => pfield w 3 40 24 != 0 || !tailClear w 4
  | 4 => !tailClear w 3
  | 5 => pfield w 3 1 63 != 0 || !tailClear w 4
  | 6 => pfield w 1 5 59 != 0 || !tailClear w 3
  | 7 => pfield w 1 56 2 != 0 || pfield w 1 32 8 != 0 || !tailClear w 3 ||
      (!(phop w == 0 && (phkind w == 1 || phkind w == 2)) && pfield w 1 40 8 != 0) || (phop w == 0 && pfield w 1 0 32 != 0) ||
      (!(phop w == 1 || phop w == 3) && wordAt w 2 != 0)
  | 8 => pfield w 1 16 48 != 0 || !tailClear w 2
  | _ => false

/-- An address is misaligned or not canonical (R322, R323). -/
def packetAddress (w : List Word) : Bool :=
  let bad (i n : Nat) : Bool := !aligned (wordAt w i) n || !canonical (wordAt w i)
  match pkind w with
  | 1 => bad 1 64
  | 2 => bad 2 8
  | 3 => bad 1 1 || bad 2 1
  | 4 | 5 => bad 1 8
  | 6 => bad 2 64
  | 7 => bad 2 64
  | _ => false

/-- A field breaks the limit that the body states for it (R322, R323, R331). -/
def packetLimit (w : List Word) : Bool :=
  match pkind w with
  | 2 => decide (16 < pnba w) || decide (128 < pnad w) || (pnad w == 0 && wordAt w 2 != 0)
  | 3 => pfield w 3 0 40 == 0
  | 6 => decide (pfield w 1 0 5 < 4)
  | 7 => decide (3 < phop w) || phkind w == 3
  | _ => false

/-- The lowest reason for which a packet is bad, but for a CLUPDATE's image (R322). -/
def packetReason (w : List Word) : Option Nat :=
  firstReason [(1, decide (8 < pkind w) || pfield w 0 58 2 == 3 || 8 * slotsNeeded w != w.length),
    (2, decide (pacq w < 2) || decide (prel w < 2)), (3, packetReserved w), (4, packetAddress w), (5, packetLimit w)]

/-! Fetch and start (R320, R321, R324). -/

/-- The partition's rings work: it is live or resizing, and no loss holds it (R335, R413). -/
def Partition.works (p : Partition) : Bool := (p.state == 1 || p.state == 2) && !p.lost

/-- Under a pause a COPY, a WAIT and a BARRIER rest, and a LAUNCH or INVOKE stays in its line; the others complete (R388). -/
def Partition.rests (p : Partition) (k : Packet) : Bool :=
  p.pausing && !(pkind k.words == 0 || pkind k.words == 5 || pkind k.words == 6 || pkind k.words == 7)

/-- The address of slot position `n` (R320). -/
def Ring.slotAddr (r : Ring) (n : Nat) : Word := r.rbase + BitVec.ofNat 64 (64 * (n % r.size))

/-- The words of slot position `n`: host ingress seals them, or the front end consumes them (R321). -/
def State.getSlot (s : State) (part r n : Nat) : Got (List Word) :=
  let x := (s.part part).ring r
  if x.loc then State.getWords part (.ring part r) 8 (x.slotAddr n) [] s
  else
    let s := s.transfer part .host 64
    .ok (s.hostWords (x.slotAddr n) 8) s

/-- `k` slots from position `n` on. -/
def State.getSlots (part r : Nat) : Nat → Nat → List Word → State → Got (List Word)
  | 0, _, l, s => .ok l s
  | k + 1, n, l, s =>
    match s.getSlot part r n with
    | .ok w s => State.getSlots part r k (n + 1) (l ++ w) s
    | .fault p s => .fault p (s.modRing part r (fun x => { x with head := l }))
    | .lost y s => .lost y s

/-- What follows a read for a ring: a fault or a loss goes its way. -/
def Got.orElse {α : Type} (g : Got α) (bad : Park → State → State) (f : α → State → State) : State :=
  match g with
  | .ok x s => f x s
  | .fault k s => bad k s
  | .lost l s => s.lose l

/-- The event that carries a packet's kind. -/
def packetEvent (part r : Nat) (w : List Word) : Option Instr :=
  match pkind w with
  | 0 => some (.nopPacket part r)
  | 1 => some (.launch part ⟨r, none⟩)
  | 2 => some (.invoke part r)
  | 3 => some (.copyPacket part r)
  | 4 => some (.waitPacket part r)
  | 5 => some (.signalPacket part r)
  | 6 => some (.clupdate part r)
  | 7 => match phop w with
    | 0 => some (.pholeClaim part r) | 1 => some (.pholeLoad part r) | 2 => some (.pholeDrop part r)
    | _ => some (.pholeRebase part r)
  | _ => some (.barrierPacket part r)

/-- The ring fetches the packet at RD, when it is enabled and the packet is whole (R320, R321). A bad packet does nothing and
completes (R322); any other starts. -/
def State.ringFetch (s : State) (part r : Nat) : Option State :=
  let x := (s.part part).ring r
  if !(s.part part).works || (s.part part).pausing || !x.enable || x.overrun || x.resetDue || x.run.isSome || x.park.isSome || decide (x.wi ≤ x.rd) then none
  else
    let park (k : Park) (s : State) : State := s.parkRing part r k
    let s0 := s.modRing part r (fun x => { x with head := [] })
    match s0.getSlots part r 1 x.rd [] with
    | .fault k s => some (park k s)
    | .lost y s => some (s.lose y)
    | .ok w0 s =>
      let n := slotsOf (wordAt w0 0)
      if x.wi < x.rd + n then none
      else some ((State.getSlots part r (n - 1) (x.rd + 1) w0 s).orElse park (fun w s =>
        let s := s.modRing part r (fun x =>
          { x with rd := x.rd + n, head := [], run := some { words := w, pos := x.rd, gen := (s.part part).rgen } })
        match packetReason w with
        | some k => s.completePacket part r 0x02 (BitVec.ofNat 64 k)
        | none => match packetEvent part r w with
          | some i => s.post i
          | none => s))

/-- RING_FETCH (R320). -/
def execRingFetch (part ring : Nat) (s : State) : Out :=
  .next (if ringOk part ring then (s.ringFetch part ring).getD s else s)

/-- What an entry of the partition's table does to a start that names it (R324). -/
def Partition.listUse (p : Partition) (l : Nat) : ListUse :=
  let e : ClEntry := Tab.get {} p.cl l
  if l < 4 then .go
  else if p.clsets.any (fun x => x.entry == l && x.accepted && !x.replaced) then .hold
  else if e.stale then .park { cause := 0x20, addr := BitVec.ofNat 64 l, list := some l }
  else if !e.valid then .park { cause := 0x21, addr := BitVec.ofNat 64 l, reason := 7, list := some l }
  else .go

/-- The running packet of a ring, when it can act. -/
def Partition.acting (p : Partition) (r : Nat) : Option Packet :=
  if (p.ring r).park.isNone && p.works then (p.ring r).run.bind (fun k => if k.done || p.rests k then none else some k) else none

/-- The running packet changed. -/
def State.modPacket (s : State) (part r : Nat) (f : Packet → Packet) : State :=
  s.modRing part r (fun x => { x with run := x.run.map f })

/-- Entry `l` of the circulation table (R199). -/
def Partition.listEntry (p : Partition) (l : Nat) : ClEntry := if l < 4 then fixedEntry p 0 l else Tab.get {} p.cl l

/-- The start of a packet, an acquire on ACQ, and with SYS after what the host has written (R324). A BARRIER notes the RD of every
ring; a LAUNCH or INVOKE takes its place in the line for the launch slot (R325). A stale or invalid entry parks the ring. -/
def State.startPacket (s : State) (part r : Nat) (k : Packet) : Option State :=
  let p := s.part part
  match p.listUse (pacq k.words), p.listUse (prel k.words) with
  | .go, .go =>
    let marks := (List.range 16).map (fun q => (p.ring q).rd)
    let s := s.modPacket part r (fun k => { k with started := true, marks })
    let s := if (p.listEntry (pacq k.words)).sys then s.raisePts (.ring part r) p.hostTime else s
    some (if pkind k.words = 1 ∨ pkind k.words = 2 then s.modPart part (fun p => { p with wants := p.wants ++ [r] }) else s)
  | .park x, _ => some (s.parkRing part r x)
  | .hold, _ => none
  | .go, .park x => some (s.parkRing part r x)
  | .go, .hold => none

/-- A fault of a packet's own read or write completes it (R323). -/
def State.packetFault (part r : Nat) (k : Park) (s : State) : State := s.completePacket part r 0x05 k.addr

/-! COPY, WAIT, SIGNAL, CLUPDATE, BARRIER (R323). -/

/-- How many bytes a COPY moves in one action: those that lie in one word at both ends (R227, log 73). -/
def copyChunk (a b : Word) (left : Nat) : Nat := min left (min (8 - a.toNat % 8) (8 - b.toNat % 8))

/-- A COPY moves its next bytes, with seals as a copy engine moves them (R227, R323). -/
def State.copyPacketStep (s : State) (part r : Nat) (k : Packet) : State :=
  let who : Party := .ring part r
  let a := wordAt k.words 1 + BitVec.ofNat 64 k.moved
  let b := wordAt k.words 2 + BitVec.ofNat 64 k.moved
  let left := pfield k.words 3 0 40 - k.moved
  let n := copyChunk a b left
  match s.translate part who a .read with
  | .fault x s => State.packetFault part r x s
  | .lost l s => s.lose l
  | .ok pa s =>
    match s.translate part who b .write with
    | .fault x s => State.packetFault part r x s
    | .lost l s => s.lose l
    | .ok pb s =>
      let (w, s) := (s.meter who pa n).readWord who pa false
      let (y, s) := s.egressWord who pa pb w
      let x := carry y.1 y.2 n a.toNat b.toNat
      match s.mergeHolder who pb x.n x.m x.p (x.sentTo pb).poison false with
      | .lost y s => s.lose (Loss.found y.1 y.2 .merge who b pb)
      | .done s =>
        let s := s.modPacket part r (fun k => { k with moved := k.moved + n })
        (if left = n then s.completePacket part r 0 0 else s).loseIf (egressLoss who a pa pb w y x)

/-- A WAIT reads its doubleword once, as an acquire; it completes when the value has reached the threshold (R323). -/
def State.waitStep (s : State) (part r : Nat) (k : Packet) : Option State :=
  let who : Party := .ring part r
  match s.translate part who (wordAt k.words 1) .read with
  | .fault x s => some (State.packetFault part r x s)
  | .lost l s => some (s.lose l)
  | .ok p s =>
    match s.consume who p true with
    | .lost y1 y2 s => some (s.lose (Loss.found y1 y2 .control who (wordAt k.words 1) p))
    | .good w s => if w.ult (wordAt k.words 2) then none else some (s.completePacket part r 0 0)

/-- A SIGNAL writes, or adds, with release (R323). -/
def State.signalStep (s : State) (part r : Nat) (k : Packet) : State :=
  let who : Party := .ring part r
  let add := bit (wordAt k.words 3) 0
  let va := wordAt k.words 1
  match s.translate part who va (if add then .both else .write) with
  | .fault x s => State.packetFault part r x s
  | .lost l s => s.lose l
  | .ok p s =>
    let s := if add then s.meter who p 8 else s
    let x := s.holderWord p
    let (w, sl) := s.checked p x
    if add && !sealOk w sl then s.lose (Loss.found (syn x.1 x.2) (syn w sl) .atomic who va p)
    else
      let s := s.countSeal (if add && !sealOk x.1 x.2 then 1 else 0)
      match s.writeHolder who p (if add then w + wordAt k.words 2 else wordAt k.words 2) 0xFF true with
      | .lost y s => s.lose (Loss.found y.1 y.2 .merge who va p)
      | .done s => s.completePacket part r 0 0

/-- A CLUPDATE reads and checks its image and asks for the CLSET; it completes with it (R200, R201, R323). -/
def State.clupdateStep (s : State) (part r : Nat) (k : Packet) : Option State :=
  if k.moved = 0 then
    some ((State.getWords part (.ring part r) 8 (wordAt k.words 2) [] s).orElse (State.packetFault part r) (fun w s =>
      match imageReason w (s.part part).ncl with
      | some n => s.completePacket part r 0x02 (BitVec.ofNat 64 (256 * n + 6))
      | none =>
        let n := (s.part part).clsetNum
        let x : ClSet := { entry := pfield k.words 1 0 5, image := ClEntry.ofImage w, origin := .ring r, accepted := false, num := n }
        (s.modPart part (fun p => { p with clsets := p.clsets ++ [x], clsetNum := n + 1 })).modPacket part r (fun k => { k with moved := 1 })))
  else if (s.part part).clsets.any (fun x => x.origin == .ring r) then none
  else some (s.completePacket part r 0 0)

/-- Every packet of ring `q` below the mark has completed (R323). -/
def Partition.ringPast (p : Partition) (q mark : Nat) : Bool :=
  match (p.ring q).run with
  | some k => decide (mark ≤ k.pos)
  | none => true

/-- A BARRIER completes when the packets that it waits for have; what follows is ordered after them (R323, R324). -/
def State.barrierStep (s : State) (part r : Nat) (k : Packet) : Option State :=
  let p := s.part part
  let named := (List.range 16).filter (fun q => bit (wordAt k.words 1) q && q != r)
  if named.all (fun q => p.ringPast q (k.marks.getD q 0)) then
    let t := named.foldl (fun t q => max t (p.ring q).pts) 0
    some ((s.modRing part r (fun x => { x with pts := max x.pts t })).completePacket part r 0 0)
  else none

/-! Pigeonholes (R331 to R334). -/

/-- Hole `n`. -/
def State.hole (s : State) (n : Nat) : Hole := Tab.get {} s.holes n
/-- Hole `n` replaced. -/
def State.setHole (s : State) (n : Nat) (h : Hole) : State := { s with holes := Tab.set s.holes n h }
/-- The next generation, skipping 0 (R332). -/
def nextGen (g : BitVec 32) : BitVec 32 := if g + 1 = 0 then 1 else g + 1

/-- The hole that a packet names. -/
def holeOf (w : List Word) : Nat := pfield w 1 48 8

/-- Pigeonhole held (R329). -/
def heldDetail (n owner : Nat) : Word := BitVec.ofNat 8 n ++ 0#51 ++ BitVec.ofNat 5 owner

/-- A requirement of LOAD, DROP or REBASE that fails: STATUS and DETAIL (R329, R332). `st` is whether the state is the one
that the operation needs. -/
def Hole.refuses (h : Hole) (n part : Nat) (st : Bool) (gen : BitVec 32) : Option (BitVec 8 × Word) :=
  if h.state ≠ 0 ∧ h.owner ≠ part then some (0x0A, heldDetail n h.owner)
  else if h.state = 0 ∨ !st then some (0x0B, BitVec.ofNat 64 n)
  else if h.gen ≠ gen then some (0x0C, h.gen.setWidth 64)
  else none

/-- A launch that runs from the hole holds the launch slot (R332). -/
def State.holeBusy (s : State) (part n : Nat) : Bool :=
  match (s.part part).launch with
  | some l => l.hole == some n
  | none => false

/-- CLAIM (R332). -/
def State.claimStep (s : State) (part r : Nat) (k : Packet) : State :=
  let n := holeOf k.words
  let base := pfield k.words 1 40 8
  let kind := bits (wordAt k.words 1) 58 2
  let h := s.hole n
  if h.state ≠ 0 then s.completePacket part r 0x0A (heldDetail n h.owner)
  else if kind ≠ 0 ∧ ((s.hole base).state ≠ 2 ∨ (s.hole base).owner ≠ part) then s.completePacket part r 0x0B (BitVec.ofNat 64 base)
  else ((s.setHole n { h with state := 1, owner := part, kind, base, bgen := 0, copy := none }).capChanged).completePacket part r 0 0

/-- The dispatcher comes after what ring `r` has come to (R266, R324). -/
def State.dispatcherAfter (s : State) (part r : Nat) : State :=
  s.modPart part (fun p => { p with dispPts := max p.dispPts (p.ring r).pts })

/-- Acceptance for a packet of ring `r`: the dispatcher reads, after the packet's start (R266, R283, R324). -/
def State.acceptFor (s : State) (part r : Nat) (va : Word) : Got Accepted :=
  (s.dispatcherAfter part r).accept part (.dispatcher part) va

/-- LOAD (R332). -/
def State.loadStep (s : State) (part r : Nat) (k : Packet) : State :=
  let n := holeOf k.words
  let h := s.hole n
  match h.refuses n part (h.state == 1) (bits (wordAt k.words 1) 0 32) with
  | some (st, d) => s.completePacket part r st d
  | none =>
    (s.acceptFor part r (wordAt k.words 2)).orElse (State.packetFault part r) (fun g s =>
      match g with
      | .error (st, d) => s.completePacket part r st d
      | .ok g =>
        let bgen := if h.kind = 0 then 0 else (s.hole h.base).gen
        (s.setHole n { h with state := 2, copy := some g, bgen, gen := nextGen h.gen }).completePacket part r 0 0)

/-- DROP waits until no launch from the hole holds the slot (R332). -/
def State.dropStep (s : State) (part r : Nat) (k : Packet) : Option State :=
  let n := holeOf k.words
  let h := s.hole n
  match h.refuses n part true (bits (wordAt k.words 1) 0 32) with
  | some (st, d) => some (s.completePacket part r st d)
  | none =>
    if s.holeBusy part n then none
    else some (((s.setHole n { gen := nextGen h.gen }).capChanged).completePacket part r 0 0)

/-- REBASE waits as DROP does; a failure keeps the copy and GEN (R332). -/
def State.rebaseStep (s : State) (part r : Nat) (k : Packet) : Option State :=
  let n := holeOf k.words
  let h := s.hole n
  match h.refuses n part (h.state == 2 && h.kind == 0) (bits (wordAt k.words 1) 0 32) with
  | some (st, d) => some (s.completePacket part r st d)
  | none =>
    if s.holeBusy part n ||
        (match (s.part part).launch with
          | some l => (match l.hole with | some m => (s.hole m).kind != 0 && (s.hole m).base == n | none => false)
          | none => false) then none
    else some ((s.acceptFor part r (wordAt k.words 2)).orElse (State.packetFault part r) (fun g s =>
      match g with
      | .error (st, d) => s.completePacket part r st d
      | .ok g => (s.setHole n { h with copy := some g, gen := nextGen h.gen }).completePacket part r 0 0))

/-! The launch slot (R325). -/

/-- A hole passes steps 1 and 2 of R333 for a partition that expects `gen` of it, or 0. -/
def State.holeReady (s : State) (part n : Nat) (gen : BitVec 32) : Option (BitVec 8 × Word) :=
  let h := s.hole n
  if h.state ≠ 2 ∨ h.owner ≠ part then some (0x0B, BitVec.ofNat 64 n)
  else if gen ≠ 0 ∧ gen ≠ h.gen then some (0x0C, h.gen.setWidth 64)
  else if h.kind ≠ 0 ∧ ((s.hole h.base).state ≠ 2 ∨ (s.hole h.base).gen ≠ h.bgen) then some (0x09, BitVec.ofNat 64 n)
  else none

/-- The base that a hole rests on: itself, or the one it is derived from. -/
def State.baseOf (s : State) (n : Nat) : Nat := if (s.hole n).kind = 0 then n else (s.hole n).base

/-- The first adaptation-list entry that fails step 3 of R333. An entry shares the base of the invoked hole `n`, or is
derived from it. That DETAIL holds the whole doubleword of the entry, and that an entry of another base is stale (0x09), is the
model's choice (log 77). -/
def State.badEntry (s : State) (part n : Nat) : List Word → Option (BitVec 8 × Word)
  | [] => none
  | e :: r =>
    let m := (bits e 32 8).toNat
    match s.holeReady part m (bits e 0 32) with
    | some (st, _) => some (st, e)
    | none => if s.baseOf m = s.baseOf n ∨ ((s.hole m).kind ≠ 0 ∧ (s.hole m).base = n) then State.badEntry s part n r
              else some (0x09, e)

/-- The launch that a packet starts. -/
def launchOf (r : Nat) (k : Packet) : Launch := { ring := r, words := k.words, pos := k.pos, gen := k.gen }

/-- A LAUNCH with a peer group waits for its peers once its own device has come through R283, as the originator or as another
member; a member that has failed holds an empty launch until the abort arrives (R301). -/
def State.awaitPeers (s : State) (part r : Nat) (k : Packet) (g : Option Graph) : State :=
  let key := clapperKey k.words
  let start (x : Clapper) (s : State) : State :=
    (s.beginLaunch part [] (key.setWidth 64) 0).startGraph part { launchOf r k with clapper := some x }
      (g.getD { nodes := [], nspawn := 0 }) (s.part part).dispPts
  match k.origin with
  | some o => (start { missing := [], limit := 0, origin := some o.1 } s).tell part [o.1] (.report g.isSome)
  | none =>
    let missing := s.groupOf k.words
    if g.isNone then (s.tell part missing (.abort s.device)).completePacket part r 0x08 (BitVec.ofNat 64 s.device)
    else
      let (time, s) := s.now
      let ts := time + 20000
      start { missing, limit := time + 1000000000, start := if missing.isEmpty then some ts else none } s

/-- A LAUNCH is accepted (R283), or completes without one. With a peer group, the originator replicates it and it waits for its
peers (R301, R382). -/
def State.acceptLaunch (s : State) (part r : Nat) (k : Packet) : State :=
  if pfield k.words 2 52 12 = 0 then
    (s.acceptFor part r (wordAt k.words 1)).orElse (State.packetFault part r) (fun g s =>
      match g with
      | .error (st, d) => s.completePacket part r st d
      | .ok g => (s.beginLaunch part [] 0 0).startGraph part (launchOf r k) g (s.part part).dispPts)
  else if clapperKey k.words = 0 ∨ !s.trained then s.completePacket part r 0x03 0xFFFF
  else
    let s := if k.origin.isSome then s else s.tell part (s.groupOf k.words) (.replica k.words r k.pos)
    (s.acceptFor part r (wordAt k.words 1)).orElse (fun _ s => s.awaitPeers part r k none) (fun g s =>
      s.awaitPeers part r k (match g with | .ok g => some g | .error _ => none))

/-- The next replica takes its place, and waits for the launch slot (R301, R325). -/
def State.replicaStep (s : State) (part : Nat) : Option State :=
  let p := s.part part
  match p.replicas with
  | [] => none
  | k :: rest =>
    if (p.ring replicaRing).run.isSome || !p.works then none
    else some (s.modPart part (fun p =>
      { p.modRing replicaRing (fun x => { x with run := some k }) with replicas := rest, wants := p.wants ++ [replicaRing] }))

/-- A replica arrives for a partition. Where there is none, the device reports failed (R301; log 33). -/
def State.takeReplica (s : State) (part ring : Nat) (x : Replica) : State :=
  if !(s.part part).works then s.tell part [x.origin] (.report false)
  else
    let k : Packet := { words := x.words, pos := x.pos, gen := (s.part part).rgen, started := true, origin := some (x.origin, ring) }
    let s := s.modPart part (fun p => { p with replicas := p.replicas ++ [k] })
    (s.replicaStep part).getD s

/-- The words ba0 to ba15 of an INVOKE (R333). -/
def baWords (w : List Word) : List Word := (w.drop 3).take (pnba w)

/-- An INVOKE checks its hole and its adaptations and starts the hole's copy (R333). The reels that the copy names are
checked again (R100). -/
def State.acceptInvoke (s : State) (part r : Nat) (k : Packet) : State :=
  let n := pfield k.words 1 56 8
  match s.holeReady part n (bits (wordAt k.words 1) 0 32) with
  | some (st, d) => s.completePacket part r st d
  | none =>
    let who : Party := .ring part r
    (State.getWords part who (pnad k.words) (wordAt k.words 2) [] s).orElse (State.packetFault part r) (fun l s =>
      match s.badEntry part n l, (s.hole n).copy with
      | some (st, d), _ => s.completePacket part r st d
      | none, none => s.completePacket part r 0x0B (BitVec.ofNat 64 n)
      | none, some g =>
        (State.checkReels part (.dispatcher part) (reelsOf g.nodes) (s.dispatcherAfter part r)).orElse (State.packetFault part r) (fun b s =>
          match b with
          | some x => s.completePacket part r 0x04 x
          | none =>
            let s := s.beginLaunch part (baWords k.words) 0 ((s.hole n).gen ++ 0#23 ++ 1#1 ++ BitVec.ofNat 8 n)
            s.startGraph part { launchOf r k with hole := some n } g (s.part part).dispPts))

/-- A removal of clusters that waits takes the launch slot before any packet (R339). -/
def Partition.slotReserved (p : Partition) : Bool := match p.job with | some (.remove _ waits _) => waits | _ => false

/-- LAUNCH_SLOT_GRANT: the first packet in the line takes the free slot and is accepted (R325). Of a packet that completes
without a launch, the slot stays held until its record is written. -/
def State.slotGrant (s : State) (part : Nat) : Option State :=
  let p := s.part part
  match p.wants with
  | [] => none
  | r :: rest =>
    if p.launch.isSome || p.slotReserved || !p.works || p.pausing then none
    else match p.acting r with
      | none => none
      | some k =>
        let s := s.modPart part (fun p => { p with wants := rest })
        let s := if pkind k.words = 1 then s.acceptLaunch part r k else s.acceptInvoke part r k
        some (if (s.part part).launch.isSome then s
              else s.modPart part (fun p => { p with launch := some { launchOf r k with closed := true } }))

/-- LAUNCH_SLOT_GRANT (R325). -/
def execLaunchSlotGrant (part : Nat) (s : State) : Out := .next ((s.slotGrant part).getD s)

/-! What a packet does next. -/

/-- The next action of the running packet of a ring. -/
def State.packetStep (s : State) (part r : Nat) : Option State :=
  match (s.part part).acting r with
  | none => none
  | some k =>
    if !k.started then s.startPacket part r k
    else match pkind k.words with
      | 0 => some (s.completePacket part r 0 0)
      | 3 => some (s.copyPacketStep part r k)
      | 4 => s.waitStep part r k
      | 5 => some (s.signalStep part r k)
      | 6 => s.clupdateStep part r k
      | 7 => match phop k.words with
        | 0 => some (s.claimStep part r k)
        | 1 => some (s.loadStep part r k)
        | 2 => s.dropStep part r k
        | _ => s.rebaseStep part r k
      | 8 => s.barrierStep part r k
      | _ => none

/-- The event of a packet of kind `kind`, and of operation `op` for a PHOLE: it starts, and then acts. -/
def State.packetOf (s : State) (part r kind : Nat) (op : Option Nat) : State :=
  match (s.part part).acting r with
  | some k =>
    if ringOk part r && pkind k.words == kind && (match op with | some o => phop k.words == o | none => true) then
      if k.started then (s.packetStep part r).getD s
      else match s.startPacket part r k with
        | some t => (t.packetStep part r).getD t
        | none => s
    else s
  | none => s

/-- NOP (R323). -/
def execNopPacket (part ring : Nat) (s : State) : Out := .next (s.packetOf part ring 0 none)
/-- LAUNCH (R323): of a ring of the device, or a replica (R301). -/
def execLaunch (part : Nat) (ring : LaunchSource) (s : State) : Out :=
  .next (match ring.replica with
    | some x => s.takeReplica part ring.ring x
    | none => s.packetOf part ring.ring 1 none)
/-- INVOKE (R333). -/
def execInvoke (part ring : Nat) (s : State) : Out := .next (s.packetOf part ring 2 none)
/-- COPY (R323). -/
def execCopyPacket (part ring : Nat) (s : State) : Out := .next (s.packetOf part ring 3 none)
/-- WAIT (R323). -/
def execWaitPacket (part ring : Nat) (s : State) : Out := .next (s.packetOf part ring 4 none)
/-- SIGNAL (R323). -/
def execSignalPacket (part ring : Nat) (s : State) : Out := .next (s.packetOf part ring 5 none)
/-- CLUPDATE (R323). -/
def execClupdate (part ring : Nat) (s : State) : Out := .next (s.packetOf part ring 6 none)
/-- CLAIM (R332). -/
def execPholeClaim (part ring : Nat) (s : State) : Out := .next (s.packetOf part ring 7 (some 0))
/-- LOAD (R332). -/
def execPholeLoad (part ring : Nat) (s : State) : Out := .next (s.packetOf part ring 7 (some 1))
/-- DROP (R332). -/
def execPholeDrop (part ring : Nat) (s : State) : Out := .next (s.packetOf part ring 7 (some 2))
/-- REBASE (R332). -/
def execPholeRebase (part ring : Nat) (s : State) : Out := .next (s.packetOf part ring 7 (some 3))
/-- BARRIER (R323). -/
def execBarrierPacket (part ring : Nat) (s : State) : Out := .next (s.packetOf part ring 8 none)

/-! END (R326). -/

/-- A report of a party of the launch's tasks or of the dispatcher. -/
def Parked.ofLaunch : Parked → Bool
  | .slot .. | .queue .. | .limit _ | .dispatcher _ => true
  | .ring _ | .completion => false

/-- Every resident task of the partition is discarded, and nothing of it is saved (R326, R413). -/
def State.discardTasks (s : State) (part : Nat) : State :=
  let s := (s.part part).cores.foldl (fun s c => if (s.core c).bind.isSome then s.vacateCore c else s) s
  s.modPart part (fun p => { p with
    handles := p.handles.filter (fun h => !h.2.ofLaunch)
    clsets := p.clsets.filter (fun x => x.accepted || match x.origin with | .slotB _ => false | .ring _ => true)
    reserve := none })

/-- Peers that wait for the launch see that it has failed (R301, R326). -/
def State.tellEnded (s : State) (part : Nat) (l : Launch) : State :=
  match l.clapper with
  | some x => s.tell part (match x.origin with | some d => [d] | none => s.groupOf l.words)
      (match x.origin with | some _ => .report false | none => .abort s.device)
  | none => s

/-- The launch that holds the slot ends at once: its tasks are discarded, and it completes with `ended` or the status of an
earlier ending (R287, R326). -/
def State.endNow (s : State) (part : Nat) (l : Launch) : State :=
  let s := s.tellEnded part l
  let s := (s.discardTasks part).modPart part (fun p => { p with launch := some { l with
    ending := l.ending.or (some (0x0D, 0)), clapper := none
    nodes := l.nodes.map (fun x => (x.1, { x.2 with st := if x.2.st = .dispatched then .complete else x.2.st, requeued := false,
                                                    seats := [] })) } })
  s.settleLaunch part

/-- END of a ring's running packet (R326). -/
def State.endPacket (s : State) (part r : Nat) : State :=
  match ((s.part part).ring r).run with
  | none => s
  | some k =>
    if k.done then s
    else
      let unpark (s : State) : State := match ((s.part part).ring r).park with
        | some x => (s.freeHandle part x.handle).modRing part r (fun x => { x with park := none })
        | none => s
      let kind := pkind k.words
      if kind = 1 ∨ kind = 2 then
        match (s.part part).launch with
        | some l =>
          if l.ring = r ∧ !l.closed then s.endNow part l
          else ((unpark s).modPart part (fun p => { p with wants := p.wants.filter (· != r) })).completePacket part r 0x0D 0
        | none => ((unpark s).modPart part (fun p => { p with wants := p.wants.filter (· != r) })).completePacket part r 0x0D 0
      else if kind = 3 ∨ kind = 4 ∨ kind = 8 then (unpark s).completePacket part r 0x0D 0
      else s

/-- END of ring `r`: of its running packet, or, when it has none, of the replica that goes by its number (R326; log 33). -/
def State.endRing (s : State) (part r : Nat) : State :=
  let p := s.part part
  if (p.ring r).run.isNone && (p.ring replicaRing).run.isSome && p.ringNumber replicaRing == BitVec.ofNat 4 r then
    s.endPacket part replicaRing
  else s.endPacket part r

/-- END (R326). -/
def execEndPacket (part ring : Nat) (s : State) : Out :=
  .next (s.onHost (fun s => if ringOk part ring then s.endRing part ring else s))

/-- A write of RCFG with everything in it (R319). -/
def State.writeRcfg (s : State) (part r : Nat) (x : Word) : State :=
  match ((s.part part).ring r).configure x with
  | none => s
  | some y =>
    let s := s.modRing part r (fun _ => y)
    let s := if bit x 1 then s.endRing part r else s
    if bit x 2 then s.resetRing part r else s

/-! The completion ring (R327). -/

/-- A record ring has room. -/
def RecordRing.room (x : RecordRing) : Bool := x.enable && decide (x.wi - x.ri < 2 ^ x.log2sz.toNat)

/-- Where record `n` lies. -/
def RecordRing.addr (x : RecordRing) (n : Nat) : Word := x.base + BitVec.ofNat 64 (32 * (n % 2 ^ x.log2sz.toNat))

/-- A write of CCFG: the fields of R319; `none` when it is refused. -/
def RecordRing.configure (x : RecordRing) (w : Word) : Option RecordRing :=
  let y : RecordRing := if x.enable then x else { x with loc := bit w 3, log2sz := bits w 4 5 }
  if bit w 0 && !sizeOk y.log2sz then none else some { y with enable := bit w 0 }

/-- CCFG as it reads. -/
def RecordRing.ccfg (x : RecordRing) : Word := 0#55 ++ x.log2sz ++ ofBool1 x.loc ++ 0#2 ++ ofBool1 x.enable

/-- The oldest record is done with: the packet that waited for it has completed, and a launch leaves the slot (R325,
R327). -/
def State.finishDue (s : State) (part : Nat) (d : Due) : State :=
  let s := s.modPart part (fun p => { p with due := p.due.drop 1 })
  match d.ring with
  | none => s
  | some r =>
    let s := s.modPart part (fun p =>
      { p.modRing r (fun x => { x with run := none }) with
        launch := match p.launch with
          | some l => if l.ring = r ∧ l.closed then none else some l
          | none => none })
    s.settleRing part r

/-- COMPLETION_RECORD: the oldest record is written once the ring has room, and its event is raised; a record of work that a
reset has cut off is dropped (R327, R358, R360). -/
def State.writeRecord (s : State) (part : Nat) : Option State :=
  let p := s.part part
  match p.due with
  | [] => none
  | d :: _ =>
    let written (s : State) : State :=
      let s := s.modPart part (fun p => { p with compl := { p.compl with wi := p.compl.wi + 1 } })
      let s := match d.pend with | some n => s.raiseEvent part n | none => s
      s.finishDue part d
    if p.lost then none
    else if d.gen ≠ p.rgen then some (s.finishDue part d)
    else if p.complPark.isSome || !p.compl.room || p.state = 4 then none
    else
      let a := p.compl.addr p.compl.wi
      if !p.compl.loc then some (written ((s.transfer part .host 32).putHost a d.words))
      else match s.translate part (.completion part) a .write with
        | .fault k s => some (s.parkCompletion part k)
        | .lost l s => some (s.lose l)
        | .ok pl s =>
          some (written ((d.words.zipIdx).foldl (fun s x =>
            match s.writeHolder (.completion part) (pl.plus (8 * x.2)) x.1 0xFF true with
            | .done s => s
            | .lost _ s => s) s))

/-- COMPLETION_RECORD (R327). -/
def execCompletionRecord (part : Nat) (s : State) : Out := .next ((s.writeRecord part).getD s)

/-- CRI: a write above CWI is ignored (R327). -/
def execCri (part : Nat) (x : Word) (s : State) : Out :=
  .next (s.onHost (fun s => if part < 32 ∧ x.toNat ≤ (s.part part).compl.wi then
    s.modPart part (fun p => { p with compl := { p.compl with ri := x.toNat } }) else s))

/-! Resuming parties (R328, R357). -/

/-- A resume of handle `h` of a partition: its party issues again, and a node's hold ends; a free handle is ignored (R328). -/
def State.resumeHandle (s : State) (part h : Nat) : State :=
  match (s.part part).handles.find? (fun x => x.1 == h) with
  | some (_, who) => s.unpark part h who
  | none => s

/-- What a party is parked with. -/
def State.parkOf (s : State) (part : Nat) (who : Parked) : Option Park :=
  match who with
  | .slot c k => ((s.core c).slot k).park
  | .queue c q => ((s.core c).queue q).park
  | .ring r => ((s.part part).ring r).park
  | .dispatcher n => (s.part part).launch.bind (fun l => (Tab.find? l.nodes n).bind (·.park))
  | .completion => (s.part part).complPark
  | .limit _ => none

/-- The report of handle `h` stands in the physical function's fault ring: HRESUME serves it, and it is none of the function's
own handles (R328, R357). -/
def State.hypervisorHandle (s : State) (part h : Nat) : Bool :=
  match (s.part part).handles.find? (fun x => x.1 == h) with
  | some (_, who) =>
    who == .completion || (match s.parkOf part who with | some k => hypervisorCause k.cause | none => false)
  | none => false

/-- A write of PRESUME: a handle that the function's own reports do not carry is ignored (R328). -/
def State.presume (s : State) (part : Nat) (x : Word) : State :=
  let h := (bits x 0 13).toNat
  if s.hypervisorHandle part h then s else s.resumeHandle part h

/-- PRESUME (R328). -/
def execPresume (part : Nat) (x : Word) (s : State) : Out :=
  .next (s.onHost (fun s => if part < 32 then s.presume part x else s))

/-- A write of HRESUME with bit 63 clear: the handle in [12:0], the partition in [36:32] (R357). -/
def State.hresume (s : State) (x : Word) : State :=
  let h := (bits x 0 13).toNat
  let part := (bits x 32 5).toNat
  if s.hypervisorHandle part h then s.resumeHandle part h else s

/-- HRESUME (R357). -/
def execHresume (x : Word) (s : State) : Out := .next (s.onHost (fun s => s.hresume x))

/-- HRESUME with bit 63: the packet that holds the party completes with a translation fault at its address; a completion
ring's record is discarded (R327, R357). A ring that is parked on its fetch holds no packet. -/
def State.hresumeDiscard (s : State) (part h : Nat) : State :=
  if s.hypervisorHandle part h = false then s
  else match (s.part part).handles.find? (fun x => x.1 == h) with
    | none => s
    | some (_, .completion) =>
      let s := (s.freeHandle part h).modPart part (fun p => { p with complPark := none })
      match (s.part part).due with
      | d :: _ => s.finishDue part d
      | [] => s
    | some (_, .ring r) =>
      let va := match s.parkOf part (.ring r) with | some k => k.addr | none => 0
      if ((s.part part).ring r).run.isSome then (s.unpark part h (.ring r)).completePacket part r 0x05 va else s
    | some (_, who) =>
      let va := match s.parkOf part who with | some k => k.addr | none => 0
      match (s.part part).launch with
      | some l => s.endNow part { l with ending := l.ending.or (some (0x05, va)) }
      | none => s

/-- HRESUME with bit 63 (R357). -/
def execHresumeDiscard (x : Word) (s : State) : Out :=
  .next (s.onHost (fun s => s.hresumeDiscard (bits x 32 5).toNat (bits x 0 13).toNat))

end Sys2Proof.Machine
end

