-- ==== Sys2Proof/Machine/Preempt.lean ====
section
/-! DEFINITION. Stops (R361 to R371), the layout of a save slot (R372 to R377), and resume (R378 to R380). -/

namespace Sys2Proof.Machine

/-! Requests (R363). -/

/-- The member can be stopped: it has a task, and it neither is finished nor waits for the end of its launch (R31, R363). -/
def Core.stoppable (c : Core) : Bool := c.bind.isSome && !c.finished && !c.frozen && !c.loading

/-- STOP_REQUEST: the notice of R122 goes out, and the stop turns hard `deadline` µs on; 0 stops hard at once (R362). A
second request keeps the earlier deadline (R361). -/
def State.stopRequest (s : State) (c deadline : Nat) : State :=
  let (time, s) := s.now
  let d := time.toNat + 1000 * deadline
  let k := s.core c
  if !k.stoppable then s
  else match k.stop with
    | .none =>
      if deadline = 0 then s.setCore c { k with stop := .slots true none d }
      else
        let s := s.setCore c { k with stop := .soft d, notice := k.notice || k.regs.tvec != 0 }
        if (s.core c).trapDue then s.post (.trapEntry c) else s
    | .soft e => s.setCore c { k with stop := if deadline = 0 then .slots true none d else .soft (min d e) }
    | .slots hard live e => s.setCore c { k with stop := .slots hard live (min d e) }

/-- STOP_REQUEST (R363). -/
def execStopRequest (core deadline : Nat) (s : State) : Out := .next (s.stopRequest core deadline)

/-- A stop is requested for every resident task on the cores `l` (R361). -/
def State.stopAll (s : State) (l : List Nat) (deadline : Nat) : State := l.foldl (fun s c => s.stopRequest c deadline) s

/-! The soft stop (R100, R363). -/

/-- The live mask that the safe-point entry of bundle `x` names, when the reel at `base` has one (R97, R98). -/
def State.safePoint (s : State) (part : Nat) (base x : Word) : Got (Option Nat) :=
  let who : Party := .dispatcher part
  (State.getWords part who 8 base [] s).andThen (fun h s =>
    (State.getWords part who (bits (wordAt h 2) 32 32).toNat (base + wordAt h 3) [] s).andThen (fun l s =>
      let ix := (x - base - wordAt h 1).toNat
      .ok ((l.find? (fun e => decide (ix % 32 = 0) && decide (safeBundle e = ix / 32))).map safeLive) s))

/-- The bundle that every slot that has not halted is about to issue as one joined group, outside every delay slot, with no
trap pending and no handler running (R100, R363). -/
def Core.safeAddr (c : Core) : Option Word :=
  match allSlots.filter (fun k => !(c.slot k).halted) with
  | [] => none
  | k :: r =>
    let t := c.slot k
    if !c.busy && !c.trapDue && !c.notice && t.linear && (k :: r).all (fun j =>
        let u := c.slot j
        u.group == t.group && u.sameChain t && !u.unsettled && u.park.isNone && u.pend.isNone && u.redirect.isNone)
    then some t.c0 else none

/-- SOFT_STOP: the slots stop before a safe-point bundle issues (R363). A fault of the reel's tables admits no bundle. -/
def State.softStop (s : State) (c : Nat) : Option State :=
  let k := s.core c
  match k.stop, k.safeAddr, k.bind with
  | .soft d, some x, some b =>
    match (s.part b.part).launch.bind (fun l => Tab.find? l.nodes b.node) with
    | none => none
    | some n =>
      match s.safePoint b.part n.reel x with
      | .ok (some live) s => some (s.modCore c (fun k => { k with stop := .slots false (some live) d }))
      | .ok none _ | .fault _ _ => none
      | .lost l s => some (s.lose l)
  | _, _, _ => none

/-- SOFT_STOP (R363). -/
def execSoftStop (core : Nat) (s : State) : Out := .next ((s.softStop core).getD s)

/-- A node whose members have all left their cores, or need none, goes back to the ready pool, and its other cores are free
(R297, R363). -/
def State.requeue (s : State) (part n : Nat) : State :=
  match (s.part part).launch with
  | none => s
  | some l =>
    match Tab.find? l.nodes n with
    | none => s
    | some x =>
      let gone (y : Seat) : Bool := y.away || y.done || match (s.part part).seatCore y with
        | some c => (s.core c).finished || (s.core c).frozen
        | none => false
      if x.st ≠ .dispatched ∨ !x.seats.all gone ∨ !x.seats.any (·.away) then s
      else
        let last (z : Seat) : Nat := match (s.part part).seatCore z with | some c => max z.pts (s.core c).lastPts | none => z.pts
        let seats := x.seats.map (fun z => { z with done := !z.away || z.done, pts := last z, away := true })
        let s := (x.seats.filterMap (s.part part).seatCore).foldl (fun s c => s.vacateCore c) s
        s.modNode part n (fun y => { y with st := .ready, requeued := true, seats })

/-- A member that has finished before its deadline is not stopped; its node may go back to the pool without it (R363). -/
def State.spare (s : State) (c : Nat) : State :=
  let s := s.modCore c (fun k => { k with stop := .none })
  match (s.core c).bind with
  | some b => s.requeue b.part b.node
  | none => s

/-- HARD_STOP: at the deadline everything that has not stopped stops at once, but for a member that has finished (R363). -/
def State.hardStop (s : State) (c : Nat) : Option State :=
  let go (d : Nat) : State :=
    { s with timebase := if s.timebase.toNat < d then BitVec.ofNat 64 d else s.timebase }.modCore c
      (fun k => { k with stop := .slots true none d })
  match (s.core c).stop with
  | .soft d | .slots false _ d => some (if (s.core c).finished then s.spare c else go d)
  | .none | .slots true _ _ => none

/-- HARD_STOP (R363). -/
def execHardStop (core : Nat) (s : State) : Out := .next ((s.hardStop core).getD s)

/-! Rest (R364, R365). -/

/-- Slot B waits for an answer that the stop waits for (R364). -/
def SlotState.owed (t : SlotState) : Bool :=
  match t.await with
  | none | some (.clset ..) => false
  | some (.signal ..) | some (.barset ..) | some (.bararr _) | some (.bararw _) | some (.tspawn _) => true

/-- A queue is at rest: no signal is on its way (R365). -/
def QState.rests (x : QState) : Bool := x.park.isSome || x.phase != .signal

/-- The member's matrix array is at a K-step boundary, or is to freeze (R363, R366). -/
def Core.arrayRests (c : Core) : Bool := (!c.inFlight && c.west.isEmpty) || (match c.stop with | .slots hard .. => hard | .none | .soft _ => false)

/-- Everything of the member has come to rest (R363 to R365). A chain stops at a boundary, or freezes, in every member. -/
def State.atRest (s : State) (c : Nat) : Bool :=
  let k := s.core c
  (match k.stop with | .slots .. => true | .none | .soft _ => false) &&
    allSlots.all (fun j => !(k.slot j).owed) && !k.trapDue && k.loads.isEmpty && k.vloads.isEmpty &&
    k.mq.rests && k.cq0.rests && k.cq1.rests && (s.chain c).all (fun d => (s.core d).arrayRests) &&
    (List.range k.moves.length).all (fun i => (s.movePerformed c i).isNone) && (k.mq.park.isNone || (s.kstepCommit c).isNone)

/-- Handles of what is parked on the core are free again: a later PRESUME of one is ignored (R364, R365). -/
def State.dropHandles (s : State) (part c : Nat) : State :=
  let mine (w : Parked) : Bool := match w with
    | .slot d _ | .queue d _ | .limit d => d == c
    | .ring _ | .dispatcher _ | .completion => false
  s.modPart part (fun p => { p with handles := p.handles.filter (fun h => !mine h.2) })

/-- Slot B holds a CLSET: an accepted one is waited for after the resume, any other is withdrawn (R364). -/
def State.restClset (s : State) (part c : Nat) : State :=
  match ((s.core c).slot .B).await with
  | some (.clset e n) =>
    let mine (x : ClSet) : Bool := x.num == n && x.origin == .slotB c
    if (s.part part).clsets.any (fun x => mine x && x.accepted) then
      s.modCore c (fun k => k.modSlot .B (fun t => { t.answered with clwait := some (e, n) }))
    else
      (s.modPart part (fun p => { p with clsets := p.clsets.filter (fun x => !mine x) })).modCore c
        (fun k => k.modSlot .B (fun t => { t with await := none }))
  | _ => s

/-! The image of a save slot (R372). -/

/-- What a save writes: words at their offsets in the slot, and the byte ranges written. -/
structure Image where
  mem : Mem := {}
  spans : List (Nat × Nat) := []

/-- `n` bytes from `off` on are written; they are zeros with valid seals where nothing else follows. -/
def Image.span (m : Image) (off n : Nat) : Image := { m with spans := m.spans ++ [(off, n)] }
/-- Words moved with their seals (R377). -/
def Image.moved (m : Image) (off : Nat) (l : List (Word × BitVec 8)) : Image :=
  { mem := m.mem.writeWords (off / 8) l, spans := m.spans ++ [(off, 8 * l.length)] }
/-- Words that the leaf forms, with valid seals (R377). -/
def Image.formed (m : Image) (off : Nat) (l : List Word) : Image := m.moved off (l.map (fun w => (w, sealOf w)))
/-- A part of a core store moved with its seals. -/
def Image.store (m : Image) (off : Nat) (src : Mem) (n : Nat) : Image :=
  { mem := m.mem.blit (off / 8) src 0 (n / 8), spans := m.spans ++ [(off, n)] }

/-- The image is written to the slot at physical address `base`. -/
def Mem.save (m : Mem) (base : Nat) (x : Image) : Mem :=
  x.spans.foldl (fun m p => m.blit ((base + p.1) / 8) x.mem (p.1 / 8) (p.2 / 8)) m

/-- Elements of 32 bits as words, the lower element first. -/
def packElems : List Elem → List Word
  | a :: b :: r => (b ++ a) :: packElems r
  | [a] => [0#32 ++ a]
  | [] => []
/-- Words as elements of 32 bits. -/
def unpackElems (l : List Word) : List Elem := l.flatMap (fun w => [bits w 0 32, bits w 32 32])
/-- A list brought to `n` elements. -/
def padded {α : Type} (n : Nat) (d : α) (l : List α) : List α := (l ++ List.replicate (n - l.length) d).take n

/-- Bits as a number. -/
def flagsNat (l : List (Nat × Bool)) : Nat := l.foldl (fun n x => if x.2 then n + 2 ^ x.1 else n) 0
/-- Fields (lowest bit, value) as a word. -/
def fieldsWord (l : List (Nat × Nat)) : Word := BitVec.ofNat 64 (l.foldl (fun n x => n + x.2 * 2 ^ x.1) 0)

/-- The live mask of a hard stop: every register and tile (R373). -/
def fullMask : List Word := [0xFFFFFFFFFFFFFFFE, BitVec.allOnes 64, BitVec.allOnes 64, 0xFFFFFFFEFFFFFFFF]
/-- The mask marks register sn. -/
def liveS (m : List Word) (n : Nat) : Bool := n != 0 && bit (wordAt m 0) n
/-- The mask marks vn. -/
def liveV (m : List Word) (n : Nat) : Bool := bit (wordAt m (1 + n / 64)) (n % 64)
/-- The mask marks mn. -/
def liveM (m : List Word) (n : Nat) : Bool := n != 0 && bit (wordAt m 3) (32 + n)
/-- The mask marks tile an. -/
def liveT (m : List Word) (n : Nat) : Bool := bit (wordAt m 3) (48 + n)

/-! Slots and queues (R373, R375). -/

/-- The slots of the joined group of slot `k`, itself included. -/
def Core.groupBits (c : Core) (k : Slot) : Nat :=
  flagsNat (allSlots.map (fun j => (slotIx j, j == k || (!(c.slot k).halted && (c.groupOf (c.slot k).group).contains j))))

/-- A slot block. -/
def Core.slotBlock (c : Core) (k : Slot) : List Word :=
  let t := c.slot k
  let code : Nat := match t.pend with | some x => x.code.toNat | none => 0
  let state := fieldsWord [
    (0, flagsNat [(0, t.ann0), (1, t.ann1), (2, t.halted), (3, t.returned), (4, t.rww), (5, t.pend.isSome),
      (6, t.waitHalf || t.halfSaved), (7, t.clwait.isSome)]),
    (8, c.groupBits k), (16, code), (24, match t.clwait with | some x => x.1 | none => 0)]
  [t.c0, t.c1, t.c2, state, match t.pend with | some x => x.detail.setWidth 64 | none => 0,
    match t.pend with | some x => x.tval | none => 0, 0, 0]

/-- n0 to n6 of an element's rank; the last dimension in use is not reduced, so that the position after the last element has
a value (R225, R375). -/
def Rec.indices (r : Rec) (rank : Nat) : List Nat :=
  (List.range 7).map (fun d =>
    let q := rank / (List.range d).foldl (fun n j => n * r.extent j) 1
    if geoNd r.shape ≤ d then 0 else if d + 1 = geoNd r.shape then q else q % r.extent d)
/-- The rank of n0 to n6. -/
def Rec.rankOf (r : Rec) (l : List Nat) : Nat :=
  ((List.range (geoNd r.shape)).foldl (fun (x : Nat × Nat) d => (x.1 + l.getD d 0 * x.2, x.2 * r.extent d)) (0, 1)).1

/-- A head has started: an MCHAIN that waits for its partners has not; `met` says that they have come (R365). -/
def QState.begun (x : QState) (met : Bool) : Bool :=
  x.started && !x.phase.waits && (met || x.phase != .run || !(x.recs.head?.any (fun r => r.kind == 5)))

/-- A queue block. `elapsed` is the count against the bound. -/
def QState.block (x : QState) (met : Bool) (elapsed : Word) : List Word :=
  let w0 := fieldsWord [(0, x.recs.length), (8, flagsNat [(0, x.waitMet), (1, x.phase == .signal), (2, x.begun met)]),
    (16, x.done % 65536)]
  let pos : List Word := match x.recs with
    | r :: _ =>
      if r.isCopy then
        let n := r.indices x.pos
        let at_ (l : List Nat) : Word := fieldsWord (l.zipIdx.map (fun y => (16 * y.2, y.1)))
        [at_ (n.take 4), at_ (n.drop 4)]
      else [fieldsWord [(0, x.pos)], 0]
    | [] => [0, 0]
  [w0, elapsed] ++ pos

/-- A record with its blocks, as the slot holds it, with the seals of the copy (R377). -/
def Rec.saved (r : Rec) (blocks : Bool) : List (Word × BitVec 8) :=
  let l := (r.sealed (r.w ++ r.src ++ r.dst))
  let n := r.w.length
  padded 8 (0, 0) (l.take n) ++
    (if blocks then padded 8 (0, 0) ((l.drop n).take r.src.length) ++ padded 8 (0, 0) (l.drop (n + r.src.length)) else [])

/-- What a queue keeps beside its block. -/
def QState.kept (x : QState) : KeptQueue :=
  { enq := x.enq, done := x.done, pts := x.pts, recs := x.recs.map (fun r => (r.before, r.moves, r.ts, r.segs)) }

/-! Planes and the freeze-frame (R367, R368, R374 to R376). -/

/-- A plane as its image: words of the elements by row, checksum weights, modes by diagonal. -/
structure PlaneImage where
  rows : List (List (BitVec 32))
  sums : List Word
  modes : List Nat

/-- The image of a whole plane. -/
def Plane.image (p : Plane) : PlaneImage :=
  { rows := (List.range 128).map p.row, sums := padded 128 0 p.sums, modes := List.replicate 255 p.mode }

/-- The plane that an image shows. -/
def PlaneImage.plane (x : PlaneImage) : Plane := { mode := x.modes.headD 0, pes := x.rows, sums := x.sums }

/-- The latches at diagonals up to `dt` from `a`, the others from `b`; column 128 stands at diagonal k + 128 (R368). -/
def PlaneImage.cross (dt : Nat) (a b : PlaneImage) : PlaneImage :=
  { rows := ((a.rows.zip b.rows).zipIdx).map (fun r => ((r.1.1.zip r.1.2).zipIdx).map (fun x =>
      if r.2 + x.2 ≤ dt then x.1.1 else x.1.2))
    sums := ((a.sums.zip b.sums).zipIdx).map (fun x => if x.2 + 128 ≤ dt then x.1.1 else x.1.2)
    modes := ((a.modes.zip b.modes).zipIdx).map (fun x => if x.2 ≤ dt then x.1.1 else x.1.2) }

/-- What stands in the active latches: `a`, but behind each token `l`, the youngest first, the plane that it has taken out (R236). -/
def PlaneImage.behind : List (Nat × PlaneImage) → PlaneImage → PlaneImage
  | [], a => a
  | (d, p) :: l, a => .cross d a (PlaneImage.behind l p)

/-- What stands in the shadow latches, with `a` in the active ones: `b` where the youngest token has passed, or has left the array; in
the ck of a token the plane that it has taken out; behind it the set that it is to bring (R236). -/
def PlaneImage.under : List (Nat × PlaneImage) → PlaneImage → PlaneImage → PlaneImage
  | [], _, b => b
  | (d, p) :: l, a, b => .cross d (if d = 0 then p else .cross (d - 1) b p) (PlaneImage.under l p a)

/-- Bytes as words. -/
def wordsOfBytes (n : Nat) (l : List Nat) : List Word :=
  (List.range n).map (fun k => fieldsWord ((List.range 8).map (fun i => (8 * i, l.getD (8 * k + i) 0))))

/-- The image in the layout of R374. -/
def PlaneImage.words (x : PlaneImage) : List Word := packElems x.rows.flatten ++ x.sums ++ wordsOfBytes 32 x.modes

/-- The image that the words of R374 show. -/
def PlaneImage.ofWords (l : List Word) : PlaneImage :=
  { rows := chunks 128 128 (unpackElems (l.take 8192)), sums := (l.drop 8192).take 128
    modes := ((bytesOf (l.drop 8320)).take 255).map (fun b => (bits b 0 3).toNat) }

/-- The rows in flight take their ages. -/
def Core.withAges (c : Core) (l : List Nat) : Core :=
  let set (g : Staged) (l : List Nat) : Staged := { g with rows := (g.rows.zip l).map (fun x => { x.1 with age := some x.2 }) }
  { c with staged := c.staged.map (fun g => set g l)
           ahead := c.ahead.map (fun g => set g (l.drop (match c.staged with | some g => g.rows.length | none => 0))) }

/-- The core as it was before its stop turned hard. -/
def Core.softened (c : Core) : Core :=
  match c.stop with
  | .slots true live d => { c with stop := .slots false live d }
  | .none | .soft _ | .slots false .. => c

/-- The age of the chain head's youngest row at the frame ck: `y`, but not before what has happened, nor as late as what has not
(R223, R233, R237, R239, R241). -/
def State.frameAge (s : State) (c y : Nat) : Nat :=
  let t := (s.chain c).foldl (fun s d => s.modCore d Core.softened) s
  max (s.since c) ((t.dues c).foldl (fun n m => min n (m - 1)) y)

/-- The ages at the frame ck of the rows of every member of a chain, or of a core alone, as far as they have none yet: those of the
head, and 130 p less for the member at position p. `y` is the age of the head's youngest row, a free value between the bounds above
(R241, R369; log 4). -/
def State.ageRows (s : State) (c y : Nat) : State :=
  let y := s.frameAge c y
  let l := s.chain c
  let head := s.core (l.headD c)
  match head.head .mq with
  | none => s
  | some r =>
    if l.any (fun d => (s.core d).flight.any (·.age.isSome)) then s
    else
      let ages := (head.rowNums r).zip (rowAges y head.flight)
      let own (d : Nat) : List (Option Nat × Nat) :=
        let k := s.core d
        let nums := match k.head .mq with | some q => k.rowNums q | none => []
        (nums.zip (rowAges y k.flight)).map (fun x => (Tab.find? ages x.1, x.2))
      let late := l.foldl (fun n d => (own d).foldl (fun n x =>
        match x.1 with | some a => max n (130 * (s.core d).chainPos - a) | none => n) n) 0
      l.foldl (fun s d => s.modCore d (fun k => k.withAges ((own d).map (fun x =>
        match x.1 with | some a => a + late - 130 * k.chainPos | none => x.2)))) s

/-- A row that has entered, at its age. -/
def InRow.frameAt (x : InRow) (at_ d : Nat) : RowFrame :=
  if settledAge ≤ d then x.done at_ else x.at_ at_ d

/-- A row frame (R376). -/
def frameWords (buf : Nat) (x : InRow) (f : RowFrame) : List Word :=
  [fieldsWord [(0, x.a.row), (16, buf), (32, f.d)], x.a.scales.setWidth 64, f.r ++ f.x, 0, 0, 0, 0, 0] ++ packElems (padded 256 0 f.sums)

/-- A row at the frame ck: its staging buffer, itself, and what its sums have come to. -/
structure AtFrame where
  buf : Nat
  row : InRow
  at_ : RowFrame

/-- What a freeze-frame holds (R367). -/
structure Frozen where
  header : List Word
  settled : List AtFrame
  frames : List AtFrame
  active : PlaneImage
  shadow : PlaneImage

/-- The rows of a K-step at the frame ck. K-step k stands in staging buffer k mod 2 (log 69). -/
def Staged.atFrame (g : Staged) (at_ : Nat) : List AtFrame :=
  g.rows.map (fun x => { buf := g.k % 2, row := x, at_ := x.frameAt at_ (x.age.getD 0) })

/-- The K-step that the header's KS names: the one that is entering, or has entered last. -/
def Core.newest (c : Core) (r : Rec) : Staged :=
  let g := c.front r
  if g.begun then g else c.staged.getD g

/-- The freeze-frame of the K-steps in flight. Where several tokens stand in the array, DT names the youngest; the others stand with the
first rows of their sets (log 69). -/
def Core.freeze (c : Core) (r : Rec) : Frozen :=
  let steps := ((match c.staged with | some g => [g] | none => []) ++ (match c.ahead with | some g => [g] | none => [])).filter Staged.begun
  let l := steps.flatMap (fun g => g.atFrame r.at_)
  let tokens := l.reverse.filterMap (fun x => if x.at_.d ≤ 256 then x.row.swapped.map (fun p => (x.at_.d, p.image)) else none)
  let g := c.newest r
  let nr := if g.rows.length = r.rows then 128 else g.rows.length
  let frames := l.filter (fun x => decide (x.at_.d < settledAge))
  let ks (b : Nat) : Nat := match steps.find? (fun g => g.k % 2 == b) with | some g => g.k | none => 0xFFFFFFFF
  { header := [
      fieldsWord [(0, frames.length), (16, match tokens with | x :: _ => x.1 | [] => 0xFFFF), (32, nr),
        (48, if r.kind = 2 then (r.segOf nr).1 else 0), (56, flagsNat [(0, g.replay), (1, r.fwd)])],
      fieldsWord [(0, g.k), (32, ks 0)], fieldsWord [(0, ks 1)], 0, 0, 0, 0, 0]
    settled := l.filter (fun x => decide (settledAge ≤ x.at_.d))
    frames
    active := .behind tokens c.active.image
    shadow := .under tokens c.active.image c.shadow.image }

/-- The freeze-frame regions of the slot. -/
def Image.frozen (m : Image) (bt tol : Nat) (z : Frozen) : Image :=
  let m := ((m.formed 0x4C000 z.header).span 0x4D000 0x40000).span 0x8D000 0x1000
  let m := z.settled.foldl (fun m x =>
    (m.formed (0x4D000 + 0x20000 * x.buf + 1024 * x.row.a.row) (packElems (padded 256 0 x.at_.sums))).formed
      (0x8D000 + 2048 * x.buf + 16 * x.row.a.row)
      [x.at_.r ++ x.at_.x, fieldsWord [(0, flagsNat [(0, true), (1, x.at_.pass bt tol)])]]) m
  ((z.frames.zipIdx).foldl (fun m x => m.formed (0x8E000 + 1088 * x.2) (frameWords x.1.buf x.1.row x.1.at_)) m).span
    (0x8E000 + 1088 * z.frames.length) 0

/-! The save (R372, R373). -/

/-- FN of a move. -/
def MoveKind.fn : MoveKind → Nat
  | .ld .. => 0 | .st .. => 1 | .zero => 2

/-- A move's entry. -/
def Move.words (m : Move) : List Word :=
  let (cv, vd) : Bool × Nat := match m.kind with | .ld cv vd => (cv, vd.toNat) | .st vd _ => (false, vd.toNat) | .zero => (false, 0)
  [fieldsWord [(0, m.kind.fn), (3, flagsNat [(0, cv)]), (4, vd), (12, m.tile), (16, m.slice)], 0]

/-- Entries of the scale FIFO: the scale word with its seal, then FTAG and the mark. -/
def FifoEntry.words : FifoEntry → List (Word × BitVec 8)
  | .scale w sl tag => let x : Word := tag.setWidth 64; [(w, sl), (x, sealOf x)]
  | .mark tag => let x := fieldsWord [(0, tag.toNat), (16, 1)]; [(0, 0), (x, sealOf x)]

/-- What the header and control state hold beside what the core does: how the stop came about, the node, the task array,
the live mask, and the free counts. -/
structure SaveInfo where
  hard : Bool
  frozen : Bool
  cut : Bool
  bind : Bind
  mask : List Word
  resident : Word
  elapsed : List Word

/-- The header and control state (R373). -/
def Core.control (c : Core) (x : SaveInfo) : List Word :=
  let r := c.regs
  let pick (f : Nat → Word) : List Word := (List.range 64).map (fun n => if liveS x.mask n then f n else 0)
  let conds := mergeConds c.conds
  [fieldsWord [(0, 0x45564153), (32, 1), (48, if x.hard then 2 else 1)],
    fieldsWord [(0, flagsNat [(0, x.frozen), (1, x.cut)])],
    fieldsWord [(0, x.bind.node), (32, x.bind.gpos), (36, x.bind.glast), (40, x.bind.vcore)],
    BitVec.ofNat 64 c.taskBytes] ++ x.mask ++
  pick (fun n => Tab.get 0 r.s n) ++
  [fieldsWord ((List.range 64).map (fun n => (n, if liveS x.mask n && Tab.get false r.taint n then 1 else 0))),
    r.fpctl, r.fpflags, r.srstep.setWidth 64, r.mchk, r.tvec, r.tcause, r.tval] ++
  (List.range 16).map (fun i => Tab.get 0 r.xpc i) ++ allSlots.flatMap c.slotBlock ++
  [fieldsWord [(0, flagsNat [(0, c.busy), (1, c.entry70.isSome)]), (32, match conds with | some y => y.raised.toNat | none => 0),
      (48, match conds with | some y => y.elem | none => 0)],
    (match c.entry70 with | some e => e.1 | none => 0), (match c.entry70 with | some e => e.2 | none => 0),
    r.j.setWidth 64, r.cyc, x.resident, BitVec.ofNat 64 c.lastPts,
    fieldsWord [(0, c.stage.toNat), (32, c.shotsDone)]] ++
  c.mq.block c.chainMet (wordAt x.elapsed 0) ++ c.cq0.block true (wordAt x.elapsed 1) ++ c.cq1.block true (wordAt x.elapsed 2) ++
  [fieldsWord [(0, c.chainLen - 1), (2, c.chainPos), (8, c.fifo.length), (16, c.accZero.toNat), (32, c.moves.length)],
    c.mq.mchk]

/-- The whole image of a member (R372). -/
def Core.image (c : Core) (x : SaveInfo) (z : Option Frozen) : Image :=
  let m : Image := (({} : Image).span 0 0x1000).formed 0 (c.control x)
  let m := (List.range 16).foldl (fun m n =>
    if liveM x.mask n then
      m.formed (0x2000 + 128 * n) ((List.range 16).map (fun i => (Tab.get 0 c.regs.m n).extractLsb' (64 * i) 64))
    else m) m
  let m := m.formed 0x2800 ((List.range 64).map (fun b => match Tab.find? c.tokens b with
    | some t => fieldsWord [(0, t.toNat), (32, 1)]
    | none => 0))
  let recs (m : Image) (off n : Nat) (b : Bool) (l : List Rec) : Image :=
    (l.zipIdx).foldl (fun m r => m.moved (off + n * r.2) (r.1.saved b)) m
  let m := recs (recs (recs m 0x3000 64 false c.mq.recs) 0x3800 192 true c.cq0.recs) 0x5000 192 true c.cq1.recs
  let m := recs m 0x6800 192 true (c.shots.map (·.rcd))
  let m := (c.fifo.zipIdx).foldl (fun m e => m.moved (0x9800 + 16 * e.2) e.1.words) m
  let m := (c.moves.zipIdx).foldl (fun m y =>
    let m := m.formed (0x9C00 + 16 * y.2) y.1.words
    match y.1.kind with
    | .st _ v => m.formed (0xA000 + 4096 * y.2) (packElems (padded 1024 0 v))
    | .ld .. | .zero => m) m
  let planes := match z with | some f => (f.active, f.shadow) | none => (c.active.image, c.shadow.image)
  let m := (m.formed 0x2A000 planes.1.words).formed 0x3B000 planes.2.words
  let m := match z, c.mq.recs with
    | some f, r :: _ => m.frozen r.bt c.mq.tol f
    | _, _ => m
  let m := (List.range 160).foldl (fun m n =>
    if liveV x.mask n then m.formed (0x100000 + 4096 * n) (packElems (padded 1024 0 (c.regs.vget n))) else m) m
  let m := (List.range 16).foldl (fun m t =>
    if liveT x.mask t && !bit c.accZero t then
      (List.range 16).foldl (fun m sl =>
        m.formed (0x200000 + 65536 * t + 4096 * sl) (packElems (padded 1024 0 (c.slice t sl)))) m
    else m) m
  let m := (c.wbuf.foldl (fun m g => m.moved (0x300000 + 64 * g.1) (padded 8 (0, 0) g.2)) (m.span 0x300000 0x80000))
  m.store 0x400000 c.store c.taskBytes

/-- What the slot has no place for. -/
def Core.keptOf (c : Core) : Kept :=
  { slots := allSlots.map (fun k =>
      let t := c.slot k
      { pts := t.pts, solo := t.solo, clset := (match t.clwait with | some x => x.2 | none => 0), seen := t.seen, dep := t.dep
        fenced := t.fenced })
    queues := [c.mq.kept, c.cq0.kept, c.cq1.kept]
    moveSeq := c.moveSeq, moves := c.moves.map (fun m => (m.seq, m.fpctl, m.mqBefore, m.knows, m.joinedV)), conds := c.conds
    stages := c.shots.map (·.stage), joinTs := c.joinTs
    scales := match c.staged with | some g => g.popped | none => []
    scalesAhead := match c.ahead with | some g => g.popped | none => []
    planes := c.active :: c.flight.reverse.filterMap (·.swapped), chainMet := c.chainMet }

/-- The same as words of a context image: the flags and counts in the first two; then the numbers of the core, its moves, conditions,
stages and scales, and of each queue the places of its records in the order of all (R1, R5, R395; log 70). Times are those of the
slot, and segment tables are read again. -/
def Kept.words (k : Kept) : List Word :=
  let q (i : Nat) : KeptQueue := k.queues.getD i {}
  let cond := (mergeConds k.conds).toList
  [fieldsWord [(0, flagsNat ([(0, true), (1, k.chainMet)] ++ k.slots.zipIdx.map (fun x => (4 + x.2, x.1.solo)))), (8, k.moves.length),
      (16, k.stages.length), (24, k.scales.length), (36, k.scalesAhead.length), (48, cond.length)],
    fieldsWord ((List.range 3).map (fun i => (16 * i, (q i).recs.length))), BitVec.ofNat 64 k.moveSeq] ++
  (List.range 3).flatMap (fun i => [BitVec.ofNat 64 (q i).enq, BitVec.ofNat 64 (q i).done]) ++
  k.moves.flatMap (fun m => [BitVec.ofNat 64 m.1, m.2.1, fieldsWord [(0, m.2.2.1), (56, m.2.2.2.1.toNat), (60, if m.2.2.2.2 then 1 else 0)]]) ++
  cond.flatMap (fun x => [BitVec.ofNat 64 x.seq, fieldsWord [(0, x.raised.toNat), (8, x.enabled.toNat), (16, x.elem)]]) ++
  packElems (k.stages.map (BitVec.ofNat 32) ++ k.scales ++ k.scalesAhead) ++
  (List.range 3).flatMap (fun i => (q i).recs.flatMap (fun r => padded 3 0 (r.1.map (BitVec.ofNat 64)) ++ [BitVec.ofNat 64 r.2.1]))

/-- The words of a live mask in the reel at `base` (R97, R99). -/
def State.liveMask (s : State) (part : Nat) (base : Word) (i : Nat) : Got (List Word) :=
  let who : Party := .dispatcher part
  (State.getWords part who 8 base [] s).andThen (fun h s =>
    State.getWords part who 4 (base + wordAt h 4 + BitVec.ofNat 64 (32 * i)) [] s)

/-- Seat `g` of a node changed. -/
def Node.modSeat (n : Node) (g : Nat) (f : Seat → Seat) : Node := { n with seats := n.seats.modify g f }

/-- The count of ck that the save slot holds for a limit or a bound: outside R1 (log 4). -/
def State.frees : Nat → List Word → State → List Word × State
  | 0, l, s => (l, s)
  | n + 1, l, s => let (x, s) := s.free; State.frees n (l ++ [x]) s

/-- The resting member leaves its core for its save slot at `base` (R372, R377). -/
def State.saveMember (s : State) (c base : Nat) (b : Bind) (hard : Bool) (mask : List Word) : State :=
  let s := s.restClset b.part c
  let (f, s) := State.frees 5 [] s
  let s := s.ageRows c ((wordAt f 4).toNat % 512)
  let k := s.core c
  let z := match k.inFlight, k.mq.recs with
    | true, r :: _ => some (k.freeze r)
    | _, _ => none
  let cut := match k.head .mq with | some r => (r.kind == 1 || r.kind == 2) && k.mq.begun k.chainMet && z.isNone | none => false
  let x : SaveInfo := { hard, frozen := z.isSome, cut, bind := b, mask, resident := wordAt f 0, elapsed := f.drop 1 }
  let s := { s with mem := s.mem.save base (k.image x z) }
  let s := ((s.dropHandles b.part c).vacateCore c).modCore c (fun k => { k with lease := [] })
  (s.modNode b.part b.node (fun n => n.modSeat b.gpos (fun y =>
    { y with away := true, csSize := k.taskBytes, kept := some k.keptOf }))).requeue b.part b.node

/-- The bound save slot of the member on a core. -/
def State.saveSlot (s : State) (b : Bind) : Option Nat :=
  (((s.part b.part).launch.bind (fun l => Tab.find? l.nodes b.node)).bind (fun n => n.seats[b.gpos]?)).bind (·.save)

/-- STOP_SAVE: the leaf writes the resting member to its save slot. A member without one is not saved, and its launch ends
(R343, R371). -/
def State.stopSave (s : State) (c : Nat) : Option State :=
  let k := s.core c
  match k.bind, k.stop with
  | some b, .slots hard live _ =>
    if !s.atRest c then none
    else match s.saveSlot b, (s.part b.part).launch with
      | some base, some l =>
        (match (if hard then none else live), Tab.find? l.nodes b.node with
          | some i, some n =>
            match s.liveMask b.part n.reel i with
            | .ok m s => some (s.saveMember c base b false m)
            | .fault _ s => some (s.saveMember c base b true fullMask)
            | .lost y s => some (s.lose y)
          | _, _ => some (s.saveMember c base b true fullMask))
      | none, some l => some (s.endNow b.part l)
      | _, none => none
  | _, _ => none

/-- STOP_SAVE (R372). -/
def execStopSave (core : Nat) (s : State) : Out := .next ((s.stopSave core).getD s)

/-! The resume (R379, R380). -/

/-- The words of a save slot. -/
abbrev Saved := Nat → Word

/-- `n` bytes of memory from `base` on, at the addresses from 0. -/
def State.region (s : State) (base n : Nat) : Mem := ({} : Mem).blit 0 s.mem (base / 8) (n / 8)
/-- The words of that memory, numbered from `base` on, that are damaged as first read and lie at the byte offsets `spans`, with what a
second reading gives (R264, R406). -/
def State.rereads (s : State) (base n : Nat) (spans : List (Nat × Nat)) : List Again :=
  let w := base / 8
  s.again.filter (fun a => decide (w ≤ a.n) && decide (a.n < w + n / 8) && a.was == (s.mem.word a.n, s.mem.sealAt a.n) &&
    !sealOk a.was.1 a.was.2 && spans.any (fun x => decide (x.1 ≤ 8 * (a.n - w)) && decide (8 * (a.n - w) < x.1 + x.2)))
/-- `n` bytes of memory from `base` on, with what second readings give at the byte offsets `spans`. -/
def State.reread (s : State) (base n : Nat) (spans : List (Nat × Nat)) : Mem :=
  (s.rereads base n spans).foldr (fun a m => m.write (a.n - base / 8) a.word a.sl) (s.region base n)
/-- How many words second readings have mended there (R418). -/
def State.mendedIn (s : State) (base n : Nat) (spans : List (Nat × Nat)) : Nat :=
  let l := (s.rereads base n spans).map (·.n)
  l.eraseDups.countP (fun k => let x := secondIn s.again k (s.mem.word k, s.mem.sealAt k); sealOk x.1 x.2)
/-- The word at a byte offset. -/
def Mem.saved (m : Mem) : Saved := fun off => m.word (off / 8)
/-- `n` words from byte offset `off` on, in one pass. -/
def Mem.savedRun (m : Mem) (off n : Nat) : List Word := (m.words (off / 8) n).map (·.1)
/-- `n` words from offset `off` on. -/
def savedWords (f : Saved) (off n : Nat) : List Word := (List.range n).map (fun i => f (off + 8 * i))

/-- The record regions whose depths the control state gives: offset, records, words of a record. -/
def Saved.depth (f : Saved) (i : Nat) : Nat := min (bits (f (0x440 + 32 * i)) 0 6).toNat 32

/-- Number of outstanding moves in the slot. -/
def Saved.moves (f : Saved) : Nat := min (bits (f 0x4A0) 32 6).toNat Config.maxMoves
/-- Depth of the scale FIFO in the slot. -/
def Saved.fifo (f : Saved) : Nat := min (bits (f 0x4A0) 8 8).toNat Config.fifoDepth
/-- Row frames in the slot. -/
def Saved.frames (f : Saved) : Nat := if bit (f 8) 0 then min (bits (f 0x4C000) 0 16).toNat 256 else 0

/-- The byte ranges that step 1 of R379 checks: the header and control state, and the freeze-frame header. -/
def Saved.head (f : Saved) : List (Nat × Nat) := (0, 0x1000) :: (if bit (f 8) 0 then [(0x4C000, 64)] else [])

/-- The other byte ranges of the slot that hold words formed by the leaf (R377). -/
def Saved.formed (f : Saved) : List (Nat × Nat) :=
  let m := savedWords f 0x20 4
  [(0x2800, 512), (0x2A000, 66816), (0x3B000, 66816)] ++
  (List.range 16).filterMap (fun n => if liveM m n then some (0x2000 + 128 * n, 128) else none) ++
  (List.range f.fifo).map (fun i => (0x9800 + 16 * i + 8, 8)) ++
  (List.range f.moves).flatMap (fun i =>
    (0x9C00 + 16 * i, 16) :: (if bits (f (0x9C00 + 16 * i)) 0 3 = 1 then [(0xA000 + 4096 * i, 4096)] else [])) ++
  (if bit (f 8) 0 then [(0x4D000, 0x40000), (0x8D000, 0x1000), (0x8E000, 1088 * f.frames)] else []) ++
  (List.range 160).filterMap (fun n => if liveV m n then some (0x100000 + 4096 * n, 4096) else none) ++
  (List.range 16).filterMap (fun t =>
    if liveT m t && !bit (bits (f 0x4A0) 16 16) t then some (0x200000 + 65536 * t, 65536) else none)

/-- The first word that the leaf consumes whose seal fails both readings (R377): its offset. -/
def Mem.savedBad (m : Mem) : List (Nat × Nat) → Option Nat
  | [] => none
  | (off, n) :: r =>
    match (m.words (off / 8) (n / 8)).findIdx? (fun x => !sealOk x.1 x.2) with
    | some i => some (off + 8 * i)
    | none => Mem.savedBad m r

/-- MAGIC, VERSION, the zero fields and NODE are right (R379). -/
def Saved.good (f : Saved) (b : Bind) : Bool :=
  bits (f 0) 0 32 == 0x45564153 && bits (f 0) 32 16 == 1 && bits (f 8) 2 62 == 0 &&
    (bits (f 0x10) 0 32).toNat == b.node && (bits (f 0x10) 32 3).toNat == b.gpos && (bits (f 0x10) 36 3).toNat == b.glast &&
    bits (f 0x10) 35 1 == 0 && bits (f 0x10) 39 1 == 0 && bits (f 0x10) 48 16 == 0 && f 0x40 == 0 &&
    bits (f 0x258) 32 32 == 0 &&
    (List.range 4).all (fun i =>
      let st := f (0x300 + 64 * i + 24)
      bits st 12 4 == 0 && bits st 29 35 == 0 && f (0x300 + 64 * i + 48) == 0 && f (0x300 + 64 * i + 56) == 0) &&
    bits (f 0x400) 2 30 == 0 && bits (f 0x400) 37 11 == 0 && bits (f 0x400) 58 6 == 0 && bits (f 0x418) 32 32 == 0 &&
    bits (f 0x438) 40 24 == 0 &&
    (List.range 3).all (fun i =>
      let w := f (0x440 + 32 * i)
      bits w 6 2 == 0 && bits w 11 5 == 0 && bits w 32 32 == 0 && bits (f (0x440 + 32 * i + 24)) 48 16 == 0) &&
    bits (f 0x4A0) 4 4 == 0 && bits (f 0x4A0) 38 26 == 0 && (savedWords f 0x4B0 362).all (· == 0) &&
    (!bit (f 8) 0 || (bits (f 0x4C010) 32 32 == 0 && (savedWords f 0x4C018 5).all (· == 0)))

/-- A slot as its block gives it. The block has no place for the outcome of a GBR that the slot was to take, which is dropped (R114,
log 62). -/
def Saved.slot (f : Saved) (i : Nat) (busy : Bool) (k : KeptSlot) : SlotState :=
  let a := 0x300 + 64 * i
  let st := f (a + 24)
  let returned := bit st 3
  let half := bit st 6
  { c0 := f a, c1 := f (a + 8), c2 := f (a + 16), ann0 := bit st 0, ann1 := bit st 1, halted := bit st 2, returned
    rww := bit st 4, resumed := bit st 4 && returned
    pend := if bit st 5 then some { code := bits st 16 8, detail := bits (f (a + 32)) 0 32, tval := f (a + 40), kept := busy } else none
    group := ((List.range 4).find? (fun j => bit st (8 + j))).getD i
    waitHalf := half && !(busy && !returned), halfSaved := half && busy && !returned
    clwait := if bit st 7 then some ((bits st 24 5).toNat, k.clset) else none
    solo := k.solo, pts := k.pts, seen := k.seen, dep := k.dep, fenced := k.fenced }

/-- A record from its words, with their seals (R377). -/
def Rec.ofSaved (l : List (Word × BitVec 8)) (k : List Nat × Nat × Nat × List (BitVec 32)) (blocks : Bool) : Rec :=
  let w := l.map (·.1)
  { w := w.take 8, src := if blocks then (w.drop 8).take 8 else [], dst := if blocks then (w.drop 16).take 8 else []
    before := k.1, moves := k.2.1, ts := k.2.2.1, segs := k.2.2.2
    seals := if l.all (fun x => sealOk x.1 x.2) then [] else l.map (·.2) }

/-- The records of a queue: its number, the offset of its region, words of a record. -/
def Saved.records (f : Saved) (mem : Mem) (i : Nat) (k : Nat → List Nat × Nat × Nat × List (BitVec 32)) : List Rec :=
  let (off, n) : Nat × Nat := if i = 0 then (0x3000, 8) else if i = 1 then (0x3800, 24) else (0x5000, 24)
  (List.range (f.depth i)).map (fun j => Rec.ofSaved (mem.words ((off + 8 * n * j) / 8) n) (k j) (n == 24))

/-- A queue from its block and its records. -/
def Saved.queue (f : Saved) (mem : Mem) (i : Nat) (k : KeptQueue) : QState :=
  let w0 := f (0x440 + 32 * i)
  let recs := f.records mem i (fun j => k.recs.getD j ([], 0, k.pts, []))
  let w2 := f (0x440 + 32 * i + 16)
  let w3 := f (0x440 + 32 * i + 24)
  let pos := match recs with
    | r :: _ =>
      if r.isCopy then r.rankOf ((List.range 7).map (fun d => (bits (if d < 4 then w2 else w3) (16 * (d % 4)) 16).toNat))
      else (bits w2 0 32).toNat
    | [] => 0
  { recs, done := k.done, enq := k.enq
    phase := if bit w0 9 then .signal else .idle
    waitMet := bit w0 8, started := bit w0 10, pos, mchk := if i = 0 then f 0x4A8 else 10, pts := k.pts }

/-- A move from its entry. -/
def Saved.move (f : Saved) (i : Nat) (k : Nat × Word × Nat × BitVec 4 × Bool) : Move :=
  let w := f (0x9C00 + 16 * i)
  { seq := k.1, fpctl := k.2.1, mqBefore := k.2.2.1, knows := k.2.2.2.1, joinedV := k.2.2.2.2
    tile := (bits w 12 4).toNat, slice := (bits w 16 4).toNat
    kind := if bits w 0 3 = 1 then .st (bits w 4 8) (unpackElems (savedWords f (0xA000 + 4096 * i) 512))
            else if bits w 0 3 = 2 then .zero else .ld (bit w 3) (bits w 4 8) }

/-- Slot `i` was parked while its bundle executed, or waits as the second half of a BARARW: a member of its joined group stands one
step of the chain after it (R16, R364). -/
def Saved.behind (f : Saved) (i : Nat) : Bool :=
  let a := 0x300 + 64 * i
  (bit (f (a + 24)) 6 && (!bit (f 0x400) 0 || bit (f (a + 24)) 3)) || (List.range 4).any (fun j =>
    let b := 0x300 + 64 * j
    bit (f (a + 24)) (8 + j) && !bit (f (b + 24)) 2 && f b == f (a + 8) && f (b + 8) == f (a + 16) && !(f b == f a && f (b + 8) == f (a + 8)))

/-- Slot V stands in the joined group of slot E, or slot E has halted (R14). -/
def Saved.joinedV (f : Saved) : Bool := bit (f 0x3D8) 2 || bit (f 0x3D8) (8 + 2)

/-- What the slot has no place for, where the context image does not carry it either: the times are PTS, and the spec leaves open the
rest, which the free values `x` decide (log 70): which of the records that write its tile a move awaits, what a JOIN was enqueued behind, the stages
of the shot list, and the scales of rows whose checks have settled. The saved FPCTL stands for that of a move's issue (R57) and for the
enables of the conditions that no ACCWAIT has reported (R64), and every slot counts as ordered after a saved move (R63; log 70). `n` is
the number of the CLSET of an entry that is pending. -/
def Saved.kept (f : Saved) (mem : Mem) (x : Nat → Word) (n : Nat → Nat) : Kept :=
  let pts := (f 0x430).toNat
  let done (i : Nat) : Nat := (bits (f (0x440 + 32 * i)) 16 16).toNat
  let mqRecs := f.records mem 0 (fun _ => ([], 0, pts, []))
  let awaits (i : Nat) : Nat :=
    let tile := (f.move i (0, 0, 0, 0, false)).tile
    let l := ((mqRecs.zipIdx).filter (fun r => r.1.tiles.contains tile)).map (·.2)
    match l[(x i).toNat % l.length]? with | some j => done 0 + j + 1 | none => 0
  let before := (List.range f.moves).map (fun i => ((List.range (i + 1)).map awaits).foldl max 0)
  let queue (i : Nat) : KeptQueue :=
    { enq := done i + f.depth i, done := done i, pts
      recs := (List.range (f.depth i)).map (fun j =>
        let y := x (32 + 32 * i + j)
        ((List.range 3).map (fun q => done q + (bits y (16 * q) 16).toNat % (f.depth q + 1)),
          (before.filter (fun b => decide (b ≤ done 0 + j))).length, pts, [])) }
  let raised := bits (f 0x400) 32 5
  let scale (i : Nat) : List (BitVec 32) := (List.range 64).flatMap (fun j => [bits (x (192 + 64 * i + j)) 0 32, bits (x (192 + 64 * i + j)) 32 32])
  { slots := (List.range 4).map (fun i => { pts, solo := f.behind i, clset := n (bits (f (0x318 + 64 * i)) 24 5).toNat })
    queues := (List.range 3).map queue
    moveSeq := f.moves
    moves := (before.zipIdx).map (fun b => (b.2, f 0x248, b.1, 0xF, f.joinedV))
    conds := if raised = 0 then []
      else [{ seq := 0, raised, enabled := raised &&& enables (f 0x248), elem := (bits (f 0x400) 48 10).toNat }]
    stages := (List.range 64).map (fun i => ((List.range (i + 1)).map (fun j => (bits (x (128 + j)) 0 8).toNat)).foldl max 0)
    joinTs := (List.range 32).map (fun j => (j, pts))
    scales := if bit (f 8) 0 then scale 0 else [], scalesAhead := if bit (f 8) 0 then scale 1 else [] }

/-- What the words at offset `a` of a context image give back, if they are there; `pts` is the time of the member's save slot, and `n`
the number of the next CLSET. -/
def Saved.keptAt (f : Saved) (a pts n : Nat) : Option Kept :=
  let w := f a
  if !bit w 0 then none
  else
    let count (lo k : Nat) : Nat := (bits w lo k).toNat
    let depth (i : Nat) : Nat := (bits (f (a + 8)) (16 * i) 16).toNat
    let movesAt := a + 72
    let condsAt := movesAt + 24 * count 8 8
    let elemsAt := condsAt + 16 * count 48 8
    let elems := count 16 8 + count 24 12 + count 36 12
    let recsAt (i : Nat) : Nat := elemsAt + 8 * ((elems + 1) / 2) + 32 * ((List.range i).map depth).sum
    let es := (unpackElems (savedWords f elemsAt ((elems + 1) / 2))).take elems
    some {
      slots := (List.range 4).map (fun i => { pts, solo := bit w (4 + i), clset := n })
      queues := (List.range 3).map (fun i =>
        { enq := (f (a + 24 + 16 * i)).toNat, done := (f (a + 32 + 16 * i)).toNat, pts
          recs := (List.range (depth i)).map (fun j =>
            let o := recsAt i + 32 * j
            ((savedWords f o 3).map (·.toNat), (f (o + 24)).toNat, pts, [])) })
      moveSeq := (f (a + 16)).toNat
      moves := (List.range (count 8 8)).map (fun i =>
        let o := movesAt + 24 * i
        ((f o).toNat, f (o + 8), (bits (f (o + 16)) 0 56).toNat, bits (f (o + 16)) 56 4, bit (f (o + 16)) 60))
      conds := (List.range (count 48 8)).map (fun i =>
        let x := f (condsAt + 16 * i + 8)
        { seq := (f (condsAt + 16 * i)).toNat, raised := bits x 0 5, enabled := bits x 8 5, elem := (bits x 16 16).toNat })
      stages := (es.take (count 16 8)).map (·.toNat)
      joinTs := (List.range 32).map (fun j => (j, pts))
      scales := (es.drop (count 16 8)).take (count 24 12)
      scalesAhead := es.drop (count 16 8 + count 24 12)
      chainMet := bit w 1 }

/-- The arrays, the registers and the control state (R379, steps 2 and 3), from the slot `mem`. -/
def Core.restore (c : Core) (f : Saved) (mem : Mem) (k : Kept) : Core :=
  let m := savedWords f 0x20 4
  let busy := bit (f 0x400) 0
  let size := min (f 0x18).toNat c.taskBytes
  let zero : BitVec 16 := bits (f 0x4A0) 16 16 ||| BitVec.ofNat 16 (flagsNat ((List.range 16).map (fun t => (t, !liveT m t))))
  let word (off : Nat) : Word × BitVec 8 := (mem.word (off / 8), mem.sealAt (off / 8))
  { c with
    store := (c.store.scrub 0 (c.taskBytes / 8)).blit 0 mem (0x400000 / 8) (size / 8)
    regs := { c.regs with
      s := (List.range 64).filterMap (fun n => if liveS m n then some (n, f (0x40 + 8 * n)) else none)
      taint := (List.range 64).filterMap (fun n => if liveS m n && bit (f 0x240) n then some (n, true) else none)
      v := (List.range 160).filterMap (fun n =>
        if liveV m n then some (n, unpackElems (mem.savedRun (0x100000 + 4096 * n) 512)) else none)
      m := (List.range 16).filterMap (fun n =>
        if liveM m n then some (n, (savedWords f (0x2000 + 128 * n) 16).foldr (fun w (x : BitVec 1024) =>
          (x <<< 64) ||| w.setWidth 1024) 0) else none)
      fpctl := f 0x248, fpflags := f 0x250, srstep := bits (f 0x258) 0 32, mchk := f 0x260, tvec := f 0x268
      tcause := f 0x270, tval := f 0x278, xpc := (List.range 16).map (fun i => (i, f (0x280 + 8 * i)))
      j := bits (f 0x418) 0 32, cyc := f 0x420 }
    slots := allSlots.map (fun j => (slotIx j, f.slot (slotIx j) busy (k.slots.getD (slotIx j) {})))
    busy := busy
    entry70 := if bit (f 0x400) 1 then some (f 0x408, f 0x410) else none
    tokens := (List.range 64).filterMap (fun b =>
      let w := f (0x2800 + 8 * b)
      if bit w 32 then some (b, bits w 0 32) else none)
    joinTs := k.joinTs
    mq := f.queue mem 0 (k.queues.getD 0 {})
    cq0 := f.queue mem 1 (k.queues.getD 1 {})
    cq1 := f.queue mem 2 (k.queues.getD 2 {})
    acc := (List.range 16).flatMap (fun t => if bit zero t then [] else (List.range 16).map (fun sl =>
      (16 * t + sl, unpackElems (mem.savedRun (0x200000 + 65536 * t + 4096 * sl) 512))))
    accZero := zero
    moves := (List.range f.moves).map (fun i => f.move i (k.moves.getD i (i, f 0x248, 0, 0xF, f.joinedV)))
    moveSeq := k.moveSeq
    conds := k.conds
    wbuf := ((chunks 8 8192 (mem.words (0x300000 / 8) 65536)).zipIdx).filterMap (fun x =>
      if x.1.all (fun y => y.1 == 0 && y.2 == 0) then none else some (x.2, x.1))
    fifo := (List.range f.fifo).map (fun i =>
      let w := f (0x9800 + 16 * i + 8)
      let x := word (0x9800 + 16 * i)
      if bit w 16 then .mark (bits w 0 16) else .scale x.1 x.2 (bits w 0 16))
    chainLen := (bits (f 0x4A0) 0 2).toNat + 1, chainPos := (bits (f 0x4A0) 2 2).toNat
    active := (PlaneImage.ofWords (mem.savedRun 0x2A000 8352)).plane
    shadow := (PlaneImage.ofWords (mem.savedRun 0x3B000 8352)).plane
    chainMet := k.chainMet
    staged := if k.scales.isEmpty then none else some { k := (bits (f 0x450) 0 32).toNat, kept := k.scales }
    ahead := if k.scalesAhead.isEmpty then none else some { k := (bits (f 0x450) 0 32).toNat + 1, kept := k.scalesAhead }
    stage := bits (f 0x438) 0 32, shotsDone := (bits (f 0x438) 32 8).toNat }

/-- The shot list comes back with its groups. -/
def Core.restoreShots (c : Core) (mem : Mem) (n : Nat) (stages : List Nat) : Core :=
  { c with shots := (List.range n).map (fun i =>
      let r := Rec.ofSaved (mem.words ((0x6800 + 192 * i) / 8) 24) ([], 0, 0, []) true
      { stage := stages.getD i 0, q := r.shotQueue, rcd := r }) }

/-- The segment tables of the MGRPs `l`, where the member has none, are read again from its task array (log 70). -/
def Core.readSegs (c : Core) : List Rec → Except Syndromes (List Rec)
  | [] => .ok []
  | r :: l =>
    match c.readSegs l, (if r.kind = 2 ∧ r.segs.isEmpty then c.taskWords (64 * r.baseC) ((r.trip 0 + 1) / 2) else .ok []) with
    | .error y, _ | _, .error y => .error y
    | .ok l, .ok w => .ok ((if w.isEmpty then r else { r with segs := (List.range (r.trip 0)).map (entry32 w) }) :: l)

/-- The rows of the K-step in staging buffer `b`, settled ones first; `scales` are those of its rows. -/
def Saved.bufferRows (f : Saved) (mem : Mem) (b mode : Nat) (scales : List (BitVec 32)) : List InRow :=
  let cols := columns mode
  let settled : List InRow := (List.range 128).filterMap (fun r =>
    let o := 0x8D000 + 2048 * b + 16 * r
    if bit (f (o + 8)) 0 then
      some { a := { row := r, words := [], scales := scales.getD r 0x7F7F7F7F }, plane := { mode }
             frame := some { d := settledAge, sums := (unpackElems (mem.savedRun (0x4D000 + 0x20000 * b + 1024 * r) 128)).take cols
                             x := bits (f o) 0 32, r := bits (f o) 32 32 } }
    else none)
  let frames : List InRow := (List.range f.frames).filterMap (fun i =>
    let o := 0x8E000 + 1088 * i
    let d := (bits (f o) 32 16).toNat
    let gap := if i = 0 then 0 else (bits (f (o - 1088)) 32 16).toNat - d
    if (bits (f o) 16 8).toNat ≠ b then none
    else some {
      a := { row := (bits (f o) 0 16).toNat, words := [], scales := bits (f (o + 8)) 0 32 }, plane := { mode }
      frame := some { d, sums := (unpackElems (mem.savedRun (o + 64) 128)).take cols
                      x := bits (f (o + 16)) 0 32, r := bits (f (o + 16)) 32 32 }, gap })
  settled ++ frames

/-- The planes that the rows in flight have met, the youngest first, and the one before them: the sets of the tokens at the diagonals
`l`. Latches that have not been reached yet, or have been written over, are those of `rest` (R236, R368; log 69). -/
def setImages (a b : PlaneImage) (rest : Nat → PlaneImage) : Nat → List Nat → List PlaneImage
  | j, [] => [if j = 0 then a else rest j]
  | j, [d] => [.cross d a b, .cross d (if d = 0 then b else .cross (d - 1) (rest (j + 1)) b) a]
  | j, d :: e :: l => .cross d a (if e = 0 then rest j else .cross (e - 1) b (rest j)) :: setImages a b rest (j + 1) (e :: l)

/-- Rows by K-step, in the order of their entry, take the planes that they meet, and the first rows of sets those that their tokens took
out; `planes` are the sets, the youngest first. -/
def Rec.withPlanes (r : Rec) (planes : List Plane) (l : List (Nat × InRow)) : List InRow :=
  (l.foldr (fun (y : Nat × InRow) (x : List InRow × Nat) =>
    let token := r.bringsSet y.1 y.2.a.row
    let plane := planes.getD x.2 y.2.plane
    ({ y.2 with plane, swapped := if token then planes[x.2 + 1]? else none } :: x.1, if token then x.2 + 1 else x.2)) ([], 0)).1

/-- The frozen array comes back: planes, frames and staging, the older K-step before the other (R368, R380). -/
def Core.restoreFrozen (c : Core) (f : Saved) (mem : Mem) (k : Kept) : Core :=
  match c.mq.recs with
  | [] => c
  | r :: _ =>
    let a := PlaneImage.ofWords (mem.savedRun 0x2A000 8352)
    let b := PlaneImage.ofWords (mem.savedRun 0x3B000 8352)
    let ks (i : Nat) : Nat := (bits (f (if i = 0 then 0x4C008 else 0x4C010)) (if i = 0 then 32 else 0) 32).toNat
    let both := ks 0 != 0xFFFFFFFF && ks 1 != 0xFFFFFFFF
    let lo := if ks 1 < ks 0 then 1 else 0
    let rows (i : Nat) (scales : List (BitVec 32)) : List (Nat × InRow) := (f.bufferRows mem i r.bt scales).map (fun x => (ks i, x))
    let old := rows lo k.scales
    let young := if both then rows (1 - lo) k.scalesAhead else []
    let tokens := (old ++ young).reverse.filter (fun x => r.bringsSet x.1 x.2.a.row)
    let rest (j : Nat) : PlaneImage :=
      match k.planes[j]?, tokens[j]? with
      | some p, _ => p.image
      | none, some x => match c.weightSet r.bt r.cmp (r.setGranule x.1 (r.segOf x.2.a.row).1).toNat with
        | .ok p => p.image
        | .desync | .lost _ => b
      | none, none => b
    let diagonals := tokens.filterMap (fun x => x.2.frame.bind (fun y => if y.d ≤ 256 then some y.d else none))
    let seen := (setImages a b rest 0 diagonals).map PlaneImage.plane
    let planes := seen ++ k.planes.drop seen.length
    let l := r.withPlanes planes (old ++ young)
    { c with
      active := planes.headD a.plane, shadow := planes.getD 1 b.plane, late := 1
      activeFor := (old ++ young).getLast?.map (fun x => (x.1, (r.segOf x.2.a.row).1))
      staged := some { k := ks lo, rows := l.take old.length, kept := k.scales, replay := bit (f 0x4C000) 56 }
      ahead := if both then some { k := ks (1 - lo), rows := l.drop old.length, kept := k.scalesAhead }
               else if k.scalesAhead.isEmpty then none else some { k := ks lo + 1, kept := k.scalesAhead }
      mq := { c.mq with pos := ks lo } }

/-- Rows of K-step `k` with their words fetched again where `need` says so. -/
def Core.refetch (c : Core) (r : Rec) (k : Nat) (need : InRow → Bool) : List InRow → Except Syndromes (List InRow)
  | [] => .ok []
  | x :: l =>
    match Core.refetch c r k need l with
    | .error y => .error y
    | .ok l =>
      if need x then
        match c.aWords r x.a.row k with
        | .ok w => .ok ({ x with a := { x.a with words := w } } :: l)
        | .error y => .error y
      else .ok (x :: l)

/-- The A rows of the frames of a K-step are fetched again from their granules, with their seals checked (R380). A chain's head
fetches all of them, since it sends them east (R369). -/
def Core.refetchStep (c : Core) (r : Rec) : Option Staged → Except Syndromes (Option Staged)
  | none => .ok none
  | some g =>
    let need (x : InRow) : Bool := c.chainLen != 1 || match x.frame with | some f => decide (f.d < settledAge) | none => true
    match c.refetch r g.k need g.rows with
    | .ok l => .ok (some { g with rows := l })
    | .error y => .error y

/-- The rows in flight come back with their words; a follower's come again from the west (R369, R380). -/
def Core.refetchRows (c : Core) : Except Syndromes Core :=
  match c.mq.recs with
  | r :: _ =>
    if r.fwd then .ok c
    else
      match c.refetchStep r c.staged, c.refetchStep r c.ahead with
      | .ok a, .ok b => .ok { c with staged := a, ahead := b }
      | .error y, _ | _, .error y => .error y
  | [] => .ok c

/-- A follower's rows come again from the west (R369, R380). -/
def Core.rowsFrom (c head : Core) : Core :=
  match c.mq.recs, head.mq.recs with
  | q :: _, r :: _ =>
    let back (g : Staged) : Staged :=
      { g with rows := g.rows.zipIdx.map (fun x =>
          match head.rowAt r (g.k * q.rows + x.2) with
          | some y => if x.1.a.words.isEmpty then { x.1 with a := { x.1.a with words := y.a.words } } else x.1
          | none => x.1) }
    { c with staged := c.staged.map back, ahead := c.ahead.map back }
  | _, _ => c

/-- The members of a node that are on their cores. -/
def State.nodeCores (s : State) (part n : Nat) : List Nat :=
  match (s.part part).launch.bind (fun l => Tab.find? l.nodes n) with
  | some x => x.seats.filterMap (s.part part).seatCore
  | none => []

/-- Once every member's state is in place, all slots start in one ck; a pending trap is taken first (R379, step 4). -/
def State.startMembers (s : State) (part n : Nat) : State :=
  let l := s.nodeCores part n
  if l.any (fun c => (s.core c).loading && !(s.core c).restored) then s
  else
    let s := l.foldl (fun s c =>
      let k := s.core c
      let head := s.core (c - k.chainPos)
      s.setCore c { (if k.chainPos = 0 then k else k.rowsFrom head) with loading := false, restored := false }) s
    l.foldl (fun s c => if (s.core c).trapDue then s.post (.trapEntry c) else s) s

/-- A node whose saved state is broken is refused (R287, R379). -/
def State.refuseNode (s : State) (part n : Nat) : State :=
  let tag : BitVec 16 := match (s.part part).launch.bind (fun l => Tab.find? l.nodes n) with | some x => x.tag | none => 0
  let s := (s.nodeCores part n).foldl (fun s c => s.vacateCore c) s
  ((s.modNode part n (fun y => { y with st := .refused, seats := [] })).endLaunch part 0x07
    (tag ++ BitVec.ofNat 16 n ++ 0#32)).settleLaunch part

/-- The ranges of a slot that the leaf reads first. -/
def slotHeads : List (Nat × Nat) := [(0, 0x1000), (0x4C000, 64)]

/-- The slot at `base` as the leaf reads it: it is the consuming lane of the words that it has formed, and reads a damaged one once
more; the sealed arrays come as they stand (R377). -/
def State.slotRead (s : State) (base : Nat) : Mem × State :=
  let spans := slotHeads ++ (s.reread base 0x800000 slotHeads).saved.formed
  (s.reread base 0x800000 spans, s.countSeal (s.mendedIn base 0x800000 spans))

/-- A word of the slot at `base` that the leaf consumes fails both readings (R377). -/
def State.restoreLost (s : State) (c base off : Nat) (m : Mem) : State :=
  let n := (base + off) / 8
  s.lose (Loss.found (syn (s.mem.word n) (s.mem.sealAt n)) (syn (m.word (off / 8)) (m.sealAt (off / 8))) .restore (.slot c .A) 0
    (Place.plain (base + off)))

/-- What the slot has no place for, where no context image carries it. -/
def State.keptFree (s : State) (part : Nat) (f : Saved) (m : Mem) : Kept × State :=
  let (l, s) := State.frees 320 [] s
  (f.kept m (wordAt l) (fun e => match (s.part part).clsets.find? (fun x => x.entry == e && x.accepted) with
    | some x => x.num
    | none => (s.part part).clsetNum), s)

/-- MEMBER_RESUME: the leaf restores a member from its save slot (R379). -/
def State.memberResume (s : State) (c : Nat) : Option State :=
  let k := s.core c
  match k.bind with
  | none => none
  | some b =>
    match (s.part b.part).launch.bind (fun l => Tab.find? l.nodes b.node) with
    | none => none
    | some n =>
      match n.seats[b.gpos]? with
      | none => none
      | some seat =>
        match seat.save with
        | none => none
        | some base =>
          if !k.loading || k.restored then none
          else
            let (m, s) := s.slotRead base
            let f := m.saved
            match m.savedBad f.head, f.good b, m.savedBad f.formed with
            | some off, _, _ | none, true, some off => some (s.restoreLost c base off m)
            | none, false, _ => some (s.refuseNode b.part b.node)
            | none, true, none =>
              let x := match seat.kept with | some k => (k, s) | none => s.keptFree b.part f m
              let s := x.2
              let k := ((s.core c).restore f m x.1).force
              let k := k.restoreShots m n.nshot x.1.stages
              match k.readSegs k.mq.recs with
              | .error y => some (s.lose (Loss.inside y .restore (.queue c .mq)))
              | .ok l =>
                let k := { k with mq := { k.mq with recs := l } }
                let k := if bit (f 8) 0 then k.restoreFrozen f m x.1 else k
                match k.refetchRows with
                | .error y => some (s.lose (Loss.inside y .matrixA (.queue c .mq)))
                | .ok k => some ((s.setCore c { k with restored := true, stop := .none }).startMembers b.part b.node)

/-- MEMBER_RESUME (R379). -/
def execMemberResume (core : Nat) (s : State) : Out := .next ((s.memberResume core).getD s)

end Sys2Proof.Machine
end

