-- ==== Sys2Proof/Machine/Loss.lean ====
section
/-! DEFINITION. Context loss (R412 to R415) and retired frames (R416, R417). -/

namespace Sys2Proof.Machine

/-- SOURCE (R415). -/
def lossCode : LossSource → BitVec 8
  | .scalarLoad => 1 | .vectorLoad => 2 | .fetch => 3 | .atomic => 4 | .merge => 5 | .matrixA => 6
  | .decompressor => 7 | .scalePop => 8 | .egress => 9 | .enqueue => 10 | .control => 11 | .restore => 12
  | .parity => 13 | .matrixCheck => 14 | .timing => 15 | .walk => 16

/-- Entries of RETLIST (R417). -/
def maxRetired : Nat := 8192

/-- The frame of `pa` is retired: it is listed with its owner, and the cached translations of its bytes go (R416, R417). -/
def State.retire (s : State) (part pa : Nat) : State :=
  let f := pa / 4096 * 4096
  if s.retired.any (fun x => x.1 == f) then s
  else if maxRetired ≤ s.retired.length then (if s.retovf then s else { s with retovf := true }.pfEvent 2)
  else
    State.pfEvent (n := 2) { s with
      retired := s.retired ++ [(f, part)]
      parts := s.parts.map (fun p => (p.1, { p.2 with tlb := p.2.tlb.filter (fun c =>
        !(decide (f < c.pa + c.size) && decide (c.pa < f + 4096))) })) }

/-- A loss by a parity mismatch has cause 0x60, and its array has neither address nor a frame to retire (R408). -/
def lossSettled (l : Loss) : Loss := if l.source = .parity then { l with cause := 0x60, pa := 0, fromHbm := false } else l

/-- The loss retires the frame of its word (R413, step 4). -/
def lossRetires (l : Loss) : Bool := (l.cause == 0x60 || l.cause == 0x62) && l.fromHbm

/-- DL0 to DL7 (R414). `seq` is DLSEQ, `ret` says that the frame was retired. -/
def State.deadLetter (s : State) (part : Nat) (l : Loss) (ret : Bool) (time : Word) (seq : BitVec 32) : List Word :=
  let p := s.part part
  let vc (c : Nat) : BitVec 8 := BitVec.ofNat 8 (s.vcoreOf c)
  let who : BitVec 8 × BitVec 2 × BitVec 1 × BitVec 2 := match l.party with
    | some (.slot c k) => (vc c, BitVec.ofNat 2 (slotIx k), 0, 0)
    | some (.queue c q) => (vc c, 0, 1, BitVec.ofNat 2 (queueIx q))
    | some (.ring ..) | some (.dispatcher _) | some (.completion _) | none => (0xFF, 0, 0, 0)
  let node : BitVec 16 := match l.party with
    | some (.slot c _) | some (.queue c _) => match (s.core c).bind with | some b => BitVec.ofNat 16 b.node | none => 0xFFFF
    | _ => 0xFFFF
  let launch : BitVec 32 × BitVec 4 := match p.launch with
    | some x => (bits (wordAt x.words 0) 0 32, p.ringNumber x.ring)
    | none => (0, 0)
  [l.cause ++ lossCode l.source ++ who.1 ++ who.2.1 ++ who.2.2.1 ++ who.2.2.2 ++ 0#3 ++ 0#16 ++ p.rgen, l.va,
    ofBool1 ret ++ 0#11 ++ l.pa, l.detail, launch.1 ++ 0#12 ++ launch.2 ++ node, time, 0#32 ++ seq, 0]

/-- A further losing event of a lost context adds to EXTRA (R414). -/
def Partition.moreLoss (p : Partition) : Partition :=
  let w := wordAt p.dl 0
  let n := bits w 16 16
  { p with dl := p.dl.set 0 (bits w 32 32 ++ (if n == 0xFFFF then n else n + 1) ++ bits w 0 16) }

/-- ECLOSS counts the loss, saturating (R418). -/
def countLoss (w : Word) (cause : BitVec 8) : Word :=
  let f (lo : Nat) (c : BitVec 8) : BitVec 16 :=
    let n := bits w lo 16
    if cause == c && n != 0xFFFF then n + 1 else n
  f 48 0x63 ++ f 32 0x62 ++ f 16 0x61 ++ f 0 0x60

/-- What the loss leaves of the partition: no launch, no record on its way, rings that keep RUN but do nothing, semaphores and
barriers at their reset values (R413). A pause fails (R389). -/
def Partition.loseContext (p : Partition) : Partition :=
  let p := match p.job with
    | some (.pause ..) => { p with job := none, err := 13, state := 1 }
    | some (.remove ..) | some (.await _) | none => p
  { p with
    lost := true, launch := none, due := [], complPark := none, handles := [], wants := [], reserve := none
    clsets := p.clsets.filter (·.accepted), bn := [], bnTs := [], bnNow := [], bnRels := [], bnNowRels := [], bnPast := [], replicas := []
    rings := (List.range 16).map (fun r => (r, { p.ring r with park := none, head := [], stuck := true })) }

/-- A pause that the loss has ended leaves VFSTATE as it was before, and the messages of the pending bits follow (R389). -/
def State.endPause (s : State) (part : Nat) (job : Option Job) : State :=
  match job with
  | some (.pause _ vf) => s.setVfstate part vf
  | some (.remove ..) | some (.await _) | none => s

/-- The loss of a context (R413). -/
def State.loseContext (s : State) (part : Nat) (l : Loss) : State :=
  let (time, s) := s.now
  let ret := lossRetires l && (decide (s.retired.length < maxRetired) ||
    s.retired.any (fun x => x.1 == l.pa.toNat / 4096 * 4096))
  let dl := s.deadLetter part l ret time (bits (wordAt (s.part part).dl 6) 0 32 + 1)
  let s := (s.discardTasks part).modCores part (fun c => { c with sems := [], semRts := [], semRels := [] })
  let s := (s.modPart part Partition.loseContext).endPause part (s.part part).job
  let s := if lossRetires l then s.retire part l.pa.toNat else s
  let s := { s.modPart part (fun p => { p with dl }) with ecloss := countLoss s.ecloss l.cause }
  (s.raiseEvent part 4).pfEvent 6

/-- CONTEXT_LOSS (R412, R413); the physical function hears of every write of a DL block (R462). -/
def execContextLoss (part : Nat) (l : Loss) (s : State) : Out :=
  .next (
    if (s.part part).state = 0 ∨ (s.part part).state = 3 then s
    else if (s.part part).lost then (s.modPart part Partition.moreLoss).pfEvent 6
    else s.loseContext part (lossSettled l))

/-! Errors that no row of the opcode table reports: their counts, and what HBM marks poisoned (R407, R418; log 7). -/

/-- One more in a saturating count (R418). -/
def satInc (w : Word) : Word := if w = BitVec.allOnes 64 then w else w + 1

/-- The on-die ECC of HBM reports a burst of `n` words uncorrectable: every word of it is marked poisoned. A burst is read where no LLC
slice holds its line (R407). -/
def State.poisonBurst (s : State) (w n : Nat) : State :=
  if decide (Config.hbmEnd < 8 * (w + n)) || (List.range n).any (fun i => (Tab.find? s.homes ((w + i) / 16)).isSome) then s
  else { s with mem := (List.range n).foldl (fun m i => m.putSeal (w + i) (poisonSeal (m.word (w + i)))) s.mem }

/-- What the memory and the links report of themselves, as the next free value has it: nothing, a correction, a frame sent again, or
an uncorrectable burst of 1 to 32 words that does not leave a block of 256 bytes, and its place. -/
def State.mediaEvent (s : State) : Option State :=
  let x := Config.mediaWord s.fresh
  let t : State := { s with fresh := s.fresh + 1 }
  match (bits x 0 2).toNat with
  | 0 => none
  | 1 => some { t with echbm := satInc s.echbm }
  | 2 => if s.trained then some { t with eclink := satInc s.eclink } else none
  | _ =>
    let n := 2 ^ ((bits x 2 3).toNat % 6)
    some (t.poisonBurst ((bits x 8 40).toNat / n * n) n)

end Sys2Proof.Machine
end

