-- ==== Sys2Proof/Machine/Partitions.lean ====
section
/-! DEFINITION. Partitions (R335 to R343): creation, resize, removal of clusters, destruction, lending; budgets (R258, R259),
limiters (R347, R348), invalidations (R355), the fault ring (R357), reset of a function (R360). -/

namespace Sys2Proof.Machine

/-! Masks of physical clusters. -/

/-- The clusters of a mask, ascending. -/
def clustersOf (m : BitVec 32) : List Nat := (List.range 32).filter (fun c => bit m c)

/-- The clusters that a partition owns, lent ones included. -/
def State.owned (s : State) (part : Nat) : List Nat := (List.range 32).filter (fun c => (s.cluster c).owner == some part)

/-- A cluster is free in the capability table (R345). -/
def State.clusterFree (s : State) (c : Nat) : Bool :=
  (s.cluster c).owner.isNone && !(s.cluster c).scrubbing && !(s.cluster c).out

/-- A cluster of the partition is lent out (R342). -/
def State.lentOut (s : State) (part c : Nat) : Bool :=
  (s.cluster c).owner == some part && (s.cluster c).holder != some part

/-- A core whose stores hold zeros with valid seals and which serves nothing; its repairs stay (R337, R446). -/
def Core.fresh (c : Core) : Core :=
  ({ slots := allSlots.map (fun k => (slotIx k, { halted := true })), repair := c.repair } : Core).force

/-- The cores and the L2 slices of a cluster are written with zeros and valid seals, and its banks and slices hold no time of the
partition that had it (R252, R337, R339). -/
def State.freshCluster (s : State) (c : Nat) : State :=
  let s := ((List.range 8).foldl (fun s k => s.modCore (8 * c + k) Core.fresh) s).modCluster c
    (fun x => { x with l2 := [], l2Home := {}, l2HomeTs := [], memts := [], cl1Time := 0, line := [], granted := 0 })
  { s with bankRts := s.bankRts.filter (fun x => x.1 / 256 != c), bankRels := s.bankRels.filter (fun x => x.1 / 256 != c) }

/-! Adding clusters (R338). -/

/-- The copies of a new cluster's cores and its place in the list; they take effect at once, while launches run (R338). -/
def State.addCluster (s : State) (part c : Nat) : State :=
  let p := s.part part
  let s := s.setPart part { p with clusters := p.clusters ++ [c] }
  let upd : BitVec 32 := match p.clusters with | d :: _ => (s.core (8 * d)).updating | [] => 0
  ((List.range 8).foldl (fun s k => s.modCore (8 * c + k) (fun x => { x with cl := p.cl, updating := upd })) s).modCluster c
    (fun x => { x with holder := some part })

/-- Clusters added to their owner, each binding its channels and LLC slices (R3, R337, R338). -/
def State.bindClusters (s : State) (part : Nat) (l : List Nat) : State :=
  l.foldl (fun s c => (s.modCluster c (fun x => { x with owner := some part })).addCluster part c) s

/-- The power firmware sets the allotments: values of its own choice, of which it is only known that each is below 256 and that
they come to 7,200 at most (R426). While FWSAFE is 1 it is absent (R431). -/
def State.reallot (s : State) : State :=
  if s.fwsafe then s
  else ((List.range Config.numClusters).foldl (fun (x : Nat × State) c =>
    let (w, s) := x.2.free
    let a := min (bits w 0 8).toNat x.1
    (x.1 - a, s.modCluster c (fun k => { k with allot := a }))) (7200, s)).2

/-! CREATE (R337). -/

/-- The registers of the partition block stay; everything of context lifetime takes its reset value (R5, R335, R337). -/
def Partition.renew (p : Partition) (rgen : BitVec 16) : Partition :=
  { rgen, s2root := p.s2root, pincap := p.pincap, svroot := p.svroot, spdl := p.spdl, vfstate := p.vfstate
    pguar := p.pguar, pmargin := p.pmargin, plend := p.plend, err := p.err, lims := p.lims, fwin := p.fwin, facc := p.facc
    migimg := p.migimg, mimport := p.mimport, eperiod := p.eperiod, eperiodNow := p.eperiod, inv2 := p.inv2 }

/-- CREATE fills each bucket (R335). -/
def Partition.fillBuckets (p : Partition) (time : Word) : Partition :=
  { p with lims := (List.range 4).map (fun i =>
      let b := Tab.get {} p.lims i
      (i, { b with bytes := b.size, at_ := time })) }

/-- S2ROOT names no root: EN is 0, or the root is misaligned (R336, R350). -/
def Partition.badRoot (p : Partition) : Bool := !bit p.s2root 0 || bits p.s2root 1 15 != 0

/-- The first check of R336 that fails. -/
def firstErr : List (Nat × Bool) → Option Nat := firstReason

/-- A command's result (R335). -/
def State.setErr (s : State) (part : Nat) (n : Nat) : State := s.modPart part (fun p => { p with err := BitVec.ofNat 8 n })

/-- Virtual function part + 1 is enabled: port 1 owns functions 17 to 32 in 2 × x8 mode (R455, R456). -/
def State.vfEnabled (s : State) (part : Nat) : Bool :=
  if s.narrow && decide (16 ≤ part) then s.vfOn1 && decide (part - 16 < s.numVfs1) else s.vfOn && decide (part < s.numVfs)

/-- The check of CREATE (R336). -/
def State.createErr (s : State) (part : Nat) : Option Nat :=
  let p := s.part part
  firstErr [(1, p.state != 0), (14, !s.vfEnabled part), (2, p.pguar == 0 || p.pguar &&& p.pmargin != 0),
    (3, !(clustersOf (p.pguar ||| p.pmargin)).all s.clusterFree), (5, p.badRoot)]

/-- CREATE (R337). -/
def State.create (s : State) (part : Nat) : State :=
  match s.createErr part with
  | some e => s.setErr part e
  | none =>
    let p := s.part part
    let (time, s) := s.now
    let s := s.setPart part { (p.renew (p.rgen + 1)).fillBuckets time with margin := p.pmargin }
    let s := (s.bindClusters part (clustersOf p.pguar ++ clustersOf p.pmargin)).modPart part
      (fun p => { p with state := 1, err := 0 })
    s.reallot.capChanged

/-- A command acts when the host reaches the register, the partition exists and none is in progress (R335, R432). -/
def State.idleFor (s : State) (part : Nat) : Bool :=
  s.bootDone && decide (part < Config.numPartitions) && (s.part part).job.isNone

/-- CREATE (R337). -/
def execCreate (part : Nat) (s : State) : Out := .next (if s.idleFor part then s.create part else s)

/-! RESIZE (R338 to R340). -/

/-- The list changed: the guest's event, when the command was accepted in the present generation `gen`, and a dispatch step (R340,
R360). -/
def State.resized (s : State) (part : Nat) (gen : BitVec 16) : State :=
  let s := if gen = (s.part part).rgen then s.raiseEvent part 2 else s
  (s.dispatchStep part).getD s

/-- The new list of a resize: clusters added and clusters removed. -/
def State.resizeDiff (s : State) (part : Nat) : List Nat × List Nat :=
  let p := s.part part
  let new := clustersOf (p.pguar ||| p.pmargin)
  let old := s.owned part
  (new.filter (fun c => !old.contains c), old.filter (fun c => !new.contains c))

/-- The check of RESIZE (R336, R339). -/
def State.resizeErr (s : State) (part : Nat) : Option Nat :=
  let p := s.part part
  let (add, del) := s.resizeDiff part
  firstErr [(1, p.state != 1), (2, p.pguar == 0 || p.pguar &&& p.pmargin != 0 || (add.isEmpty && p.clusters.all del.contains)),
    (3, !add.all s.clusterFree), (4, del.any (s.lentOut part)), (5, p.badRoot)]

/-- Clusters in descending virtual number (R339). -/
def Partition.descending (p : Partition) (l : List Nat) : List Nat := (p.clusters.filter l.contains).reverse

/-- RESIZE: additions take effect at once; removals follow (R338, R339). -/
def State.resize (s : State) (part : Nat) (force : Bool) : State :=
  match s.resizeErr part with
  | some e => s.setErr part e
  | none =>
    let (add, del) := s.resizeDiff part
    let changed := !add.isEmpty || (s.part part).margin != (s.part part).pmargin
    let s := (s.bindClusters part add).reallot
    let s := s.modPart part (fun p => { p with margin := p.pmargin, err := 0 })
    let s := if changed then s.capChanged else s
    if del.isEmpty then s.resized part (s.part part).rgen
    else
      let s := s.modPart part (fun p => { p with state := 2, job := some (.remove (p.descending del) (!force) none), jobGen := p.rgen })
      if add.isEmpty then s else (s.dispatchStep part).getD s

/-- RESIZE (R338). -/
def execResize (part : Nat) (force : Bool) (s : State) : Out := .next (if s.idleFor part then s.resize part force else s)

/-! The departure of a cluster (R339). -/

/-- The cores of virtual clusters. -/
def Partition.coresAt (p : Partition) (l : List Nat) : List Nat :=
  l.flatMap (fun v => match p.clusters[v]? with | some c => (List.range 8).map (fun k => 8 * c + k) | none => [])

/-- Entries marked stale in the partition and on every core of it (R280). -/
def State.markStale (s : State) (part : Nat) (f : ClEntry → Bool) : State :=
  let stale (t : Tab ClEntry) : Tab ClEntry := t.map (fun e => (e.1, if f e.2 then { e.2 with stale := true } else e.2))
  (s.modCores part (fun c => { c with cl := stale c.cl })).modPart part (fun p => { p with cl := stale p.cl })

/-- Pinned pages that stand on the physical clusters `l` are written back and pinned no more (R262, R339). -/
def State.unpinClusters (s : State) (part : Nat) (l : List Nat) : State :=
  let on (x : Pin) : Bool := l.contains (if x.home = 1 then clusterOf x.phys else x.phys)
  (((s.part part).pins.filter on).foldl State.emptyPin s).modPart part (fun p => { p with pins := p.pins.filter (fun x => !on x) })

/-- The list without index `v`: the last cluster takes its place (R339, step 4). -/
def departed (l : List Nat) (v : Nat) : List Nat := (l.set v (l.getLastD 0)).take (l.length - 1)

/-- A reservation on the removed cluster `v` moves under the same choice; one on the last cluster goes with it (R293, R339). -/
def State.moveReserve (s : State) (part v last : Nat) : State :=
  match (s.part part).reserve, (s.part part).launch with
  | some (i, cs), some l =>
    let again := match Tab.find? l.nodes i with | some n => s.reserveFor part l i n | none => []
    let cs := if cs.any (fun x => x / 8 == v) then again else cs.map (fun x => if x / 8 = last then 8 * v + x % 8 else x)
    s.modPart part (fun p => { p with reserve := some (i, cs) })
  | _, _ => s

/-- Steps 3 to 7 of the departure of virtual cluster `v` (R339). The word of a borrowed cluster reads 0 at its new place (R342). -/
def State.depart (s : State) (part v : Nat) : State :=
  let p := s.part part
  let last := p.ncl - 1
  let old := p.clusters.getD v 0
  let moved := p.clusters.getD last 0
  let s := s.unpinClusters part [old, moved]
  let s := if v = last then s else (List.range 8).foldl (fun s k =>
    let from_ := s.core (8 * old + k)
    s.modCore (8 * moved + k) (fun c => { c with sems := from_.sems, semRts := from_.semRts, semRels := from_.semRels })) s
  let s := s.markStale part (fun e => e.names last)
  let s := s.freshCluster old
  (s.modPart part (fun p => { p with
    clusters := departed p.clusters v, departing := []
    budget := Tab.set (if s.borrowed part moved then Tab.set p.budget v 0 else p.budget) last 0 })).moveReserve part v last

/-- The LLC slices and the bypasses of a cluster's channels hold no time of the partition that had them (R252, R256). -/
def State.forgetTimes (s : State) (c : Nat) : State :=
  { s with
    homes := s.homes.filter (fun x => x.1 * 128 / Config.clusterBytes != c)
    homeDirty := s.homeDirty.filter (fun x => x * 128 / Config.clusterBytes != c)
    memts := s.memts.filter (fun x => x.1 / 12 != c)
    bypassRts := s.bypassRts.filter (fun x => x.1 / 12 != c)
    bypassRels := s.bypassRels.filter (fun x => x.1 / 12 != c) }

/-- The cluster belongs to no partition: its channels are scrubbed, and it is free after that (R337, R339). -/
def State.scrubbed (s : State) (c : Nat) : State :=
  (s.forgetTimes c).modCluster c (fun x => { x with owner := none, holder := none, scrubbing := true, recalled := false })

/-- What becomes of the cluster: it goes to the partition `to_`, back to its owner when `to_` is
absent by now, or is scrubbed when it belongs to none. `gen` is the generation of what gains it when that was asked for (R337, R339,
R342, R343). -/
def State.handOver (s : State) (c : Nat) (to_ : Option Nat) (gen : BitVec 16) : State :=
  let here (q : Nat) : Bool := (s.part q).state != 0
  match to_.bind (fun q => if here q then some q else (s.cluster c).owner.bind (fun o => if here o then some o else none)) with
  | some q => ((s.modCluster c (fun x => { x with recalled := false })).addCluster q c).resized q gen
  | none => s.scrubbed c

/-- The deadline of a stop that a removal requests: a revocation uses 50 µs at most (R362). -/
def State.removalDeadline (s : State) (part c : Nat) : Nat :=
  let d := (bits (s.part part).spdl 0 16).toNat
  if s.borrowed part c then min d 50 else d

/-- The job of a partition is over; one that has rested meanwhile goes on (R343). -/
def Partition.jobDone (p : Partition) : Partition :=
  match p.resting with
  | some (j, g, h) => { p with job := some j, jobGen := g, gainGen := h, resting := none }
  | none => { p with job := none, state := 1 }

/-- The job of a partition is over. -/
def State.jobDone (s : State) (part : Nat) : State := s.modPart part Partition.jobDone

/-- The cluster's owner wants it back: the return to it begins from the partition that holds it, and the generations of both are those
of this moment (R343, R360). -/
def State.recall (s : State) (c : Nat) : State :=
  let gen (q : Option Nat) : BitVec 16 := match q with | some q => (s.part q).rgen | none => 0
  s.modCluster c (fun x => { x with recalled := true, recallGen := gen x.holder, recallGain := gen x.owner })

/-- A recalled cluster that the partition has borrowed (R343). -/
def State.recalled (s : State) (part : Nat) : Option Nat :=
  (s.part part).clusters.find? (fun c => s.borrowed part c && (s.cluster c).recalled)

/-- The command in progress has no part that must end first: a removal waits for the launch slot, or a REVOKE for its cluster. A forced
return does not wait for it (R339, R343). -/
def Partition.canRest (p : Partition) : Bool :=
  match p.job with
  | none => p.state == 1
  | some (.await _) => p.resting.isNone
  | some (.remove _ waits _) => waits && p.launch.isSome && p.departing.isEmpty && p.resting.isNone
  | some (.pause ..) => false

/-- The return of a recalled cluster starts: a command in progress rests until it is over (R343). -/
def State.startReturn (s : State) (part : Nat) : Option State :=
  let p := s.part part
  match (if p.canRest then s.recalled part else none) with
  | none => none
  | some c =>
    let k := s.cluster c
    some (s.modPart part (fun p => { p with
      state := 2, job := some (.remove [c] false k.owner), jobGen := k.recallGen, gainGen := k.recallGain
      resting := p.job.map (fun j => (j, p.jobGen, p.gainGen)) }))

/-- CLUSTER_REMOVAL: the next act of the removal that a partition is in: the cluster and the last one are marked as departing
and their tasks cut, or, once both stand empty, the departure completes (R339). -/
def State.removal (s : State) (part : Nat) : Option State :=
  let p := s.part part
  (s.startReturn part).or <|
  match p.job with
  | none => none
  | some (.await c) => if (s.cluster c).recalled then none else some (s.jobDone part)
  | some (.pause ..) => none
  | some (.remove [] _ _) => some ((s.jobDone part).resized part p.jobGen)
  | some (.remove (c :: rest) waits give) =>
    if waits && p.launch.isSome then none
    else
      let v := p.clusters.findIdx (· == c)
      let leaving := p.coresAt (if v + 1 = p.ncl then [v] else [v, p.ncl - 1])
      if p.departing.isEmpty then
        some ((s.modPart part (fun p => { p with departing := [v, p.ncl - 1] })).stopAll leaving (s.removalDeadline part c))
      else if leaving.all (fun k => (s.core k).bind.isNone) then
        let s := ((s.depart part v).handOver c give p.gainGen).capChanged
        some (s.modPart part (fun p => { p with job := some (.remove rest waits give) }))
      else
        match leaving.find? (fun k => (s.core k).stoppable && (match (s.core k).stop with | .none => true | .soft _ | .slots .. => false)) with
        | some k => some (s.stopRequest k (s.removalDeadline part c))
        | none => none

/-- CLUSTER_REMOVAL (R339). -/
def execClusterRemoval (part : Nat) (s : State) : Out := .next ((s.removal part).getD s)

/-! DESTROY (R337). -/

/-- The holes of a destroyed partition are free, and their GEN advances (R331). -/
def State.freeHoles (s : State) (part : Nat) : State :=
  { s with holes := s.holes.map (fun h =>
      (h.1, if h.2.state ≠ 0 ∧ h.2.owner = part then { gen := nextGen h.2.gen } else h.2)) }

/-- The clusters that a destroyed borrower holds go back to their owners; its own are scrubbed (R337, R343). -/
def State.releaseClusters (s : State) (part : Nat) (l : List Nat) : State :=
  l.foldl (fun s c =>
    let s := s.freshCluster c
    match (s.cluster c).owner with
    | some q => if q = part then s.handOver c none 0 else s.handOver c (some q) (s.part q).rgen
    | none => s.handOver c none 0) s

/-- The clusters that a partition has lent out are recalled. DESTROY itself finds none (R336); the loss of the owner's function may
(R456, R463). -/
def State.recallLent (s : State) (part : Nat) : State :=
  ((List.range 32).filter (s.lentOut part)).foldl State.recall s

/-- The peers of a launch that waits for them, and the originators of replicas that wait, see that it has failed (R301, R326, R337). -/
def State.tellPeers (s : State) (part : Nat) : State :=
  let p := s.part part
  let s := match p.launch with | some l => s.tellEnded part l | none => s
  p.replicas.foldl (fun s k => match k.origin with | some d => s.tell part [d.1] (.report false) | none => s) s

/-- Host space and windows hold no time of the partition (R252). -/
def State.forgetFar (s : State) (part : Nat) : State :=
  { s with bypassRts := Tab.erase s.bypassRts (384 + part), bypassRels := Tab.erase s.bypassRels (384 + part) }

/-- DESTROY ends its launch and packets as END does, without a record (R337). -/
def State.destroy (s : State) (part : Nat) : State :=
  let p := s.part part
  let s := ((((s.tellPeers part).forgetFar part).recallLent part).discardTasks part).setPart part { p.renew p.rgen with state := 0, err := 0 }
  ((s.releaseClusters part p.clusters).freeHoles part).capChanged

/-- The check of DESTROY (R336). -/
def State.destroyErr (s : State) (part : Nat) : Option Nat :=
  firstErr [(1, (s.part part).state != 1), (4, (s.owned part).any (s.lentOut part))]

/-- DESTROY (R337). -/
def execDestroy (part : Nat) (s : State) : Out :=
  .next (if s.idleFor part then
    match s.destroyErr part with
    | some e => s.setErr part e
    | none => s.destroy part
  else s)

/-- A cluster's scrub is over: its channels hold zeros with valid seals, but for retired frames, and it is free (R337, R416). -/
def State.scrubCluster (s : State) (c : Nat) : State :=
  if (s.cluster c).scrubbing then
    let kept := s.retired.filter (fun (f : Nat × Nat) => f.1 / Config.clusterBytes == c)
    let old := s.mem
    let zero := s.mem.scrub (c * Config.clusterBytes / 8) (Config.clusterBytes / 8)
    { s with mem := kept.foldl (fun m (f : Nat × Nat) => m.blit (f.1 / 8) old (f.1 / 8) 512) zero }.modCluster c
      (fun x => { x with scrubbing := false })
  else s

/-- SCRUB_END (R337). -/
def execScrubEnd (clusters : BitVec 32) (s : State) : Out :=
  let l := (clustersOf clusters).filter (fun c => (s.cluster c).scrubbing)
  .next (if l.isEmpty then s else (l.foldl State.scrubCluster s).capChanged)

/-! Lending (R341 to R343). -/

/-- The one cluster of PLEND.MASK. -/
def Partition.lendCluster (p : Partition) : Option Nat :=
  match clustersOf (bits p.plend 0 32) with | [c] => some c | _ => none

/-- The check of LEND (R336). -/
def State.lendErr (s : State) (part : Nat) : Option Nat :=
  let p := s.part part
  let to_ := (bits p.plend 32 5).toNat
  match p.lendCluster with
  | none => firstErr [(1, p.state != 1), (6, true)]
  | some c => firstErr [(1, p.state != 1), (2, p.clusters == [c]),
      (6, !bit p.margin c || s.lentOut part c || (s.cluster c).owner != some part || (s.part to_).state != 1),
      (7, !bit p.mlend c)]

/-- LEND: the owner loses the cluster as in a removal, and the borrower gains it (R342). -/
def State.lend (s : State) (part : Nat) (force : Bool) : State :=
  match s.lendErr part, (s.part part).lendCluster with
  | some e, _ => s.setErr part e
  | none, none => s
  | none, some c => s.reallot.modPart part (fun p => { p with
      state := 2, err := 0, job := some (.remove [c] (!force) (some (bits p.plend 32 5).toNat)), jobGen := p.rgen
      gainGen := (s.part (bits p.plend 32 5).toNat).rgen })

/-- LEND (R342). -/
def execLend (part : Nat) (force : Bool) (s : State) : Out := .next (if s.idleFor part then s.lend part force else s)

/-- The check of REVOKE (R336). -/
def State.revokeErr (s : State) (part : Nat) : Option Nat :=
  let p := s.part part
  firstErr [(1, p.state != 1),
    (6, (s.part (bits p.plend 32 5).toNat).state != 1 ||
      (match p.lendCluster with | some c => !bit p.margin c || !s.lentOut part c | none => true))]

/-- REVOKE: the cluster is recalled, and the command lasts until it is back (R343). -/
def State.revoke (s : State) (part : Nat) : State :=
  match s.revokeErr part, (s.part part).lendCluster with
  | some e, _ => s.setErr part e
  | none, none => s
  | none, some c =>
    (s.recall c).modPart part
      (fun p => { p with state := 2, err := 0, job := some (.await c) })

/-- REVOKE (R343). -/
def execRevoke (part : Nat) (s : State) : Out := .next (if s.idleFor part then s.revoke part else s)

/-- REVOKE_SAVE_TIMEOUT: a task of a revoked cluster that has not been saved by 180 µs is not saved, and its launch ends
(R343). -/
def execRevokeSaveTimeout (part core : Nat) (s : State) : Out :=
  let p := s.part part
  .next (match (s.core core).bind, p.launch with
    | some b, some l =>
      if b.part = part && p.departing.contains (b.vcore / 8) &&
          (match p.job with | some (.remove (c :: _) _ _) => s.borrowed part c | _ => false) then s.endNow part l
      else s
    | _, _ => s)

/-- A write of MLEND: consent to lend; clearing the bit of a lent cluster recalls it at once (R341, R343). -/
def State.writeMlend (s : State) (part : Nat) (x : Word) : State :=
  if (s.part part).state = 0 then s
  else
    let s := (clustersOf (s.part part).mlend).foldl (fun s c =>
      if !bit x c && s.lentOut part c && !(s.cluster c).recalled then s.recall c else s) s
    s.modPart part (fun p => { p with mlend := bits x 0 32 })

/-- MLEND (R341, R343). -/
def execMlend (part : Nat) (x : Word) (s : State) : Out := .next (s.onHost (fun s => s.writeMlend part x))

/-! Budgets (R258, R259). -/

/-- A field of a budget word with its maximum. -/
def clampField (x : Word) (lo n top : Nat) : Nat := min (bits x lo n).toNat top

/-- The word that a write of `x` would store (R259). -/
def budgetStored (x : Word) : Word :=
  fieldsWord ((List.range 8).map (fun k => (5 * k, clampField x (5 * k) 5 16)) ++
    [(48, clampField x 48 5 24), (53, clampField x 53 5 24)])

/-- Totals of the core-store, L2 and LLC budgets (R258). -/
def budgetTotals (t : Tab Word) : Nat × Nat × Nat :=
  t.foldl (fun n w => (n.1 + (List.range 8).foldl (fun k i => k + (bits w.2 (5 * i) 5).toNat) 0,
    n.2.1 + (bits w.2 48 5).toNat, n.2.2 + (bits w.2 53 5).toNat)) (0, 0, 0)

/-- A write of the budget word of virtual cluster `v` is refused as a whole (R258, R259, R342). -/
def State.budgetRefused (s : State) (part v : Nat) (y : Word) : Bool :=
  let p := s.part part
  match p.clusters[v]? with
  | none => true
  | some c =>
    let old := budgetTotals p.budget
    let new := budgetTotals (Tab.set p.budget v y)
    let above (a b cap : Nat) : Bool := decide (cap < b) && decide (a < b)
    s.borrowed part c || above old.1 new.1 (bits p.pincap 0 13).toNat ||
      above old.2.1 new.2.1 (bits p.pincap 16 10).toNat || above old.2.2 new.2.2 (bits p.pincap 32 10).toNat ||
      (List.range 8).any (fun k => decide ((bits y (5 * k) 5).toNat * 65536 < p.pinned 1 (8 * c + k))) ||
      decide ((bits y 48 5).toNat * 0x40000 < p.pinned 2 c) || decide ((bits y 53 5).toNat * 2 ^ 20 < p.pinned 0 c)

/-- A write of the budget word of virtual cluster `v` (R259). -/
def State.writeBudget (s : State) (part v : Nat) (x : Word) : State :=
  let y := budgetStored x
  if s.budgetRefused part v y then s else s.modPart part (fun p => { p with budget := Tab.set p.budget v y })

/-- BUDGET_WORD (R259). -/
def execBudgetWord (part vcluster : Nat) (x : Word) (s : State) : Out := .next (s.onHost (fun s => s.writeBudget part vcluster x))

/-! Limiters (R347, R348). -/

/-- LIMITER_TRANSFER_START: a transfer of `n` bytes waits until B is not below 0 and starts; time passes until then (R348). -/
def execLimiterTransferStart (part : Nat) (which : Limiter) (n : Nat) (s : State) : Out :=
  .next ((s.now).2.transfer part which n)

/-- A write of a limiter's register leaves B unchanged, but for the new size (R348). -/
def State.writeLimiter (s : State) (part i : Nat) (x : Word) : State :=
  let (time, s) := s.now
  let b := (Tab.get {} (s.part part).lims i).refill time
  let b := { b with reg := x &&& 0x0000FFFFFFFFFFFF }
  s.modPart part (fun p => { p with lims := Tab.set p.lims i { b with bytes := min b.bytes b.size } })

/-! Invalidations (R355, R356). -/

/-- The range of a request: base and size (R355). -/
def invRange (x : Word) : Option (Nat × Nat) :=
  let n := (bits x 57 6).toNat
  if bit x 63 then some (0, 2 ^ 64)
  else if n < 12 ∨ 57 < n then none
  else some ((bits x 12 45).toNat * 4096 / 2 ^ n * 2 ^ n, 2 ^ n)

/-- A request is accepted while fewer than 16 are outstanding; else INVOVF is set (R355). -/
def Inval.request (v : Inval) (x : Word) (gen : BitVec 16) : Inval :=
  match invRange x with
  | none => v
  | some (a, n) =>
    if v.req - v.done < 16 then { v with req := v.req + 1, waiting := v.waiting ++ [(a, n, gen)] } else { v with ovf := true }

/-- S1INV (R355). -/
def execS1inv (part : Nat) (x : Word) (s : State) : Out :=
  .next (s.onHost (fun s =>
    if (s.part part).state = 0 then s else s.modPart part (fun p => { p with inv1 := p.inv1.request x p.rgen })))
/-- S2INV (R355). -/
def execS2inv (part : Nat) (x : Word) (s : State) : Out :=
  .next (s.onHost (fun s => s.modPart part (fun p => { p with inv2 := p.inv2.request x p.rgen })))

/-- Two ranges overlap in a byte. -/
def overlap (a n b m : Nat) : Bool := decide (a < b + m) && decide (b < a + n)

/-- The oldest request of a stage completes: no translation that matches it stays, and for stage 1 the matching pages have been
written back (R262, R355). A cached translation does not tell which tables it came from, so that a stage-2 request drops
every one of the partition. -/
def State.invalidated (s : State) (part : Nat) (st : Stage) : Option State :=
  let p := s.part part
  match st with
  | .s1 =>
    match p.inv1.waiting with
    | [] => none
    | (a, n, gen) :: rest =>
      let hit (x : Pin) : Bool := overlap x.va x.size a n
      let s := (p.pins.filter hit).foldl State.emptyPin s
      let s := s.modPart part (fun p => { p with
        pins := p.pins.filter (fun x => !hit x)
        tlb := p.tlb.filter (fun x => !overlap x.va x.size a n)
        inv1 := { p.inv1 with done := p.inv1.done + 1, waiting := rest } })
      some (if gen = p.rgen then s.raiseEvent part 3 else s)
  | .s2 =>
    match p.inv2.waiting with
    | [] => none
    | _ :: rest => some (s.modPart part (fun p => { p with
        tlb := [], inv2 := { p.inv2 with done := p.inv2.done + 1, waiting := rest } }))

/-- INVALIDATION_COMPLETE (R355). -/
def execInvalidationComplete (part : Nat) (stage : Stage) (s : State) : Out := .next ((s.invalidated part stage).getD s)

/-! The fault ring (R357). -/

/-- The oldest record is written to the physical function's fault ring once it has room; a record of work that a reset has
cut off is dropped (R357, R360). -/
def State.writeFault (s : State) : Option State :=
  match s.faultDue with
  | [] => none
  | d :: rest =>
    let part := (bits (wordAt d.words 0) 32 5).toNat
    if d.gen ≠ (s.part part).rgen then some { s with faultDue := rest }
    else if !s.faultRing.room then none
    else
      some ({ s.putHost (s.faultRing.addr s.faultRing.wi) d.words with
        faultDue := rest, faultRing := { s.faultRing with wi := s.faultRing.wi + 1 } }.pfEvent 0)

/-! Reset of a function (R360, R413). -/

/-- A ring after the reset that ends a loss (R413). -/
def Ring.afterLoss (r : Ring) : Ring :=
  { r with run := none, overrun := false, overrunDue := none, stuck := false, enable := false, rd := r.wi, resetDue := false, park := none }

/-- FUNCTION_LEVEL_RESET: the function's packets end as END ends them, and what they leave behind is dropped, since RGEN
advances (R360); a loss ends (R413). -/
def State.flr (s : State) (part : Nat) : State :=
  let lost := (s.part part).lost
  let s := (List.range 17).foldl (fun s r => s.endPacket part r) s
  s.modPart part (fun p =>
    { p with pend := 0, pmask := BitVec.allOnes 64, rgen := p.rgen + 1, lost := false
             due := if lost then [] else p.due, replicas := []
             rings := if lost then p.rings.map (fun r => (r.1, r.2.afterLoss)) else p.rings })

/-- FUNCTION_LEVEL_RESET (R360). -/
def execFunctionLevelReset (part : Nat) (s : State) : Out :=
  .next (s.onHost (fun s => if part < 32 then s.flr part else s))

end Sys2Proof.Machine
end

