-- ==== Sys2Proof/Machine/Migrate.lean ====
section
/-! DEFINITION. Pause and resume (R387 to R390) with the context image (R395 to R397), migration channels (R391 to R393), the
fabric (R382 to R386, R464) and the energy accounts (R401 to R403). -/

namespace Sys2Proof.Machine

/-! Energy (R401 to R403). -/

/-- What `n` sources of energy have come to in a period, in units of 2^-64 of a unit: of each a free amount below 2^40 units with its
fraction, as its monitor has measured it (R402; log 4). -/
def State.measured : Nat → State → Nat × State
  | 0, s => (0, s)
  | n + 1, s =>
    let (e, s) := s.free
    let (f, s) := s.free
    let (x, s) := State.measured n s
    (x + (zextOf e 40).toNat * 2 ^ 64 + f.toNat, s)

/-- A period's charge is added to a count: what `n` sources have come to, and `fixed` in units of 2^-64 (R402, R403). -/
def State.charge (s : State) (count frac : Word) (fixed n : Nat) : Word × Word × State :=
  let (x, s) := State.measured n s
  let sum := frac.toNat + x + fixed
  (count + BitVec.ofNat 64 (sum / 2 ^ 64), BitVec.ofNat 64 sum, s)

/-- The sources that a partition pays for: the rail of each cluster that it holds, a borrowed one among them, the channels and slices
of each that it owns, and the saves and restores of its tasks (R402, R344). -/
def State.sources (s : State) (part : Nat) : Nat :=
  (List.range Config.numClusters).countP (fun c => (s.cluster c).holder == some part) +
    (List.range Config.numClusters).countP (fun c => (s.cluster c).owner == some part) + 1

/-- The sources that no partition pays for: rail and channels of clusters that are free or scrubbing, the migration channels, and the
management complex (R402). -/
def State.freeSources (s : State) : Nat :=
  2 * (List.range Config.numClusters).countP (fun c => (s.cluster c).owner.isNone) + 2

/-- What a partition pays at fixed rates, in units of 2^-84 J: 20 pJ for a byte that LIMFAB has counted and 8 pJ for one of LIMHOST
(R402). -/
def Partition.fixedCharge (p : Partition) : Nat := (20 * p.fabBytes + 8 * p.hostBytes) * 2 ^ 84 / 10 ^ 12

/-- The end of an energy period of a partition (R403). -/
def State.closePeriod (s : State) (part : Nat) : State :=
  let p := s.part part
  let (n, f, s) := s.charge p.ecount p.efrac p.fixedCharge (s.sources part)
  (s.modPart part (fun p =>
    { p with ecount := n, efrac := f, eperiodNow := p.eperiod, fabBytes := 0, hostBytes := 0 })).raiseEvent part 5

/-- ENERGY_PERIOD_END (R403): what is charged to no partition goes to EDEV. A paused partition is charged nothing. -/
def execEnergyPeriodEnd (part : Nat) (s : State) : Out :=
  let (n, f, s) := s.charge s.edev s.edevFrac 0 s.freeSources
  let s := { s with edev := n, edevFrac := f }
  .next (if (s.part part).state = 1 ∨ (s.part part).state = 2 then s.closePeriod part else s)

/-! The context image (R395 to R397). -/

/-- Offset of the dispatcher's region. -/
def dispatcherAt : Nat := 0x80000

/-- The words of a launch graph that stands `at_` bytes behind the start of the dispatcher's region: the header of R282, the descriptors
with offsets from that start in place of addresses, then each node's lists (R395). -/
def graphWords (at_ nnode nspawn : Nat) (nodes : List Node) : List Word :=
  let succWords (n : Node) : List Word := packElems (n.succ.map (fun i => BitVec.ofNat 32 i))
  let opsWords (n : Node) : List Word := n.ops.flatMap (fun r =>
    [BitVec.ofInt 64 r.1, fieldsWord [(0, r.2.1), (63, if r.2.2 then 1 else 0)]])
  let lists (n : Node) : List Word := succWords n ++ opsWords n
  let start := at_ + 32 + 64 * nodes.length
  let descs := (nodes.foldl (fun (x : List Word × Nat) n =>
    let ops := x.2 + 8 * (succWords n).length
    (x.1 ++ ((padded 8 0 n.desc).set 2 (BitVec.ofNat 64 x.2)).set 3 (BitVec.ofNat 64 ops), x.2 + 8 * (lists n).length))
    (([] : List Word), start)).1
  [fieldsWord [(0, 0x48505247), (32, 1)], fieldsWord [(0, nnode), (32, nspawn)], 32, 0] ++ descs ++ nodes.flatMap lists

/-- A node of a graph region: its descriptor and its lists. The successors of a node that has been given one by AFTER are more
than NSUCC says; `extra` counts them. -/
def readNode (f : Saved) (d : List Word) (extra : Nat) : Node :=
  let n : Node := { desc := d }
  let succ := dispatcherAt + (wordAt d 2).toNat
  let ops := dispatcherAt + (wordAt d 3).toNat
  let k := n.nsucc + extra
  { n with
    succ := ((unpackElems (savedWords f succ ((k + 1) / 2))).take k).map (fun e => (bits e 0 16).toNat)
    ops := (List.range n.nops).map (fun i => operand (f (ops + 16 * i)) (f (ops + 16 * i + 8)))
    left := n.pred, cls := (bits (wordAt d 7) 0 2).toNat }

/-- The nodes of the graph region at `at_`. -/
def readNodes (f : Saved) (at_ n : Nat) (extra : Nat → Nat) : List Node :=
  (List.range n).map (fun i => readNode f (savedWords f (at_ + 32 + 64 * i) 8) (extra i))

/-- The index of a save slot under SVROOT (R370). -/
def Partition.slotIndex (p : Partition) (a : Nat) : Nat := (a - p.slotAddr 0) / 0x800000 % 4096

/-- STATE of a node record (R397). -/
def NodeSt.code : NodeSt → Nat
  | .waiting => 0 | .ready => 1 | .dispatched => 2 | .complete => 3 | .refused => 4

/-- A node record (R397). In w1's place of a node that has never run stand zeros. -/
def Partition.nodeRecord (p : Partition) (l : Launch) (i : Nat) (n : Node) : List Word :=
  let reserves := match p.reserve with | some (m, _) => m == i | none => false
  let slot (g : Nat) : Nat := match (n.seats[g]?).bind (·.save) with | some a => p.slotIndex a | none => 0
  [fieldsWord [(0, n.st.code), (4, flagsNat [(0, n.st == .ready && l.held n), (1, reserves), (2, n.requeued)]), (8, n.cls),
      (10, n.waited), (16, n.left), (32, n.seq.toNat)],
    fieldsWord ((n.seats.zipIdx).map (fun x => (8 * x.2, x.1.vcore))),
    fieldsWord ((List.range 4).map (fun g => (12 * g, slot g))), fieldsWord ((List.range 4).map (fun g => (12 * g, slot (4 + g))))]

/-- What a node record has no place for, in the spare words of the launch slot's holder: who has spawned the node, the successors that
AFTER has given it, the members that had finished or have no save slot, and how many have one. -/
def Node.spare (n : Node) : Word :=
  let marks (f : Seat → Bool) (lo : Nat) : List (Nat × Nat) := (n.seats.zipIdx).map (fun x => (lo + x.2, if f x.1 then 1 else 0))
  fieldsWord ([(0, match n.spawner with | some i => i + 1 | none => 0), (16, n.succ.length - n.nsucc)] ++
    marks (·.done) 32 ++ marks (·.save.isNone) 40 ++ [(48, n.seats.countP (·.save.isSome))])

/-- Offset of the node records of a launch of `n` nodes. -/
def recordsAt (n : Nat) : Nat := dispatcherAt + 320 + 8 * n

/-- The dispatcher's region: the launch slot's holder in 40 words, DL0 to DL7 in the last of them, and one for each node, node records, tracked ranges, the launch graph
(R395). -/
def Partition.launchWords (p : Partition) : List Word :=
  match p.launch with
  | none => List.replicate 32 0 ++ padded 8 0 p.dl
  | some l =>
    let nodes := l.nodes.map (·.2)
    let n := nodes.length
    let tracked := (nodes.filter (·.tracked)).flatMap (·.ops)
    let graphAt := recordsAt n + 32 * n + 16 * tracked.length
    let origin : Option (Nat × Nat) := if l.ring = replicaRing then (p.ring replicaRing).run.bind (·.origin) else none
    [fieldsWord [(0, flagsNat [(0, true), (1, l.hole.isSome), (2, l.ending.isSome), (3, l.closed)]),
        (4, match origin with | some o => o.2 | none => l.ring),
        (8, l.hole.getD 0), (16, (match l.ending with | some e => e.1.toNat | none => 0)), (32, l.gen.toNat)],
      BitVec.ofNat 64 l.pos, fieldsWord [(0, l.nnode), (32, l.nspawn)], fieldsWord [(0, n), (32, tracked.length)],
      fieldsWord [(0, p.seqNext.toNat), (32, match origin with | some o => o.1 + 1 | none => 0)], (match l.ending with | some e => e.2 | none => 0),
      BitVec.ofNat 64 graphAt, BitVec.ofNat 64 l.words.length] ++ padded 24 0 l.words ++
    padded 8 0 p.dl ++ nodes.map Node.spare ++
    (nodes.zipIdx).flatMap (fun x => p.nodeRecord l x.2 x.1) ++
    tracked.flatMap (fun r => [BitVec.ofInt 64 r.1, fieldsWord [(0, r.2.1), (63, if r.2.2 then 1 else 0)]]) ++
    graphWords (graphAt - dispatcherAt) l.nnode l.nspawn nodes

/-- The pigeonholes that a partition holds. -/
def State.heldHoles (s : State) (part : Nat) : List (Nat × Hole) := s.holes.filter (fun h => h.2.state != 0 && h.2.owner == part)

/-- The launch copies of held pigeonholes, with their offsets, from byte `at_` on. -/
def holeCopies (at_ : Nat) (l : List (Nat × Hole)) : List Word × List Nat :=
  l.foldl (fun (x : List Word × List Nat) h =>
    match h.2.copy with
    | some g =>
      let o := at_ + 8 * x.1.length
      (x.1 ++ graphWords (o - dispatcherAt) g.nodes.length g.nspawn g.nodes, x.2 ++ [o])
    | none => (x.1, x.2 ++ [0])) ([], [])

/-- A ring's block in the image: 48 words, its registers, its running packet and where that stands (R395). -/
def Ring.words (r : Ring) : List Word :=
  let k : Packet := r.run.getD { words := [], pos := 0, gen := 0 }
  [r.rbase, r.rcfg, BitVec.ofNat 64 r.wi, BitVec.ofNat 64 r.rd,
    fieldsWord [(0, flagsNat [(0, r.run.isSome), (1, r.overrun), (2, r.back), (3, r.resetDue), (4, k.started), (5, k.done),
      (6, r.overrunDue.isSome), (7, k.origin.isSome)]), (8, k.words.length), (16, k.gen.toNat),
      (32, match k.origin with | some o => o.1 | none => 0), (48, match k.origin with | some o => o.2 | none => 0)],
    BitVec.ofNat 64 k.pos, BitVec.ofNat 64 k.moved, BitVec.ofNat 64 (r.overrunDue.getD 0)] ++
  padded 24 0 k.words ++ padded 16 0 (k.marks.map (BitVec.ofNat 64))

/-- A ring from its block. -/
def Saved.ring (f : Saved) (a : Nat) (old : Ring) : Ring :=
  let w := f (a + 32)
  let k : Packet := { words := savedWords f (a + 64) (min (bits w 8 8).toNat 24), pos := (f (a + 40)).toNat, gen := bits w 16 16
                      started := bit w 4, moved := (f (a + 48)).toNat, done := bit w 5
                      marks := (savedWords f (a + 256) 16).map (·.toNat)
                      origin := if bit w 7 then some ((bits w 32 16).toNat, (bits w 48 16).toNat) else none }
  { old with
    rbase := f a, enable := bit (f (a + 8)) 0, loc := bit (f (a + 8)) 3, log2sz := bits (f (a + 8)) 4 5
    wi := (f (a + 16)).toNat, rd := (f (a + 24)).toNat, run := if bit w 0 then some k else none
    overrun := bit w 1, back := bit w 2, resetDue := bit w 3
    overrunDue := if bit w 6 then some (f (a + 56)).toNat else none }

/-- A held completion record: its words, then its event, generation and ring. -/
def Due.image (d : Due) : List Word :=
  padded 4 0 d.words ++ [fieldsWord [(0, flagsNat [(0, d.pend.isSome), (1, d.ring.isSome)]), (4, d.ring.getD 0), (8, d.pend.getD 0),
    (16, d.gen.toNat)], 0]

/-- A held completion record from its words. -/
def Saved.due (f : Saved) (a : Nat) : Due :=
  let w := f (a + 32)
  { words := savedWords f a 4, pend := if bit w 0 then some (bits w 8 8).toNat else none, gen := bits w 16 16
    ring := if bit w 1 then some (bits w 4 4).toNat else none }

/-- The largest of the numbers of a table at keys that `f` names. -/
def tabMax (f : Nat → Bool) (t : Tab Nat) : Nat := t.foldl (fun n x => if f x.1 then max n x.2 else n) 0

/-- The largest time that a core keeps: of its parties, its semaphores, its join bits, its cl0, and its banks (R252, R255). -/
def State.coreTime (s : State) (c : Nat) : Nat :=
  let k := s.core c
  let all (_ : Nat) : Bool := true
  max (max (max k.lastPts k.cl0Time) (max (tabMax all k.semRts) (tabMax all k.joinTs))) (tabMax (fun b => b / 32 == c) s.bankRts)

/-- The largest time of a member whose state stands in its save slot. -/
def Seat.time (x : Seat) : Nat :=
  max x.pts (match x.kept with
    | some k => max (k.slots.foldl (fun n t => max n t.pts) 0) (k.queues.foldl (fun n t => max n t.pts) 0)
    | none => 0)

/-- The largest logical timestamp of a partition (R252, R396): of its parties, those that have stopped among them, its lists, its
barriers, and the slices, banks and homes of its clusters. -/
def State.largestTime (s : State) (part : Nat) : Nat :=
  let p := s.part part
  let all (_ : Nat) : Bool := true
  let mine := s.owned part
  let channel (k : Nat) : Bool := mine.contains (k / 12)
  let cores := p.cores.foldl (fun n c => max n (s.coreTime c)) 0
  let rings := p.rings.foldl (fun n r => max n r.2.pts) 0
  let nodes := match p.launch with
    | some l => l.nodes.foldl (fun n x => max (max n x.2.ts) (x.2.seats.foldl (fun n y => max n y.time) 0)) 0
    | none => 0
  let homes := s.homes.foldl (fun n h => if mine.contains (h.1 * 128 / Config.clusterBytes) then max n h.2.rts else n) 0
  let slices := max (tabMax channel s.memts) (tabMax channel s.bypassRts)
  let clusters := p.clusters.foldl (fun n c =>
    let k := s.cluster c
    max n (max k.cl1Time (max (tabMax all k.memts) (k.l2HomeTs.foldl (fun n x => max n x.2.2) 0)))) 0
  let past := p.bnPast.foldl (fun n x => x.2.foldl (fun n y => max n y.2.1) n) 0
  let far := tabMax (fun k => k == 384 + part) s.bypassRts
  let lists := max (max (tabMax all p.listTime) (max past far)) (max (tabMax all p.bnTs) (tabMax all p.bnNow))
  max (max (max cores rings) (max nodes homes)) (max (max slices clusters) (max lists p.dispPts))

/-- VLIST0 to VLIST3 (R335). -/
def Partition.vlist (p : Partition) : List Word :=
  (List.range 4).map (fun i => fieldsWord ((List.range 8).map (fun j => (8 * j, p.clusters.getD (8 * i + j) 0xFF))))

/-- MIGIMG.BASE and the bytes of MIGIMG.SIZE (R391). -/
def Partition.imageAt (p : Partition) : Nat × Nat := ((bits p.migimg 20 32).toNat * 2 ^ 20, (bits p.migimg 52 12).toNat * 2 ^ 20)

/-- Held records for which the virtual function's region has room; the others follow the launch copies. -/
def maxHeld : Nat := 22

/-- Behind everything else, from byte `at_` on: what the save slots of members have no place for. For each save slot of a node, in the
order of the nodes and their members, one word with the offset of what belongs to it, 0 for none; then that (R1, R5; log 70). -/
def Partition.keptWords (p : Partition) (at_ : Nat) : List Word :=
  let blocks : List (List Word) := match p.launch with
    | some l => l.nodes.flatMap (fun x => (x.2.seats.filter (·.save.isSome)).map (fun y => match y.kept with | some k => k.words | none => []))
    | none => []
  let dir := blocks.foldl (fun (x : List Word × Nat) b =>
    (x.1 ++ [if b.isEmpty then 0 else BitVec.ofNat 64 x.2], x.2 + 8 * b.length)) (([] : List Word), at_ + 8 * blocks.length)
  dir.1 ++ blocks.flatten

/-- The regions of the image (R395). `time` is TPAUSE. The virtual function's region has room behind its rings for what else is of context
lifetime: behind the buckets, INVOVF and the rings that wait for the launch slot; last, the place of a replica (log 70). `full` says
that what follows the regions of R395 is asked for, and it stands there where MIGIMG.SIZE has room. -/
def State.imageRegions (s : State) (part : Nat) (time : Word) (full : Bool) : List (Nat × List Word) :=
  let p := s.part part
  let disp := p.launchWords
  let held := s.heldHoles part
  let copies := holeCopies (dispatcherAt + 8 * disp.length) held
  let more := (p.due.drop maxHeld).flatMap Due.image
  let moreAt := dispatcherAt + 8 * (disp.length + copies.1.length)
  let keptAt := moreAt + 8 * more.length
  let kept := p.keptWords keptAt
  let kept := if full && decide (keptAt + 8 * kept.length ≤ p.imageAt.2) then kept else []
  let len := keptAt + 8 * kept.length
  let due := p.due.take maxHeld
  let header := [fieldsWord [(0, 0x4D494752), (32, 1), (48, p.ncl)], BitVec.ofNat 64 len,
    fieldsWord [(0, part), (32, s.device)]] ++ p.vlist ++ [BitVec.ofNat 64 (s.largestTime part), p.rgen.setWidth 64,
      zextOf p.clapper 32, p.phole, p.ecount, zextOf p.eperiod 20, time]
  let sems (v : Nat) : List Word := match p.physCore v with
    | some c => packElems ((List.range 256).map (fun n => Tab.get 0 (s.core c).sems n))
    | none => []
  [(0, header), (0x70, List.replicate 498 0)] ++
  (List.range 16).map (fun r => (0x1000 + 384 * r, (p.ring r).words)) ++
  [(0x2E80, (p.ring replicaRing).words)] ++
  [(0x2800, [p.compl.base, p.compl.ccfg, BitVec.ofNat 64 p.compl.wi, BitVec.ofNat 64 p.compl.ri, p.pend, p.pmask,
      p.mlend.setWidth 64, p.s1root, BitVec.ofNat 64 p.inv1.req, BitVec.ofNat 64 p.inv1.done,
      fieldsWord [(0, p.due.length), (32, moreAt)], p.winbase, p.winerr] ++
      (List.range 4).map (fun i => BitVec.ofInt 64 (Tab.get {} p.lims i).bytes) ++
      [fieldsWord [(0, flagsNat [(0, p.inv1.ovf)]), (8, p.wants.length), (32, if kept.isEmpty then 0 else keptAt)]] ++
      (List.range 3).map (fun i => fieldsWord ((List.range 8).map (fun j => (8 * j, p.wants.getD (8 * i + j) 0))))),
    (0x2900, (List.range 32).map (fun v => Tab.get 0 p.budget v)), (0x2A00, due.flatMap Due.image),
    (0x3000, List.replicate 32 0),
    (0x3100, (List.range 28).flatMap (fun i => (List.range 8).map (fun k => (Tab.get ({} : ClEntry) p.cl (i + 4)).word k))),
    (0x3800, (List.range 64).map (fun b => Tab.get 0 p.bn b))] ++
  (List.range (8 * p.ncl)).map (fun v => (0x4000 + 1024 * v, sems v)) ++
  [(0x44000, ((held.zip copies.2).flatMap (fun x => [fieldsWord [(0, x.1.1), (8, x.1.2.kind.toNat), (16, x.1.2.base),
      (24, x.1.2.state)], fieldsWord [(0, x.1.2.gen.toNat), (32, x.1.2.bgen.toNat)], BitVec.ofNat 64 x.2, 0, 0, 0, 0, 0]))),
    (0x44000 + 64 * held.length, List.replicate (8 * (256 - held.length)) 0),
    (dispatcherAt, disp ++ copies.1 ++ more ++ kept)]

/-- Bytes of the image at worst, when every spawn has happened: a record, a spare word and a descriptor for each, the longest lists that
R284 admits and the place in its spawner's list, and as many tracked ranges as R289 allows (R387, ERR 11; log 71). -/
def State.imageWorst (s : State) (part : Nat) : Nat :=
  let regions := s.imageRegions part 0 false
  let now := match regions.getLast? with | some (a, l) => a + 8 * l.length | none => 0
  match (s.part part).launch with
  | some l =>
    let lists := 8 * ((l.nnode + 1) / 2) + 16 * 64
    now + (l.nnode + l.nspawn - l.nodes.length) * (32 + 8 + 64 + lists + 8) + 16 * Config.maxRanges
  | none => now

/-- The image is written, each word with a valid seal: its MAGIC first as 0 and last as itself (R388, R389). -/
def State.writeImage (s : State) (part : Nat) (time : Word) : State :=
  let base := ((s.part part).imageAt).1
  { s with mem := (s.imageRegions part time true).foldl (fun m r =>
      m.writeWords ((base + r.1) / 8) (r.2.map (fun w => (w, sealOf w)))) s.mem }

/-! Pause (R387 to R389). -/

/-- The check of a pause (R387). While a loss is in progress it fails at once (R389). -/
def State.pauseErr (s : State) (part : Nat) : Option Nat :=
  let p := s.part part
  firstErr [(1, p.state != 1), (13, p.lost), (10, p.waitsPeers.isSome || !p.replicas.isEmpty),
    (11, decide (p.imageAt.2 < s.imageWorst part)),
    (12, (s.owned part).any (s.lentOut part) || p.clusters.any (s.borrowed part))]

/-- PAUSE: step 1, and the stop of every resident task (R388). -/
def State.pause (s : State) (part : Nat) : State :=
  match s.pauseErr part with
  | some e => s.setErr part e
  | none =>
    let p := s.part part
    let s := (s.modPart part (fun p => { p with job := some (.pause 2 p.vfstate) })).setVfstate part 2
    s.stopAll (p.cores.filter (fun c => (s.core c).bind.isSome)) (bits p.spdl 0 16).toNat

/-- PAUSE (R387). -/
def execPause (part : Nat) (s : State) : Out := .next (if s.idleFor part then s.pause part else s)

/-- A pinned page is written back under a pause: its stage-2 leaf takes D, and its copy is gone (R388, R394). -/
def State.pausePin (s : State) (x : Pin) : State :=
  let s := s.emptyPin x
  let e := s.mem.word (x.leaf / 8)
  if bit e 0 && bit e 1 && bit e 3 && !bit e 6 then { s with mem := s.mem.store (x.leaf / 8) (e ||| 0x60) } else s

/-- The caches of the partition hold nothing more (R251, R388). -/
def State.dropCaches (s : State) (part : Nat) : State :=
  let drop (t : Tab CacheLine) : Tab CacheLine := t.filter (fun l => l.2.part != part)
  ((s.part part).clusters.foldl (fun s c => s.modCluster c (fun k => { k with l2 := drop k.l2 }))
    (s.modCores part (fun c => { c with lease := drop c.lease }))).modPart part (fun p => { p with tlb := [] })

/-- The next act of a pause: a task that has not been asked to stop is; packets that complete by themselves do; invalidations
complete; then pages go back, the energy period closes, and the image is written (R388, steps 2 to 7). -/
def State.pauseStep (s : State) (part : Nat) : Option State :=
  let p := s.part part
  match p.job with
  | some (.pause _ _) =>
    let busy := p.cores.filter (fun c => (s.core c).bind.isSome)
    match busy.find? (fun c => (s.core c).stoppable && (match (s.core c).stop with | .none => true | .soft _ | .slots .. => false)) with
    | some c => some (s.stopRequest c (bits p.spdl 0 16).toNat)
    | none =>
      match (List.range 16).findSome? (fun r => s.packetStep part r) with
      | some s => some s
      | none =>
        if !busy.isEmpty || p.clsets.any (fun x => x.accepted || x.ofRing) then none
        else match s.invalidated part .s1 with
          | some s => some s
          | none =>
            let s := (p.pins.foldl State.pausePin s).modPart part (fun p => { p with pins := [] })
            let s := (s.dropCaches part).closePeriod part
            let (time, s) := s.now
            some ((s.writeImage part time).modPart part (fun p =>
              { p with state := 4, job := none, err := 0, efrac := 0, paused := some time }))
  | some (.remove ..) | some (.await _) | none => none

/-! Resume (R390). -/

/-- The context image of a partition as a resume reads it: a damaged word once more (R396, R406). -/
def State.imageRead (s : State) (part : Nat) : Mem :=
  let x := (s.part part).imageAt
  s.reread x.1 x.2 [(0, x.2)]

/-- Every word of the image has a valid seal (R396). -/
def Mem.imageSealed (m : Mem) (len : Nat) : Bool :=
  (List.range (len / 8)).all (fun i => sealOk (m.word i) (m.sealAt i))

/-- MAGIC, VERSION, LEN and the zero fields are right (R396). -/
def Saved.imageOk (f : Saved) (size : Nat) : Bool :=
  bits (f 0) 0 32 == 0x4D494752 && bits (f 0) 32 16 == 1 && decide ((f 8).toNat ≤ size) && decide (dispatcherAt ≤ (f 8).toNat) &&
    bits (f 0x10) 5 27 == 0 && bits (f 0x10) 44 20 == 0 && bits (f 0x40) 16 48 == 0 && bits (f 0x48) 32 32 == 0 &&
    bits (f 0x60) 20 44 == 0 && (savedWords f 0x70 498).all (· == 0)

/-- The holes of an image: number and block address. -/
def Saved.holes (f : Saved) : List (Nat × Nat) :=
  (List.range 256).filterMap (fun i =>
    let a := 0x44000 + 64 * i
    if bits (f a) 24 2 = 0 then none else some ((bits (f a) 0 8).toNat, a))

/-- Nodes of the launch that an image holds. -/
def Saved.numNodes (f : Saved) : Nat := if bit (f dispatcherAt) 0 then (bits (f (dispatcherAt + 24)) 0 32).toNat else 0

/-- Offset of node record `i`. -/
def Saved.recordAt (f : Saved) (i : Nat) : Nat := recordsAt f.numNodes + 32 * i

/-- Every node record keeps to R397: its reserved bits are 0, and its STATE is one that a pause leaves. -/
def Saved.recordsOk (f : Saved) : Bool :=
  (List.range f.numNodes).all (fun i =>
    let a := f.recordAt i
    !bit (f a) 7 && !bit (f a) 3 && bits (f (a + 16)) 48 16 == 0 && bits (f (a + 24)) 48 16 == 0 &&
      [0, 1, 3, 4].contains (bits (f a) 0 3).toNat)

/-- The save slots that the node records of an image name. -/
def Saved.slotsNamed (f : Saved) : List Nat :=
  let n := f.numNodes
  (List.range n).flatMap (fun i =>
    let a := f.recordAt i
    if !bit (f a) 6 then []
    else
      let graphAt := (f (dispatcherAt + 48)).toNat
      let g := (bits (f (graphAt + 32 + 64 * i + 56)) 8 3).toNat + 1
      (List.range g).map (fun k => (bits (f (a + (if k < 4 then 16 else 24))) (12 * (k % 4)) 12).toNat))

/-- The check of a resume (R387). -/
def State.resumeErr (s : State) (part : Nat) : Option Nat :=
  let p := s.part part
  let size := p.imageAt.2
  let m := s.imageRead part
  let f := m.saved
  if p.state ≠ 4 then some 1
  else if !f.imageOk size || !m.imageSealed (f 8).toNat || !f.recordsOk then some 8
  else
    let caps := budgetTotals ((List.range 32).map (fun v => (v, f (0x2900 + 8 * v))))
    if (bits (f 0) 48 16).toNat ≠ p.ncl ∨
        f.holes.any (fun h => (s.hole h.1).state != 0 && (s.hole h.1).owner != part) ∨
        f.slotsNamed.any (fun m => decide ((bits p.svroot 52 12).toNat ≤ m)) ∨
        (bits p.pincap 0 13).toNat < caps.1 ∨ (bits p.pincap 16 10).toNat < caps.2.1 ∨
        (bits p.pincap 32 10).toNat < caps.2.2 then some 9
    else none

/-- How many members of nodes before node `i` have a save slot, as the spare words of the dispatcher's region say. -/
def Saved.slotsBefore (f : Saved) (i : Nat) : Nat :=
  ((List.range i).map (fun j => (bits (f (dispatcherAt + 320 + 8 * j)) 48 4).toNat)).sum

/-- A node from its record, its descriptor and lists, and what the partition has kept of it; `word` reads a word of its memory (R373). -/
def Saved.node (f : Saved) (p : Partition) (word : Nat → Nat) (graphAt i : Nat) (old : Option Node) : Node :=
  let a := f.recordAt i
  let w := f a
  let x := f (dispatcherAt + 320 + 8 * i)
  let spawner := if bits x 0 16 = 0 then none else some ((bits x 0 16).toNat - 1)
  let n := { readNode f (savedWords f (graphAt + 32 + 64 * i) 8) (bits x 16 16).toNat with spawner, ts := (f 0x38).toNat }
  let n := match old with | some o => { n with desc := o.desc, park := o.park, ts := o.ts } | none => n
  let requeued := bit w 6
  let slot (g : Nat) : Nat := p.slotAddr (bits (f (a + (if g < 4 then 16 else 24))) (12 * (g % 4)) 12).toNat
  let seat (g : Nat) : Seat :=
    let keep := old.bind (fun o => o.seats[g]?)
    let dir := (bits (f 0x2888) 32 32).toNat
    let before := f.slotsBefore i + ((List.range g).filter (fun j => !bit x (40 + j))).length
    let kept := if dir = 0 ∨ bit x (40 + g) then none
      else f.keptAt (f (dir + 8 * before)).toNat (word (slot g + 0x430)) p.clsetNum
    let y : Seat := keep.getD { vcore := 0, done := bit x (32 + g), pts := (f 0x38).toNat, kept }
    { y with
      vcore := (bits (f (a + 8)) (8 * g) 8).toNat, save := if bit x (40 + g) then none else some (slot g), away := true
      csSize := if keep.isSome || y.done then y.csSize else word (slot g + 0x18) }
  { n with
    st := match (bits w 0 3).toNat with | 0 => .waiting | 1 => .ready | 2 => .dispatched | 3 => .complete | _ => .refused
    cls := (bits w 8 2).toNat, waited := (bits w 10 6).toNat, left := (bits w 16 16).toNat, seq := bits w 32 32, requeued
    seats := if requeued then (List.range n.members).map seat else [] }

/-- The device that has sent the packet of the launch, when it is a replica (R301). -/
def Saved.originOf (f : Saved) : Option Nat :=
  if bits (f (dispatcherAt + 32)) 32 16 = 0 then none else some ((bits (f (dispatcherAt + 32)) 32 16).toNat - 1)

/-- The launch that the image holds (R395). -/
def Saved.launch (f : Saved) (p : Partition) (word : Nat → Nat) (old : Option Launch) : Option Launch :=
  let w := f dispatcherAt
  if !bit w 0 then none
  else
    let n := f.numNodes
    let graphAt := (f (dispatcherAt + 48)).toNat
    some {
      ring := if f.originOf.isSome then replicaRing else (bits w 4 4).toNat, hole := if bit w 1 then some (bits w 8 8).toNat else none, closed := bit w 3, gen := bits w 32 16
      ending := if bit w 2 then some (bits w 16 8, f (dispatcherAt + 40)) else none
      pos := (f (dispatcherAt + 8)).toNat, nnode := (bits (f (dispatcherAt + 16)) 0 32).toNat
      nspawn := (bits (f (dispatcherAt + 16)) 32 32).toNat
      words := savedWords f (dispatcherAt + 64) (min (f (dispatcherAt + 56)).toNat 24)
      id := match old with | some l => l.id | none => 0
      nodes := (List.range n).map (fun i => (i, f.node p word graphAt i (old.bind (fun l => Tab.find? l.nodes i)))) }

/-- A hole from its block (R390, R395). -/
def Saved.hole (f : Saved) (a part : Nat) : Hole :=
  let o := (f (a + 16)).toNat
  let n := (bits (f (o + 8)) 0 32).toNat
  { state := (bits (f a) 24 2).toNat, owner := part, kind := bits (f a) 8 2, base := (bits (f a) 16 8).toNat
    gen := bits (f (a + 8)) 0 32, bgen := bits (f (a + 8)) 32 32
    copy := if o = 0 then none else some { nodes := readNodes f o n (fun _ => 0), nspawn := (bits (f (o + 8)) 32 32).toNat } }

/-- What the image gives the partition (R390). `own` says that this device has written it for this partition, so that what it
has no place for is still here; `dev` that it comes from another device. -/
def Partition.fromImage (p : Partition) (f : Saved) (word : Nat → Nat) (time : Word) (own dev : Bool) : Partition :=
  let ring (r : Nat) : Ring :=
    let x := f.ring (if r = replicaRing then 0x2E80 else 0x1000 + 384 * r) (if own then p.ring r else {})
    if dev && !x.loc then { x with enable := false } else x
  let ccfg := f 0x2808
  let l := f.launch p word (if own then p.launch else none)
  let waiting := (List.range (min (bits (f 0x2888) 8 8).toNat 24)).map (fun i =>
    (bits (f (0x2890 + 8 * (i / 8))) (8 * (i % 8)) 8).toNat)
  { p with
    rings := (List.range 17).map (fun r => (r, ring r))
    compl := { base := f 0x2800, enable := bit ccfg 0 && (!dev || bit ccfg 3), loc := bit ccfg 3, log2sz := bits ccfg 4 5
               wi := (f 0x2810).toNat, ri := (f 0x2818).toNat }
    pend := f 0x2820, pmask := f 0x2828, mlend := bits (f 0x2830) 0 32, s1root := f 0x2838
    inv1 := { p.inv1 with req := (f 0x2840).toNat, done := (f 0x2848).toNat, ovf := bit (f 0x2888) 0 }
    dl := savedWords f (dispatcherAt + 256) 8, fabBytes := 0, hostBytes := 0
    due := (List.range (bits (f 0x2850) 0 32).toNat).map (fun i =>
      f.due (if i < maxHeld then 0x2A00 + 48 * i else (bits (f 0x2850) 32 32).toNat + 48 * (i - maxHeld)))
    winbase := f 0x2858, winerr := f 0x2860
    lims := if own then p.lims else (List.range 4).map (fun i =>
      let b := Tab.get {} p.lims i
      (i, { b with bytes := min (f (0x2868 + 8 * i)).toInt b.size, at_ := time }))
    budget := (List.range 32).map (fun v => (v, f (0x2900 + 8 * v)))
    cl := (List.range 28).map (fun i =>
      let w := savedWords f (0x3100 + 64 * i) 8
      (i + 4, { ClEntry.ofImage w with stale := bit (wordAt w 4) 62, ver := bits (wordAt w 4) 48 4 }))
    bn := (List.range 64).map (fun b => (b, f (0x3800 + 8 * b)))
    rgen := bits (f 0x40) 0 16, clapper := f 0x48, phole := f 0x50, ecount := f 0x58, efrac := 0, eperiodNow := p.eperiod
    seqNext := bits (f (dispatcherAt + 32)) 0 32
    launch := l
    ba := match l with
      | some x => if pkind x.words = 2 then (baWords x.words).zipIdx.map (fun y => (y.2, y.1)) else []
      | none => []
    wants := waiting
    handles := if own then p.handles else [], clsets := if own then p.clsets else []
    reserve := if own then p.reserve else none }

/-- Semaphore counts and table copies go to the partition's cores (R390). -/
def State.restoreCores (s : State) (part : Nat) (f : Saved) (own : Bool) : State :=
  let p := s.part part
  let ptime := (f 0x38).toNat
  (List.range (8 * p.ncl)).foldl (fun s v =>
    match p.physCore v with
    | some c => s.modCore c (fun k => { k with
        cl := p.cl
        semRts := if ptime = 0 then k.semRts
          else (List.range 256).map (fun n => (n, max ptime (if own then Tab.get 0 k.semRts n else 0)))
        semRels := if own then k.semRels else []
        sems := ((unpackElems (savedWords f (0x4000 + 1024 * v) 128)).zipIdx).filterMap (fun x =>
          if x.1 = 0 then none else some (x.2, x.1)) })
    | none => s) s

/-- Every slice and holder of the partition takes MEMTS and RTS at least PTIME (R252, R256, R390). -/
def State.raiseTimes (s : State) (part ptime : Nat) : State :=
  let p := s.part part
  let up (t : Tab Nat) (i : Nat) : Tab Nat := Tab.set t i (max ptime (Tab.get 0 t i))
  let slices := (s.owned part).flatMap (fun c => (List.range 12).map (fun k => 12 * c + k))
  let banks := p.cores.flatMap (fun c => (List.range 32).map (fun k => 32 * c + k))
  let mine (l : Nat) : Bool := (s.owned part).contains (l * 128 / Config.clusterBytes)
  let s := { s with
    memts := slices.foldl up s.memts, bypassRts := up (slices.foldl up s.bypassRts) (384 + part)
    homes := s.homes.map (fun h => if mine h.1 then (h.1, { h.2 with rts := max ptime h.2.rts }) else h), bankRts := banks.foldl up s.bankRts }
  p.clusters.foldl (fun s c => s.modCluster c (fun k => { k with memts := (List.range 48).foldl up k.memts })) s

/-- The node whose record has RESERVES reserves again: its cores are chosen anew, since the record does not name them (R293, R397). -/
def State.reserveAgain (s : State) (part : Nat) (f : Saved) : State :=
  match (s.part part).launch, (List.range f.numNodes).find? (fun i => bit (f (f.recordAt i)) 5) with
  | some l, some i =>
    match Tab.find? l.nodes i with
    | some n => s.modPart part (fun p => { p with reserve := some (i, s.reserveFor part l i n) })
    | none => s
  | _, _ => s

/-- RESUME (R390). -/
def State.resume (s : State) (part : Nat) : State :=
  match s.resumeErr part with
  | some e => s.setErr part e
  | none =>
    let p := s.part part
    let f := (s.imageRead part).saved
    let s := s.countSeal (s.mendedIn p.imageAt.1 p.imageAt.2 [(0, (f 8).toNat)])
    let dev := (bits (f 0x10) 32 12).toNat != s.device
    let own := !dev && (bits (f 0x10) 0 5).toNat == part && p.paused == some (f 0x68)
    let word (a : Nat) : Nat := (s.mem.word (a / 8)).toNat
    let time := s.timebase
    let s := s.modPart part (fun p => p.fromImage f word time own dev)
    let s := f.holes.foldl (fun s h => s.setHole h.1 (f.hole h.2 part)) s
    let s := (s.restoreCores part f own).raiseTimes part (f 0x38).toNat
    let s := if f.holes.isEmpty then s else s.capChanged
    let s := if dev || savedWords f 0x18 4 != p.vlist then s.markStale part (fun e => e.valid) else s
    let s := s.modPart part (fun p => { p with state := 1, err := 0, paused := none })
    let s := if own then s else s.reserveAgain part f
    let s := (s.raiseEvent part 2).setVfstate part 0
    (s.dispatchStep part).getD s

/-- RESUME (R390). -/
def execResume (part : Nat) (s : State) : Out := .next (if s.idleFor part then s.resume part else s)

/-! Migration channels (R392, R393). -/

/-- Channel `c`. -/
def State.channel (s : State) (c : Nat) : Channel := Tab.get {} s.channels c
/-- Channel `c` changed. -/
def State.modChannel (s : State) (c : Nat) (f : Channel → Channel) : State := { s with channels := Tab.set s.channels c (f (s.channel c)) }

/-- A channel's copy ends: DONE, and its event (R392, R462). -/
def State.endChannel (s : State) (c : Nat) (err : BitVec 4) : State :=
  (s.modChannel c (fun x => { x with busy := false, done := true, aborting := false, err })).pfEvent 4

/-- Bytes of a channel's copy. -/
def Channel.bytes (x : Channel) : Nat := (bits x.len 0 40).toNat / 64 * 64

/-- GO: a source outside HBM or misaligned ends the copy with ERR 1 (R392). -/
def State.goChannel (s : State) (c : Nat) : State :=
  let x := s.channel c
  if x.busy then s
  else
    let s := s.modChannel c (fun x => { x with busy := true, moved := 0, pos := 0, err := 0, aborting := false })
    if !aligned x.src 64 || decide (Config.hbmEnd < x.src.toNat + x.bytes) then s.endChannel c 1 else s

/-- GO (R392). -/
def execGo (channel : Nat) (s : State) : Out := .next (s.onHost (fun s => if channel < 4 then s.goChannel channel else s))

/-- ABORT: the copy stops after the word in progress (R392). -/
def execAbort (channel : Nat) (s : State) : Out :=
  .next (s.onHost (fun s =>
    if channel < 4 ∧ (s.channel channel).busy then s.modChannel channel (fun x => { x with aborting := true }) else s))

/-- The partition whose channels hold a physical address admits the words of a device's channels: it is paused, and its
MIMPORT names the device (R391, R393). -/
def State.imports (s : State) (pa dev : Nat) : Bool :=
  decide (pa < Config.hbmEnd) &&
    match (s.cluster (pa / Config.clusterBytes)).owner with
    | some q => (s.part q).state == 4 && bit (s.part q).mimport 63 && (bits (s.part q).mimport 0 12).toNat == dev
    | none => false

/-- A word of a channel is written at this device, past every cached copy (R393). -/
def State.importWord (s : State) (pa : Nat) (w : Word) (sl : BitVec 8) : State :=
  { s with mem := s.mem.write (pa / 8) w sl, homes := Tab.erase s.homes (pa / 128), homeDirty := s.homeDirty.filter (· != pa / 128) }

/-- The next word of a channel's copy, with its seal; a retired frame is skipped at either end (R393, R416). A far end of another device
accepts a word or refuses it: a free choice (log 4). -/
def State.channelWord (s : State) (c : Nat) : State :=
  let x := s.channel c
  let src := x.src.toNat + x.pos
  let dev := (bits x.dst 52 12).toNat
  let dst := (bits x.dst 0 52).toNat + x.pos
  let next (s : State) : State := s.modChannel c (fun x => { x with moved := x.moved + 8, pos := x.pos + 8 })
  let w := s.mem.word (src / 8)
  let sl := s.mem.sealAt (src / 8)
  if s.retiredIn src 8 || (dev == s.device && s.retiredIn dst 8) then s.modChannel c (fun x => { x with pos := x.pos + 8 })
  else if dev = s.device then (if s.imports dst dev then next (s.importWord dst w sl) else s.endChannel c 2)
  else
    let (b, s) := s.free
    if bit b 0 then s.endChannel c 2 else next (s.send (.channel dev dst w sl))

/-- A channel that is copying moves its next word, or ends. -/
def State.channelStep (s : State) (c : Nat) : Option State :=
  let x := s.channel c
  if !x.busy then none
  else if x.aborting || decide (x.bytes ≤ x.pos) then some (s.endChannel c 0)
  else some (s.channelWord c)

/-- CHANNEL_COPY_DONE: a channel whose words have all moved, or that was aborted, ends and sets DONE (R392). -/
def execChannelCopyDone (channel : Nat) (s : State) : Out :=
  .next (
    let x := s.channel channel
    if x.busy && (x.aborting || decide (x.bytes ≤ x.pos)) then s.endChannel channel 0 else s)

/-! The fabric (R382 to R386, R464). -/

/-- The result of an atomic's operation number on the old value, at its width (R187, R188); `none` writes nothing. -/
def fabricAtomic (fn n : Nat) (x y new : Word) : Option Word :=
  let lt (a b : Word) : Bool := if n = 8 then a.slt b else (a.setWidth 32).slt (b.setWidth 32)
  match fn with
  | 0 => some (x + y)
  | 1 => some (x &&& y)
  | 2 => some (x ||| y)
  | 3 => some (x ^^^ y)
  | 4 => some (if lt y x then y else x)
  | 5 => some (if lt x y then y else x)
  | 6 => some (if y.ult x then y else x)
  | 7 => some (if x.ult y then y else x)
  | 8 => some y
  | _ => if x = y then some new else none

/-- The access of an admitted request at its holder; its word goes back as it stands. A store's bytes come with the seal that they
have crossed with; an atomic checks the old word, and a damaged word that a store would merge into costs the requester its context
(R173, R386, R412). -/
def State.fabricDo (s : State) (r : FabricRequest) (p : Place) : State :=
  let n := Size.bytes r.size
  let who : Party := .completion r.part
  let s := s.transferFabric r.part n true
  let x0 := s.holderWord p
  let x := if r.kind == .both then s.checked p x0 else x0
  let answer (s : State) : State := s.send (.fabric r.srcDev r.srcPart none x.1 x.2)
  let hurt (y : BitVec 8) (s : State) : State := s.send (.fabricLost r.srcDev r.srcPart y)
  let put (y : Word) (flaw : BitVec 8) (s : State) : State :=
    match s.mergeOver x who p (place8 y p.pa n) (byteSel p.pa n) (sealOf (place8 y p.pa n) ^^^ flaw) false false with
    | .done s => answer s
    | .lost y s => hurt y.2 s
  match r.kind with
  | .read | .fetch => answer s
  | .write => put r.operand r.flaw s
  | .both =>
    if !sealOk x.1 x.2 then hurt (syn x.1 x.2) s
    else
      let s := s.countSeal (if sealOk x0.1 x0.2 then 0 else 1)
      match fabricAtomic r.fn n (pick x.1 p.pa n) (zextOf r.operand (8 * n)) r.new with
      | some y => put y 0 (s.transferFabric r.part n true)
      | none => answer s

/-- A word of another device's channel is written as a whole with its seal, passed over in a retired frame, or refused: reason 2, as a
channel's ERR has it (R392, R393, R416). -/
def State.channelArrives (s : State) (r : FabricRequest) : State :=
  if s.imports r.ipa r.srcDev then
    (if s.retiredIn r.ipa 8 then s else s.importWord r.ipa r.operand (sealOf r.operand ^^^ r.flaw)).send
      (.fabric r.srcDev r.srcPart none 0 0)
  else s.send (.fabric r.srcDev r.srcPart (some (2, 0)) 0 0)

/-- FABRIC_ACCESS: a remote access is admitted, translated by this partition's stage 2 and performed, or refused (R385,
R386); or the word of a channel arrives (R393). -/
def execFabricAccess (r : FabricRequest) (s : State) : Out :=
  let refuse (c : BitVec 8) (n : BitVec 8) (s : State) : State := s.send (.fabric r.srcDev r.srcPart (some (n.toNat, c)) 0 0)
  .next (
    if r.chan then s.channelArrives r
    else
      let t := s.served r.part r.srcDev r.srcPart r.ipa
      match s.serves r.part r.srcDev r.srcPart r.ipa with
      | .refused c n => refuse c n t
      | .lost y _ => t.send (.fabricLost r.srcDev r.srcPart y.2)
      | .there => s
      | .here l p =>
        if rightOk l.r l.w l.x r.kind then (t.markLeaf l (isWrite r.kind)).fabricDo r p else refuse 0x13 4 t)

/-- LINK_TRAINING: the manager assigns the device's number, and a device that is not the master takes the master's count, or
holds its own until that comes up to it (R382, R464). -/
def execLinkTraining (device : Nat) (master : Option Word) (s : State) : Out :=
  let s := { s with device := device % 4096, trained := true, ports := if s.ports = 0 then 1 else s.ports }
  .next (match master with
    | none => { s with holdUntil := none }
    | some m => if s.timebase.ult m then { s with timebase := m, holdUntil := none } else { s with holdUntil := some m })

/-- TIMEBASE_CORRECTION: at most one count is skipped; a device that is ahead repeats one, so that its count stands (R464). -/
def execTimebaseCorrection (master : Word) (s : State) : Out :=
  .next (if s.trained && s.timebase.ult master then { s with timebase := s.timebase + 1 } else s)

/-- FABRIC_PORT_LOSS: a port is lost (R419). A device whose last port is gone reaches no peer; it keeps its number until the
next training (R382). -/
def execFabricPortLoss (port : Nat) (s : State) : Out :=
  let ports := s.ports &&& ~~~(1#32 <<< port)
  .next { s with ports, trained := s.trained && ports != 0 }

end Sys2Proof.Machine
end

