-- ==== Sys2Proof/Machine/Power.lean ====
section
/-! DEFINITION. Power: frequency points and rails (R420 to R422), PWRCL and PWRCTL (R423, R424), cadence (R427), the stretches of
R428 and R429, repeatable mode (R430), and the fallback of R431. -/

namespace Sys2Proof.Machine

/-- Vnom(i), in units of 0.125 mV (R421). -/
def vnom (i : BitVec 5) : Nat := 3200 + 75 * i.toNat

/-- The point that bounds the rail: while a change is under way, the higher of its two points (R421, R422). -/
def Cluster.railPoint (k : Cluster) : BitVec 5 :=
  match k.changing with
  | some t => if k.pointNow ≤ t then t else k.pointNow
  | none => k.pointNow

/-- The rail set point after the loop has read a rise of `n` replays (R421). -/
def Cluster.trim (k : Cluster) (n : Nat) : Nat :=
  let v := vnom k.railPoint
  let next := if 256 < n then k.volt + 50 else if n < 16 then k.volt - 50 else k.volt
  max (max 3200 (v - 200)) (min (min 6000 (v + 600)) next)

/-- VOLTAGE_LOOP: every 100 µs the loop reads the rise in ECREPL and trims the rail; under FWSAFE it stops (R421, R431). -/
def execVoltageLoop (cluster : Nat) (s : State) : Out :=
  let seen := Tab.get 0 s.ecrepl cluster
  .next (if s.fwsafe ∨ Config.numClusters ≤ cluster then s
    else s.modCluster cluster (fun k => { k with volt := k.trim (seen - k.replSeen).toNat, replSeen := seen }))

/-- The change to the requested point begins, unless one is under way or the fallback or repeatable mode holds the points; a
rise ramps the rail first (R422, R430, R431). -/
def State.startPoint (s : State) (c : Nat) : State :=
  let k := s.cluster c
  if s.fwsafe || s.repeatable || k.changing.isSome || k.point == k.pointNow then s
  else s.modCluster c (fun k => { k with
    changing := some k.point, volt := if k.pointNow < k.point then vnom k.point else k.volt })

/-- What a write of POINT stores (R423). -/
def pointOf (x : Word) : BitVec 5 := if 16#5 < bits x 0 5 then 16 else bits x 0 5

/-- POINT: refused in repeatable mode; of the writes made during a change only the last is carried out (R422, R430). -/
def execPoint (cluster : Nat) (x : Word) (s : State) : Out :=
  .next (s.onHost (fun s => if s.repeatable ∨ Config.numClusters ≤ cluster then s
    else (s.modCluster cluster (fun k => { k with point := pointOf x })).startPoint cluster))

/-- The change of point completes: the clock has switched, and a fall ramps the rail after that (R422). -/
def State.pointChanged (s : State) (c : Nat) : Option State :=
  let k := s.cluster c
  match k.changing with
  | none => none
  | some t =>
    if s.fwsafe || s.repeatable then none
    else some ((s.modCluster c (fun k => { k with
      changing := none, pointNow := t, volt := if t < k.pointNow then vnom t else k.volt })).startPoint c)

/-- POINT_CHANGE_COMPLETE (R422). -/
def execPointChangeComplete (cluster : Nat) (s : State) : Out := .next ((s.pointChanged cluster).getD s)

/-- A reading of the highest sensor, in whole °C: below 105 without a trip, and 100 or above while one holds (R421, R423,
R429). -/
def State.sense (s : State) (c : Nat) : State :=
  let (w, s) := s.free
  let n := (bits w 0 8).toNat
  s.modCluster c (fun k => { k with tmax := BitVec.ofNat 8 (if k.trip then max n 100 else min n 104) })

/-- The highest sensor of the package, in whole °C. -/
def State.hottest (s : State) : Nat := (List.range Config.numClusters).foldl (fun n c => max n (s.cluster c).tmax.toNat) 0

/-- CADENCE one step up or down, within 1 to 16 (R427). -/
def stepCadence (n : BitVec 5) (raise : Bool) : BitVec 5 :=
  if raise then (if n < 16 then n + 1 else 16) else (if 1 < n then n - 1 else 1)

/-- The power controller may raise CADENCE: the package draws `draw` W, above PCAP, or a sensor exceeds 95 °C. It may lower it when
both are 5 % and 5 °C below (R427). -/
def State.cadenceMay (s : State) (draw : Nat) (raise : Bool) : Bool :=
  if raise then decide (s.pcap < draw) || decide (95 < s.hottest)
  else decide (20 * draw ≤ 19 * s.pcap) && decide (s.hottest ≤ 90)

/-- CADENCE_STEP: the power controller reads the cluster's sensors and the package draw, free values, and makes the step where they
ask for it; it does not act in repeatable mode or when it is absent (R427, R430, R431; log 4). -/
def execCadenceStep (cluster : Nat) (raise : Bool) (s : State) : Out :=
  .next (if s.fwsafe ∨ s.repeatable ∨ Config.numClusters ≤ cluster then s
    else
      let (draw, s) := (s.sense cluster).free
      if s.cadenceMay (bits draw 0 16).toNat raise then
        s.modCluster cluster (fun k => { k with cadence := stepCadence k.cadence raise })
      else s)

/-- CURRENT_CLAMP: every ck of the cluster is stretched; a stretch is no ck (R428). -/
def execCurrentClamp (cluster : Nat) (s : State) : Out :=
  .next (if cluster < Config.numClusters then s.modCluster cluster (fun k => { k with clamped := true }) else s)

/-- CURRENT_CLAMP_END (R428). -/
def execCurrentClampEnd (cluster : Nat) (s : State) : Out :=
  .next (if cluster < Config.numClusters then s.modCluster cluster (fun k => { k with clamped := false }) else s)

/-- THERMAL_TRIP: a sensor reads 105 °C or more; TRIP is set, and TRIPS rises with an event of the physical function, unless it stands
at its maximum (R429, R462). -/
def execThermalTrip (cluster : Nat) (s : State) : Out :=
  .next (if Config.numClusters ≤ cluster ∨ (s.cluster cluster).trip then s
    else
      let (w, s) := s.free
      let s := s.modCluster cluster (fun k => { k with trip := true, tmax := BitVec.ofNat 8 (max (bits w 0 8).toNat 105) })
      if s.trips < 255 then { s with trips := s.trips + 1 }.pfEvent 1 else s)

/-- THERMAL_TRIP_CLEAR: the sensors read 100 °C or less (R429). -/
def execThermalTripClear (cluster : Nat) (s : State) : Out :=
  .next (if cluster < Config.numClusters ∧ (s.cluster cluster).trip then
      let (w, s) := s.free
      s.modCluster cluster (fun k => { k with trip := false, tmax := BitVec.ofNat 8 (min (bits w 0 8).toNat 100) })
    else s)

/-- Every cluster changed by `f`. -/
def State.eachCluster (s : State) (f : Cluster → Cluster) : State :=
  (List.range Config.numClusters).foldl (fun s c => s.modCluster c f) s

/-- Requests that stand in the line of a cluster are granted, as many as `n` (R430). -/
def State.grantLine (s : State) (c : Nat) : Nat → State
  | 0 => s
  | n + 1 => match s.leaveGrant c with | some s => State.grantLine s c n | none => s

/-- The cadence that repeatable mode or the fallback forces (R430, R431). -/
def State.forceCadence (s : State) : State :=
  if s.repeatable then s.eachCluster (fun k => { k with cadence := s.rcad })
  else if s.fwsafe then s.eachCluster (fun k => { k with cadence := 4 })
  else s

/-- Every change of point that waits begins. -/
def State.startPoints (s : State) : State := (List.range Config.numClusters).foldl State.startPoint s

/-- REPEAT changes: setting it grants every line at once; clearing it lets R427 go on from RCAD (R430). -/
def State.setRepeat (s : State) (on : Bool) : State :=
  let s := { s with repeatable := on }.reallot
  if on then (List.range Config.numClusters).foldl (fun s c => s.grantLine c (s.cluster c).line.length) s.forceCadence
  else s.forceCadence.startPoints

/-- A write of REPEAT (R430). -/
def State.writeRepeat (s : State) (on : Bool) : State := if on = s.repeatable then s else s.setRepeat on

/-- REPEAT: setting or clearing bit 0 of PWRCTL (R424, R430). -/
def execRepeatMode (x : Word) (s : State) : Out := .next (s.onHost (fun s => s.writeRepeat (bit x 0)))

/-- The nearer bound, for a number outside its range (R424). -/
def nearest (lo hi n : Nat) : Nat := max lo (min hi n)

/-- A write of PWRCTL (R424); a new RCAD reaches every array in repeatable mode (R430). -/
def State.writePwrctl (s : State) (x : Word) : State :=
  let s := { s with pcap := nearest 200 1800 (bits x 40 12).toNat, rcad := BitVec.ofNat 5 (nearest 4 16 (bits x 8 5).toNat) }
  let s := s.writeRepeat (bit x 0)
  if s.repeatable then s.forceCadence else s

/-- PWRCTL as it reads (R424). -/
def State.pwrctl (s : State) : Word :=
  fieldsWord [(40, s.pcap), (32, s.trips), (8, s.rcad.toNat), (0, flagsNat [(31, s.fwsafe), (30, s.fwupd), (0, s.repeatable)])]

/-- PWRCL of a cluster as it reads (R423). -/
def Cluster.pwrcl (k : Cluster) : Word :=
  fieldsWord [(56, k.tmax.toNat), (40, k.allot % 256), (32, k.granted % 256), (19, k.volt % 8192), (11, k.cadence.toNat),
    (8, if k.trip then 1 else 0), (0, k.point.toNat)]

/-- FWSAFE is set: cadence and allotments are forced (R431), and an event of the physical function follows (R462). -/
def State.setSafe (s : State) : State :=
  if s.fwsafe then s
  else (({ s with fwsafe := true, beats := 0 }.eachCluster (fun k => { k with allot := 225 })).forceCadence).pfEvent 3

/-- FWSAFE clears: the firmware goes on from the forced values, and stored writes of POINT are carried out (R431). -/
def State.clearSafe (s : State) : State := { s with fwsafe := false, beats := 0 }.startPoints.pfEvent 3

/-- FIRMWARE_HEARTBEAT: the second one after FWUPD has cleared ends the fallback (R431). -/
def execFirmwareHeartbeat (s : State) : Out :=
  .next (if !s.fwsafe || s.fwupd then s
    else if s.beats = 0 then { s with beats := 1 }
    else s.clearSafe)

/-- HEARTBEAT_TIMEOUT: 4 ms have passed without a heartbeat (R431). -/
def execHeartbeatTimeout (s : State) : Out := .next s.setSafe

/-- POWER_CONTROLLER_IMAGE_UPDATE: FWUPD at the beginning and the end of the update (R424, R431). -/
def State.imageUpdate (s : State) (begin_ : Bool) : State :=
  if begin_ then { s with fwupd := true }.setSafe else { s with fwupd := false, beats := 0 }

/-- POWER_CONTROLLER_IMAGE_UPDATE (R431). -/
def execPowerControllerImageUpdate (begin_ : Bool) (s : State) : Out := .next (s.imageUpdate begin_)

end Sys2Proof.Machine
end

