-- ==== Sys2Proof/Machine/Boot.lean ====
section
/-! DEFINITION. Boot (R432 to R437), identity and attestation (R438 to R441), the end of repair mode (R442, R449, R450), the capability
table (R344 to R346), the recovery mailbox (R460), SPDM (R440) and link keys (R465). -/

namespace Sys2Proof.Machine

/-! Images (R435, R436). -/

/-- `n` bytes of an image from offset `o`. -/
def sliceOf (l : List Byte) (o n : Nat) : List Byte := (l.drop o).take n

/-- A little-endian number of `n` bytes at offset `o`. -/
def numberAt (l : List Byte) (o n : Nat) : Nat := (sliceOf l o n).foldr (fun b k => b.toNat + 256 * k) 0

/-- Bytes of an image: header and body (R435). -/
def imageLength (l : List Byte) : Nat := 320 + numberAt l 8 4

/-- Bytes of the range are 0. -/
def zeroAt (l : List Byte) (o n : Nat) : Bool := (sliceOf l o n).all (· == 0)

/-- An image of KIND `k` is accepted (R436). -/
def imageAccepted (k : Nat) (l : List Byte) : Bool :=
  decide (l.length = imageLength l) && decide (numberAt l 0 4 = 0x534D4947) && decide (numberAt l 4 2 = k) &&
    decide (numberAt l 8 4 % 64 = 0) && zeroAt l 12 4 && zeroAt l 149 11 && zeroAt l 292 28 &&
    Config.sha512 (sliceOf l 16 133) == Config.vendorKeyHash &&
    Config.ecdsaVerify (sliceOf l 16 133) (Config.sha512 (sliceOf l 0 160 ++ l.drop 320)) (sliceOf l 160 66) (sliceOf l 226 66)

/-- The image of KIND `k` in the copy `c` of the boot flash: 0 for A, 1 for B (R434). -/
def State.flashImage (s : State) (k c : Nat) : List Byte :=
  match Tab.find? s.flash (2 * k + c) with
  | some l => l
  | none => Config.flashImage (2 * k + c)

/-- The copy that boot takes for a KIND, if either passes (R437). -/
def State.bootCopy (s : State) (k : Nat) : Option Nat :=
  if imageAccepted k (s.flashImage k 0) then some 0 else if imageAccepted k (s.flashImage k 1) then some 1 else none

/-- The five kinds. -/
def imageKinds : List Nat := [1, 2, 3, 4, 5]

/-! Identity (R438, R439). -/

/-- The bytes of a number of `n` bytes, highest first. -/
def bytesOfNat (x : Nat) : Nat → List Byte
  | 0 => []
  | n + 1 => BitVec.ofNat 8 (x / 256 ^ n) :: bytesOfNat x n

/-- The bytes of a word, lowest first. -/
def wordBytes (w : Word) : List Byte := (List.range 8).map (byteOf w)

/-- The key that a label, the secret and what else is hashed give (R438, R439). -/
def keyOf (label : List Byte) (secret : BitVec 512) (more : List Byte) : Nat :=
  (Config.sha512 (label ++ bytesOfNat secret.toNat 64 ++ more)).toNat + 1

/-- "IDENTITY" and "ALIAS". -/
def identityLabel : List Byte := [0x49, 0x44, 0x45, 0x4E, 0x54, 0x49, 0x54, 0x59]
def aliasLabel : List Byte := [0x41, 0x4C, 0x49, 0x41, 0x53]

/-- K as the PUF array and the helper data give it (R438). -/
def puf : Option (BitVec 512) := Config.pufSecret Config.helperData

/-- d (R438). -/
def identityKey : Nat := keyOf identityLabel (puf.getD 0) []

/-- The helper data fails its check, or the derived Q is not the certified one (R438). -/
def identityFails : Bool := puf.isNone || Config.publicPoint identityKey != Config.certifiedKey

/-- The Device Serial Number: bytes 0 to 7 of the digest (R453). -/
def State.serial (s : State) : Word :=
  if s.idfail then 0
  else ((bytesOfNat (Config.sha512 Config.certifiedKey).toNat 64).take 8).foldr (fun b w => b.setWidth 64 + (w <<< 8)) 0

/-! COLD_RESET (R432). -/

/-- A core that boot leaves out: it never issues. -/
def Core.still : Core := { slots := allSlots.map (fun k => (slotIx k, { halted := true })), repair := { active := false } }

/-- The cores of cluster `c` stand still. -/
def State.stillCluster (s : State) (c : Nat) : State := (List.range 8).foldl (fun s k => s.setCore (8 * c + k) Core.still) s

/-- The cluster is out of service (R450). -/
def State.takeOut (s : State) (c : Nat) : State := (s.stillCluster c).modCluster c (fun k => { k with out := true })

/-- COLD_RESET: every device-lifetime item is built afresh, and boot runs up to step 5; then every core of a cluster that has
passed the self-test runs the march reel (R5, R432, R437, R442, R450). The outcome of the self-test is a free value (log 4). Host
memory and the boot flash stay. -/
def State.coldReset (s : State) : State :=
  let (w, s) := s.free
  let copies := imageKinds.map s.bootCopy
  let t : State :=
    { fresh := s.fresh, flash := s.flash, sent := s.sent, mem := s.mem.scrub 0 (Config.hostBase / 8)
      idfail := identityFails, narrow := Config.narrowLink
      copyB := if (s.bootCopy 1).isNone then 0 else
        BitVec.ofNat 8 (flagsNat ((imageKinds.zip copies).map (fun x => (x.1, x.2 == some 1)))) }
  if copies.all (·.isSome) then
    ((List.range Config.numClusters).filter (fun c => bit w c)).foldl State.takeOut t
  else
    (List.range Config.numClusters).foldl State.stillCluster
      { t with bootStep := if (s.bootCopy 1).isSome then 2 else 1, bootStopped := true }

/-- COLD_RESET (R432). -/
def execColdReset (s : State) : Out := .next s.coldReset

/-! Repair mode as boot sees it (R442, R448 to R450). -/

/-- REPAIR_TIMEOUT: a core that has not ended repair mode within 1 s is stopped (R442). -/
def execRepairTimeout (core : Nat) (s : State) : Out :=
  .next (if core < Config.numCores ∧ (s.core core).repairing then s.modCore core Core.abortRepair else s)

/-- The fields of REPINJ (R448). -/
def repinjRw : Word := 0xFF000000001FFFF8

/-- REPINJ: the security processor writes it, and only under a manufacturing test record (R448). -/
def execRepinj (core : Nat) (x : Word) (s : State) : Out :=
  .next (if Config.testRecord && (s.core core).inRepair then
    s.modCore core (fun c => { c with repair := { c.repair with repinj := x &&& repinjRw } }) else s)

/-! The capability table (R344 to R346). -/

/-- OWNER of a cluster's resources (R344, R450). -/
def Cluster.capOwner (k : Cluster) : Nat :=
  if k.out then 0xFC else if k.scrubbing then 0xFE else match k.owner with | some p => p | none => 0xFF

/-- HOLDER of a cluster (R344). -/
def Cluster.capHolder (k : Cluster) : Nat := match k.holder with | some p => p | none => k.capOwner

/-- The cluster is a margin cluster of its owner. -/
def State.isMargin (s : State) (c : Nat) : Bool :=
  match (s.cluster c).owner with | some p => bit (s.part p).margin c | none => false

/-- An entry of the table in four words (R344). -/
def capEntry (type inst : Nat) (count gran : Word) (owner holder : Nat) (margin : Bool) : List Word :=
  [fieldsWord [(0, type), (16, 32), (32, inst)], count, gran, fieldsWord [(0, owner), (8, holder), (16, if margin then 1 else 0)]]

/-- The entries of one type for every cluster; `lent` says that the holder is the borrower (R345). -/
def State.capClusters (s : State) (type : Nat) (count gran : Word) (lent margin : Bool) : List (List Word) :=
  (List.range Config.numClusters).map (fun c =>
    let k := s.cluster c
    capEntry type c count gran k.capOwner (if lent then k.capHolder else k.capOwner) (margin && s.isMargin c))

/-- The partition that a virtual function serves, as an OWNER (R345). -/
def State.capPart (s : State) (part : Nat) : Nat := if (s.part part).state = 0 then 0xFF else part

/-- The rate of the host link: the sum of both ports in 2 × x8 mode (R345, R455). -/
def State.hostRate (s : State) : Word := if s.narrow then Config.linkRate 0 + Config.linkRate 1 else Config.linkRate 0

/-- The entries after the header, in ascending TYPE and INST (R344, R345). -/
def State.capEntries (s : State) : List (List Word) :=
  let functions (type : Nat) (count : Word) : List (List Word) :=
    (List.range 32).map (fun n => let o := s.capPart n; capEntry type (n + 1) count 1 o o false)
  s.capClusters 1 8 8 true true ++ s.capClusters 2 0x600000000 0x600000000 false false ++ s.capClusters 3 12 12 false false ++
  s.capClusters 4 1031250 1 false false ++
  [capEntry 5 0 3600000 1 0xFD 0xFD false, capEntry 6 0 s.hostRate 1 0xFD 0xFD false] ++
  functions 7 1 ++ functions 8 16 ++
  (List.range 256).map (fun n =>
    let h := s.hole n
    let o := if h.state = 0 then 0xFF else h.owner
    capEntry 9 n 1 1 o o false) ++
  s.capClusters 10 0x800000 0x10000 true false ++ s.capClusters 11 0x600000 0x40000 true false ++
  s.capClusters 12 0x1800000 0x100000 true false

/-- The capability table by word (R344): its header counts the entries and holds the generation (R346). -/
def State.capTable (s : State) : List Word :=
  let l := s.capEntries
  capEntry 0 0 (BitVec.ofNat 64 l.length) s.capGen 0xFC 0xFC false ++ l.flatten

/-! Steps 6 to 9 (R432, R437, R441, R450). -/

/-- REPSUM of every core. -/
def State.repsums (s : State) : List Word := (List.range Config.numCores).map (fun c => Tab.get 0 s.repsum c)

/-- The measurement blocks 1 to 8 (R441). -/
def State.measure (s : State) : List (BitVec 16 × BitVec 512) :=
  (0, Config.sha512 (Config.romVersion ++ bytesOfNat Config.vendorKeyHash.toNat 64)) ::
  imageKinds.map (fun k =>
    let l := s.flashImage k (if bit s.copyB k then 1 else 0)
    (BitVec.ofNat 16 (numberAt l 6 2), Config.sha512 l)) ++
  [(0, Config.sha512 (s.repsums.flatMap wordBytes)), (0, Config.sha512 (s.capTable.flatMap wordBytes))]

/-- M (R439). -/
def measureSum (l : List (BitVec 16 × BitVec 512)) : List Byte :=
  bytesOfNat (Config.sha512 (((l.drop 1).take 5).flatMap (fun b => bytesOfNat b.2.toNat 64))).toNat 64

/-- The clusters with a core that is not in service after step 6 (R450). -/
def State.failedClusters (s : State) : List Nat :=
  (List.range Config.numClusters).filter (fun c =>
    (List.range 8).any (fun k => bits (s.core (8 * c + k)).repair.repstat 0 4 != 0))

/-- The core after step 8: its stores hold zeros with valid seals, and its repairs stay in force (R432, R447). -/
def Core.booted (c : Core) : Core := { c.fresh with repair := { c.repair with active := false } }

/-- Once every core has ended repair mode, boot runs steps 6 to 9: REPSUM, the clusters that go out of service, HBM and the
stores as zeros, the capability table, the measurements and the alias key (R432, R439, R441, R449, R450). -/
def State.bootEnd (s : State) : Option State :=
  if s.bootDone || s.bootStopped || (List.range Config.numCores).any (fun c => (s.core c).repairing) then none
  else
    let s := { s with repsum := (List.range Config.numCores).map (fun c => (c, (s.core c).repair.repstat)) }
    let s := s.failedClusters.foldl State.takeOut s
    let s := (List.range Config.numCores).foldl (fun s c => s.modCore c Core.booted) s
    let s := { s with mem := s.mem.scrub 0 (Config.hbmEnd / 8), bootStep := 9 }
    let s := { s with blocks := s.measure }
    some { s with aliasKey := keyOf aliasLabel (puf.getD 0) (measureSum s.blocks), bootDone := true }

/-- BOOTST (R437). -/
def State.bootst (s : State) : Word :=
  fieldsWord [(24, ((List.range Config.numClusters).filter (fun c => (s.cluster c).out)).length), (8, s.bootStep),
    (0, flagsNat [(2, s.idfail), (1, s.copyB != 0), (0, s.bootDone)])]

/-! The recovery mailbox (R460). -/

/-- Bytes of the image window. -/
def windowBytes : Nat := 3840

/-- The window of the mailbox as bytes. -/
def State.windowPiece (s : State) : List Byte := (List.range (windowBytes / 8)).flatMap (fun i => wordBytes (Tab.get 0 s.mbWords (32 + i)))

/-- The piece in the window joins the image in the device's own SRAM, at the offset of word 2; offset 0 begins an image. -/
def State.takePiece (s : State) : List Byte :=
  let o := (Tab.get 0 s.mbWords 2).toNat
  let l := padded o 0 s.mbImage ++ s.windowPiece
  l.take (imageLength l)

/-- MBCTL carried out: the piece is taken; once the image is whole, it is verified and written to its copy, or refused; the flash
may fail, a free choice (R437, R460; log 4). -/
def State.mailbox (s : State) (copyA : Bool) (kind : BitVec 8) : State :=
  let l := s.takePiece
  let s := { s with mbImage := l, mbCommand := none, mbResult := 0 }
  if l.length < imageLength l then s
  else if !imageKinds.contains kind.toNat || !imageAccepted kind.toNat l then { s with mbResult := 1, mbImage := [] }
  else
    let (w, s) := s.free
    let key := 2 * kind.toNat + (if copyA then 0 else 1)
    if bit w 0 then { s with mbResult := 2, mbImage := [], flash := Tab.set s.flash key (Config.flashResidue s.fresh) }
    else { s with mbImage := [], flash := Tab.set s.flash key l }

/-- The mailbox is open: boot has ended, or has stopped (R432, R437). -/
def State.linkOpen (s : State) : Bool := s.bootDone || s.bootStopped

/-- A command of MBCTL as one event. -/
def State.mbctl (s : State) (copyA : Bool) (kind : BitVec 8) : State :=
  if s.linkOpen && s.mbCommand.isNone then s.mailbox copyA kind else s

/-- MBCTL_COPY_B (R460). -/
def execMbctlCopyB (kind : BitVec 8) (s : State) : Out := .next (s.mbctl false kind)
/-- MBCTL_COPY_A (R460). -/
def execMbctlCopyA (kind : BitVec 8) (s : State) : Out := .next (s.mbctl true kind)

/-- A command that MBCTL has started ends. -/
def State.mailboxStep (s : State) : Option State := s.mbCommand.map (fun x => s.mailbox x.1 x.2)

/-! SPDM (R440) and the link keys (R465). The error codes are those of SPDM 1.3 (log 10). -/

/-- The responder's state changed. -/
def State.modSpdm (s : State) (f : Spdm → Spdm) : State := { s with spdm := f s.spdm }

/-- An answer leaves. -/
def State.reply (s : State) (a : SpdmAnswer) : State := s.send (.spdm a)

/-- ERROR UnexpectedRequest, Unspecified, InvalidRequest, DecryptError, UnsupportedRequest. -/
def spdmUnexpected : SpdmAnswer := .error 0x04
def spdmUnspecified : SpdmAnswer := .error 0x05
def spdmInvalid : SpdmAnswer := .error 0x01
def spdmDecrypt : SpdmAnswer := .error 0x06
def spdmUnsupported : SpdmAnswer := .error 0x07

/-- A request that needs the connection to have come to `stage`; the DOE mailbox is reached only after boot. Once
NEGOTIATE_ALGORITHMS has been answered, a device without an identity answers every request with an error (R432, R440). -/
def State.spdmAsk (s : State) (stage : Nat) (f : State → State) : State :=
  if !s.bootDone then s
  else if s.spdm.stage = 3 && s.idfail then s.reply spdmUnspecified
  else if s.spdm.stage < stage then s.reply spdmUnexpected
  else f s

/-- A request that names a certificate slot: there is slot 0 only (R440). -/
def State.slotAsk {α : Type} (s : State) (x : SlotRequest α) (f : α → State → State) : State :=
  s.spdmAsk 3 (fun s => if x.slot = 0 then f x.what s else s.reply spdmInvalid)

/-- GET_VERSION: SPDM 1.3; the connection begins anew (R440). -/
def execSpdmGetVersion (s : State) : Out :=
  .next (s.spdmAsk 0 (fun s => (s.modSpdm (fun x => { x with stage := 1, handshake := none })).reply (.version 1 3)))
/-- GET_CAPABILITIES (R440). -/
def execSpdmGetCapabilities (s : State) : Out :=
  .next (s.spdmAsk 1 (fun s => (s.modSpdm (fun x => { x with stage := 2 })).reply .capabilities))
/-- NEGOTIATE_ALGORITHMS: the requester has to offer ECDSA P-521 and SHA-512; what it offers is a free value (R440; log 10). -/
def execSpdmNegotiateAlgorithms (s : State) : Out :=
  .next (s.spdmAsk 2 (fun s =>
    let (offer, s) := s.free
    if bit offer 0 && bit offer 1 then (s.modSpdm (fun x => { x with stage := 3 })).reply .algorithms else s.reply spdmInvalid))

/-- The certificate chain of slot 0: vendor root, device certificate, alias certificate (R439). -/
def State.certChain (s : State) : List Byte :=
  let q := Config.publicPoint s.aliasKey
  Config.deviceCertificates ++ Config.aliasCertificate q (Config.ecdsaSign identityKey (Config.sha512 q))

/-- A signature by the alias key over the transcript (R440). -/
def State.sign (s : State) (l : List Byte) : List Byte × State :=
  let n := s.fresh
  (Config.ecdsaSign s.aliasKey (Config.transcript n l), { s with fresh := n + 1 })

/-- GET_DIGESTS (R440). -/
def execSpdmGetDigests (s : State) : Out := .next (s.spdmAsk 3 (fun s => s.reply (.digests (Config.sha512 s.certChain))))
/-- GET_CERTIFICATE (R440). -/
def execSpdmGetCertificate (offset : SlotRequest Nat) (length : Nat) (s : State) : Out :=
  .next (s.slotAsk offset (fun offset s =>
    s.reply (.certificate (sliceOf s.certChain offset length) (s.certChain.length - (offset + length)))))
/-- CHALLENGE (R440). -/
def execSpdmChallenge (nonce : SlotRequest (List Byte)) (s : State) : Out :=
  .next (s.slotAsk nonce (fun nonce s => let (g, s) := s.sign nonce; s.reply (.challenge g)))

/-- The blocks with their indices. -/
def State.numberedBlocks (s : State) : List (Nat × BitVec 16 × BitVec 512) := (s.blocks.zipIdx).map (fun x => (x.2 + 1, x.1))

/-- GET_MEASUREMENTS: index 0 asks how many, 255 for all, 1 to 8 for one (R441). -/
def execSpdmGetMeasurements (index : SlotRequest (BitVec 8)) (s : State) : Out :=
  .next (s.slotAsk index (fun index s =>
    if index = 0 then s.reply (.measurementCount s.blocks.length)
    else
      let l := if index = 0xFF then s.numberedBlocks else s.numberedBlocks.filter (fun b => b.1 == index.toNat)
      if l.isEmpty then s.reply spdmInvalid else let (g, s) := s.sign [index]; s.reply (.measurements l g)))

/-- KEY_EXCHANGE: a session begins its handshake (R440). -/
def execSpdmKeyExchange (random : SlotRequest (List Byte)) (s : State) : Out :=
  .next (s.slotAsk random (fun random s =>
    let (g, s) := s.sign random
    let n := s.spdm.sessions + 1
    (s.modSpdm (fun x => { x with sessions := n, handshake := some n })).reply (.keyExchange n g)))

/-- FINISH: the session opens when its verify data is right (R440). -/
def execSpdmFinish (verifyData : List Byte) (s : State) : Out :=
  .next (s.spdmAsk 3 (fun s =>
    match s.spdm.handshake with
    | none => s.reply spdmUnexpected
    | some n =>
      if Config.finishVerify n verifyData then
        (s.modSpdm (fun x => { x with handshake := none, session := some n })).reply (.finish n)
      else (s.modSpdm (fun x => { x with handshake := none })).reply spdmDecrypt))

/-- END_SESSION (R440). -/
def execSpdmEndSession (s : State) : Out :=
  .next (s.spdmAsk 3 (fun s =>
    match s.spdm.session with
    | none => s.reply spdmUnexpected
    | some n => (s.modSpdm (fun x => { x with session := none })).reply (.endSession n)))

/-- Any other request (R440). -/
def execSpdmOtherRequest (s : State) : Out := .next (s.spdmAsk 0 (fun s => s.reply spdmUnsupported))

/-- Streams of a kind that IDE has: one link stream, eight selective ones (R465). -/
def streamsOf (selective : Bool) : Nat := if selective then 8 else 1

/-- The stream `x` goes over to its key set; a stream that has none yet opens while its kind has one left (R465). -/
def Spdm.setGo (d : Spdm) (x : IdeStream) : Spdm :=
  let same (y : IdeStream) : Bool := y.selective == x.selective && y.id == x.id
  if d.streams.any same then { d with streams := d.streams.map (fun y => if same y then x else y) }
  else if d.streams.countP (fun y => y.selective == x.selective) < streamsOf x.selective then { d with streams := d.streams ++ [x] }
  else d

/-- K_SET_GO: a key set that IDE_KM has programmed in the session takes effect; the keys come with it, since their programming has no
row of its own (R465, log 10). -/
def execKSetGo (x : IdeStream) (s : State) : Out :=
  .next (if s.bootDone && !s.idfail && s.spdm.session.isSome then s.modSpdm (fun d => d.setGo x) else s)

end Sys2Proof.Machine
end

