-- ==== Sys2Proof/Machine/Control.lean ====
section
/-! DEFINITION. Control instructions (R112 to R115, R120, R121, R124). -/

namespace Sys2Proof.Machine

/-- X + 32 × OFF32 (R112). -/
def State.relTarget (s : State) (off : BitVec 32) : Word := s.cs.c0 + (off.signExtend 64 <<< 5)

/-- The annul request of NUL (R110). -/
def annulBy (nul : Nul) (taken : Bool) : Bool :=
  match nul with
  | .none => false
  | .notTaken => !taken
  | .taken => taken

/-- The outcome of a branch with the annul field NUL (R110). -/
def branchOf (nul : Nul) (taken : Bool) (target : Word) : Branch :=
  { taken, target, annul := annulBy nul taken }

/-- The link X + 96 with a clear taint bit (R112, R113). -/
def State.link (s : State) (sd : SReg) : State := s.ws sd (s.cs.c0 + 96) false

/-- BR (R112). -/
def execBr (c : Cond) (nul : Nul) (sa sb : SReg) (off : BitVec 32) (s : State) : Out :=
  .next (s.branch (branchOf nul (condHolds c (s.rs sa) (s.rs sb)) (s.relTarget off)))

/-- The outcome of slot A's GBR is left with every other member of its joined group (R114). -/
def State.redirect (s : State) (b : Branch) : State :=
  s.modCc (fun c => s.issuing.foldl (fun c k => c.modSlot k (fun t => { t with redirect := some b })) c)

/-- GBR (R114). -/
def execGbr (c : Cond) (nul : Nul) (sa sb : SReg) (off : BitVec 32) (s : State) : Out :=
  let b := branchOf nul (condHolds c (s.rs sa) (s.rs sb)) (s.relTarget off)
  .next ((s.redirect b).branch b)

/-- JMP (R112). -/
def execJmp (nul : Nul) (off : BitVec 32) (s : State) : Out := .next (s.branch (branchOf nul true (s.relTarget off)))

/-- CALL (R112). -/
def execCall (sd : SReg) (nul : Nul) (off : BitVec 32) (s : State) : Out :=
  .next ((s.link sd).branch (branchOf nul true (s.relTarget off)))

/-- A target in a register must be a bundle address (R113). -/
def State.toRegister (s : State) (sa : SReg) (f : Word → State) : State :=
  let t := s.rs sa
  if aligned t 32 then f t else s.misaligned t

/-- CALLR (R113). -/
def execCallr (sd sa : SReg) (nul : Nul) (s : State) : Out :=
  .next (s.toRegister sa (fun t => (s.link sd).branch (branchOf nul true t)))

/-- RET (R113). -/
def execRet (sa : SReg) (nul : Nul) (s : State) : Out :=
  .next (s.toRegister sa (fun t => s.branch (branchOf nul true t)))

/-- JT: the table entry is a plain load whose seal the slot checks, and only then does the chain advance (R115). With a tainted
index or base it is dependence-ordered (R276), and a later FENCE acquires what it has read (R186). -/
def execJt (sa sb sc : SReg) (s : State) : Out :=
  let i := s.rs sa
  let base := s.rs sc
  .next (
    if !i.ult (s.rs sb) then s.branch Branch.none
    else if !aligned base 32 then s.misaligned base
    else
      let va := base + (i <<< 2)
      s.at_ va .read (fun p s =>
        match (s.depend (s.rt sa || s.rt sc)).consume s.me p false with
        | .lost y1 y2 s => s.lose (Loss.found y1 y2 .fetch s.me va p)
        | .good w s =>
          let s := s.heard p false 0 false
          let e := sextOf (pick w va.toNat 4) 32
          s.branch (branchOf .none true (base + (e <<< 5)))))

/-- TRAP (R121): not redirected by a GBR (R114). -/
def execTrap (detail : BitVec 32) (s : State) : Out := .next ((s.branch Branch.none).raise 0x05 detail 0)

/-- DBG (R121). -/
def execDbg (code : BitVec 20) (s : State) : Out := .next (s.advance.raise 0x06 (code.setWidth 32) 0)

/-- ERET (R120). -/
def execEret (s : State) : Out := .next (s.modCc (fun c => c.returnFrom s.cur.slot))

/-- HALT (R124). -/
def execHalt (s : State) : Out :=
  .next (s.modCc (fun c =>
    (c.modSlot s.cur.slot (fun t => { t.issued with halted := true, redirect := Option.none })).testReturn))

end Sys2Proof.Machine
end

