-- ==== Sys2Proof/Machine/Host.lean ====
section
/-! DEFINITION. The host link (R453 to R463): identity and BARs, the register maps of both functions (R458 to R462), accesses through
BAR2 (R457), enabling of functions (R456) and resets (R463). -/

namespace Sys2Proof.Machine

/-! Identity (R453 to R455). -/

/-- Device ID (R453). -/
def deviceId : HostFunction → BitVec 16
  | .physical | .physical1 => 0x9640
  | .virtual _ => 0x9641
/-- Class code (R453). -/
def classCode : BitVec 24 := 0x120000
/-- Vendor ID, Header type and Revision ID (R453). -/
def vendorId : BitVec 16 := Config.vendorId
def headerType : BitVec 8 := 0
def revisionId : BitVec 8 := Config.stepping

/-- Data objects of the DOE mailbox (R454). -/
inductive DoeObject where
  | spdm | securedSpdm
deriving DecidableEq, Repr

/-- A capability with the values that it offers (R454). -/
inductive Capability where
  /-- an Endpoint of 7.0 rates, that requires FLIT mode -/
  | pciExpress (flitRequired tenBitTags : Bool) (maxPayload maxReadRequest : Nat)
  /-- the D states, and No_Soft_Reset -/
  | powerManagement (states : List Nat) (noSoftReset : Bool)
  | msix (entries : Nat)
  /-- every error of an Endpoint; a poisoned TLP received is an advisory non-fatal error -/
  | aer (poisonedAdvisory : Bool)
  | sriov (total initial first stride : Nat) (ariHonoured : Bool)
  | ari
  | doe (objects : List DoeObject)
  | ide (link selective : Nat)
  | ptmRequester
  | serialNumber (x : Word)
deriving DecidableEq, Repr
/-- TotalVFs and InitialVFs of each port's SR-IOV capability (R454, R455). -/
def State.totalVfs (s : State) : Nat := if s.narrow then 16 else 32
/-- First VF Offset and VF Stride (R454). -/
def firstVfOffset : Nat := 1
def vfStride : Nat := 1

/-- PCI Express as every function offers it (R454). -/
def pciExpress : Capability := .pciExpress true true 512 4096

/-- The capabilities of a function. Port 1's physical function has the SR-IOV of its own virtual functions; its others are those of
port 0's (R454, R455, log 57). -/
def State.capabilities (s : State) : HostFunction → List Capability
  | .physical | .physical1 =>
    [pciExpress, .powerManagement [0, 3] false, .msix 8, .aer true,
     .sriov s.totalVfs s.totalVfs firstVfOffset vfStride true, .ari, .doe [.spdm, .securedSpdm],
     .ide (streamsOf false) (streamsOf true), .ptmRequester, .serialNumber s.serial]
  | .virtual _ => [pciExpress, .msix 8, .aer true]

/-- A BAR, of 64 bits: its size and whether it is prefetchable (R457). -/
def barOf : HostFunction → Nat → Option (Nat × Bool)
  | .physical, 0 | .physical1, 0 => some (64 * 2 ^ 20, false)
  | .physical, 2 => some (2 ^ 40, true)
  | .virtual _, 0 => some (64 * 2 ^ 10, false)
  | .virtual _, 2 => some (64 * 2 ^ 30, true)
  | _, _ => none

/-! Enabling virtual functions (R456). -/

/-- Every partition whose function vanishes is destroyed (R456). -/
def State.dropVanished (s : State) (before : State) : State :=
  ((List.range 32).filter (fun n => before.vfEnabled n && !s.vfEnabled n && (s.part n).state != 0)).foldl State.destroy s

/-- VF_ENABLE_CLEAR: a write of VF Enable and NumVFs; numbers of 64 and above are port 1's, less 64 (R455, R456). -/
def State.setNumVfs (s : State) (enable : Bool) (n : Nat) : State :=
  let t := if 64 ≤ n then (if s.narrow then { s with vfOn1 := enable, numVfs1 := min (n - 64) 16 } else s)
    else { s with vfOn := enable, numVfs := min n s.totalVfs }
  t.dropVanished s

/-- VF_ENABLE_CLEAR (R456). -/
def execVfEnableClear (x : VfEnable) (s : State) : Out := .next (s.onHost (fun s => s.setNumVfs x.enable x.numVfs))

/-! Registers of the physical function (R459 to R461). -/

/-- `o` names register `i` of a block of `n` registers of 8 bytes at `base`. -/
def regIn (o base n : Nat) : Bool := decide (base ≤ o) && decide (o < base + 8 * n)
/-- The number of a register in its block. -/
def regIx (o base : Nat) : Nat := (o - base) / 8

/-- Register `i` of a ring of records: base, configuration, CWI, CRI (R327). -/
def RecordRing.read (x : RecordRing) (i : Nat) : Word :=
  if i = 0 then x.base else if i = 1 then x.ccfg else if i = 2 then BitVec.ofNat 64 x.wi else BitVec.ofNat 64 x.ri

/-- A write of register `i` of a ring of records: as RBASE and RCFG, and CRI no further than CWI (R319, R327). -/
def RecordRing.write (x : RecordRing) (i : Nat) (w : Word) : RecordRing :=
  if i = 0 then (if x.enable then x else { x with base := w &&& ~~~(31#64) })
  else if i = 1 then (x.configure w).getD x
  else if i = 3 ∧ w.toNat ≤ x.wi then { x with ri := w.toNat }
  else x

/-- PCTL as it reads (R335). -/
def Partition.pctl (p : Partition) : Word := fieldsWord [(48, p.err.toNat), (36, p.state), (32, if p.job.isSome then 1 else 0)]

/-- A write of PCTL: a command, ignored while BUSY = 1 (R335, R387). -/
def State.writePctl (s : State) (n : Nat) (x : Word) : State :=
  if !s.idleFor n then s
  else match (bits x 0 4).toNat with
    | 1 => s.create n
    | 2 => s.resize n (bit x 7)
    | 3 => match s.destroyErr n with | some e => s.setErr n e | none => s.destroy n
    | 4 => s.lend n (bit x 7)
    | 5 => s.revoke n
    | 6 => s.pause n
    | 7 => s.resume n
    | _ => s

/-- INVREQ, INVDONE, INVOVF (R355). -/
def Inval.read (v : Inval) (i : Nat) : Word :=
  if i = 0 then BitVec.ofNat 64 v.req else if i = 1 then BitVec.ofNat 64 v.done else (ofBool1 v.ovf).setWidth 64

/-- Register at `o` of partition block `n` (R461). -/
def State.blockRead (s : State) (n o : Nat) : Word :=
  let p := s.part n
  if o = 0 then p.pctl
  else if o = 0x08 then p.pguar.setWidth 64
  else if o = 0x10 then p.pmargin.setWidth 64
  else if o = 0x18 then p.plend
  else if regIn o 0x20 4 then p.vlist.getD (regIx o 0x20) 0
  else if o = 0x40 then p.s2root
  else if regIn o 0x48 4 then (Tab.get ({} : Bucket) p.lims (regIx o 0x48)).reg
  else if o = 0x68 then p.pincap
  else if regIn o 0x78 3 then p.inv2.read (regIx o 0x78)
  else if o = 0x90 then p.spdl
  else if o = 0x98 then p.svroot
  else if o = 0xA0 then p.migimg
  else if o = 0xA8 then p.mimport
  else if o = 0xB0 then p.eperiod
  else if o = 0xB8 then p.ecount
  else if regIn o 0x100 32 then Tab.get 0 p.fwin (regIx o 0x100)
  else if regIn o 0x200 16 then Tab.get 0 p.facc (regIx o 0x200)
  else if regIn o 0x280 8 then wordAt p.dl (regIx o 0x280)
  else 0

/-- The fields of a word of FWIN that a write stores (R383). -/
def fwinRw (i : Nat) : Word := if i % 2 = 0 then 0xFE0FFFFFFFE00000 else 0xFFFFFFFFFFFF0000

/-- A write of the register at `o` of partition block `n` (R335, R355, R362, R370, R383, R385, R391, R401). -/
def State.blockWrite (s : State) (n o : Nat) (x : Word) : State :=
  let put (f : Partition → Partition) : State := s.modPart n f
  if o = 0 then s.writePctl n x
  else if o = 0x08 then put (fun p => { p with pguar := bits x 0 32 })
  else if o = 0x10 then put (fun p => { p with pmargin := bits x 0 32 })
  else if o = 0x18 then put (fun p => { p with plend := x &&& 0x1FFFFFFFFF })
  else if o = 0x40 then put (fun p => { p with s2root := x &&& 0x000FFFFFFFFFFFFF })
  else if regIn o 0x48 4 then s.writeLimiter n (regIx o 0x48) x
  else if o = 0x68 then put (fun p => { p with pincap := x &&& 0x000003FF03FF1FFF })
  else if o = 0x70 then put (fun p => { p with inv2 := p.inv2.request x p.rgen })
  else if o = 0x88 then put (fun p => { p with inv2 := { p.inv2 with ovf := p.inv2.ovf && !bit x 0 } })
  else if o = 0x90 then put (fun p => { p with spdl := BitVec.ofNat 64 (min (bits x 0 16).toNat 10000) })
  else if o = 0x98 then put (fun p => { p with svroot := x &&& ~~~(0x7FFFFF#64) })
  else if o = 0xA0 then put (fun p => { p with migimg := x &&& ~~~(0xFFFFF#64) })
  else if o = 0xA8 then put (fun p => { p with mimport := x &&& 0x8000000000000FFF })
  else if o = 0xB0 then put (fun p => { p with eperiod := BitVec.ofNat 64 (nearest 1 1000000 (bits x 0 20).toNat) })
  else if regIn o 0x100 32 then put (fun p => { p with fwin := Tab.set p.fwin (regIx o 0x100) (x &&& fwinRw (regIx o 0x100)) })
  else if regIn o 0x200 16 then put (fun p => { p with facc := Tab.set p.facc (regIx o 0x200) (x &&& 0x800000000FFF001F) })
  else s

/-- Register `i` of a migration channel (R392). -/
def Channel.read (c : Channel) (i : Nat) : Word :=
  if i = 0 then c.src else if i = 1 then c.dst else if i = 2 then c.len else if i = 3 then c.rate ++ 0#32
  else fieldsWord [(8, c.moved), (4, c.err.toNat), (0, flagsNat [(1, c.busy), (0, c.done)])]

/-- A write of register `i` of migration channel `c` (R392). -/
def State.channelWrite (s : State) (c i : Nat) (x : Word) : State :=
  let k := s.channel c
  if i = 3 then
    let s := s.modChannel c (fun k => { k with rate := bits x 32 32 })
    let s := if bit x 1 && k.busy then s.modChannel c (fun k => { k with aborting := true }) else s
    if bit x 0 then s.goChannel c else s
  else if i = 4 then s.modChannel c (fun k => { k with done := k.done && !bit x 0 })
  else if k.busy then s
  else if i = 0 then s.modChannel c (fun k => { k with src := x &&& 0x000FFFFFFFFFFFFF })
  else if i = 1 then s.modChannel c (fun k => { k with dst := x })
  else s.modChannel c (fun k => { k with len := x &&& 0x000000FFFFFFFFFF })

/-- A doubleword of the physical function's MSI-X table (R462); vectors are masked at reset (log 3). -/
def State.msixWord (s : State) (i : Nat) : Word := Tab.get (if i % 2 = 1 then 1#64 <<< 32 else 0) s.msix i

/-- A write of a doubleword of the MSI-X table: unmasking sends what the PBA holds (R462). -/
def State.msixWrite (s : State) (i : Nat) (x : Word) : State :=
  let s := { s with msix := Tab.set s.msix i x }
  if i % 2 = 1 ∧ bit x 32 = false ∧ bit s.pba (i / 2) then
    { s with pba := s.pba &&& ~~~(1#8 <<< (i / 2)) }.send (.msi none (i / 2))
  else s

/-- A word of the mailbox (R460). -/
def State.mailboxRead (s : State) (i : Nat) : Word :=
  if i = 1 then fieldsWord [(8, s.mbResult.toNat), (0, if s.mbCommand.isSome then 1 else 0)]
  else if i = 2 ∨ 32 ≤ i then Tab.get 0 s.mbWords i
  else 0

/-- A write of a word of the mailbox: MBCTL begins a command unless one is in progress (R460). -/
def State.mailboxWrite (s : State) (i : Nat) (x : Word) : State :=
  if i = 0 then
    if s.mbCommand.isSome then s
    else if bits x 0 8 = 1 then { s with mbCommand := some (false, bits x 8 8) }
    else if bits x 0 8 = 2 then { s with mbCommand := some (true, bits x 8 8) }
    else s
  else if i = 2 ∨ 32 ≤ i then { s with mbWords := Tab.set s.mbWords i x }
  else s

/-- An entry of RETLIST (R417). -/
def State.retWord (s : State) (i : Nat) : Word :=
  match s.retired[i]? with | some (f, part) => BitVec.ofNat 64 (f / 4096 * 4096 + part % 32) | none => 0

/-- The register at `o` of the physical function (R459, R460); before boot has ended none is reached, and a stopped boot shows BOOTST and
the mailbox alone (R432, R437). -/
def State.pfRead (s : State) (o : Nat) : Word :=
  if !s.linkOpen then 0
  else if o = 0 then s.bootst
  else if regIn o 0x4000 512 then s.mailboxRead (regIx o 0x4000)
  else if !s.bootDone then 0
  else if o = 0x08 then s.pwrctl
  else if o = 0x10 then s.timebase
  else if o = 0x18 then s.edev
  else if regIn o 0x20 5 then [s.ecseal, s.echbm, s.eclink, s.ecmrep, s.ecloss].getD (regIx o 0x20) 0
  else if o = 0x48 then BitVec.ofNat 64 s.retired.length
  else if o = 0x50 then (ofBool1 s.retovf).setWidth 64
  else if regIn o 0x80 4 then s.faultRing.read (regIx o 0x80)
  else if regIn o 0x1000 16 then s.msixWord (regIx o 0x1000)
  else if o = 0x1800 then s.pba.setWidth 64
  else if regIn o 0x2000 32 then Tab.get 0 s.ecrepl (regIx o 0x2000)
  else if regIn o 0x2100 32 then (s.cluster (regIx o 0x2100)).pwrcl
  else if regIn o 0x2200 32 then BitVec.ofNat 64 (s.part (regIx o 0x2200)).vfstate
  else if regIn o 0x2400 32 then
    let i := regIx o 0x2400
    if i % 8 < 5 then (s.channel (i / 8)).read (i % 8) else 0
  else if regIn o 0x3000 256 then Tab.get 0 s.repsum (regIx o 0x3000)
  else if regIn o 0x10000 8192 then s.capTable.getD (regIx o 0x10000) 0
  else if regIn o 0x20000 8192 then s.retWord (regIx o 0x20000)
  else if regIn o 0x100000 0x4000 then s.blockRead ((o - 0x100000) / 4096) (o % 4096)
  else 0

/-- A write of the whole register at `o` of the physical function (R459). -/
def State.pfWrite (s : State) (o : Nat) (x : Word) : State :=
  if !s.linkOpen then s
  else if regIn o 0x4000 512 then s.mailboxWrite (regIx o 0x4000) x
  else if !s.bootDone then s
  else if o = 0x08 then s.writePwrctl x
  else if o = 0x50 then (if s.retovf && bit x 0 then { s with retovf := false }.pfEvent 2 else s)
  else if o = 0x58 then
    if bit x 63 then s.hresumeDiscard (bits x 32 5).toNat (bits x 0 13).toNat
    else s.hresume x
  else if regIn o 0x80 4 then
    { s with faultRing := { s.faultRing.write (regIx o 0x80) x with loc := false } }
  else if regIn o 0x1000 16 then s.msixWrite (regIx o 0x1000) x
  else if regIn o 0x2100 32 then
    let c := regIx o 0x2100
    if s.repeatable then s else (s.modCluster c (fun k => { k with point := pointOf x })).startPoint c
  else if regIn o 0x2200 32 then
    if x = 0 ∨ x = 1 then s.setVfstate (regIx o 0x2200) x.toNat else s
  else if regIn o 0x2400 32 then
    let i := regIx o 0x2400
    if i % 8 < 5 then s.channelWrite (i / 8) (i % 8) x else s
  else if regIn o 0x100000 0x4000 then s.blockWrite ((o - 0x100000) / 4096) (o % 4096) x
  else s

/-! Registers of a virtual function (R462). -/

/-- Register `i` of a submission ring (R318). -/
def Ring.read (r : Ring) (i : Nat) : Word :=
  if i = 0 then r.rbase else if i = 1 then r.rcfg else if i = 2 then BitVec.ofNat 64 r.wi
  else if i = 3 then BitVec.ofNat 64 r.rd else r.rstat

/-- A write of register `i` of submission ring `r` (R318, R319). -/
def State.ringWrite (s : State) (n r i : Nat) (x : Word) : State :=
  if i = 0 then s.modRing n r (fun y => if y.enable then y else { y with rbase := x &&& ~~~(63#64) })
  else if i = 1 then s.writeRcfg n r x
  else if i = 2 then (s.modRing n r (fun y => y.doorbell x.toNat)).settleRing n r
  else if i = 4 then s.modRing n r (fun y => { y with back := y.back && !bit x 2 })
  else s

/-- The PBA of a virtual function: the messages that PMASK, or a function that is not running, holds back (R358, R359, log 56). -/
def Partition.pba (p : Partition) : Word := (if p.vfstate = 0 then p.pend &&& p.pmask else p.pend) &&& 0x3F

/-- The register at `o` of the virtual function of partition `n` (R462). -/
def State.vfRead (s : State) (n o : Nat) : Word :=
  let p := s.part n
  if !s.bootDone || !s.vfEnabled n then 0
  else if o < 0x400 then (if o % 64 < 40 then (p.ring (o / 64)).read (o % 64 / 8) else 0)
  else if regIn o 0x400 4 then p.compl.read (regIx o 0x400)
  else if o = 0x440 then p.pend
  else if o = 0x448 then p.pmask
  else if o = 0x450 then p.mlend.setWidth 64
  else if o = 0x458 then p.s1root
  else if regIn o 0x468 3 then p.inv1.read (regIx o 0x468)
  else if o = 0x480 then p.ecount
  else if o = 0x488 then s.partWord n
  else if o = 0x490 then p.winbase
  else if o = 0x498 then p.winerr
  else if regIn o 0x4A0 4 then p.vlist.getD (regIx o 0x4A0) 0
  else if regIn o 0x500 32 then Tab.get 0 p.budget (regIx o 0x500)
  else if regIn o 0x600 8 then wordAt p.dl (regIx o 0x600)
  else if regIn o 0x1000 16 then Tab.get (if regIx o 0x1000 % 2 = 1 then 1#64 <<< 32 else 0) p.msix (regIx o 0x1000)
  else if o = 0x1800 then p.pba
  else 0

/-- A write of the whole register at `o` of the virtual function of partition `n` (R462); without a partition the function has no
registers to write (R5). -/
def State.vfWrite (s : State) (n o : Nat) (x : Word) : State :=
  let put (f : Partition → Partition) : State := s.modPart n f
  if !s.bootDone || !s.vfEnabled n || (s.part n).state == 0 then s
  else if o < 0x400 then (if o % 64 < 40 then s.ringWrite n (o / 64) (o % 64 / 8) x else s)
  else if regIn o 0x400 4 then put (fun p => { p with compl := p.compl.write (regIx o 0x400) x })
  else if o = 0x420 then s.presume n x
  else if o = 0x440 then s.changePend n (fun p => { p with pend := p.pend &&& ~~~x })
  else if o = 0x448 then s.changePend n (fun p => { p with pmask := x })
  else if o = 0x450 then s.writeMlend n x
  else if o = 0x458 then put (fun p => { p with s1root := x &&& 0x000FFFFFFFFFF001 })
  else if o = 0x460 then put (fun p => { p with inv1 := p.inv1.request x p.rgen })
  else if o = 0x478 then put (fun p => { p with inv1 := { p.inv1 with ovf := p.inv1.ovf && !bit x 0 } })
  else if o = 0x490 then put (fun p => { p with winbase := x &&& 0x000FFFF000000000 })
  else if o = 0x498 then (if bit x 63 then put (fun p => { p with winerr := 0 }) else s)
  else if regIn o 0x500 32 then s.writeBudget n (regIx o 0x500) x
  else if regIn o 0x1000 16 then put (fun p => { p with msix := Tab.set p.msix (regIx o 0x1000) x })
  else s

/-! Accesses of the host to registers (R458). -/

/-- The register at `o` of a function: virtual function n + 1 serves partition n, and port 1's physical function shows the
capability table alone (R455). -/
def State.regRead (s : State) (f : HostFunction) (o : Nat) : Word :=
  match f with
  | .physical => s.pfRead o
  | .physical1 => if s.narrow && regIn o 0x10000 8192 then s.pfRead o else 0
  | .virtual n => if 0 < n ∧ n ≤ 32 then s.vfRead (n - 1) o else 0

/-- A read of `size` bytes at `offset` returns the addressed bytes (R458). -/
def State.regBytes (s : State) (f : HostFunction) (offset size : Nat) : List Byte :=
  (List.range size).map (fun i => byteOf (s.regRead f ((offset + i) / 8 * 8)) ((offset + i) % 8))

/-- A write of a whole register of a function. -/
def State.regPut (s : State) (f : HostFunction) (o : Nat) (x : Word) : State :=
  match f with
  | .physical => s.pfWrite o x
  | .physical1 => s
  | .virtual n => if 0 < n ∧ n ≤ 32 then s.vfWrite (n - 1) o x else s

/-- RDB, PRESUME, HRESUME, S1INV, S2INV, PCTL and MCCTL accept only 8-byte writes (R458). -/
def actionReg (f : HostFunction) (o : Nat) : Bool :=
  match f with
  | .physical => o == 0x58 || (regIn o 0x2400 32 && regIx o 0x2400 % 8 == 3) ||
      (regIn o 0x100000 0x4000 && (o % 4096 == 0 || o % 4096 == 0x70))
  | .physical1 => false
  | .virtual _ => (decide (o < 0x400) && o % 64 == 16) || o == 0x420 || o == 0x460

/-- The bits of a register that a write of 1 clears: a write of the other half leaves them (R319, R355, R358, R392, R417, R457). -/
def clearBits (f : HostFunction) (o : Nat) : Word :=
  match f with
  | .physical => if o = 0x50 then 1 else if regIn o 0x2400 32 && regIx o 0x2400 % 8 == 4 then 1
      else if regIn o 0x100000 0x4000 && o % 4096 == 0x88 then 1 else 0
  | .physical1 => 0
  | .virtual _ => if decide (o < 0x400) && o % 64 == 32 then 4 else if o = 0x440 then BitVec.allOnes 64
      else if o = 0x478 then 1 else if o = 0x498 then 1#64 <<< 63 else 0

/-- REGISTER_WRITE: an aligned write of 8 bytes acts on the register, one of 4 bytes on one half; any other is ignored (R458). -/
def State.regWrite (s : State) (f : HostFunction) (offset size : Nat) (x : Word) : State :=
  if size = 8 ∧ offset % 8 = 0 then s.regPut f offset x
  else if size = 4 ∧ offset % 4 = 0 then
    let o := offset / 8 * 8
    if actionReg f o then s
    else
      let keep := s.regRead f o &&& ~~~(clearBits f o)
      let y : Word := if offset % 8 = 0 then bits keep 32 32 ++ bits x 0 32 else bits x 0 32 ++ bits keep 0 32
      s.regPut f o y
  else s

/-- REGISTER_WRITE (R458). -/
def execRegisterWrite (f : HostFunction) (offset size : Nat) (x : Word) (s : State) : Out := .next (s.regWrite f offset size x)

/-! BAR2 (R457, R265). -/

/-- The word of a BAR2 access as it leaves for the host: the egress lane checks its seal and fetches a damaged word once more; one
that is damaged then too leaves poisoned and loses the context of `part` (R265, R406, R412). -/
def State.egress (s : State) (part : Option Nat) (p : Place) : State :=
  let x := s.holderWord p
  let (w, sl) := s.checked p x
  if sealOk w sl then (s.countSeal (if sealOk x.1 x.2 then 0 else 1)).send (.bar2 w false)
  else
    let s := s.send (.bar2 w true)
    match part with
    | none => s
    | some n =>
      let l := Loss.found (syn x.1 x.2) (syn w sl) .egress (.completion n) 0 p
      s.post (.contextLoss n { l with party := none })

/-- The host writes a word of the partition: a start on a list with SYS comes after the leases that its home has granted (R324). -/
def State.hostWrote (s : State) (part : Nat) (p : Place) : State :=
  let t := max (s.homeTs { p with home := 0 }).rts (match Tab.find? (s.cluster p.phys).l2HomeTs (p.pa / 128) with | some x => x.2 | none => 0)
  s.modPart part (fun x => { x with hostTime := max x.hostTime (t + 1) })

/-- A write of a BAR2 access at its holder, under the seal that the ingress lane makes; a word whose TLP is marked poisoned is
written poisoned. A damaged word that it would merge into is lost (R173, R265). -/
def State.ingress (s : State) (part : Option Nat) (p : Place) (x : Word) (mask : BitVec 8) (poisoned : Bool) : State :=
  let n := x &&& byteMask mask
  let s := match part with | some n => s.hostWrote n p | none => s
  match s.mergeHolder (.completion (part.getD 0)) p n mask (sealOf n) poisoned false with
  | .done s => s
  | .lost y s =>
    match part with
    | none => s
    | some n =>
      let l := Loss.found y.1 y.2 .merge (.completion n) 0 p
      s.post (.contextLoss n { l with party := none })

/-- The partition whose channels hold a physical address of HBM. -/
def State.ownerOf (s : State) (pa : Nat) : Option Nat := (s.cluster (pa / Config.clusterBytes)).owner

/-- PF_BAR2_ACCESS: the physical address is the offset (R457). -/
def State.pfBar2 (s : State) (write : Bool) (offset : Nat) (x : Word) (mask : BitVec 8) (poisoned : Bool) : State :=
  let a := offset / 8 * 8
  if !s.bootDone then s
  else if Config.hbmEnd ≤ offset then (if write then s else s.send .bar2Unsupported)
  else if write then s.ingress (s.ownerOf a) (Place.plain a) x mask poisoned
  else s.egress (s.ownerOf a) (Place.plain a)

/-- PF_BAR2_ACCESS (R457). -/
def execPfBar2Access (write : Bool) (offset : Nat) (x : HostWord) (mask : BitVec 8) (s : State) : Out :=
  .next (s.pfBar2 write offset x.word mask x.poisoned)

/-- An access through a virtual function's BAR2 faults: a read completes with Completer Abort, a write is dropped, and the first
offset is latched (R457). -/
def State.winFault (s : State) (part : Nat) (write : Bool) (offset : Nat) : State :=
  let s := s.modPart part (fun p =>
    if bit p.winerr 63 then p else { p with winerr := 1#1 ++ 0#27 ++ BitVec.ofNat 36 offset })
  if write then s else s.send .bar2Abort

/-- Where an intermediate address leads: through a window to another device, or through stage 2 (R384, R457). A damaged table entry
loses the context of the partition (R412). -/
def State.bar2Place (s : State) (part : Nat) (write : Bool) (ipa : Nat) : Option Place × State :=
  let p := s.part part
  let lost (s : State) (y : Syndromes) (pa : Nat) : Option Place × State :=
    (none, s.post (.contextLoss part { Loss.found y.1 y.2 .walk (.completion part) 0 (Place.plain pa) with party := none }))
  match p.window ipa with
  | some r =>
    match s.farEnd part r with
    | (.refused .., s) => (none, s)
    | (.lost y pa, s) => lost s y pa
    | (.there, s) => (some (r.place part), s)
    | (.here l pl, s) =>
      if rightOk l.r l.w l.x (if write then .write else .read) then (some pl, s.markLeaf l write) else (none, s)
  | none =>
    match s.walk2 p.s2root ipa with
    | (.error (.lost y pa), s) => lost s y pa
    | (.error _, s) => (none, s)
    | (.ok l, s) =>
      if !rightOk l.r l.w l.x (if write then .write else .read) then (none, s)
      else (some (Place.of { home := 3, phys := 0, pa := l.pa, off := 0 } (some part)), s.markLeaf l write)

/-- VF_BAR2_ACCESS: the intermediate address WINBASE + offset of the function's partition (R457). Nothing leaves for the host while a
loss holds the partition (R413). -/
def State.vfBar2 (s : State) (part : Nat) (write : Bool) (offset : Nat) (x : Word) (mask : BitVec 8) (poisoned : Bool) : State :=
  if !s.bootDone || !s.vfEnabled part then s
  else if (s.part part).state = 0 then (if write then s else s.send .bar2Abort)
  else if (s.part part).lost && !write then s
  else
    let a := offset % 2 ^ 36 / 8 * 8
    match s.bar2Place part write ((s.part part).winbase.toNat + a) with
    | (none, s) => s.winFault part write (offset % 2 ^ 36)
    | (some p, s) =>
      let s := s.transfer part .host (if write then (setBits (mask.setWidth 64)).length else 8)
      if write then s.ingress (some part) p x mask poisoned else (s.meter (.completion part) p 8).egress (some part) p

/-- VF_BAR2_ACCESS (R457). -/
def execVfBar2Access (part : Nat) (write : Bool) (offset : Nat) (x : HostWord) (mask : BitVec 8) (s : State) : Out :=
  .next (s.vfBar2 part write offset x.word mask x.poisoned)

/-! Resets (R463). -/

/-- HOT_RESET: every partition is destroyed, and what the physical function holds of context lifetime takes reset values: its fault
ring with what waits for it, its MSI-X table and the enabling of its virtual functions (R463). -/
def State.hotReset (s : State) : State :=
  let s := ((List.range 32).filter (fun n => (s.part n).state != 0)).foldl State.destroy s
  { s with faultRing := {}, faultDue := [], msix := [], pba := 0, vfOn := false, numVfs := 0, vfOn1 := false, numVfs1 := 0 }

/-- HOT_RESET (R463). -/
def execHotReset (s : State) : Out := .next s.hotReset

end Sys2Proof.Machine
end

