-- ==== Sys2Proof/Machine/Memory.lean ====
section
/-! DEFINITION. Memory instructions of slots A and E (R176 to R189) and FENCE. -/

namespace Sys2Proof.Machine

/-- The order and list of an access are checked, then its alignment (R169, R184). -/
def State.access (s : State) (o : MemOrder) (l : ListIx) (va : Word) (n : Nat) (f : State → State) : State :=
  if aligned va n then s.ordered o l f else s.misaligned va

/-- A load of slot A in repair mode: LD.d at a window (R443). -/
def State.repairLd (s : State) (sz : Size) (va : Word) (sd : SReg) (taint : Bool) : State :=
  match (if sz = .d && aligned va 8 then s.cc.repairLoad va.toNat else Option.none) with
  | some x => s.retS sd x taint
  | Option.none => s.parkCs { cause := 0x10, addr := va }

/-- LD (R176). -/
def execLd (sz : Size) (un : Bool) (ord : MemOrder) (ls : ListIx) (sd sa : SReg) (off : BitVec 32) (s : State) : Out :=
  let va := s.rs sa + off.signExtend 64
  .next (
    if s.cc.inRepair then s.repairLd sz va sd (s.rt sa)
    else s.access ord ls va (Size.bytes sz) (fun s => s.load va (Size.bytes sz) un ord ls sd (s.rt sa) (s.rt sa) false))

/-- LDC: a plain LD whose destination is tainted (R20, R176). -/
def execLdc (sz : Size) (un : Bool) (sd sa : SReg) (off : BitVec 32) (s : State) : Out :=
  let va := s.rs sa + off.signExtend 64
  .next (
    if s.cc.inRepair then s.parkCs { cause := 0x10, addr := va }
    else s.access .plain 0 va (Size.bytes sz) (fun s => s.load va (Size.bytes sz) un .plain 0 sd true (s.rt sa) true))

/-- A store of slot A in repair mode: ST.d at a window (R443). -/
def State.repairSt (s : State) (sz : Size) (va : Word) (x : Word) : State :=
  match (if sz = .d && aligned va 8 then s.cc.repairStore va.toNat x else Option.none) with
  | some c => (s.setCore s.cur.core c).advance
  | Option.none => s.parkCs { cause := 0x10, addr := va, kind := .write }

/-- ST (R176). -/
def execSt (sz : Size) (ord : MemOrder) (ls : ListIx) (sd sa : SReg) (off : BitVec 32) (s : State) : Out :=
  let va := s.rs sa + off.signExtend 64
  .next (
    if s.cc.inRepair then s.repairSt sz va (s.rs sd)
    else s.access ord ls va (Size.bytes sz) (fun s => s.store va (Size.bytes sz) (s.rs sd) ord ls (s.rt sa)))

/-- Bytes of an atomic's operand (R187). -/
def amoBytes (dw : Bool) : Nat := if dw then 8 else 4

/-- An AMO whose operation is `f` on the operand's low bits (R187). -/
def State.amo (s : State) (dw : Bool) (ord : MemOrder) (ls : ListIx) (sd sa sb : SReg) (off : BitVec 20)
    (f : Word → Word → Word) : State :=
  let va := s.rs sa + off.signExtend 64
  s.access ord ls va (amoBytes dw) (fun s =>
    s.atomic va (amoBytes dw) ord ls sd (s.rt sa || s.rt sb) (s.rt sa) (fun x => some (f x (zextOf (s.rs sb) (8 * amoBytes dw)))))

/-- `a` is below `b` as signed numbers of the operand's width (R187). -/
def amoLt (dw : Bool) (a b : Word) : Bool :=
  if dw then a.slt b else (a.setWidth 32).slt (b.setWidth 32)

/-- AMO.add (R187). -/
def execAmoAdd (dw : Bool) (ord : MemOrder) (ls : ListIx) (sd sa sb : SReg) (off : BitVec 20) (s : State) : Out :=
  .next (s.amo dw ord ls sd sa sb off (fun x y => x + y))
/-- AMO.and (R187). -/
def execAmoAnd (dw : Bool) (ord : MemOrder) (ls : ListIx) (sd sa sb : SReg) (off : BitVec 20) (s : State) : Out :=
  .next (s.amo dw ord ls sd sa sb off (fun x y => x &&& y))
/-- AMO.or (R187). -/
def execAmoOr (dw : Bool) (ord : MemOrder) (ls : ListIx) (sd sa sb : SReg) (off : BitVec 20) (s : State) : Out :=
  .next (s.amo dw ord ls sd sa sb off (fun x y => x ||| y))
/-- AMO.xor (R187). -/
def execAmoXor (dw : Bool) (ord : MemOrder) (ls : ListIx) (sd sa sb : SReg) (off : BitVec 20) (s : State) : Out :=
  .next (s.amo dw ord ls sd sa sb off (fun x y => x ^^^ y))
/-- AMO.min (R187). -/
def execAmoMin (dw : Bool) (ord : MemOrder) (ls : ListIx) (sd sa sb : SReg) (off : BitVec 20) (s : State) : Out :=
  .next (s.amo dw ord ls sd sa sb off (fun x y => if amoLt dw y x then y else x))
/-- AMO.max (R187). -/
def execAmoMax (dw : Bool) (ord : MemOrder) (ls : ListIx) (sd sa sb : SReg) (off : BitVec 20) (s : State) : Out :=
  .next (s.amo dw ord ls sd sa sb off (fun x y => if amoLt dw x y then y else x))
/-- AMO.minu (R187). -/
def execAmoMinu (dw : Bool) (ord : MemOrder) (ls : ListIx) (sd sa sb : SReg) (off : BitVec 20) (s : State) : Out :=
  .next (s.amo dw ord ls sd sa sb off (fun x y => if y.ult x then y else x))
/-- AMO.maxu (R187). -/
def execAmoMaxu (dw : Bool) (ord : MemOrder) (ls : ListIx) (sd sa sb : SReg) (off : BitVec 20) (s : State) : Out :=
  .next (s.amo dw ord ls sd sa sb off (fun x y => if x.ult y then y else x))
/-- AMO.swap (R187). -/
def execAmoSwap (dw : Bool) (ord : MemOrder) (ls : ListIx) (sd sa sb : SReg) (off : BitVec 20) (s : State) : Out :=
  .next (s.amo dw ord ls sd sa sb off (fun _ y => y))

/-- CAS (R188). -/
def execCas (dw : Bool) (ord : MemOrder) (ls : ListIx) (sd sa sb sc : SReg) (off : BitVec 20) (s : State) : Out :=
  let va := s.rs sa + off.signExtend 64
  .next (s.access ord ls va (amoBytes dw) (fun s =>
    s.atomic va (amoBytes dw) ord ls sd (s.rt sa || s.rt sb || s.rt sc) (s.rt sa) (fun x =>
      if x = zextOf (s.rs sb) (8 * amoBytes dw) then some (s.rs sc) else Option.none)))

/-- PREF asks for a line and changes nothing that a task can see (R177). -/
def execPref (_sa : SReg) (_off : BitVec 32) (s : State) : Out := .next s.advance

/-- A FENCE on list `l`: its release part raises the list time to the group's time, its acquire part raises every member's
time to that of the group, which the group's plain loads have raised at holders that keep leases, to the list time (R186, R267, R274)
and to that of the releases which those loads have read at holders with one RTS, where they synchronise with it (R270). In repair
mode it has no effect (R443). -/
def State.fence (s : State) (acq rel : Bool) (l : ListIx) : State :=
  if s.cc.bind.isNone then s.advance
  else s.onList l.toNat (fun s =>
    let s := if rel then
        let s := s.gather true
        let r := s.releaseOn (s.myEntry l)
        (s.raiseListTime s.cur.core l.toNat s.releaseTs).modMembers (fun t => { t with fenced := keepRelease r t.fenced })
      else s
    let s := if acq then
        let e := s.myEntry l
        let c := s.cur.core
        let seen := s.members.flatMap (fun k => (s.cc.slot k).seen)
        s.acquireTs (max s.releaseTs (max (timeOf seen (fun r => r.meets e (s.peerOf c) (s.vcoreOf c))) (s.listTime c l.toNat)))
      else s
    s.advance)

/-- FENCE.acq (R186). -/
def execFenceAcq (ls : ListIx) (s : State) : Out := .next (s.fence true false ls)
/-- FENCE.rel (R186). -/
def execFenceRel (ls : ListIx) (s : State) : Out := .next (s.fence false true ls)
/-- FENCE.full (R186). -/
def execFenceFull (ls : ListIx) (s : State) : Out := .next (s.fence true true ls)

/-- Base address of a vector access: s[SA] + 64 × OFF14 (R179). -/
def State.vbase (s : State) (sa : SReg) (off : BitVec 14) : Word := s.rs sa + (off.signExtend 64 <<< 6)

/-- The rows of a vector access are aligned, its list is good, and it goes on (R169, R184). -/
def State.rows (s : State) (ord : MemOrder) (ls : ListIx) (a p : Word) (f : State → State) : State :=
  match badRow a p with
  | some x => s.misaligned x
  | Option.none => s.ordered ord ls f

/-- The active elements of a row access with their addresses (R179, R180). -/
def rowElems (m : BitVec 1024) (a p : Word) : List (Nat × Word) := (activeOf m).map (fun e => (e, rowAddr a p e))

/-- VLD (R179). -/
def execVld (ord : MemOrder) (ls : ListIx) (vd : VReg) (sa : SReg) (off : BitVec 14) (mk : MReg) (s : State) : Out :=
  let a := s.vbase sa off
  .next (s.rows ord ls a 0 (fun s => s.vload vd (rowElems (s.rm mk) a 256) ord ls))

/-- VST (R179). -/
def execVst (ord : MemOrder) (ls : ListIx) (vd : VReg) (sa : SReg) (off : BitVec 14) (mk : MReg) (s : State) : Out :=
  let a := s.vbase sa off
  .next (s.rows ord ls a 0 (fun s => s.vstore (rowStores (s.rv vd) (s.rm mk) a 256) ord ls))

/-- VLDB: one row of 256 bytes fills every row (R179). -/
def execVldb (ord : MemOrder) (ls : ListIx) (vd : VReg) (sa : SReg) (off : BitVec 14) (mk : MReg) (s : State) : Out :=
  let a := s.vbase sa off
  .next (s.rows ord ls a 0 (fun s => s.vload vd (rowElems (s.rm mk) a 0) ord ls))

/-- VLDS: row i stands at a + i × p (R180). -/
def execVlds (ord : MemOrder) (ls : ListIx) (vd : VReg) (sa sb : SReg) (off : BitVec 14) (mk : MReg) (s : State) : Out :=
  let a := s.vbase sa off
  let p := s.rs sb
  .next (s.rows ord ls a p (fun s => s.vload vd (rowElems (s.rm mk) a p) ord ls))

/-- VSTS (R180). -/
def execVsts (ord : MemOrder) (ls : ListIx) (vd : VReg) (sa sb : SReg) (off : BitVec 14) (mk : MReg) (s : State) : Out :=
  let a := s.vbase sa off
  let p := s.rs sb
  .next (s.rows ord ls a p (fun s => s.vstore (rowStores (s.rv vd) (s.rm mk) a p) ord ls))

/-- The active elements of a gather or scatter with their addresses (R181). -/
def State.indexed (s : State) (sa : SReg) (vb : VReg) (mk : MReg) : List (Nat × Word) :=
  (activeOf (s.rm mk)).map (fun e => (e, s.rs sa + ((s.rv vb).get e).setWidth 64))

/-- The elements of a gather or scatter are aligned, the list is good, and it goes on (R169, R184). -/
def State.elemsOk (s : State) (ord : MemOrder) (ls : ListIx) (l : List (Nat × Word)) (f : State → State) : State :=
  match l.find? (fun e => !aligned e.2 4) with
  | some e => s.misaligned e.2
  | Option.none => s.ordered ord ls f

/-- VGATH (R181). -/
def execVgath (ord : MemOrder) (ls : ListIx) (vd vb : VReg) (sa : SReg) (mk : MReg) (s : State) : Out :=
  let l := s.indexed sa vb mk
  .next (s.elemsOk ord ls l (fun s => s.vload vd l ord ls))

/-- The partial store of one element of a scatter (R181). -/
def scatterStore (v : VVal) (e : Nat × Word) : WordStore :=
  { va := e.2, n := place8 ((v.get e.1).setWidth 64) e.2.toNat 4, m := byteSel e.2.toNat 4 }

/-- VSCAT (R181). -/
def execVscat (ord : MemOrder) (ls : ListIx) (vd vb : VReg) (sa : SReg) (mk : MReg) (s : State) : Out :=
  let l := s.indexed sa vb mk
  .next (s.elemsOk ord ls l (fun s => s.vstore (l.map (scatterStore (s.rv vd))) ord ls))

end Sys2Proof.Machine
end

