-- ==== Sys2Proof/Machine/Return.lean ====
section
/-! DEFINITION. Loaded data on its way back to a slot (R174, R178, R183), the refetch of a damaged word (R175, R406), and
the acts of the memory system by physical address (R173, R253, R254, R256, R262, R352). -/

namespace Sys2Proof.Machine

/-- The scalar value of a load that has passed its check is written (R176, R187). -/
def PendLoad.write (l : PendLoad) (r : Regs) : Regs :=
  r.sset l.sd (extend (pick l.word l.va.toNat l.bytes) l.bytes l.un) l.taint

/-- LOAD_RETURN: the word's seal is checked, and s[SD] is written; a mismatch fetches the word once more (R174, R175). -/
def execLoadReturn (core : Nat) (s : State) : Out :=
  .next (match (s.core core).loads with
    | [] => s
    | l :: rest =>
      if sealOk l.word l.sl then
        (s.modCore core (fun c => { c with loads := rest, regs := l.write c.regs })).countSeal (if l.again then 1 else 0)
      else if l.again then
        (s.modCore core (fun c => { c with loads := rest })).lose
          (Loss.found l.y1 (syn l.word l.sl) .scalarLoad (.slot core l.slot) l.va l.place)
      else s.post (.sealRefetch (.slot core l.slot)))

/-- The 32-bit element at an address, from the words that were fetched. -/
def PendVec.elemAt (v : PendVec) (va : Word) : Elem :=
  match v.words.find? (fun w => w.n == va.toNat / 8) with
  | some w => (pick w.word va.toNat 4).setWidth 32
  | none => 0

/-- The destination of a vector load: its active elements take the data (R179 to R183). -/
def PendVec.write (v : PendVec) (r : Regs) : Regs :=
  let old := r.vget v.vd.toNat
  r.vset v.vd.toNat (VVal.ofFn (fun e =>
    match v.elems.find? (fun x => x.1 == e) with
    | some x => v.elemAt x.2
    | none => old.get e))

/-- VECTOR_LOAD_RETURN: every word is checked before any element is written (R174, R183). -/
def execVectorLoadReturn (core : Nat) (s : State) : Out :=
  .next (match (s.core core).vloads with
    | [] => s
    | v :: rest =>
      match v.words.find? (fun w => !sealOk w.word w.sl) with
      | none => (s.modCore core (fun c => { c with vloads := rest, regs := v.write c.regs })).countSeal (v.words.countP (fun w => w.y1 != 0))
      | some w =>
        if v.again then
          (s.modCore core (fun c => { c with vloads := rest })).lose
            (Loss.found w.y1 (syn w.word w.sl) .vectorLoad (.slot core .E) (BitVec.ofNat 64 (8 * w.n)) w.place)
        else s.post (.sealRefetch (.slot core .E)))

/-- SEAL_REFETCH: a consuming lane drops its copies of a damaged word and fetches it again (R406). -/
def execSealRefetch (p : Party) (s : State) : Out :=
  .next (match p with
    | .slot c .E =>
      match (s.core c).vloads with
      | [] => s
      | v :: rest =>
        let (ws, s) := v.words.foldl (fun (acc : List VWord × State) w =>
          if sealOk w.word w.sl then (acc.1 ++ [w], acc.2)
          else
            let ((x, sl), s) := acc.2.readAgain p w.place false
            (acc.1 ++ [{ w with word := x, sl, y1 := syn w.word w.sl }], s)) ([], s)
        (s.modCore c (fun k => { k with vloads := { v with words := ws, again := true } :: rest })).post (.vectorLoadReturn c)
    | .slot c _ =>
      match (s.core c).loads with
      | [] => s
      | l :: rest =>
        if sealOk l.word l.sl then s
        else
          let ((x, sl), s) := s.readAgain p l.place false
          (s.modCore c (fun k => { k with loads := { l with word := x, sl, again := true, y1 := syn l.word l.sl } :: rest })).post
            (.loadReturn c)
    | _ => s)

/-! The memory system by physical address. -/

/-- HOLDER_READ: a read by a party of the word at a physical address reaches its home and takes a lease (R253). -/
def execHolderRead (p : Party) (pa : BitVec 52) (s : State) : Out :=
  .next (if hasTarget pa.toNat then (s.readHome p ((Place.plain pa.toNat).of (s.partyPart p)) false).2 else s)

/-- What becomes of a store by a party at a holder (R173). -/
def State.storedBy (s : State) (who : Party) (p : Place) : Stored → State
  | .done t => t
  | .lost y t => let _ := s; t.lose (Loss.found y.1 y.2 .merge who 0 p)

/-- HOLDER_WRITE: a whole word is written at its holder with new timestamps (R172, R254). -/
def execHolderWrite (p : Party) (pa : BitVec 52) (w : Word) (release : Bool) (s : State) : Out :=
  let pl := (Place.plain pa.toNat).of (s.partyPart p)
  .next (if hasTarget pa.toNat then s.storedBy p pl (s.writeHolder p pl w 0xFF release) else s)

/-- PARTIAL_STORE_MERGE: the holder merges the bytes of `n` that the mask names (R173). -/
def execPartialStoreMerge (p : Party) (pa : BitVec 52) (n : Word) (mask : BitVec 8) (release : Bool) (s : State) : Out :=
  let pl := (Place.plain pa.toNat).of (s.partyPart p)
  .next (if hasTarget pa.toNat then s.storedBy p pl (s.writeHolder p pl (n &&& byteMask mask) mask release) else s)

/-- LLC_EVICTION (R256): a page that is kept is never evicted (R261). -/
def execLlcEviction (line : Nat) (s : State) : Out := .next (if s.keptLine line then s else s.evict line)

/-- A party's translation: it has the translation, it parks, or its context is lost (R169, R352). -/
def State.walked (s : State) (who : Party) : Walked → State
  | .ok _ t => t
  | .fault k t => let _ := s; t.parkParty who k
  | .lost l t => t.lose l

/-- TRANSLATION_WALK: the party's access walks the tables (R352). -/
def execTranslationWalk (p : Party) (va : Word) (kind : AccessKind) (s : State) : Out :=
  .next (match s.partyPart p with
    | some part => s.walked p (s.walk part p va kind)
    | none => s)

/-- PAGE_PIN: the first access to a page whose entry asks for a pin allocates and fills its place (R262). An access to a page
that asks for none, or that is pinned, finds its translation. -/
def execPagePin (p : Party) (va : Word) (kind : AccessKind) (s : State) : Out :=
  .next (match s.partyPart p with
    | some part => s.walked p (s.translate part p va kind)
    | none => s)

end Sys2Proof.Machine
end

