-- ==== Sys2Proof/Machine/Special.lean ====
section
/-! DEFINITION. The special functions (R72, R136) and microscaling blocks (R51, R52). A function value that is not exact
goes into Round as a number cut to more than 300 bits with a sticky bit; that this decides every rounding as the exact
value would is assumption log 9. -/

namespace Sys2Proof.Machine

/-- ⌊√n⌋ for n < 4^k, digit by digit from the top. -/
def isqrtFrom (n : Nat) : Nat → Nat → Nat
  | 0, r => r
  | k + 1, r => isqrtFrom n k (if (r + 2 ^ k) * (r + 2 ^ k) ≤ n then r + 2 ^ k else r)

/-- ⌊√n⌋. -/
def isqrt (n : Nat) : Nat := isqrtFrom n (Nat.log2 n / 2 + 1) 0

/-- Fractional bits of the fixed-point numbers below. -/
def fxBits : Nat := 420
/-- One in fixed point. -/
def fxOne : Nat := 2 ^ fxBits

/-- Σ_{k ≥ 0} of the terms t, t y / (k+1), …: the series of exp from term `k` on, in fixed point. -/
def expSum (y : Nat) : Nat → Nat → Nat → Nat
  | 0, _, _ => 0
  | n + 1, k, t => t + expSum y n (k + 1) (t * y / fxOne / (k + 1))

/-- e^y in fixed point for 0 ≤ y < 1. -/
def fxExp (y : Nat) : Nat := expSum y 110 0 fxOne

/-- Σ z^(2k+1) / (2k+1) from term `k` on: artanh in fixed point; `z2` is z². -/
def atanhSum (z2 : Nat) : Nat → Nat → Nat → Nat
  | 0, _, _ => 0
  | n + 1, k, t => t / (2 * k + 1) + atanhSum z2 n (k + 1) (t * z2 / fxOne)

/-- artanh of p / q in fixed point, for p / q ≤ 1/3. -/
def fxAtanh (p q : Nat) : Nat :=
  let z := p * fxOne / q
  atanhSum (z * z / fxOne) 140 0 z

/-- ln 2 in fixed point. -/
def fxLn2 : Nat := 2 * fxAtanh 1 3

/-- 2^f in fixed point for the fraction f = n / 2^fxBits. -/
def fxExp2 (n : Nat) : Nat := fxExp (n * fxLn2 / fxOne)

/-- Round of a number that is not representable, cut to m × 2^e. -/
def cut (env : FpEnv) (f : Fmt) (neg : Bool) (m : Nat) (e : Int) : Res := round env f neg m e true

/-- 1/a (R136). -/
def fRcp (env : FpEnv) (f : Fmt) (a : FVal) : Res :=
  match a with
  | .nan .. => deliver env f a (nvOf [a])
  | .inf s => { v := f.zero s }
  | .zero s => { v := f.infinity s, c := cDZ }
  | .num s m e =>
    let k := Nat.log2 m + 100
    round env f s (2 ^ k / m) (-(k : Int) - e) (decide (2 ^ k % m ≠ 0))

/-- An even exponent not above `e`, and the significand for it. -/
def evenExp (m : Nat) (e : Int) : Nat × Int := if e % 2 = 0 then (m, e) else (2 * m, e - 1)

/-- 1/√a (R136). -/
def fRsq (env : FpEnv) (f : Fmt) (a : FVal) : Res :=
  match a with
  | .nan .. => deliver env f a (nvOf [a])
  | .inf s => if s then invalid f else { v := f.zero false }
  | .zero s => { v := f.infinity s, c := cDZ }
  | .num s m e =>
    if s then invalid f
    else
      let (m, e) := evenExp m e
      let k := Nat.log2 m + 100
      let r := isqrt (2 ^ (2 * k) / m)
      round env f false r (-(k : Int) - e / 2) (decide (r * r * m ≠ 2 ^ (2 * k)))

/-- √a (R136). -/
def fSqrt (env : FpEnv) (f : Fmt) (a : FVal) : Res :=
  match a with
  | .nan .. => deliver env f a (nvOf [a])
  | .inf s => if s then invalid f else { v := f.infinity false }
  | .zero s => { v := f.zero s }
  | .num s m e =>
    if s then invalid f
    else
      let (m, e) := evenExp m e
      let r := isqrt (m * 2 ^ 200)
      round env f false r (e / 2 - 100) (decide (r * r ≠ m * 2 ^ 200))

/-- 2^a (R136). -/
def fExp2 (env : FpEnv) (f : Fmt) (a : FVal) : Res :=
  match a with
  | .nan .. => deliver env f a (nvOf [a])
  | .inf s => { v := if s then f.zero false else f.infinity false }
  | .zero _ => round env f false 1 0 false
  | .num s m e =>
    if 12 < (Nat.log2 m : Nat) + e then cut env f false (2 ^ 100) (if s then -6000 else 6000)
    else
      let x := m * 2 ^ e.toNat
      let d := 2 ^ (-e).toNat
      if x % d = 0 then round env f false 1 (if s then -((x / d : Nat) : Int) else (x / d : Nat)) false
      else
        let i : Int := if s then -((x / d : Nat) : Int) - 1 else (x / d : Nat)
        let r := if s then d - x % d else x % d
        cut env f false (fxExp2 (r * fxOne / d)) (i - fxBits)

/-- log₂ a (R136). -/
def fLog2 (env : FpEnv) (f : Fmt) (a : FVal) : Res :=
  match a with
  | .nan .. => deliver env f a (nvOf [a])
  | .inf s => if s then invalid f else { v := f.infinity false }
  | .zero _ => { v := f.infinity true, c := cDZ }
  | .num s m e =>
    if s then invalid f
    else
      let k := Nat.log2 m
      let x : Int := (k : Nat) + e
      if m = 2 ^ k then
        if x = 0 then { v := f.zero false } else round env f (decide (x < 0)) x.natAbs 0 false
      else
        let lg := 2 * fxAtanh (m - 2 ^ k) (m + 2 ^ k) * fxOne / fxLn2
        let v : Int := x * (fxOne : Nat) + (lg : Nat)
        if v < 0 then cut env f true (v.natAbs - 1) (-(fxBits : Int)) else cut env f false v.toNat (-(fxBits : Int))

/-- tanh a (R136). -/
def fTanh (env : FpEnv) (f : Fmt) (a : FVal) : Res :=
  match a with
  | .nan .. => deliver env f a (nvOf [a])
  | .inf s => round env f s 1 0 false
  | .zero s => { v := f.zero s }
  | .num s m e =>
    let top : Int := (Nat.log2 m : Nat) + e
    if 6 < top then cut env f s (2 ^ 300 - 1) (-300)
    else if top < -40 then cut env f s (m * 2 ^ 400 - 1) (e - 400)
    else
      let t := (2 * m * 2 ^ e.toNat) * fxOne / 2 ^ (-e).toNat * fxOne / fxLn2
      let u := fxExp2 (t % fxOne) * 2 ^ (t / fxOne)
      cut env f s (fxOne - 2 * fxOne * fxOne / (u + fxOne)) (-(fxBits : Int))

/-- A block of MXQuantise: the scale X, the elements, and the conditions (R52). -/
structure MxBlock where
  x : Nat
  elems : List Nat
  c : Conds
deriving DecidableEq, Repr

/-- The exponent ⌊log₂ |v|⌋ of a finite nonzero datum. -/
def FVal.log2 : FVal → Option Int
  | .num _ m e => some ((Nat.log2 m : Nat) + e)
  | _ => none

/-- emax of MXQuantise (R52). -/
def mxEmax (f : Fmt) : Int := if f.w = 4 then 2 else if f.oneNan then 8 else 15

/-- MXQuantise of R52 over the values of one block. -/
def mxQuantise (f : Fmt) (vs : List FVal) : MxBlock :=
  if vs.any (fun v => match v with | .nan .. | .inf _ => true | _ => false) then
    { x := 0xFF, elems := vs.map (fun _ => 0), c := cNV }
  else
    let tops := vs.filterMap FVal.log2
    match tops with
    | [] => { x := 0, elems := vs.map (fun v => f.zero v.neg), c := 0 }
    | t :: r =>
      let top := r.foldl max t
      let x : Int := max 0 (min 254 (top - mxEmax f + 127))
      let env : FpEnv := { rm := .rne, sat := true, ftz := false, daz := false }
      let es : List Res := vs.map (fun v => match v with
        | .num s m e => round env f s m (e - (x - 127)) false
        | v => { v := f.zero v.neg })
      { x := x.toNat, elems := es.map (·.v), c := if es.any (fun r => decide (r.c ≠ (0 : Conds))) then cNX else 0 }

/-- One value of VMXD: element × 2^(X − 127) (R52, R146). The element is in format `src`. -/
def mxDequant (env : FpEnv) (src dst : Fmt) (x elem : Nat) : Res :=
  if x = 0xFF then { v := dst.defNan }
  else
    match src.decode false elem with
    | .num s m e => round env dst s m (e + ((x : Int) - 127)) false
    | v => deliver env dst v (nvOf [v])

end Sys2Proof.Machine
end

