-- ==== Sys2Proof/Machine/VecArith.lean ====
section
/-! DEFINITION. Vector arithmetic, comparison and conversion (R128 to R148). -/

namespace Sys2Proof.Machine

/-- Bits of a sub-element (R21). -/
def tyWidth (t : VTy) : Nat := 32 / t.group

/-- The format of a floating-point type (R75). -/
def tyFmt : VTy → Fmt
  | .bf16x2 => bf16 | .f16x2 => fp16 | .e4m3x4 => e4m3 | .e5m2x4 => e5m2
  | .f32 | .i32 | .ui32 | .i16x2 | .ui16x2 | .i8x4 | .ui8x4 => fp32

/-- A signed integer type. -/
def tySigned : VTy → Bool
  | .i32 | .i16x2 | .i8x4 => true
  | .f32 | .bf16x2 | .f16x2 | .e4m3x4 | .e5m2x4 | .ui32 | .ui16x2 | .ui8x4 => false

/-- Sub-element `i` of width `w` (R21). -/
def sub (x : Elem) (w i : Nat) : Nat := x.toNat / 2 ^ (w * i) % 2 ^ w

/-- An element from its sub-elements, low to high. -/
def joinSubs (w : Nat) : List Nat → Nat
  | [] => 0
  | x :: r => x % 2 ^ w + 2 ^ w * joinSubs w r

/-- An element whose sub-element i is `f i`, and the OR of the conditions (R61). -/
def mapSubs (t : VTy) (f : Nat → Res) : ElemRes :=
  let rs := (List.range t.group).map f
  { v := BitVec.ofNat 32 (joinSubs (tyWidth t) (rs.map (·.v))), c := rs.foldl (fun c r => c ||| r.c) 0 }

/-- The datum of a sub-element under DAZ. -/
def fval (env : FpEnv) (t : VTy) (x : Elem) (i : Nat) : FVal := (tyFmt t).decode env.daz (sub x (tyWidth t) i)

/-- A one-source floating-point form. -/
def State.vf1 (s : State) (t : VTy) (vd va : VReg) (mk : MReg) (f : FpEnv → Fmt → FVal → Res) : State :=
  let env := s.env
  let a := s.rv va
  s.vwrite vd mk (fun e => mapSubs t (fun i => f env (tyFmt t) (fval env t (a.get e) i)))

/-- A two-source floating-point form. -/
def State.vf2 (s : State) (t : VTy) (vd va vb : VReg) (mk : MReg) (f : FpEnv → Fmt → FVal → FVal → Res) : State :=
  let env := s.env
  let a := s.rv va
  let b := s.rv vb
  s.vwrite vd mk (fun e => mapSubs t (fun i => f env (tyFmt t) (fval env t (a.get e) i) (fval env t (b.get e) i)))

/-- A three-source floating-point form. -/
def State.vf3 (s : State) (t : VTy) (vd va vb vc : VReg) (mk : MReg) (f : FpEnv → Fmt → FVal → FVal → FVal → Res) : State :=
  let env := s.env
  let a := s.rv va
  let b := s.rv vb
  let c := s.rv vc
  s.vwrite vd mk (fun e => mapSubs t (fun i =>
    f env (tyFmt t) (fval env t (a.get e) i) (fval env t (b.get e) i) (fval env t (c.get e) i)))

/-- VADD (R131). -/
def execVadd (ty : VTy) (vd va vb : VReg) (mk : MReg) (s : State) : Out := .next (s.vf2 ty vd va vb mk fAdd)
/-- VSUB (R131). -/
def execVsub (ty : VTy) (vd va vb : VReg) (mk : MReg) (s : State) : Out :=
  .next (s.vf2 ty vd va vb mk (fun env f a b => fAdd env f a b.minus))
/-- VMUL (R131). -/
def execVmul (ty : VTy) (vd va vb : VReg) (mk : MReg) (s : State) : Out := .next (s.vf2 ty vd va vb mk fMul)
/-- VMIN (R131). -/
def execVmin (ty : VTy) (vd va vb : VReg) (mk : MReg) (s : State) : Out :=
  .next (s.vf2 ty vd va vb mk (fun env f => fMinMax env f false))
/-- VMAX (R131). -/
def execVmax (ty : VTy) (vd va vb : VReg) (mk : MReg) (s : State) : Out :=
  .next (s.vf2 ty vd va vb mk (fun env f => fMinMax env f true))
/-- VCPYSGN: only the sign bit of b is read (R133). -/
def execVcpysgn (ty : VTy) (vd va vb : VReg) (mk : MReg) (s : State) : Out :=
  .next (s.vf2 ty vd va vb mk (fun env f a b => fSign env f b.neg a))
/-- VFMA (R132). -/
def execVfma (ty : VTy) (vd va vb vc : VReg) (mk : MReg) (s : State) : Out :=
  .next (s.vf3 ty vd va vb vc mk (fun env f => fFma env f false false))
/-- VFMS (R132). -/
def execVfms (ty : VTy) (vd va vb vc : VReg) (mk : MReg) (s : State) : Out :=
  .next (s.vf3 ty vd va vb vc mk (fun env f => fFma env f false true))
/-- VFNMA (R132). -/
def execVfnma (ty : VTy) (vd va vb vc : VReg) (mk : MReg) (s : State) : Out :=
  .next (s.vf3 ty vd va vb vc mk (fun env f => fFma env f true false))
/-- VABS (R133). -/
def execVabs (ty : VTy) (vd va : VReg) (mk : MReg) (s : State) : Out :=
  .next (s.vf1 ty vd va mk (fun env f a => fSign env f false a))
/-- VNEG (R133). -/
def execVneg (ty : VTy) (vd va : VReg) (mk : MReg) (s : State) : Out :=
  .next (s.vf1 ty vd va mk (fun env f a => fSign env f (!a.neg) a))
/-- VCLASS reads the raw encoding (R134). -/
def execVclass (ty : VTy) (vd va : VReg) (mk : MReg) (s : State) : Out :=
  let a := s.rv va
  .next (s.vwrite vd mk (fun e => mapSubs ty (fun i => { v := fClass (tyFmt ty) (sub (a.get e) (tyWidth ty) i) })))
/-- VRCP (R136). -/
def execVrcp (ty : VTy) (vd va : VReg) (mk : MReg) (s : State) : Out := .next (s.vf1 ty vd va mk fRcp)
/-- VRSQ (R136). -/
def execVrsq (ty : VTy) (vd va : VReg) (mk : MReg) (s : State) : Out := .next (s.vf1 ty vd va mk fRsq)
/-- VSQRT (R136). -/
def execVsqrt (ty : VTy) (vd va : VReg) (mk : MReg) (s : State) : Out := .next (s.vf1 ty vd va mk fSqrt)
/-- VEXP2 (R136). -/
def execVexp2 (ty : VTy) (vd va : VReg) (mk : MReg) (s : State) : Out := .next (s.vf1 ty vd va mk fExp2)
/-- VLOG2 (R136). -/
def execVlog2 (ty : VTy) (vd va : VReg) (mk : MReg) (s : State) : Out := .next (s.vf1 ty vd va mk fLog2)
/-- VTANH (R136). -/
def execVtanh (ty : VTy) (vd va : VReg) (mk : MReg) (s : State) : Out := .next (s.vf1 ty vd va mk fTanh)

/-- The number of a condition of VCMP (R135). -/
def vcondIx : VCond → Nat
  | .eq => 0 | .ne => 1 | .lt => 2 | .le => 3 | .gt => 4 | .ge => 5 | .un => 6

/-- The value of a sub-element of an integer type. -/
def ival (t : VTy) (x : Nat) : Int :=
  if tySigned t && decide (2 ^ (tyWidth t - 1) ≤ x) then (x : Int) - (2 ^ tyWidth t : Nat) else x

/-- An integer comparison (R135). -/
def iCmp (c : Nat) (a b : Int) : Bool :=
  match c with
  | 0 => a == b
  | 1 => a != b
  | 2 => decide (a < b)
  | 3 => decide (a ≤ b)
  | 4 => decide (b < a)
  | 5 => decide (b ≤ a)
  | _ => false

/-- The comparison of one sub-element pair (R135). -/
def cmpSub (env : FpEnv) (c : Nat) (t : VTy) (a b : Elem) (i : Nat) : Bool × Conds :=
  if t.isFloat then fCmp c (fval env t a i) (fval env t b i)
  else (iCmp c (ival t (sub a (tyWidth t) i)) (ival t (sub b (tyWidth t) i)), 0)

/-- The mask bit of one element: ne is the complement of eq, any other condition the AND of its sub-elements (R135). -/
def cmpElem (env : FpEnv) (c : VCond) (t : VTy) (a b : Elem) : Bool × Conds :=
  let n := vcondIx c
  let rs := (List.range t.group).map (fun i => cmpSub env (if n = 1 then 0 else n) t a b i)
  let all := rs.all (·.1)
  (if n = 1 then !all else all, rs.foldl (fun c r => c ||| r.2) 0)

/-- The `n` low bits of a mask, from a function of the element (R21). -/
def maskNat (f : Nat → Bool) : Nat → Nat
  | 0 => 0
  | n + 1 => maskNat f n + (if f n then 2 ^ n else 0)

/-- A mask register from a function of the element. -/
def maskOf (f : Nat → Bool) : BitVec 1024 := BitVec.ofNat 1024 (maskNat f 1024)

/-- VCMP (R135). -/
def execVcmp (c : VCond) (ty : VTy) (md : MReg) (va vb : VReg) (mk : MReg) (s : State) : Out :=
  let m := s.rm mk
  let env := s.env
  let a := s.rv va
  let b := s.rv vb
  let old := s.rm md
  let new := maskOf (fun e => if bit m e then (cmpElem env c ty (a.get e) (b.get e)).1 else bit old e)
  .next (if m = 0 then s.advance
    else ((s.wm md new).advance).conditions ((activeOf m).map (fun e => (e, (cmpElem env c ty (a.get e) (b.get e)).2))))

/-! Integer forms. -/

/-- A two-source integer form on sub-elements read as unsigned numbers (R137). -/
def State.vi2 (s : State) (t : VTy) (vd va vb : VReg) (mk : MReg) (f : Nat → Nat → Nat → Nat) : State :=
  let a := s.rv va
  let b := s.rv vb
  let w := tyWidth t
  s.vwrite vd mk (fun e => mapSubs t (fun i => { v := f w (sub (a.get e) w i) (sub (b.get e) w i) }))

/-- A three-source integer form (R139). -/
def State.vi3 (s : State) (t : VTy) (vd va vb vc : VReg) (mk : MReg) (f : Nat → Nat → Nat → Nat → Nat) : State :=
  let a := s.rv va
  let b := s.rv vb
  let c := s.rv vc
  let w := tyWidth t
  s.vwrite vd mk (fun e => mapSubs t (fun i => { v := f w (sub (a.get e) w i) (sub (b.get e) w i) (sub (c.get e) w i) }))

/-- An exact integer that wraps, or clamps to the type's range (R138). -/
def wrapOrClamp (sat : Bool) (t : VTy) (x : Int) : Nat :=
  let w := tyWidth t
  if sat then intBits w (max (intMin w (tySigned t)) (min (intMax w (tySigned t)) x)) else intBits w x

/-- VIADD (R137, R138). -/
def execViadd (ty : VTy) (vd va vb : VReg) (mk : MReg) (s : State) : Out :=
  let sat := s.env.sat
  .next (s.vi2 ty vd va vb mk (fun _ a b => wrapOrClamp sat ty (ival ty a + ival ty b)))
/-- VISUB (R137, R138). -/
def execVisub (ty : VTy) (vd va vb : VReg) (mk : MReg) (s : State) : Out :=
  let sat := s.env.sat
  .next (s.vi2 ty vd va vb mk (fun _ a b => wrapOrClamp sat ty (ival ty a - ival ty b)))
/-- VIMUL (R137). -/
def execVimul (ty : VTy) (vd va vb : VReg) (mk : MReg) (s : State) : Out :=
  .next (s.vi2 ty vd va vb mk (fun w a b => a * b % 2 ^ w))
/-- VIMULH (R137). -/
def execVimulh (ty : VTy) (vd va vb : VReg) (mk : MReg) (s : State) : Out :=
  .next (s.vi2 ty vd va vb mk (fun w a b => intBits (2 * w) (ival ty a * ival ty b) / 2 ^ w))
/-- VIMIN (R137). -/
def execVimin (ty : VTy) (vd va vb : VReg) (mk : MReg) (s : State) : Out :=
  .next (s.vi2 ty vd va vb mk (fun _ a b => if ival ty b < ival ty a then b else a))
/-- VIMAX (R137). -/
def execVimax (ty : VTy) (vd va vb : VReg) (mk : MReg) (s : State) : Out :=
  .next (s.vi2 ty vd va vb mk (fun _ a b => if ival ty a < ival ty b then b else a))
/-- VSHL (R137). -/
def execVshl (ty : VTy) (vd va vb : VReg) (mk : MReg) (s : State) : Out :=
  .next (s.vi2 ty vd va vb mk (fun w a b => a * 2 ^ (b % w) % 2 ^ w))
/-- VSHR (R137). -/
def execVshr (ty : VTy) (vd va vb : VReg) (mk : MReg) (s : State) : Out :=
  .next (s.vi2 ty vd va vb mk (fun w a b => a / 2 ^ (b % w)))

/-- A `w`-bit pattern shifted right with copies of its sign (R137). -/
def sarNat (w a n : Nat) : Nat :=
  if 2 ^ (w - 1) ≤ a then a / 2 ^ n + (2 ^ w - 2 ^ (w - n)) else a / 2 ^ n

/-- VSAR (R137). -/
def execVsar (ty : VTy) (vd va vb : VReg) (mk : MReg) (s : State) : Out :=
  .next (s.vi2 ty vd va vb mk (fun w a b => sarNat w a (b % w)))
/-- VROTL (R137). -/
def execVrotl (ty : VTy) (vd va vb : VReg) (mk : MReg) (s : State) : Out :=
  .next (s.vi2 ty vd va vb mk (fun w a b => (a * 2 ^ (b % w) % 2 ^ w) + a / 2 ^ (w - b % w)))
/-- VAND (R137). -/
def execVand (ty : VTy) (vd va vb : VReg) (mk : MReg) (s : State) : Out :=
  .next (s.vi2 ty vd va vb mk (fun _ a b => a &&& b))
/-- VOR (R137). -/
def execVor (ty : VTy) (vd va vb : VReg) (mk : MReg) (s : State) : Out :=
  .next (s.vi2 ty vd va vb mk (fun _ a b => a ||| b))
/-- VXOR (R137). -/
def execVxor (ty : VTy) (vd va vb : VReg) (mk : MReg) (s : State) : Out :=
  .next (s.vi2 ty vd va vb mk (fun _ a b => a ^^^ b))
/-- VIMAD (R139). -/
def execVimad (ty : VTy) (vd va vb vc : VReg) (mk : MReg) (s : State) : Out :=
  .next (s.vi3 ty vd va vb vc mk (fun w a b c => (a * b + c) % 2 ^ w))
/-- VFSHL (R139). -/
def execVfshl (ty : VTy) (vd va vb vc : VReg) (mk : MReg) (s : State) : Out :=
  .next (s.vi3 ty vd va vb vc mk (fun w a b c =>
    if c % w = 0 then a else (a * 2 ^ (c % w) % 2 ^ w) ||| (b / 2 ^ (w - c % w))))
/-- VFSHR (R139). -/
def execVfshr (ty : VTy) (vd va vb vc : VReg) (mk : MReg) (s : State) : Out :=
  .next (s.vi3 ty vd va vb vc mk (fun w a b c =>
    if c % w = 0 then b else (b / 2 ^ (c % w)) ||| (a * 2 ^ (w - c % w) % 2 ^ w)))
/-- VLOP3 acts on all 32 bits of an element (R139). -/
def execVlop3 (_ty : VTy) (vd va vb vc : VReg) (tt : BitVec 8) (mk : MReg) (s : State) : Out :=
  let a := s.rv va
  let b := s.rv vb
  let c := s.rv vc
  .next (s.vput vd mk (fun e => lop3Of tt (a.get e) (b.get e) (c.get e)))
/-- VPOPC (R140). -/
def execVpopc (ty : VTy) (vd va : VReg) (mk : MReg) (s : State) : Out :=
  let a := s.rv va
  .next (s.vwrite vd mk (fun e => mapSubs ty (fun i =>
    { v := popCount (BitVec.ofNat 32 (sub (a.get e) (tyWidth ty) i)) (tyWidth ty) })))
/-- VCLZ (R140). -/
def execVclz (ty : VTy) (vd va : VReg) (mk : MReg) (s : State) : Out :=
  let a := s.rv va
  .next (s.vwrite vd mk (fun e => mapSubs ty (fun i =>
    { v := leadZeros (BitVec.ofNat 32 (sub (a.get e) (tyWidth ty) i)) (tyWidth ty) })))

/-! Conversions. -/

/-- Convert(x, dst) of one value (R141). `rnd` is the stochastic value, when the conversion rounds stochastically. -/
def convert (env : FpEnv) (dst src : VTy) (rnd : Option Nat) (x : Nat) : Res :=
  if src.isFloat then
    if dst.isFloat then
      match rnd with
      | some u => stochBf16 env (tyFmt src) x u
      | none => fCvt env (tyFmt src) (tyFmt dst) x
    else fToInt env (tyFmt src) (tyWidth dst) (tySigned dst) x
  else if dst.isFloat then fOfInt env (tyFmt dst) (ival src x)
  else { v := wrapOrClamp env.sat dst (ival src x) }

/-- The conversion rounds stochastically (R58). -/
def State.stochastic (s : State) (dst src : VTy) : Bool := bit s.cc.src.fpctl 5 && dst == .bf16x2 && src.isFloat

/-- SRBits of element e and sub-element i, for a stochastic conversion (R59). -/
def State.rnd (s : State) (dst src : VTy) (e i : Nat) : Option Nat :=
  if s.stochastic dst src then
    some (srBits (bits s.cc.src.fpctl 32 32) s.cc.src.srstep (bits s.cc.src.vcore 8 3).toNat e i)
  else none

/-- SRSTEP counts a stochastic instruction, even one with an empty mask (R60). -/
def State.countSr (s : State) (b : Bool) : State := if b then s.modRegs (fun r => { r with srstep := r.srstep + 1 }) else s

/-- VCVT (R142). -/
def execVcvt (dst src : VTy) (vd va : VReg) (mk : MReg) (s : State) : Out :=
  let env := s.env
  let a := s.rv va
  .next ((s.countSr (s.stochastic dst src)).vwrite vd mk (fun e => mapSubs dst (fun i =>
    convert env dst src (s.rnd dst src e i) (sub (a.get e) (tyWidth src) i))))

/-- VPACK (R143). -/
def execVpack (dst src : VTy) (vd va vb : VReg) (mk : MReg) (s : State) : Out :=
  let env := s.env
  let a := s.rv va
  let b := s.rv vb
  let n := src.group
  .next ((s.countSr (s.stochastic dst src)).vwrite vd mk (fun e => mapSubs dst (fun i =>
    convert env dst src (s.rnd dst src e i)
      (if i < n then sub (a.get e) (tyWidth src) i else sub (b.get e) (tyWidth src) (i - n)))))

/-- VUNPACK writes vd and v(VD + 1) (R144). -/
def execVunpack (dst src : VTy) (vd va : VReg) (mk : MReg) (s : State) : Out :=
  let env := s.env
  let a := s.rv va
  let n := dst.group
  let m := s.rm mk
  let part (k e : Nat) : ElemRes := mapSubs dst (fun i => convert env dst src none (sub (a.get e) (tyWidth src) (n * k + i)))
  let put (v : VReg) (k : Nat) (s : State) : State :=
    let old := s.rv v
    s.wv v (VVal.ofFn (fun e => if bit m e then (part k e).v else old.get e))
  .next (if m = 0 then s.advance
    else ((put (vd + 1) 1 (put vd 0 s)).advance).conditions
      ((activeOf m).map (fun e => (e, (part 0 e).c ||| (part 1 e).c))))

/-- The format of the elements of an MX block (R145). -/
def mxFmt : MxFmt → Fmt
  | .e2m1 => e2m1 | .e4m3 => e4m3 | .e5m2 => e5m2

/-- VMXQ: eight blocks of 32 values (R52, R145). -/
def execVmxq (fmt : MxFmt) (ty : VTy) (vd va : VReg) (sb : SReg) (mk : MReg) (s : State) : Out :=
  let env := s.env
  let a := s.rv va
  let f := mxFmt fmt
  let m := s.rm mk
  let per := 32 / f.w
  let blocks := (List.range 8).map (fun k => mxQuantise f ((List.range 32).map (fun j =>
    fval env ty (a.get ((32 * k + j) / ty.group)) ((32 * k + j) % ty.group))))
  let elems := (blocks.map (·.elems)).flatten
  let new (e : Nat) : Elem :=
    if e < 256 / per then BitVec.ofNat 32 (joinSubs f.w ((List.range per).map (fun i => elems.getD (per * e + i) 0))) else 0
  let scales : Word := wordOf (fun k => BitVec.ofNat 8 ((blocks.map (·.x)).getD k 0))
  let old := s.rv vd
  let s := s.ws sb scales false
  let s := if m = 0 then s else s.wv vd (VVal.ofFn (fun e => if bit m e then new e else old.get e))
  let width := 32 / per
  .next (s.advance.conditions ((activeOf m).filterMap (fun e =>
    if e < 256 / per then some (e, ((blocks.map (·.c)).getD (e / width) 0)) else none)))

/-- VMXD (R52, R146). -/
def execVmxd (fmt : MxFmt) (ty : VTy) (vd va : VReg) (sb : SReg) (mk : MReg) (s : State) : Out :=
  let env := s.env
  let a := s.rv va
  let f := mxFmt fmt
  let per := 32 / f.w
  let x := s.rs sb
  .next (s.vwrite vd mk (fun e =>
    if e < 256 / ty.group then
      mapSubs ty (fun i =>
        let v := ty.group * e + i
        mxDequant env f (tyFmt ty) (byteOf x (v / 32)).toNat (sub (a.get (v / per)) f.w (v % per)))
    else { v := 0 }))

end Sys2Proof.Machine
end

