-- ==== Sys2Proof/Machine/VecLayout.lean ====
section
/-! DEFINITION. Moves, masks, axes and layout of vector registers (R149 to R167). -/

namespace Sys2Proof.Machine

/-- A vector result that writes every element (R150). -/
def State.vall (s : State) (vd : VReg) (f : Nat → Elem) : State := (s.wv vd (VVal.ofFn f)).advance

/-- VSEL (R154). -/
def execVsel (vd va vb : VReg) (mk : MReg) (s : State) : Out :=
  let m := s.rm mk
  let a := s.rv va
  let b := s.rv vb
  .next (s.vall vd (fun e => if bit m e then a.get e else b.get e))

/-- A mask result under a mask (R164). -/
def State.mput (s : State) (md mk : MReg) (x : BitVec 1024) : State :=
  let m := s.rm mk
  let old := s.rm md
  (s.wm md ((x &&& m) ||| (old &&& ~~~m))).advance

/-- MAND (R164). -/
def execMand (md ma mb : MReg) (mk : MReg) (s : State) : Out := .next (s.mput md mk (s.rm ma &&& s.rm mb))
/-- MOR (R164). -/
def execMor (md ma mb : MReg) (mk : MReg) (s : State) : Out := .next (s.mput md mk (s.rm ma ||| s.rm mb))
/-- MXOR (R164). -/
def execMxor (md ma mb : MReg) (mk : MReg) (s : State) : Out := .next (s.mput md mk (s.rm ma ^^^ s.rm mb))
/-- MNOT (R164). -/
def execMnot (md ma : MReg) (mk : MReg) (s : State) : Out := .next (s.mput md mk (~~~(s.rm ma)))
/-- MPOPC (R165). -/
def execMpopc (sd : SReg) (ma : MReg) (mk : MReg) (s : State) : Out :=
  .next (s.retS sd (BitVec.ofNat 64 (popCount (s.rm ma &&& s.rm mk) 1024)) false)
/-- MFIRST (R165). -/
def execMfirst (sd : SReg) (ma : MReg) (mk : MReg) (s : State) : Out :=
  .next (s.retS sd (BitVec.ofNat 64 (trailZeros (s.rm ma &&& s.rm mk) 0 1024)) false)

/-- VMOV (R152). -/
def execVmov (vd va : VReg) (mk : MReg) (s : State) : Out :=
  let a := s.rv va
  .next (s.vput vd mk (fun e => a.get e))

/-- VMOVS (R153). -/
def execVmovs (vd va : VReg) (sb : SReg) (mk : MReg) (s : State) : Out :=
  let m := s.rm mk
  let a := s.rv va
  let x : Elem := bits (s.rs sb) 0 32
  .next (s.vall vd (fun e => if bit m e then x else a.get e))

/-- VEXT (R153). -/
def execVext (sd : SReg) (va : VReg) (idx : BitVec 12) (mk : MReg) (s : State) : Out :=
  .next (if bit (s.rm mk) idx.toNat then s.retS sd (((s.rv va).get idx.toNat).setWidth 64) false else s.advance)

/-- VINS (R153). -/
def execVins (vd va : VReg) (sb : SReg) (idx : BitVec 12) (mk : MReg) (s : State) : Out :=
  let a := s.rv va
  let on := bit (s.rm mk) idx.toNat
  let x : Elem := bits (s.rs sb) 0 32
  .next (s.vall vd (fun e => if on && e == idx.toNat then x else a.get e))

/-- The pattern of VMOVI: IMM32 in every sub-element of the type's width (R152). -/
def splat (ty : VTy) (imm : BitVec 32) : Elem :=
  BitVec.ofNat 32 (joinSubs (tyWidth ty) ((List.range ty.group).map (fun _ => imm.toNat)))

/-- VMOVI (R152). -/
def execVmovi (ty : VTy) (vd : VReg) (imm : BitVec 32) (mk : MReg) (s : State) : Out :=
  .next (s.vput vd mk (fun _ => splat ty imm))

/-- VROTR (R155). -/
def execVrotr (_ty : VTy) (vd va : VReg) (k : BitVec 8) (mk : MReg) (s : State) : Out :=
  let a := s.rv va
  .next (s.vput vd mk (fun e => a.get (e / 64 * 64 + (e % 64 + 64 - k.toNat) % 64)))
/-- VROTC (R155). -/
def execVrotc (_ty : VTy) (vd va : VReg) (k : BitVec 8) (mk : MReg) (s : State) : Out :=
  let a := s.rv va
  .next (s.vput vd mk (fun e => a.get ((e / 64 + 16 - k.toNat) % 16 * 64 + e % 64)))
/-- VBCR (R156). -/
def execVbcr (_ty : VTy) (vd va : VReg) (c : BitVec 8) (mk : MReg) (s : State) : Out :=
  let a := s.rv va
  .next (s.vput vd mk (fun e => a.get (e / 64 * 64 + c.toNat)))
/-- VBCC (R156). -/
def execVbcc (_ty : VTy) (vd va : VReg) (r : BitVec 8) (mk : MReg) (s : State) : Out :=
  let a := s.rv va
  .next (s.vput vd mk (fun e => a.get (r.toNat * 64 + e % 64)))

/-- An input of a reduction as it is read: DAZ applies to each floating-point sub-element (R157, R158). -/
def readInput (env : FpEnv) (t : VTy) (x : Elem) : Elem :=
  if t.isFloat && env.daz && (tyFmt t).flushes then
    BitVec.ofNat 32 (joinSubs (tyWidth t) ((List.range t.group).map (fun i =>
      let y := sub x (tyWidth t) i
      if (tyFmt t).expo y = 0 then (tyFmt t).zero ((tyFmt t).sign y) else y)))
  else x

/-- The operation of a reduction on one sub-element (R158). The inputs have been read. -/
def redSub (env : FpEnv) (op : RedOp) (t : VTy) (a b : Nat) : Res :=
  let f := tyFmt t
  let w := tyWidth t
  match op with
  | .add => if t.isFloat then fAdd env f (f.decode false a) (f.decode false b) else { v := (a + b) % 2 ^ w }
  | .min => if t.isFloat then fMinMax env f false (f.decode false a) (f.decode false b)
            else { v := if ival t b < ival t a then b else a }
  | .max => if t.isFloat then fMinMax env f true (f.decode false a) (f.decode false b)
            else { v := if ival t a < ival t b then b else a }
  | .and => { v := a &&& b }
  | .or => { v := a ||| b }
  | .xor => { v := a ^^^ b }

/-- An input or a node of a tree: absent, or a value; with the conditions of the nodes below it. -/
structure TNode where
  v : Option Elem
  c : Conds := 0

/-- A node of the tree: an absent child passes the other through (R66, R159). -/
def comb (env : FpEnv) (op : RedOp) (t : VTy) (p q : TNode) : TNode :=
  match p.v, q.v with
  | some a, some b =>
    let r := mapSubs t (fun i => redSub env op t (sub a (tyWidth t) i) (sub b (tyWidth t) i))
    { v := some r.v, c := p.c ||| q.c ||| r.c }
  | some a, none => { v := some a, c := p.c ||| q.c }
  | none, x => { v := x, c := p.c ||| q.c }

/-- One level of the tree T: neighbours are combined, the left one first (R65). -/
def pairUp (f : TNode → TNode → TNode) : List TNode → List TNode
  | a :: b :: r => f a b :: pairUp f r
  | l => l

/-- The tree T over 2^k inputs (R65). -/
def tree (f : TNode → TNode → TNode) : Nat → List TNode → TNode
  | 0, l => l.headD { v := none }
  | k + 1, l => tree f k (pairUp f l)

/-- The inputs of a row or column: element numbers in order (R157). -/
def State.inputs (s : State) (t : VTy) (va : VReg) (mk : MReg) (es : List Nat) : List TNode :=
  let env := s.env
  es.map (fun e => { v := if bit (s.rm mk) e then some (readInput env t ((s.rv va).get e)) else none })

/-- A reduction: every active element of a group takes the group's result, and its conditions count for the lowest active
element of the group (R157, R167). `grp e` lists the elements of the group of `e`. -/
def State.reduce (s : State) (op : RedOp) (t : VTy) (vd va : VReg) (mk : MReg) (k : Nat) (groups : List (List Nat))
    (ix : Nat → Nat) : State :=
  let env := s.env
  let m := s.rm mk
  let rs := groups.map (fun g => tree (comb env op t) k (s.inputs t va mk g))
  let lows := groups.map (fun g => (g.find? (fun e => bit m e)).getD 0)
  let old := s.rv vd
  if m = 0 then s.advance
  else
    ((s.wv vd (VVal.ofFn (fun e =>
      if bit m e then ((rs.getD (ix e) { v := none }).v.getD 0) else old.get e))).advance).conditions
      (lows.zip (rs.map (·.c)))

/-- VREDR (R157). -/
def execVredr (op : RedOp) (ty : VTy) (vd va : VReg) (mk : MReg) (s : State) : Out :=
  .next (s.reduce op ty vd va mk 6 ((List.range 16).map (fun i => (List.range 64).map (fun j => 64 * i + j))) (· / 64))
/-- VREDC (R157). -/
def execVredc (op : RedOp) (ty : VTy) (vd va : VReg) (mk : MReg) (s : State) : Out :=
  .next (s.reduce op ty vd va mk 4 ((List.range 64).map (fun j => (List.range 16).map (fun i => 64 * i + j))) (· % 64))

/-- One level of the scan, with distance `d`; the conditions of a node count for its own position (R159, R167). -/
def scanLevel (env : FpEnv) (op : RedOp) (t : VTy) (d : Nat) (y : List TNode) : List TNode :=
  (List.range y.length).map (fun j =>
    let b := y.getD j { v := none }
    if j < d then b
    else
      let a := y.getD (j - d) { v := none }
      comb env op t { a with c := 0 } b)

/-- The six levels of the scan of one row (R159). -/
def scanRow (env : FpEnv) (op : RedOp) (t : VTy) (y : List TNode) : List TNode :=
  (List.range 6).foldl (fun y l => scanLevel env op t (2 ^ l) y) y

/-- VSCANR (R159). -/
def execVscanr (op : RedOp) (ty : VTy) (vd va : VReg) (mk : MReg) (s : State) : Out :=
  let env := s.env
  let m := s.rm mk
  let ys := ((List.range 16).map (fun i =>
    scanRow env op ty (s.inputs ty va mk ((List.range 64).map (fun j => 64 * i + j))))).flatten
  let old := s.rv vd
  .next (if m = 0 then s.advance
    else ((s.wv vd (VVal.ofFn (fun e =>
      if bit m e then ((ys.getD e { v := none }).v.getD 0) else old.get e))).advance).conditions
      ((List.range 1024).zip (ys.map (·.c))))

/-- VTRN (R160). -/
def execVtrn (vd va : VReg) (mk : MReg) (s : State) : Out :=
  let a := s.rv va
  .next (s.vput vd mk (fun e => a.get (64 * (e % 16) + e % 64 / 16 * 16 + e / 64)))

/-- VPERM (R161). -/
def execVperm (vd va vb : VReg) (mk : MReg) (s : State) : Out :=
  let a := s.rv va
  let b := s.rv vb
  .next (s.vput vd mk (fun e => if (b.get e).toNat < 1024 then a.get (b.get e).toNat else 0))

/-- VCOMPRESS (R162). -/
def execVcompress (vd va : VReg) (sc : SReg) (mk : MReg) (s : State) : Out :=
  let a := s.rv va
  let t := (activeOf (s.rm mk)).map (fun e => a.get e)
  .next ((s.ws sc (BitVec.ofNat 64 t.length) false).vall vd (fun e => t.getD e 0))

/-- VEXPAND (R163). -/
def execVexpand (vd va : VReg) (mk : MReg) (s : State) : Out :=
  let m := s.rm mk
  let a := s.rv va
  .next (s.vall vd (fun e => if bit m e then a.get (popCount m e) else 0))

end Sys2Proof.Machine
end

