-- ==== Sys2Proof/Machine/Dispatch.lean ====
section
/-! DEFINITION. The dispatch of an instruction to its meaning: one arm per constructor. -/

namespace Sys2Proof.Machine

def exec (i : Instr) (s : State) : Host.Outcome State Fault Refusal :=
  match i with
  | .nop => Sys2Proof.Machine.execNop s
  | .add sd sa sb => Sys2Proof.Machine.execAdd sd sa sb s
  | .sub sd sa sb => Sys2Proof.Machine.execSub sd sa sb s
  | .mul sd sa sb => Sys2Proof.Machine.execMul sd sa sb s
  | .mulh sd sa sb => Sys2Proof.Machine.execMulh sd sa sb s
  | .mulhu sd sa sb => Sys2Proof.Machine.execMulhu sd sa sb s
  | .div sd sa sb => Sys2Proof.Machine.execDiv sd sa sb s
  | .divu sd sa sb => Sys2Proof.Machine.execDivu sd sa sb s
  | .rem sd sa sb => Sys2Proof.Machine.execRem sd sa sb s
  | .remu sd sa sb => Sys2Proof.Machine.execRemu sd sa sb s
  | .and sd sa sb => Sys2Proof.Machine.execAnd sd sa sb s
  | .or sd sa sb => Sys2Proof.Machine.execOr sd sa sb s
  | .xor sd sa sb => Sys2Proof.Machine.execXor sd sa sb s
  | .andn sd sa sb => Sys2Proof.Machine.execAndn sd sa sb s
  | .orn sd sa sb => Sys2Proof.Machine.execOrn sd sa sb s
  | .shl sd sa sb => Sys2Proof.Machine.execShl sd sa sb s
  | .shr sd sa sb => Sys2Proof.Machine.execShr sd sa sb s
  | .sar sd sa sb => Sys2Proof.Machine.execSar sd sa sb s
  | .rotl sd sa sb => Sys2Proof.Machine.execRotl sd sa sb s
  | .rotr sd sa sb => Sys2Proof.Machine.execRotr sd sa sb s
  | .min sd sa sb => Sys2Proof.Machine.execMin sd sa sb s
  | .max sd sa sb => Sys2Proof.Machine.execMax sd sa sb s
  | .minu sd sa sb => Sys2Proof.Machine.execMinu sd sa sb s
  | .maxu sd sa sb => Sys2Proof.Machine.execMaxu sd sa sb s
  | .clz sd sa => Sys2Proof.Machine.execClz sd sa s
  | .ctz sd sa => Sys2Proof.Machine.execCtz sd sa s
  | .popc sd sa => Sys2Proof.Machine.execPopc sd sa s
  | .brev sd sa => Sys2Proof.Machine.execBrev sd sa s
  | .bswap sd sa => Sys2Proof.Machine.execBswap sd sa s
  | .abs sd sa => Sys2Proof.Machine.execAbs sd sa s
  | .lop3 sd sa sb sc tt => Sys2Proof.Machine.execLop3 sd sa sb sc tt s
  | .fshl sd sa sb sc => Sys2Proof.Machine.execFshl sd sa sb sc s
  | .fshr sd sa sb sc => Sys2Proof.Machine.execFshr sd sa sb sc s
  | .sel sd sa sb sc => Sys2Proof.Machine.execSel sd sa sb sc s
  | .cmp c sd sa sb => Sys2Proof.Machine.execCmp c sd sa sb s
  | .bfx sd sa pos wid => Sys2Proof.Machine.execBfx sd sa pos wid s
  | .bfxu sd sa pos wid => Sys2Proof.Machine.execBfxu sd sa pos wid s
  | .bfi sd sa pos wid => Sys2Proof.Machine.execBfi sd sa pos wid s
  | .sext sd sa wid => Sys2Proof.Machine.execSext sd sa wid s
  | .zext sd sa wid => Sys2Proof.Machine.execZext sd sa wid s
  | .lea sd sa sb sh => Sys2Proof.Machine.execLea sd sa sb sh s
  | .addi sd sa imm => Sys2Proof.Machine.execAddi sd sa imm s
  | .movi sd imm => Sys2Proof.Machine.execMovi sd imm s
  | .movhi sd imm => Sys2Proof.Machine.execMovhi sd imm s
  | .br c nul sa sb off => Sys2Proof.Machine.execBr c nul sa sb off s
  | .gbr c nul sa sb off => Sys2Proof.Machine.execGbr c nul sa sb off s
  | .jmp nul off => Sys2Proof.Machine.execJmp nul off s
  | .call sd nul off => Sys2Proof.Machine.execCall sd nul off s
  | .callr sd sa nul => Sys2Proof.Machine.execCallr sd sa nul s
  | .ret sa nul => Sys2Proof.Machine.execRet sa nul s
  | .jt sa sb sc => Sys2Proof.Machine.execJt sa sb sc s
  | .trap detail => Sys2Proof.Machine.execTrap detail s
  | .dbg code => Sys2Proof.Machine.execDbg code s
  | .eret => Sys2Proof.Machine.execEret s
  | .halt => Sys2Proof.Machine.execHalt s
  | .ld sz un ord ls sd sa off => Sys2Proof.Machine.execLd sz un ord ls sd sa off s
  | .ldc sz un sd sa off => Sys2Proof.Machine.execLdc sz un sd sa off s
  | .st sz ord ls sd sa off => Sys2Proof.Machine.execSt sz ord ls sd sa off s
  | .amoAdd dw ord ls sd sa sb off => Sys2Proof.Machine.execAmoAdd dw ord ls sd sa sb off s
  | .amoAnd dw ord ls sd sa sb off => Sys2Proof.Machine.execAmoAnd dw ord ls sd sa sb off s
  | .amoOr dw ord ls sd sa sb off => Sys2Proof.Machine.execAmoOr dw ord ls sd sa sb off s
  | .amoXor dw ord ls sd sa sb off => Sys2Proof.Machine.execAmoXor dw ord ls sd sa sb off s
  | .amoMin dw ord ls sd sa sb off => Sys2Proof.Machine.execAmoMin dw ord ls sd sa sb off s
  | .amoMax dw ord ls sd sa sb off => Sys2Proof.Machine.execAmoMax dw ord ls sd sa sb off s
  | .amoMinu dw ord ls sd sa sb off => Sys2Proof.Machine.execAmoMinu dw ord ls sd sa sb off s
  | .amoMaxu dw ord ls sd sa sb off => Sys2Proof.Machine.execAmoMaxu dw ord ls sd sa sb off s
  | .amoSwap dw ord ls sd sa sb off => Sys2Proof.Machine.execAmoSwap dw ord ls sd sa sb off s
  | .cas dw ord ls sd sa sb sc off => Sys2Proof.Machine.execCas dw ord ls sd sa sb sc off s
  | .pref sa off => Sys2Proof.Machine.execPref sa off s
  | .fenceAcq ls => Sys2Proof.Machine.execFenceAcq ls s
  | .fenceRel ls => Sys2Proof.Machine.execFenceRel ls s
  | .fenceFull ls => Sys2Proof.Machine.execFenceFull ls s
  | .jset j => Sys2Proof.Machine.execJset j s
  | .jclr j => Sys2Proof.Machine.execJclr j s
  | .jwait j => Sys2Proof.Machine.execJwait j s
  | .crd sd n => Sys2Proof.Machine.execCrd sd n s
  | .cwr n sa => Sys2Proof.Machine.execCwr n sa s
  | .crset n sa => Sys2Proof.Machine.execCrset n sa s
  | .crclr n sa => Sys2Proof.Machine.execCrclr n sa s
  | .clset entry sa => Sys2Proof.Machine.execClset entry sa s
  | .clget sd entry k => Sys2Proof.Machine.execClget sd entry k s
  | .tspawn sa => Sys2Proof.Machine.execTspawn sa s
  | .semsig sem inc ls rmt sa => Sys2Proof.Machine.execSemsig sem inc ls rmt sa s
  | .semwait sem sa imm ls => Sys2Proof.Machine.execSemwait sem sa imm ls s
  | .semacq sem sa imm ls => Sys2Proof.Machine.execSemacq sem sa imm ls s
  | .semset sem sa => Sys2Proof.Machine.execSemset sem sa s
  | .semrd sd sem => Sys2Proof.Machine.execSemrd sd sem s
  | .barset b sa => Sys2Proof.Machine.execBarset b sa s
  | .bararr b ls => Sys2Proof.Machine.execBararr b ls s
  | .barwait b ls => Sys2Proof.Machine.execBarwait b ls s
  | .bararw b ls => Sys2Proof.Machine.execBararw b ls s
  | .vadd ty vd va vb mk => Sys2Proof.Machine.execVadd ty vd va vb mk s
  | .vsub ty vd va vb mk => Sys2Proof.Machine.execVsub ty vd va vb mk s
  | .vmul ty vd va vb mk => Sys2Proof.Machine.execVmul ty vd va vb mk s
  | .vmin ty vd va vb mk => Sys2Proof.Machine.execVmin ty vd va vb mk s
  | .vmax ty vd va vb mk => Sys2Proof.Machine.execVmax ty vd va vb mk s
  | .vcpysgn ty vd va vb mk => Sys2Proof.Machine.execVcpysgn ty vd va vb mk s
  | .vfma ty vd va vb vc mk => Sys2Proof.Machine.execVfma ty vd va vb vc mk s
  | .vfms ty vd va vb vc mk => Sys2Proof.Machine.execVfms ty vd va vb vc mk s
  | .vfnma ty vd va vb vc mk => Sys2Proof.Machine.execVfnma ty vd va vb vc mk s
  | .vabs ty vd va mk => Sys2Proof.Machine.execVabs ty vd va mk s
  | .vneg ty vd va mk => Sys2Proof.Machine.execVneg ty vd va mk s
  | .vclass ty vd va mk => Sys2Proof.Machine.execVclass ty vd va mk s
  | .vrcp ty vd va mk => Sys2Proof.Machine.execVrcp ty vd va mk s
  | .vrsq ty vd va mk => Sys2Proof.Machine.execVrsq ty vd va mk s
  | .vsqrt ty vd va mk => Sys2Proof.Machine.execVsqrt ty vd va mk s
  | .vexp2 ty vd va mk => Sys2Proof.Machine.execVexp2 ty vd va mk s
  | .vlog2 ty vd va mk => Sys2Proof.Machine.execVlog2 ty vd va mk s
  | .vtanh ty vd va mk => Sys2Proof.Machine.execVtanh ty vd va mk s
  | .vcmp c ty md va vb mk => Sys2Proof.Machine.execVcmp c ty md va vb mk s
  | .viadd ty vd va vb mk => Sys2Proof.Machine.execViadd ty vd va vb mk s
  | .visub ty vd va vb mk => Sys2Proof.Machine.execVisub ty vd va vb mk s
  | .vimul ty vd va vb mk => Sys2Proof.Machine.execVimul ty vd va vb mk s
  | .vimulh ty vd va vb mk => Sys2Proof.Machine.execVimulh ty vd va vb mk s
  | .vimin ty vd va vb mk => Sys2Proof.Machine.execVimin ty vd va vb mk s
  | .vimax ty vd va vb mk => Sys2Proof.Machine.execVimax ty vd va vb mk s
  | .vshl ty vd va vb mk => Sys2Proof.Machine.execVshl ty vd va vb mk s
  | .vshr ty vd va vb mk => Sys2Proof.Machine.execVshr ty vd va vb mk s
  | .vsar ty vd va vb mk => Sys2Proof.Machine.execVsar ty vd va vb mk s
  | .vrotl ty vd va vb mk => Sys2Proof.Machine.execVrotl ty vd va vb mk s
  | .vand ty vd va vb mk => Sys2Proof.Machine.execVand ty vd va vb mk s
  | .vor ty vd va vb mk => Sys2Proof.Machine.execVor ty vd va vb mk s
  | .vxor ty vd va vb mk => Sys2Proof.Machine.execVxor ty vd va vb mk s
  | .vimad ty vd va vb vc mk => Sys2Proof.Machine.execVimad ty vd va vb vc mk s
  | .vfshl ty vd va vb vc mk => Sys2Proof.Machine.execVfshl ty vd va vb vc mk s
  | .vfshr ty vd va vb vc mk => Sys2Proof.Machine.execVfshr ty vd va vb vc mk s
  | .vlop3 ty vd va vb vc tt mk => Sys2Proof.Machine.execVlop3 ty vd va vb vc tt mk s
  | .vpopc ty vd va mk => Sys2Proof.Machine.execVpopc ty vd va mk s
  | .vclz ty vd va mk => Sys2Proof.Machine.execVclz ty vd va mk s
  | .vcvt dst src vd va mk => Sys2Proof.Machine.execVcvt dst src vd va mk s
  | .vpack dst src vd va vb mk => Sys2Proof.Machine.execVpack dst src vd va vb mk s
  | .vunpack dst src vd va mk => Sys2Proof.Machine.execVunpack dst src vd va mk s
  | .vmxq fmt ty vd va sb mk => Sys2Proof.Machine.execVmxq fmt ty vd va sb mk s
  | .vmxd fmt ty vd va sb mk => Sys2Proof.Machine.execVmxd fmt ty vd va sb mk s
  | .vsel vd va vb mk => Sys2Proof.Machine.execVsel vd va vb mk s
  | .mand md ma mb mk => Sys2Proof.Machine.execMand md ma mb mk s
  | .mor md ma mb mk => Sys2Proof.Machine.execMor md ma mb mk s
  | .mxor md ma mb mk => Sys2Proof.Machine.execMxor md ma mb mk s
  | .mnot md ma mk => Sys2Proof.Machine.execMnot md ma mk s
  | .mpopc sd ma mk => Sys2Proof.Machine.execMpopc sd ma mk s
  | .mfirst sd ma mk => Sys2Proof.Machine.execMfirst sd ma mk s
  | .vmov vd va mk => Sys2Proof.Machine.execVmov vd va mk s
  | .vmovs vd va sb mk => Sys2Proof.Machine.execVmovs vd va sb mk s
  | .vext sd va idx mk => Sys2Proof.Machine.execVext sd va idx mk s
  | .vins vd va sb idx mk => Sys2Proof.Machine.execVins vd va sb idx mk s
  | .vmovi ty vd imm mk => Sys2Proof.Machine.execVmovi ty vd imm mk s
  | .vrotr ty vd va k mk => Sys2Proof.Machine.execVrotr ty vd va k mk s
  | .vbcr ty vd va c mk => Sys2Proof.Machine.execVbcr ty vd va c mk s
  | .vredr op ty vd va mk => Sys2Proof.Machine.execVredr op ty vd va mk s
  | .vscanr op ty vd va mk => Sys2Proof.Machine.execVscanr op ty vd va mk s
  | .vrotc ty vd va k mk => Sys2Proof.Machine.execVrotc ty vd va k mk s
  | .vbcc ty vd va r mk => Sys2Proof.Machine.execVbcc ty vd va r mk s
  | .vredc op ty vd va mk => Sys2Proof.Machine.execVredc op ty vd va mk s
  | .vtrn vd va mk => Sys2Proof.Machine.execVtrn vd va mk s
  | .vperm vd va vb mk => Sys2Proof.Machine.execVperm vd va vb mk s
  | .vcompress vd va sc mk => Sys2Proof.Machine.execVcompress vd va sc mk s
  | .vexpand vd va mk => Sys2Proof.Machine.execVexpand vd va mk s
  | .vld ord ls vd sa off mk => Sys2Proof.Machine.execVld ord ls vd sa off mk s
  | .vst ord ls vd sa off mk => Sys2Proof.Machine.execVst ord ls vd sa off mk s
  | .vldb ord ls vd sa off mk => Sys2Proof.Machine.execVldb ord ls vd sa off mk s
  | .vlds ord ls vd sa sb off mk => Sys2Proof.Machine.execVlds ord ls vd sa sb off mk s
  | .vsts ord ls vd sa sb off mk => Sys2Proof.Machine.execVsts ord ls vd sa sb off mk s
  | .vgath ord ls vd vb sa mk => Sys2Proof.Machine.execVgath ord ls vd vb sa mk s
  | .vscat ord ls vd vb sa mk => Sys2Proof.Machine.execVscat ord ls vd vb sa mk s
  | .accld cv vd tl sl => Sys2Proof.Machine.execAccld cv vd tl sl s
  | .accst vd tl sl => Sys2Proof.Machine.execAccst vd tl sl s
  | .accz tl => Sys2Proof.Machine.execAccz tl s
  | .accwait n => Sys2Proof.Machine.execAccwait n s
  | .menq sa imm => Sys2Proof.Machine.execMenq sa imm s
  | .cenq q sa imm => Sys2Proof.Machine.execCenq q sa imm s
  | .qjoin q sa imm => Sys2Proof.Machine.execQjoin q sa imm s
  | .slate n => Sys2Proof.Machine.execSlate n s
  | .qstat sd q => Sys2Proof.Machine.execQstat sd q s
  | .rendezvous core addr => Sys2Proof.Machine.execRendezvous core addr s
  | .trapEntry core => Sys2Proof.Machine.execTrapEntry core s
  | .loadReturn core => Sys2Proof.Machine.execLoadReturn core s
  | .vectorLoadReturn core => Sys2Proof.Machine.execVectorLoadReturn core s
  | .accMovePerformed core pos => Sys2Proof.Machine.execAccMovePerformed core pos s
  | .semaphoreAdd sig => Sys2Proof.Machine.execSemaphoreAdd sig s
  | .barrierAnswer core => Sys2Proof.Machine.execBarrierAnswer core s
  | .clsetComplete part entry => Sys2Proof.Machine.execClsetComplete part entry s
  | .holderRead p pa => Sys2Proof.Machine.execHolderRead p pa s
  | .holderWrite p pa w release => Sys2Proof.Machine.execHolderWrite p pa w release s
  | .partialStoreMerge p pa n mask release => Sys2Proof.Machine.execPartialStoreMerge p pa n mask release s
  | .llcEviction line => Sys2Proof.Machine.execLlcEviction line s
  | .pagePin p va kind => Sys2Proof.Machine.execPagePin p va kind s
  | .translationWalk p va kind => Sys2Proof.Machine.execTranslationWalk p va kind s
  | .sealRefetch p => Sys2Proof.Machine.execSealRefetch p s
  | .contextLoss part loss => Sys2Proof.Machine.execContextLoss part loss s
  | .timingDetection core stage lane => Sys2Proof.Machine.execTimingDetection core stage lane s
  | .mma core => Sys2Proof.Machine.execMma core s
  | .mgrp core => Sys2Proof.Machine.execMgrp core s
  | .wpre core => Sys2Proof.Machine.execWpre core s
  | .wswap core => Sys2Proof.Machine.execWswap core s
  | .mchain core => Sys2Proof.Machine.execMchain core s
  | .copyRecord core q => Sys2Proof.Machine.execCopyRecord core q s
  | .fill core q => Sys2Proof.Machine.execFill core q s
  | .scalefeed core q => Sys2Proof.Machine.execScalefeed core q s
  | .wbfill core q => Sys2Proof.Machine.execWbfill core q s
  | .join core q => Sys2Proof.Machine.execJoin core q s
  | .recordWaitSatisfied core q => Sys2Proof.Machine.execRecordWaitSatisfied core q s
  | .leaveGrant cluster => Sys2Proof.Machine.execLeaveGrant cluster s
  | .preloadDelivery core => Sys2Proof.Machine.execPreloadDelivery core s
  | .kstepCommit core => Sys2Proof.Machine.execKstepCommit core s
  | .recordPerformed core q => Sys2Proof.Machine.execRecordPerformed core q s
  | .cycleBoundOverrun core q => Sys2Proof.Machine.execCycleBoundOverrun core q s
  | .shotReplay core => Sys2Proof.Machine.execShotReplay core s
  | .dispatchStep part => Sys2Proof.Machine.execDispatchStep part s
  | .nodeComplete part node => Sys2Proof.Machine.execNodeComplete part node s
  | .tspawnAccept core => Sys2Proof.Machine.execTspawnAccept core s
  | .residentLimitOverrun core => Sys2Proof.Machine.execResidentLimitOverrun core s
  | .clapperReport part device ready => Sys2Proof.Machine.execClapperReport part device ready s
  | .clapperStart part => Sys2Proof.Machine.execClapperStart part s
  | .clapperAbort part => Sys2Proof.Machine.execClapperAbort part s
  | .doorbell part ring x => Sys2Proof.Machine.execDoorbell part ring x s
  | .enable part ring x => Sys2Proof.Machine.execEnable part ring x s
  | .ringReset part ring => Sys2Proof.Machine.execRingReset part ring s
  | .endPacket part ring => Sys2Proof.Machine.execEndPacket part ring s
  | .ringFetch part ring => Sys2Proof.Machine.execRingFetch part ring s
  | .nopPacket part ring => Sys2Proof.Machine.execNopPacket part ring s
  | .launch part ring => Sys2Proof.Machine.execLaunch part ring s
  | .launchSlotGrant part => Sys2Proof.Machine.execLaunchSlotGrant part s
  | .invoke part ring => Sys2Proof.Machine.execInvoke part ring s
  | .copyPacket part ring => Sys2Proof.Machine.execCopyPacket part ring s
  | .waitPacket part ring => Sys2Proof.Machine.execWaitPacket part ring s
  | .signalPacket part ring => Sys2Proof.Machine.execSignalPacket part ring s
  | .clupdate part ring => Sys2Proof.Machine.execClupdate part ring s
  | .pholeClaim part ring => Sys2Proof.Machine.execPholeClaim part ring s
  | .pholeLoad part ring => Sys2Proof.Machine.execPholeLoad part ring s
  | .pholeDrop part ring => Sys2Proof.Machine.execPholeDrop part ring s
  | .pholeRebase part ring => Sys2Proof.Machine.execPholeRebase part ring s
  | .barrierPacket part ring => Sys2Proof.Machine.execBarrierPacket part ring s
  | .completionRecord part => Sys2Proof.Machine.execCompletionRecord part s
  | .cri part x => Sys2Proof.Machine.execCri part x s
  | .presume part x => Sys2Proof.Machine.execPresume part x s
  | .hresume x => Sys2Proof.Machine.execHresume x s
  | .hresumeDiscard x => Sys2Proof.Machine.execHresumeDiscard x s
  | .create part => Sys2Proof.Machine.execCreate part s
  | .resize part force => Sys2Proof.Machine.execResize part force s
  | .clusterRemoval part => Sys2Proof.Machine.execClusterRemoval part s
  | .destroy part => Sys2Proof.Machine.execDestroy part s
  | .lend part force => Sys2Proof.Machine.execLend part force s
  | .revoke part => Sys2Proof.Machine.execRevoke part s
  | .revokeSaveTimeout part core => Sys2Proof.Machine.execRevokeSaveTimeout part core s
  | .mlend part x => Sys2Proof.Machine.execMlend part x s
  | .budgetWord part vcluster x => Sys2Proof.Machine.execBudgetWord part vcluster x s
  | .s1inv part x => Sys2Proof.Machine.execS1inv part x s
  | .s2inv part x => Sys2Proof.Machine.execS2inv part x s
  | .invalidationComplete part stage => Sys2Proof.Machine.execInvalidationComplete part stage s
  | .vfstate part x => Sys2Proof.Machine.execVfstate part x s
  | .functionLevelReset part => Sys2Proof.Machine.execFunctionLevelReset part s
  | .stopRequest core deadline => Sys2Proof.Machine.execStopRequest core deadline s
  | .softStop core => Sys2Proof.Machine.execSoftStop core s
  | .hardStop core => Sys2Proof.Machine.execHardStop core s
  | .stopSave core => Sys2Proof.Machine.execStopSave core s
  | .memberResume core => Sys2Proof.Machine.execMemberResume core s
  | .pause part => Sys2Proof.Machine.execPause part s
  | .resume part => Sys2Proof.Machine.execResume part s
  | .go channel => Sys2Proof.Machine.execGo channel s
  | .abort channel => Sys2Proof.Machine.execAbort channel s
  | .channelCopyDone channel => Sys2Proof.Machine.execChannelCopyDone channel s
  | .fabricAccess r => Sys2Proof.Machine.execFabricAccess r s
  | .linkTraining device master => Sys2Proof.Machine.execLinkTraining device master s
  | .timebaseCorrection master => Sys2Proof.Machine.execTimebaseCorrection master s
  | .limiterTransferStart part which n => Sys2Proof.Machine.execLimiterTransferStart part which n s
  | .energyPeriodEnd part => Sys2Proof.Machine.execEnergyPeriodEnd part s
  | .point cluster x => Sys2Proof.Machine.execPoint cluster x s
  | .pointChangeComplete cluster => Sys2Proof.Machine.execPointChangeComplete cluster s
  | .voltageLoop cluster => Sys2Proof.Machine.execVoltageLoop cluster s
  | .cadenceStep cluster raise => Sys2Proof.Machine.execCadenceStep cluster raise s
  | .currentClamp cluster => Sys2Proof.Machine.execCurrentClamp cluster s
  | .thermalTrip cluster => Sys2Proof.Machine.execThermalTrip cluster s
  | .thermalTripClear cluster => Sys2Proof.Machine.execThermalTripClear cluster s
  | .repeatMode x => Sys2Proof.Machine.execRepeatMode x s
  | .firmwareHeartbeat => Sys2Proof.Machine.execFirmwareHeartbeat s
  | .heartbeatTimeout => Sys2Proof.Machine.execHeartbeatTimeout s
  | .coldReset => Sys2Proof.Machine.execColdReset s
  | .hotReset => Sys2Proof.Machine.execHotReset s
  | .vfEnableClear x => Sys2Proof.Machine.execVfEnableClear x s
  | .mbctlCopyB kind => Sys2Proof.Machine.execMbctlCopyB kind s
  | .mbctlCopyA kind => Sys2Proof.Machine.execMbctlCopyA kind s
  | .repairTableWrite core k x => Sys2Proof.Machine.execRepairTableWrite core k x s
  | .reparm core => Sys2Proof.Machine.execReparm core s
  | .repinj core x => Sys2Proof.Machine.execRepinj core x s
  | .repairTimeout core => Sys2Proof.Machine.execRepairTimeout core s
  | .spdmGetVersion => Sys2Proof.Machine.execSpdmGetVersion s
  | .spdmGetCapabilities => Sys2Proof.Machine.execSpdmGetCapabilities s
  | .spdmNegotiateAlgorithms => Sys2Proof.Machine.execSpdmNegotiateAlgorithms s
  | .spdmGetDigests => Sys2Proof.Machine.execSpdmGetDigests s
  | .spdmGetCertificate offset length => Sys2Proof.Machine.execSpdmGetCertificate offset length s
  | .spdmChallenge nonce => Sys2Proof.Machine.execSpdmChallenge nonce s
  | .spdmGetMeasurements index => Sys2Proof.Machine.execSpdmGetMeasurements index s
  | .spdmKeyExchange random => Sys2Proof.Machine.execSpdmKeyExchange random s
  | .spdmFinish verifyData => Sys2Proof.Machine.execSpdmFinish verifyData s
  | .spdmEndSession => Sys2Proof.Machine.execSpdmEndSession s
  | .spdmOtherRequest => Sys2Proof.Machine.execSpdmOtherRequest s
  | .kSetGo x => Sys2Proof.Machine.execKSetGo x s
  | .pfBar2Access write offset x mask => Sys2Proof.Machine.execPfBar2Access write offset x mask s
  | .vfBar2Access part write offset x mask => Sys2Proof.Machine.execVfBar2Access part write offset x mask s
  | .msixVectorUnmask entry => Sys2Proof.Machine.execMsixVectorUnmask entry s
  | .registerWrite f offset size x => Sys2Proof.Machine.execRegisterWrite f offset size x s
  | .scrubEnd clusters => Sys2Proof.Machine.execScrubEnd clusters s
  | .currentClampEnd cluster => Sys2Proof.Machine.execCurrentClampEnd cluster s
  | .powerControllerImageUpdate begin_ => Sys2Proof.Machine.execPowerControllerImageUpdate begin_ s
  | .fabricPortLoss port => Sys2Proof.Machine.execFabricPortLoss port s

end Sys2Proof.Machine
end

