-- ==== Sys2Proof/Machine/Sched.lean ====
section
/-! DEFINITION. Which agent acts next when nothing is due: the slots' groups, the engines, the leaves, the dispatchers, the rings, the
governors, the channels, boot. The order among agents is not part of what R1 covers. -/

namespace Sys2Proof.Machine

/-- A stop that has not come to rest turns hard once TIMEBASE has reached its deadline; time passes until then (R363). -/
def State.stopClock (s : State) (c : Nat) : Option State :=
  match (s.core c).stop with
  | .soft d | .slots false _ d =>
    let (t, s) := s.now
    some (if d ≤ t.toNat then (s.hardStop c).getD s else s)
  | .none | .slots true _ _ => none

/-- Units of a core. -/
def coreUnits : Nat := 11

/-- Unit `u` of a core: four groups of slots, which stop softly before they issue (R363); three queues; the moves; the clock of a
stop; the leaf; the shot list. -/
def State.coreUnit (s : State) (c u : Nat) : Option State :=
  match u with
  | 0 | 1 | 2 | 3 => (s.softStop c).or (s.tryIssue c u)
  | 4 => s.queueStep c .mq
  | 5 => s.queueStep c .cq0
  | 6 => s.queueStep c .cq1
  | 7 => (List.range (s.core c).moves.length).findSome? (s.movePerformed c)
  | 8 => s.stopClock c
  | 9 => (s.stopSave c).or (s.memberResume c)
  | _ => s.shotReplay c

/-- Units of a partition. -/
def partUnits : Nat := 26

/-- Unit `u` of a partition: sixteen rings; the launch slot; the dispatcher; the completion ring; circulation entries; commands;
invalidations; the clapper; replicas. -/
def State.partUnit (s : State) (p u : Nat) : Option State :=
  match u with
  | 16 => s.slotGrant p
  | 17 => s.dispatchStep p
  | 18 => (s.part p).launch.bind (fun l => l.nodes.findSome? (fun n => s.nodeDone p n.1))
  | 19 => s.writeRecord p
  | 20 => (s.part p).clsets.findSome? (fun x => s.clsetStep p x.entry)
  | 21 => s.removal p
  | 22 => s.pauseStep p
  | 23 => (s.invalidated p .s1).or (s.invalidated p .s2)
  | 24 => s.clapperStart p
  | 25 => s.replicaStep p
  | r => (s.packetStep p r).or (s.ringFetch p r)

/-- Units of a cluster. -/
def clusterUnits : Nat := 3

/-- Unit `u` of a cluster: the governor, the change of point, the scrub. -/
def State.clusterUnit (s : State) (c u : Nat) : Option State :=
  match u with
  | 0 => s.leaveGrant c
  | 1 => s.pointChanged c
  | _ => if (s.cluster c).scrubbing then some (s.scrubCluster c).capChanged else none

/-- Units of the device. -/
def globalUnits : Nat := 8

/-- Unit `u` of the device: the fault ring, boot, the mailbox, the errors of memory and links, four migration channels. -/
def State.globalUnit (s : State) (u : Nat) : Option State :=
  match u with
  | 4 => s.writeFault
  | 5 => s.bootEnd
  | 6 => s.mailboxStep
  | 7 => s.mediaEvent
  | c => s.channelStep c

/-- How many units the scheduler looks at. -/
def numUnits : Nat :=
  coreUnits * Config.numCores + partUnits * Config.numPartitions + clusterUnits * Config.numClusters + globalUnits

/-- Unit `u` acts, if it can. -/
def State.tryUnit (s : State) (u : Nat) : Option State :=
  let parts := coreUnits * Config.numCores
  let clusters := parts + partUnits * Config.numPartitions
  let device := clusters + clusterUnits * Config.numClusters
  if u < parts then s.coreUnit (u / coreUnits) (u % coreUnits)
  else if u < clusters then s.partUnit ((u - parts) / partUnits) ((u - parts) % partUnits)
  else if u < device then s.clusterUnit ((u - clusters) / clusterUnits) ((u - clusters) % clusterUnits)
  else s.globalUnit (u - device)

/-- The first unit from `turn` on that can act does so; the next search starts after it. -/
def State.scan (s : State) : Nat → State
  | 0 => s
  | n + 1 =>
    let s' := { s with turn := (s.turn + 1) % numUnits }
    match s'.tryUnit s.turn with
    | some t => t
    | Option.none => State.scan s' n

/-- The scheduler looks at every unit once. -/
def State.schedule (s : State) : State := s.scan numUnits

end Sys2Proof.Machine
end

