-- ==== Sys2Proof/Machine/Step.lean ====
section
/-! DEFINITION. One step: a member of the open bundle acts; else the oldest event that is due happens; else the scheduler
lets one agent begin. -/

namespace Sys2Proof.Machine

/-- The state in which member `m` of the open bundle acts, with `r` left to act. -/
def State.begin (s : State) (o : Opened) (m : Member) (r : List Member) : State :=
  { s with opened := some { o with todo := r }, cur := { core := o.core, slot := m.slot, word := m.word } }

/-- The member acts: an annulled one only advances its chain (R83), an undecodable one traps (R82). -/
def State.act (s : State) (m : Member) : Host.Outcome State Fault Refusal :=
  if m.annulled then .next s.advance
  else match decode m.slot m.word with
    | .trap code => .next (s.decodeTrap code)
    | .ok i => exec i s

/-- After the last member, the bundle closes. -/
def finish (core : Nat) (r : List Member) : Host.Outcome State Fault Refusal → Host.Outcome State Fault Refusal
  | .next s => .next (match r with | [] => s.closeBundle core | _ :: _ => s)
  | .fault f => .fault f
  | .refused x => .refused x

/-- One step of the machine. -/
def step (s : State) : Host.Outcome State Fault Refusal :=
  match s.opened with
  | some o =>
    match o.todo with
    | m :: r => finish o.core r ((s.begin o m r).act m)
    | [] => .next (s.closeBundle o.core)
  | Option.none =>
    match s.agenda with
    | i :: r => exec i { s with agenda := r }
    | [] => .next s.schedule

/-- The instruction with the bits `w`, fetched as the next one to act: core 0 has a bundle open whose one member is the
slot of the word's own column, and nothing else is due (log 2). -/
def State.withFetchWord (s : State) (_nbits w : Nat) : State :=
  let x : Word := BitVec.ofNat 64 w
  let m : Member := { slot := homeSlot x, word := x, annulled := false }
  s.openBundle 0 [m]

end Sys2Proof.Machine
end

