-- ==== Sys2Proof/Laws/Encoding.lean ====
section
/-! SUPPORT. The words of the formats (R73): the sync bit, the primary opcode and the fields of a word read back as they went in. -/

namespace Sys2Proof.Laws

/-- The sync bit of a word of the K format. -/
theorem wordK_sync (y : BitVec 1) (op : BitVec 7) (f : FmtK) : (wordK y op f).extractLsb' 63 1 = y := by
  unfold wordK
  repeat rw [BitVec.extractLsb'_append_eq_of_le (by decide)]
  exact BitVec.extractLsb'_eq_self

/-- The primary opcode of a word of the K format. -/
theorem wordK_op (y : BitVec 1) (op : BitVec 7) (f : FmtK) : (wordK y op f).extractLsb' 56 7 = op := by
  unfold wordK
  repeat rw [BitVec.extractLsb'_append_eq_of_le (by decide)]
  rw [BitVec.extractLsb'_append_eq_of_add_le (by decide)]
  exact BitVec.extractLsb'_eq_self

/-- The fields of a word of the K format. -/
theorem fieldsK_wordK (y : BitVec 1) (op : BitVec 7) (f : FmtK) : fieldsK (wordK y op f) = f := by
  obtain ⟨a0, a1, a2, a3, a4, a5, a6⟩ := f
  simp only [fieldsK, wordK, bits, FmtK.mk.injEq]
  refine ⟨?_, ?_, ?_, ?_, ?_, ?_, ?_⟩ <;>
  · repeat rw [BitVec.extractLsb'_append_eq_of_le (by decide)]
    try rw [BitVec.extractLsb'_append_eq_of_add_le (by decide)]
    exact BitVec.extractLsb'_eq_self

/-- The sync bit of a word of the I format. -/
theorem wordI_sync (y : BitVec 1) (op : BitVec 7) (f : FmtI) : (wordI y op f).extractLsb' 63 1 = y := by
  unfold wordI
  repeat rw [BitVec.extractLsb'_append_eq_of_le (by decide)]
  exact BitVec.extractLsb'_eq_self

/-- The primary opcode of a word of the I format. -/
theorem wordI_op (y : BitVec 1) (op : BitVec 7) (f : FmtI) : (wordI y op f).extractLsb' 56 7 = op := by
  unfold wordI
  repeat rw [BitVec.extractLsb'_append_eq_of_le (by decide)]
  rw [BitVec.extractLsb'_append_eq_of_add_le (by decide)]
  exact BitVec.extractLsb'_eq_self

/-- The fields of a word of the I format. -/
theorem fieldsI_wordI (y : BitVec 1) (op : BitVec 7) (f : FmtI) : fieldsI (wordI y op f) = f := by
  obtain ⟨a0, a1, a2, a3⟩ := f
  simp only [fieldsI, wordI, bits, FmtI.mk.injEq]
  refine ⟨?_, ?_, ?_, ?_⟩ <;>
  · repeat rw [BitVec.extractLsb'_append_eq_of_le (by decide)]
    try rw [BitVec.extractLsb'_append_eq_of_add_le (by decide)]
    exact BitVec.extractLsb'_eq_self

/-- The sync bit of a word of the B format. -/
theorem wordB_sync (y : BitVec 1) (op : BitVec 7) (f : FmtB) : (wordB y op f).extractLsb' 63 1 = y := by
  unfold wordB
  repeat rw [BitVec.extractLsb'_append_eq_of_le (by decide)]
  exact BitVec.extractLsb'_eq_self

/-- The primary opcode of a word of the B format. -/
theorem wordB_op (y : BitVec 1) (op : BitVec 7) (f : FmtB) : (wordB y op f).extractLsb' 56 7 = op := by
  unfold wordB
  repeat rw [BitVec.extractLsb'_append_eq_of_le (by decide)]
  rw [BitVec.extractLsb'_append_eq_of_add_le (by decide)]
  exact BitVec.extractLsb'_eq_self

/-- The fields of a word of the B format. -/
theorem fieldsB_wordB (y : BitVec 1) (op : BitVec 7) (f : FmtB) : fieldsB (wordB y op f) = f := by
  obtain ⟨a0, a1, a2, a3, a4, a5⟩ := f
  simp only [fieldsB, wordB, bits, FmtB.mk.injEq]
  refine ⟨?_, ?_, ?_, ?_, ?_, ?_⟩ <;>
  · repeat rw [BitVec.extractLsb'_append_eq_of_le (by decide)]
    try rw [BitVec.extractLsb'_append_eq_of_add_le (by decide)]
    exact BitVec.extractLsb'_eq_self

/-- The sync bit of a word of the J format. -/
theorem wordJ_sync (y : BitVec 1) (op : BitVec 7) (f : FmtJ) : (wordJ y op f).extractLsb' 63 1 = y := by
  unfold wordJ
  repeat rw [BitVec.extractLsb'_append_eq_of_le (by decide)]
  exact BitVec.extractLsb'_eq_self

/-- The primary opcode of a word of the J format. -/
theorem wordJ_op (y : BitVec 1) (op : BitVec 7) (f : FmtJ) : (wordJ y op f).extractLsb' 56 7 = op := by
  unfold wordJ
  repeat rw [BitVec.extractLsb'_append_eq_of_le (by decide)]
  rw [BitVec.extractLsb'_append_eq_of_add_le (by decide)]
  exact BitVec.extractLsb'_eq_self

/-- The fields of a word of the J format. -/
theorem fieldsJ_wordJ (y : BitVec 1) (op : BitVec 7) (f : FmtJ) : fieldsJ (wordJ y op f) = f := by
  obtain ⟨a0, a1, a2, a3, a4, a5⟩ := f
  simp only [fieldsJ, wordJ, bits, FmtJ.mk.injEq]
  refine ⟨?_, ?_, ?_, ?_, ?_, ?_⟩ <;>
  · repeat rw [BitVec.extractLsb'_append_eq_of_le (by decide)]
    try rw [BitVec.extractLsb'_append_eq_of_add_le (by decide)]
    exact BitVec.extractLsb'_eq_self

/-- The sync bit of a word of the M format. -/
theorem wordM_sync (y : BitVec 1) (op : BitVec 7) (f : FmtM) : (wordM y op f).extractLsb' 63 1 = y := by
  unfold wordM
  repeat rw [BitVec.extractLsb'_append_eq_of_le (by decide)]
  exact BitVec.extractLsb'_eq_self

/-- The primary opcode of a word of the M format. -/
theorem wordM_op (y : BitVec 1) (op : BitVec 7) (f : FmtM) : (wordM y op f).extractLsb' 56 7 = op := by
  unfold wordM
  repeat rw [BitVec.extractLsb'_append_eq_of_le (by decide)]
  rw [BitVec.extractLsb'_append_eq_of_add_le (by decide)]
  exact BitVec.extractLsb'_eq_self

/-- The fields of a word of the M format. -/
theorem fieldsM_wordM (y : BitVec 1) (op : BitVec 7) (f : FmtM) : fieldsM (wordM y op f) = f := by
  obtain ⟨a0, a1, a2, a3, a4, a5, a6, a7, a8⟩ := f
  simp only [fieldsM, wordM, bits, FmtM.mk.injEq]
  refine ⟨?_, ?_, ?_, ?_, ?_, ?_, ?_, ?_, ?_⟩ <;>
  · repeat rw [BitVec.extractLsb'_append_eq_of_le (by decide)]
    try rw [BitVec.extractLsb'_append_eq_of_add_le (by decide)]
    exact BitVec.extractLsb'_eq_self

/-- The sync bit of a word of the X format. -/
theorem wordX_sync (y : BitVec 1) (op : BitVec 7) (f : FmtX) : (wordX y op f).extractLsb' 63 1 = y := by
  unfold wordX
  repeat rw [BitVec.extractLsb'_append_eq_of_le (by decide)]
  exact BitVec.extractLsb'_eq_self

/-- The primary opcode of a word of the X format. -/
theorem wordX_op (y : BitVec 1) (op : BitVec 7) (f : FmtX) : (wordX y op f).extractLsb' 56 7 = op := by
  unfold wordX
  repeat rw [BitVec.extractLsb'_append_eq_of_le (by decide)]
  rw [BitVec.extractLsb'_append_eq_of_add_le (by decide)]
  exact BitVec.extractLsb'_eq_self

/-- The fields of a word of the X format. -/
theorem fieldsX_wordX (y : BitVec 1) (op : BitVec 7) (f : FmtX) : fieldsX (wordX y op f) = f := by
  obtain ⟨a0, a1, a2, a3, a4, a5, a6, a7, a8⟩ := f
  simp only [fieldsX, wordX, bits, FmtX.mk.injEq]
  refine ⟨?_, ?_, ?_, ?_, ?_, ?_, ?_, ?_, ?_⟩ <;>
  · repeat rw [BitVec.extractLsb'_append_eq_of_le (by decide)]
    try rw [BitVec.extractLsb'_append_eq_of_add_le (by decide)]
    exact BitVec.extractLsb'_eq_self

/-- The sync bit of a word of the Y format. -/
theorem wordY_sync (y : BitVec 1) (op : BitVec 7) (f : FmtY) : (wordY y op f).extractLsb' 63 1 = y := by
  unfold wordY
  repeat rw [BitVec.extractLsb'_append_eq_of_le (by decide)]
  exact BitVec.extractLsb'_eq_self

/-- The primary opcode of a word of the Y format. -/
theorem wordY_op (y : BitVec 1) (op : BitVec 7) (f : FmtY) : (wordY y op f).extractLsb' 56 7 = op := by
  unfold wordY
  repeat rw [BitVec.extractLsb'_append_eq_of_le (by decide)]
  rw [BitVec.extractLsb'_append_eq_of_add_le (by decide)]
  exact BitVec.extractLsb'_eq_self

/-- The fields of a word of the Y format. -/
theorem fieldsY_wordY (y : BitVec 1) (op : BitVec 7) (f : FmtY) : fieldsY (wordY y op f) = f := by
  obtain ⟨a0, a1, a2, a3, a4, a5, a6, a7⟩ := f
  simp only [fieldsY, wordY, bits, FmtY.mk.injEq]
  refine ⟨?_, ?_, ?_, ?_, ?_, ?_, ?_, ?_⟩ <;>
  · repeat rw [BitVec.extractLsb'_append_eq_of_le (by decide)]
    try rw [BitVec.extractLsb'_append_eq_of_add_le (by decide)]
    exact BitVec.extractLsb'_eq_self

/-- The sync bit of a word of the V format. -/
theorem wordV_sync (y : BitVec 1) (op : BitVec 7) (f : FmtV) : (wordV y op f).extractLsb' 63 1 = y := by
  unfold wordV
  repeat rw [BitVec.extractLsb'_append_eq_of_le (by decide)]
  exact BitVec.extractLsb'_eq_self

/-- The primary opcode of a word of the V format. -/
theorem wordV_op (y : BitVec 1) (op : BitVec 7) (f : FmtV) : (wordV y op f).extractLsb' 56 7 = op := by
  unfold wordV
  repeat rw [BitVec.extractLsb'_append_eq_of_le (by decide)]
  rw [BitVec.extractLsb'_append_eq_of_add_le (by decide)]
  exact BitVec.extractLsb'_eq_self

/-- The fields of a word of the V format. -/
theorem fieldsV_wordV (y : BitVec 1) (op : BitVec 7) (f : FmtV) : fieldsV (wordV y op f) = f := by
  obtain ⟨a0, a1, a2, a3, a4, a5, a6, a7, a8⟩ := f
  simp only [fieldsV, wordV, bits, FmtV.mk.injEq]
  refine ⟨?_, ?_, ?_, ?_, ?_, ?_, ?_, ?_, ?_⟩ <;>
  · repeat rw [BitVec.extractLsb'_append_eq_of_le (by decide)]
    try rw [BitVec.extractLsb'_append_eq_of_add_le (by decide)]
    exact BitVec.extractLsb'_eq_self

/-- The sync bit of a word of the W format. -/
theorem wordW_sync (y : BitVec 1) (op : BitVec 7) (f : FmtW) : (wordW y op f).extractLsb' 63 1 = y := by
  unfold wordW
  repeat rw [BitVec.extractLsb'_append_eq_of_le (by decide)]
  exact BitVec.extractLsb'_eq_self

/-- The primary opcode of a word of the W format. -/
theorem wordW_op (y : BitVec 1) (op : BitVec 7) (f : FmtW) : (wordW y op f).extractLsb' 56 7 = op := by
  unfold wordW
  repeat rw [BitVec.extractLsb'_append_eq_of_le (by decide)]
  rw [BitVec.extractLsb'_append_eq_of_add_le (by decide)]
  exact BitVec.extractLsb'_eq_self

/-- The fields of a word of the W format. -/
theorem fieldsW_wordW (y : BitVec 1) (op : BitVec 7) (f : FmtW) : fieldsW (wordW y op f) = f := by
  obtain ⟨a0, a1, a2, a3, a4⟩ := f
  simp only [fieldsW, wordW, bits, FmtW.mk.injEq]
  refine ⟨?_, ?_, ?_, ?_, ?_⟩ <;>
  · repeat rw [BitVec.extractLsb'_append_eq_of_le (by decide)]
    try rw [BitVec.extractLsb'_append_eq_of_add_le (by decide)]
    exact BitVec.extractLsb'_eq_self

/-- The sync bit of a word of the L format. -/
theorem wordL_sync (y : BitVec 1) (op : BitVec 7) (f : FmtL) : (wordL y op f).extractLsb' 63 1 = y := by
  unfold wordL
  repeat rw [BitVec.extractLsb'_append_eq_of_le (by decide)]
  exact BitVec.extractLsb'_eq_self

/-- The primary opcode of a word of the L format. -/
theorem wordL_op (y : BitVec 1) (op : BitVec 7) (f : FmtL) : (wordL y op f).extractLsb' 56 7 = op := by
  unfold wordL
  repeat rw [BitVec.extractLsb'_append_eq_of_le (by decide)]
  rw [BitVec.extractLsb'_append_eq_of_add_le (by decide)]
  exact BitVec.extractLsb'_eq_self

/-- The fields of a word of the L format. -/
theorem fieldsL_wordL (y : BitVec 1) (op : BitVec 7) (f : FmtL) : fieldsL (wordL y op f) = f := by
  obtain ⟨a0, a1, a2, a3, a4, a5, a6, a7, a8⟩ := f
  simp only [fieldsL, wordL, bits, FmtL.mk.injEq]
  refine ⟨?_, ?_, ?_, ?_, ?_, ?_, ?_, ?_, ?_⟩ <;>
  · repeat rw [BitVec.extractLsb'_append_eq_of_le (by decide)]
    try rw [BitVec.extractLsb'_append_eq_of_add_le (by decide)]
    exact BitVec.extractLsb'_eq_self

/-- The sync bit of a word of the C format. -/
theorem wordC_sync (y : BitVec 1) (op : BitVec 7) (f : FmtC) : (wordC y op f).extractLsb' 63 1 = y := by
  unfold wordC
  repeat rw [BitVec.extractLsb'_append_eq_of_le (by decide)]
  exact BitVec.extractLsb'_eq_self

/-- The primary opcode of a word of the C format. -/
theorem wordC_op (y : BitVec 1) (op : BitVec 7) (f : FmtC) : (wordC y op f).extractLsb' 56 7 = op := by
  unfold wordC
  repeat rw [BitVec.extractLsb'_append_eq_of_le (by decide)]
  rw [BitVec.extractLsb'_append_eq_of_add_le (by decide)]
  exact BitVec.extractLsb'_eq_self

/-- The fields of a word of the C format. -/
theorem fieldsC_wordC (y : BitVec 1) (op : BitVec 7) (f : FmtC) : fieldsC (wordC y op f) = f := by
  obtain ⟨a0, a1, a2, a3, a4, a5, a6⟩ := f
  simp only [fieldsC, wordC, bits, FmtC.mk.injEq]
  refine ⟨?_, ?_, ?_, ?_, ?_, ?_, ?_⟩ <;>
  · repeat rw [BitVec.extractLsb'_append_eq_of_le (by decide)]
    try rw [BitVec.extractLsb'_append_eq_of_add_le (by decide)]
    exact BitVec.extractLsb'_eq_self

/-- The sync bit of a word of the Q format. -/
theorem wordQ_sync (y : BitVec 1) (op : BitVec 7) (f : FmtQ) : (wordQ y op f).extractLsb' 63 1 = y := by
  unfold wordQ
  repeat rw [BitVec.extractLsb'_append_eq_of_le (by decide)]
  exact BitVec.extractLsb'_eq_self

/-- The primary opcode of a word of the Q format. -/
theorem wordQ_op (y : BitVec 1) (op : BitVec 7) (f : FmtQ) : (wordQ y op f).extractLsb' 56 7 = op := by
  unfold wordQ
  repeat rw [BitVec.extractLsb'_append_eq_of_le (by decide)]
  rw [BitVec.extractLsb'_append_eq_of_add_le (by decide)]
  exact BitVec.extractLsb'_eq_self

/-- The fields of a word of the Q format. -/
theorem fieldsQ_wordQ (y : BitVec 1) (op : BitVec 7) (f : FmtQ) : fieldsQ (wordQ y op f) = f := by
  obtain ⟨a0, a1, a2, a3, a4, a5⟩ := f
  simp only [fieldsQ, wordQ, bits, FmtQ.mk.injEq]
  refine ⟨?_, ?_, ?_, ?_, ?_, ?_⟩ <;>
  · repeat rw [BitVec.extractLsb'_append_eq_of_le (by decide)]
    try rw [BitVec.extractLsb'_append_eq_of_add_le (by decide)]
    exact BitVec.extractLsb'_eq_self

end Sys2Proof.Laws
end

