-- ==== Sys2Proof/Laws/PerInstr.lean ====
section
/-! SUPPORT. For every instruction, what its word says before its fields are read: the sync bit is the one it was given, and the primary
opcode is legal in some column (R73, R77). A step that has no word meets this at once. -/

namespace Sys2Proof.Laws

/-- The word of `i` carries its sync bit, and a primary opcode that some slot has. -/
def Encoding.Statement (i : Instr) : Prop :=
  ∀ (y : BitVec 1) (w : Word), encode y i = some w →
    w.extractLsb' 63 1 = y ∧ (opSlots (w.extractLsb' 56 7).toNat).isSome = true

theorem Encoding.nop : Encoding.Statement (.nop) := by
  rintro y w ⟨⟩
  refine ⟨?_, ?_⟩
  · rw [BitVec.extractLsb'_append_eq_of_le (by decide)]
    exact BitVec.extractLsb'_eq_self
  · rw [BitVec.extractLsb'_append_eq_of_add_le (by decide)]
    rfl
theorem Encoding.add (sd sa sb : SReg) : Encoding.Statement (.add sd sa sb) := by
  rintro y w ⟨⟩; exact ⟨wordK_sync .., by rw [wordK_op]; rfl⟩
theorem Encoding.sub (sd sa sb : SReg) : Encoding.Statement (.sub sd sa sb) := by
  rintro y w ⟨⟩; exact ⟨wordK_sync .., by rw [wordK_op]; rfl⟩
theorem Encoding.mul (sd sa sb : SReg) : Encoding.Statement (.mul sd sa sb) := by
  rintro y w ⟨⟩; exact ⟨wordK_sync .., by rw [wordK_op]; rfl⟩
theorem Encoding.mulh (sd sa sb : SReg) : Encoding.Statement (.mulh sd sa sb) := by
  rintro y w ⟨⟩; exact ⟨wordK_sync .., by rw [wordK_op]; rfl⟩
theorem Encoding.mulhu (sd sa sb : SReg) : Encoding.Statement (.mulhu sd sa sb) := by
  rintro y w ⟨⟩; exact ⟨wordK_sync .., by rw [wordK_op]; rfl⟩
theorem Encoding.div (sd sa sb : SReg) : Encoding.Statement (.div sd sa sb) := by
  rintro y w ⟨⟩; exact ⟨wordK_sync .., by rw [wordK_op]; rfl⟩
theorem Encoding.divu (sd sa sb : SReg) : Encoding.Statement (.divu sd sa sb) := by
  rintro y w ⟨⟩; exact ⟨wordK_sync .., by rw [wordK_op]; rfl⟩
theorem Encoding.rem (sd sa sb : SReg) : Encoding.Statement (.rem sd sa sb) := by
  rintro y w ⟨⟩; exact ⟨wordK_sync .., by rw [wordK_op]; rfl⟩
theorem Encoding.remu (sd sa sb : SReg) : Encoding.Statement (.remu sd sa sb) := by
  rintro y w ⟨⟩; exact ⟨wordK_sync .., by rw [wordK_op]; rfl⟩
theorem Encoding.and (sd sa sb : SReg) : Encoding.Statement (.and sd sa sb) := by
  rintro y w ⟨⟩; exact ⟨wordK_sync .., by rw [wordK_op]; rfl⟩
theorem Encoding.or (sd sa sb : SReg) : Encoding.Statement (.or sd sa sb) := by
  rintro y w ⟨⟩; exact ⟨wordK_sync .., by rw [wordK_op]; rfl⟩
theorem Encoding.xor (sd sa sb : SReg) : Encoding.Statement (.xor sd sa sb) := by
  rintro y w ⟨⟩; exact ⟨wordK_sync .., by rw [wordK_op]; rfl⟩
theorem Encoding.andn (sd sa sb : SReg) : Encoding.Statement (.andn sd sa sb) := by
  rintro y w ⟨⟩; exact ⟨wordK_sync .., by rw [wordK_op]; rfl⟩
theorem Encoding.orn (sd sa sb : SReg) : Encoding.Statement (.orn sd sa sb) := by
  rintro y w ⟨⟩; exact ⟨wordK_sync .., by rw [wordK_op]; rfl⟩
theorem Encoding.shl (sd sa sb : SReg) : Encoding.Statement (.shl sd sa sb) := by
  rintro y w ⟨⟩; exact ⟨wordK_sync .., by rw [wordK_op]; rfl⟩
theorem Encoding.shr (sd sa sb : SReg) : Encoding.Statement (.shr sd sa sb) := by
  rintro y w ⟨⟩; exact ⟨wordK_sync .., by rw [wordK_op]; rfl⟩
theorem Encoding.sar (sd sa sb : SReg) : Encoding.Statement (.sar sd sa sb) := by
  rintro y w ⟨⟩; exact ⟨wordK_sync .., by rw [wordK_op]; rfl⟩
theorem Encoding.rotl (sd sa sb : SReg) : Encoding.Statement (.rotl sd sa sb) := by
  rintro y w ⟨⟩; exact ⟨wordK_sync .., by rw [wordK_op]; rfl⟩
theorem Encoding.rotr (sd sa sb : SReg) : Encoding.Statement (.rotr sd sa sb) := by
  rintro y w ⟨⟩; exact ⟨wordK_sync .., by rw [wordK_op]; rfl⟩
theorem Encoding.min (sd sa sb : SReg) : Encoding.Statement (.min sd sa sb) := by
  rintro y w ⟨⟩; exact ⟨wordK_sync .., by rw [wordK_op]; rfl⟩
theorem Encoding.max (sd sa sb : SReg) : Encoding.Statement (.max sd sa sb) := by
  rintro y w ⟨⟩; exact ⟨wordK_sync .., by rw [wordK_op]; rfl⟩
theorem Encoding.minu (sd sa sb : SReg) : Encoding.Statement (.minu sd sa sb) := by
  rintro y w ⟨⟩; exact ⟨wordK_sync .., by rw [wordK_op]; rfl⟩
theorem Encoding.maxu (sd sa sb : SReg) : Encoding.Statement (.maxu sd sa sb) := by
  rintro y w ⟨⟩; exact ⟨wordK_sync .., by rw [wordK_op]; rfl⟩
theorem Encoding.clz (sd sa : SReg) : Encoding.Statement (.clz sd sa) := by
  rintro y w ⟨⟩; exact ⟨wordK_sync .., by rw [wordK_op]; rfl⟩
theorem Encoding.ctz (sd sa : SReg) : Encoding.Statement (.ctz sd sa) := by
  rintro y w ⟨⟩; exact ⟨wordK_sync .., by rw [wordK_op]; rfl⟩
theorem Encoding.popc (sd sa : SReg) : Encoding.Statement (.popc sd sa) := by
  rintro y w ⟨⟩; exact ⟨wordK_sync .., by rw [wordK_op]; rfl⟩
theorem Encoding.brev (sd sa : SReg) : Encoding.Statement (.brev sd sa) := by
  rintro y w ⟨⟩; exact ⟨wordK_sync .., by rw [wordK_op]; rfl⟩
theorem Encoding.bswap (sd sa : SReg) : Encoding.Statement (.bswap sd sa) := by
  rintro y w ⟨⟩; exact ⟨wordK_sync .., by rw [wordK_op]; rfl⟩
theorem Encoding.abs (sd sa : SReg) : Encoding.Statement (.abs sd sa) := by
  rintro y w ⟨⟩; exact ⟨wordK_sync .., by rw [wordK_op]; rfl⟩
theorem Encoding.lop3 (sd sa sb sc : SReg) (tt : BitVec 8) : Encoding.Statement (.lop3 sd sa sb sc tt) := by
  rintro y w ⟨⟩; exact ⟨wordK_sync .., by rw [wordK_op]; rfl⟩
theorem Encoding.fshl (sd sa sb sc : SReg) : Encoding.Statement (.fshl sd sa sb sc) := by
  rintro y w ⟨⟩; exact ⟨wordK_sync .., by rw [wordK_op]; rfl⟩
theorem Encoding.fshr (sd sa sb sc : SReg) : Encoding.Statement (.fshr sd sa sb sc) := by
  rintro y w ⟨⟩; exact ⟨wordK_sync .., by rw [wordK_op]; rfl⟩
theorem Encoding.sel (sd sa sb sc : SReg) : Encoding.Statement (.sel sd sa sb sc) := by
  rintro y w ⟨⟩; exact ⟨wordK_sync .., by rw [wordK_op]; rfl⟩
theorem Encoding.cmp (c : Cond) (sd sa sb : SReg) : Encoding.Statement (.cmp c sd sa sb) := by
  rintro y w ⟨⟩; exact ⟨wordK_sync .., by rw [wordK_op]; rfl⟩
theorem Encoding.bfx (sd sa : SReg) (pos : BitVec 6) (wid : BitVec 7) : Encoding.Statement (.bfx sd sa pos wid) := by
  rintro y w ⟨⟩; exact ⟨wordK_sync .., by rw [wordK_op]; rfl⟩
theorem Encoding.bfxu (sd sa : SReg) (pos : BitVec 6) (wid : BitVec 7) : Encoding.Statement (.bfxu sd sa pos wid) := by
  rintro y w ⟨⟩; exact ⟨wordK_sync .., by rw [wordK_op]; rfl⟩
theorem Encoding.bfi (sd sa : SReg) (pos : BitVec 6) (wid : BitVec 7) : Encoding.Statement (.bfi sd sa pos wid) := by
  rintro y w ⟨⟩; exact ⟨wordK_sync .., by rw [wordK_op]; rfl⟩
theorem Encoding.sext (sd sa : SReg) (wid : BitVec 7) : Encoding.Statement (.sext sd sa wid) := by
  rintro y w ⟨⟩; exact ⟨wordK_sync .., by rw [wordK_op]; rfl⟩
theorem Encoding.zext (sd sa : SReg) (wid : BitVec 7) : Encoding.Statement (.zext sd sa wid) := by
  rintro y w ⟨⟩; exact ⟨wordK_sync .., by rw [wordK_op]; rfl⟩
theorem Encoding.lea (sd sa sb : SReg) (sh : BitVec 8) : Encoding.Statement (.lea sd sa sb sh) := by
  rintro y w ⟨⟩; exact ⟨wordK_sync .., by rw [wordK_op]; rfl⟩
theorem Encoding.addi (sd sa : SReg) (imm : BitVec 32) : Encoding.Statement (.addi sd sa imm) := by
  rintro y w ⟨⟩; exact ⟨wordI_sync .., by rw [wordI_op]; rfl⟩
theorem Encoding.movi (sd : SReg) (imm : BitVec 32) : Encoding.Statement (.movi sd imm) := by
  rintro y w ⟨⟩; exact ⟨wordI_sync .., by rw [wordI_op]; rfl⟩
theorem Encoding.movhi (sd : SReg) (imm : BitVec 32) : Encoding.Statement (.movhi sd imm) := by
  rintro y w ⟨⟩; exact ⟨wordI_sync .., by rw [wordI_op]; rfl⟩
theorem Encoding.br (c : Cond) (nul : Nul) (sa sb : SReg) (off : BitVec 32) : Encoding.Statement (.br c nul sa sb off) := by
  rintro y w ⟨⟩; exact ⟨wordB_sync .., by rw [wordB_op]; rfl⟩
theorem Encoding.gbr (c : Cond) (nul : Nul) (sa sb : SReg) (off : BitVec 32) : Encoding.Statement (.gbr c nul sa sb off) := by
  rintro y w ⟨⟩; exact ⟨wordB_sync .., by rw [wordB_op]; rfl⟩
theorem Encoding.jmp (nul : Nul) (off : BitVec 32) : Encoding.Statement (.jmp nul off) := by
  rintro y w ⟨⟩; exact ⟨wordB_sync .., by rw [wordB_op]; rfl⟩
theorem Encoding.call (sd : SReg) (nul : Nul) (off : BitVec 32) : Encoding.Statement (.call sd nul off) := by
  rintro y w ⟨⟩; exact ⟨wordB_sync .., by rw [wordB_op]; rfl⟩
theorem Encoding.callr (sd sa : SReg) (nul : Nul) : Encoding.Statement (.callr sd sa nul) := by
  rintro y w ⟨⟩; exact ⟨wordJ_sync .., by rw [wordJ_op]; rfl⟩
theorem Encoding.ret (sa : SReg) (nul : Nul) : Encoding.Statement (.ret sa nul) := by
  rintro y w ⟨⟩; exact ⟨wordJ_sync .., by rw [wordJ_op]; rfl⟩
theorem Encoding.jt (sa sb sc : SReg) : Encoding.Statement (.jt sa sb sc) := by
  rintro y w ⟨⟩; exact ⟨wordJ_sync .., by rw [wordJ_op]; rfl⟩
theorem Encoding.trap (detail : BitVec 32) : Encoding.Statement (.trap detail) := by
  rintro y w ⟨⟩; exact ⟨wordI_sync .., by rw [wordI_op]; rfl⟩
theorem Encoding.dbg (code : BitVec 20) : Encoding.Statement (.dbg code) := by
  rintro y w ⟨⟩; exact ⟨wordY_sync .., by rw [wordY_op]; rfl⟩
theorem Encoding.eret : Encoding.Statement (.eret) := by
  rintro y w ⟨⟩; exact ⟨wordJ_sync .., by rw [wordJ_op]; rfl⟩
theorem Encoding.halt : Encoding.Statement (.halt) := by
  rintro y w ⟨⟩; exact ⟨wordJ_sync .., by rw [wordJ_op]; rfl⟩
theorem Encoding.ld (sz : Size) (un : Bool) (ord : MemOrder) (ls : ListIx) (sd sa : SReg) (off : BitVec 32) : Encoding.Statement (.ld sz un ord ls sd sa off) := by
  rintro y w ⟨⟩; exact ⟨wordM_sync .., by rw [wordM_op]; rfl⟩
theorem Encoding.ldc (sz : Size) (un : Bool) (sd sa : SReg) (off : BitVec 32) : Encoding.Statement (.ldc sz un sd sa off) := by
  rintro y w ⟨⟩; exact ⟨wordM_sync .., by rw [wordM_op]; rfl⟩
theorem Encoding.st (sz : Size) (ord : MemOrder) (ls : ListIx) (sd sa : SReg) (off : BitVec 32) : Encoding.Statement (.st sz ord ls sd sa off) := by
  rintro y w ⟨⟩; exact ⟨wordM_sync .., by rw [wordM_op]; rfl⟩
theorem Encoding.amoAdd (dw : Bool) (ord : MemOrder) (ls : ListIx) (sd sa sb : SReg) (off : BitVec 20) : Encoding.Statement (.amoAdd dw ord ls sd sa sb off) := by
  rintro y w ⟨⟩; exact ⟨wordX_sync .., by rw [wordX_op]; rfl⟩
theorem Encoding.amoAnd (dw : Bool) (ord : MemOrder) (ls : ListIx) (sd sa sb : SReg) (off : BitVec 20) : Encoding.Statement (.amoAnd dw ord ls sd sa sb off) := by
  rintro y w ⟨⟩; exact ⟨wordX_sync .., by rw [wordX_op]; rfl⟩
theorem Encoding.amoOr (dw : Bool) (ord : MemOrder) (ls : ListIx) (sd sa sb : SReg) (off : BitVec 20) : Encoding.Statement (.amoOr dw ord ls sd sa sb off) := by
  rintro y w ⟨⟩; exact ⟨wordX_sync .., by rw [wordX_op]; rfl⟩
theorem Encoding.amoXor (dw : Bool) (ord : MemOrder) (ls : ListIx) (sd sa sb : SReg) (off : BitVec 20) : Encoding.Statement (.amoXor dw ord ls sd sa sb off) := by
  rintro y w ⟨⟩; exact ⟨wordX_sync .., by rw [wordX_op]; rfl⟩
theorem Encoding.amoMin (dw : Bool) (ord : MemOrder) (ls : ListIx) (sd sa sb : SReg) (off : BitVec 20) : Encoding.Statement (.amoMin dw ord ls sd sa sb off) := by
  rintro y w ⟨⟩; exact ⟨wordX_sync .., by rw [wordX_op]; rfl⟩
theorem Encoding.amoMax (dw : Bool) (ord : MemOrder) (ls : ListIx) (sd sa sb : SReg) (off : BitVec 20) : Encoding.Statement (.amoMax dw ord ls sd sa sb off) := by
  rintro y w ⟨⟩; exact ⟨wordX_sync .., by rw [wordX_op]; rfl⟩
theorem Encoding.amoMinu (dw : Bool) (ord : MemOrder) (ls : ListIx) (sd sa sb : SReg) (off : BitVec 20) : Encoding.Statement (.amoMinu dw ord ls sd sa sb off) := by
  rintro y w ⟨⟩; exact ⟨wordX_sync .., by rw [wordX_op]; rfl⟩
theorem Encoding.amoMaxu (dw : Bool) (ord : MemOrder) (ls : ListIx) (sd sa sb : SReg) (off : BitVec 20) : Encoding.Statement (.amoMaxu dw ord ls sd sa sb off) := by
  rintro y w ⟨⟩; exact ⟨wordX_sync .., by rw [wordX_op]; rfl⟩
theorem Encoding.amoSwap (dw : Bool) (ord : MemOrder) (ls : ListIx) (sd sa sb : SReg) (off : BitVec 20) : Encoding.Statement (.amoSwap dw ord ls sd sa sb off) := by
  rintro y w ⟨⟩; exact ⟨wordX_sync .., by rw [wordX_op]; rfl⟩
theorem Encoding.cas (dw : Bool) (ord : MemOrder) (ls : ListIx) (sd sa sb sc : SReg) (off : BitVec 20) : Encoding.Statement (.cas dw ord ls sd sa sb sc off) := by
  rintro y w ⟨⟩; exact ⟨wordX_sync .., by rw [wordX_op]; rfl⟩
theorem Encoding.pref (sa : SReg) (off : BitVec 32) : Encoding.Statement (.pref sa off) := by
  rintro y w ⟨⟩; exact ⟨wordM_sync .., by rw [wordM_op]; rfl⟩
theorem Encoding.fenceAcq (ls : ListIx) : Encoding.Statement (.fenceAcq ls) := by
  rintro y w ⟨⟩; exact ⟨wordM_sync .., by rw [wordM_op]; rfl⟩
theorem Encoding.fenceRel (ls : ListIx) : Encoding.Statement (.fenceRel ls) := by
  rintro y w ⟨⟩; exact ⟨wordM_sync .., by rw [wordM_op]; rfl⟩
theorem Encoding.fenceFull (ls : ListIx) : Encoding.Statement (.fenceFull ls) := by
  rintro y w ⟨⟩; exact ⟨wordM_sync .., by rw [wordM_op]; rfl⟩
theorem Encoding.jset (j : BitVec 8) : Encoding.Statement (.jset j) := by
  rintro y w ⟨⟩; exact ⟨wordY_sync .., by rw [wordY_op]; rfl⟩
theorem Encoding.jclr (j : BitVec 8) : Encoding.Statement (.jclr j) := by
  rintro y w ⟨⟩; exact ⟨wordY_sync .., by rw [wordY_op]; rfl⟩
theorem Encoding.jwait (j : BitVec 8) : Encoding.Statement (.jwait j) := by
  rintro y w ⟨⟩; exact ⟨wordY_sync .., by rw [wordY_op]; rfl⟩
theorem Encoding.crd (sd : SReg) (n : BitVec 12) : Encoding.Statement (.crd sd n) := by
  rintro y w ⟨⟩; exact ⟨wordY_sync .., by rw [wordY_op]; rfl⟩
theorem Encoding.cwr (n : BitVec 12) (sa : SReg) : Encoding.Statement (.cwr n sa) := by
  rintro y w ⟨⟩; exact ⟨wordY_sync .., by rw [wordY_op]; rfl⟩
theorem Encoding.crset (n : BitVec 12) (sa : SReg) : Encoding.Statement (.crset n sa) := by
  rintro y w ⟨⟩; exact ⟨wordY_sync .., by rw [wordY_op]; rfl⟩
theorem Encoding.crclr (n : BitVec 12) (sa : SReg) : Encoding.Statement (.crclr n sa) := by
  rintro y w ⟨⟩; exact ⟨wordY_sync .., by rw [wordY_op]; rfl⟩
theorem Encoding.clset (entry : BitVec 8) (sa : SReg) : Encoding.Statement (.clset entry sa) := by
  rintro y w ⟨⟩; exact ⟨wordY_sync .., by rw [wordY_op]; rfl⟩
theorem Encoding.clget (sd : SReg) (entry : BitVec 8) (k : BitVec 3) : Encoding.Statement (.clget sd entry k) := by
  rintro y w ⟨⟩; exact ⟨wordY_sync .., by rw [wordY_op]; rfl⟩
theorem Encoding.tspawn (sa : SReg) : Encoding.Statement (.tspawn sa) := by
  rintro y w ⟨⟩; exact ⟨wordY_sync .., by rw [wordY_op]; rfl⟩
theorem Encoding.semsig (sem : BitVec 8) (inc : BitVec 8) (ls : ListIx) (rmt : Bool) (sa : SReg) : Encoding.Statement (.semsig sem inc ls rmt sa) := by
  rintro y w ⟨⟩; exact ⟨wordY_sync .., by rw [wordY_op]; rfl⟩
theorem Encoding.semwait (sem : BitVec 8) (sa : SReg) (imm : BitVec 20) (ls : ListIx) : Encoding.Statement (.semwait sem sa imm ls) := by
  rintro y w ⟨⟩; exact ⟨wordY_sync .., by rw [wordY_op]; rfl⟩
theorem Encoding.semacq (sem : BitVec 8) (sa : SReg) (imm : BitVec 20) (ls : ListIx) : Encoding.Statement (.semacq sem sa imm ls) := by
  rintro y w ⟨⟩; exact ⟨wordY_sync .., by rw [wordY_op]; rfl⟩
theorem Encoding.semset (sem : BitVec 8) (sa : SReg) : Encoding.Statement (.semset sem sa) := by
  rintro y w ⟨⟩; exact ⟨wordY_sync .., by rw [wordY_op]; rfl⟩
theorem Encoding.semrd (sd : SReg) (sem : BitVec 8) : Encoding.Statement (.semrd sd sem) := by
  rintro y w ⟨⟩; exact ⟨wordY_sync .., by rw [wordY_op]; rfl⟩
theorem Encoding.barset (b : BitVec 8) (sa : SReg) : Encoding.Statement (.barset b sa) := by
  rintro y w ⟨⟩; exact ⟨wordY_sync .., by rw [wordY_op]; rfl⟩
theorem Encoding.bararr (b : BitVec 8) (ls : ListIx) : Encoding.Statement (.bararr b ls) := by
  rintro y w ⟨⟩; exact ⟨wordY_sync .., by rw [wordY_op]; rfl⟩
theorem Encoding.barwait (b : BitVec 8) (ls : ListIx) : Encoding.Statement (.barwait b ls) := by
  rintro y w ⟨⟩; exact ⟨wordY_sync .., by rw [wordY_op]; rfl⟩
theorem Encoding.bararw (b : BitVec 8) (ls : ListIx) : Encoding.Statement (.bararw b ls) := by
  rintro y w ⟨⟩; exact ⟨wordY_sync .., by rw [wordY_op]; rfl⟩
theorem Encoding.vadd (ty : VTy) (vd va vb : VReg) (mk : MReg) : Encoding.Statement (.vadd ty vd va vb mk) := by
  rintro y w ⟨⟩; exact ⟨wordV_sync .., by rw [wordV_op]; rfl⟩
theorem Encoding.vsub (ty : VTy) (vd va vb : VReg) (mk : MReg) : Encoding.Statement (.vsub ty vd va vb mk) := by
  rintro y w ⟨⟩; exact ⟨wordV_sync .., by rw [wordV_op]; rfl⟩
theorem Encoding.vmul (ty : VTy) (vd va vb : VReg) (mk : MReg) : Encoding.Statement (.vmul ty vd va vb mk) := by
  rintro y w ⟨⟩; exact ⟨wordV_sync .., by rw [wordV_op]; rfl⟩
theorem Encoding.vmin (ty : VTy) (vd va vb : VReg) (mk : MReg) : Encoding.Statement (.vmin ty vd va vb mk) := by
  rintro y w ⟨⟩; exact ⟨wordV_sync .., by rw [wordV_op]; rfl⟩
theorem Encoding.vmax (ty : VTy) (vd va vb : VReg) (mk : MReg) : Encoding.Statement (.vmax ty vd va vb mk) := by
  rintro y w ⟨⟩; exact ⟨wordV_sync .., by rw [wordV_op]; rfl⟩
theorem Encoding.vcpysgn (ty : VTy) (vd va vb : VReg) (mk : MReg) : Encoding.Statement (.vcpysgn ty vd va vb mk) := by
  rintro y w ⟨⟩; exact ⟨wordV_sync .., by rw [wordV_op]; rfl⟩
theorem Encoding.vfma (ty : VTy) (vd va vb vc : VReg) (mk : MReg) : Encoding.Statement (.vfma ty vd va vb vc mk) := by
  rintro y w ⟨⟩; exact ⟨wordV_sync .., by rw [wordV_op]; rfl⟩
theorem Encoding.vfms (ty : VTy) (vd va vb vc : VReg) (mk : MReg) : Encoding.Statement (.vfms ty vd va vb vc mk) := by
  rintro y w ⟨⟩; exact ⟨wordV_sync .., by rw [wordV_op]; rfl⟩
theorem Encoding.vfnma (ty : VTy) (vd va vb vc : VReg) (mk : MReg) : Encoding.Statement (.vfnma ty vd va vb vc mk) := by
  rintro y w ⟨⟩; exact ⟨wordV_sync .., by rw [wordV_op]; rfl⟩
theorem Encoding.vabs (ty : VTy) (vd va : VReg) (mk : MReg) : Encoding.Statement (.vabs ty vd va mk) := by
  rintro y w ⟨⟩; exact ⟨wordV_sync .., by rw [wordV_op]; rfl⟩
theorem Encoding.vneg (ty : VTy) (vd va : VReg) (mk : MReg) : Encoding.Statement (.vneg ty vd va mk) := by
  rintro y w ⟨⟩; exact ⟨wordV_sync .., by rw [wordV_op]; rfl⟩
theorem Encoding.vclass (ty : VTy) (vd va : VReg) (mk : MReg) : Encoding.Statement (.vclass ty vd va mk) := by
  rintro y w ⟨⟩; exact ⟨wordV_sync .., by rw [wordV_op]; rfl⟩
theorem Encoding.vrcp (ty : VTy) (vd va : VReg) (mk : MReg) : Encoding.Statement (.vrcp ty vd va mk) := by
  rintro y w ⟨⟩; exact ⟨wordV_sync .., by rw [wordV_op]; rfl⟩
theorem Encoding.vrsq (ty : VTy) (vd va : VReg) (mk : MReg) : Encoding.Statement (.vrsq ty vd va mk) := by
  rintro y w ⟨⟩; exact ⟨wordV_sync .., by rw [wordV_op]; rfl⟩
theorem Encoding.vsqrt (ty : VTy) (vd va : VReg) (mk : MReg) : Encoding.Statement (.vsqrt ty vd va mk) := by
  rintro y w ⟨⟩; exact ⟨wordV_sync .., by rw [wordV_op]; rfl⟩
theorem Encoding.vexp2 (ty : VTy) (vd va : VReg) (mk : MReg) : Encoding.Statement (.vexp2 ty vd va mk) := by
  rintro y w ⟨⟩; exact ⟨wordV_sync .., by rw [wordV_op]; rfl⟩
theorem Encoding.vlog2 (ty : VTy) (vd va : VReg) (mk : MReg) : Encoding.Statement (.vlog2 ty vd va mk) := by
  rintro y w ⟨⟩; exact ⟨wordV_sync .., by rw [wordV_op]; rfl⟩
theorem Encoding.vtanh (ty : VTy) (vd va : VReg) (mk : MReg) : Encoding.Statement (.vtanh ty vd va mk) := by
  rintro y w ⟨⟩; exact ⟨wordV_sync .., by rw [wordV_op]; rfl⟩
theorem Encoding.vcmp (c : VCond) (ty : VTy) (md : MReg) (va vb : VReg) (mk : MReg) : Encoding.Statement (.vcmp c ty md va vb mk) := by
  rintro y w ⟨⟩; exact ⟨wordV_sync .., by rw [wordV_op]; rfl⟩
theorem Encoding.viadd (ty : VTy) (vd va vb : VReg) (mk : MReg) : Encoding.Statement (.viadd ty vd va vb mk) := by
  rintro y w ⟨⟩; exact ⟨wordV_sync .., by rw [wordV_op]; rfl⟩
theorem Encoding.visub (ty : VTy) (vd va vb : VReg) (mk : MReg) : Encoding.Statement (.visub ty vd va vb mk) := by
  rintro y w ⟨⟩; exact ⟨wordV_sync .., by rw [wordV_op]; rfl⟩
theorem Encoding.vimul (ty : VTy) (vd va vb : VReg) (mk : MReg) : Encoding.Statement (.vimul ty vd va vb mk) := by
  rintro y w ⟨⟩; exact ⟨wordV_sync .., by rw [wordV_op]; rfl⟩
theorem Encoding.vimulh (ty : VTy) (vd va vb : VReg) (mk : MReg) : Encoding.Statement (.vimulh ty vd va vb mk) := by
  rintro y w ⟨⟩; exact ⟨wordV_sync .., by rw [wordV_op]; rfl⟩
theorem Encoding.vimin (ty : VTy) (vd va vb : VReg) (mk : MReg) : Encoding.Statement (.vimin ty vd va vb mk) := by
  rintro y w ⟨⟩; exact ⟨wordV_sync .., by rw [wordV_op]; rfl⟩
theorem Encoding.vimax (ty : VTy) (vd va vb : VReg) (mk : MReg) : Encoding.Statement (.vimax ty vd va vb mk) := by
  rintro y w ⟨⟩; exact ⟨wordV_sync .., by rw [wordV_op]; rfl⟩
theorem Encoding.vshl (ty : VTy) (vd va vb : VReg) (mk : MReg) : Encoding.Statement (.vshl ty vd va vb mk) := by
  rintro y w ⟨⟩; exact ⟨wordV_sync .., by rw [wordV_op]; rfl⟩
theorem Encoding.vshr (ty : VTy) (vd va vb : VReg) (mk : MReg) : Encoding.Statement (.vshr ty vd va vb mk) := by
  rintro y w ⟨⟩; exact ⟨wordV_sync .., by rw [wordV_op]; rfl⟩
theorem Encoding.vsar (ty : VTy) (vd va vb : VReg) (mk : MReg) : Encoding.Statement (.vsar ty vd va vb mk) := by
  rintro y w ⟨⟩; exact ⟨wordV_sync .., by rw [wordV_op]; rfl⟩
theorem Encoding.vrotl (ty : VTy) (vd va vb : VReg) (mk : MReg) : Encoding.Statement (.vrotl ty vd va vb mk) := by
  rintro y w ⟨⟩; exact ⟨wordV_sync .., by rw [wordV_op]; rfl⟩
theorem Encoding.vand (ty : VTy) (vd va vb : VReg) (mk : MReg) : Encoding.Statement (.vand ty vd va vb mk) := by
  rintro y w ⟨⟩; exact ⟨wordV_sync .., by rw [wordV_op]; rfl⟩
theorem Encoding.vor (ty : VTy) (vd va vb : VReg) (mk : MReg) : Encoding.Statement (.vor ty vd va vb mk) := by
  rintro y w ⟨⟩; exact ⟨wordV_sync .., by rw [wordV_op]; rfl⟩
theorem Encoding.vxor (ty : VTy) (vd va vb : VReg) (mk : MReg) : Encoding.Statement (.vxor ty vd va vb mk) := by
  rintro y w ⟨⟩; exact ⟨wordV_sync .., by rw [wordV_op]; rfl⟩
theorem Encoding.vimad (ty : VTy) (vd va vb vc : VReg) (mk : MReg) : Encoding.Statement (.vimad ty vd va vb vc mk) := by
  rintro y w ⟨⟩; exact ⟨wordV_sync .., by rw [wordV_op]; rfl⟩
theorem Encoding.vfshl (ty : VTy) (vd va vb vc : VReg) (mk : MReg) : Encoding.Statement (.vfshl ty vd va vb vc mk) := by
  rintro y w ⟨⟩; exact ⟨wordV_sync .., by rw [wordV_op]; rfl⟩
theorem Encoding.vfshr (ty : VTy) (vd va vb vc : VReg) (mk : MReg) : Encoding.Statement (.vfshr ty vd va vb vc mk) := by
  rintro y w ⟨⟩; exact ⟨wordV_sync .., by rw [wordV_op]; rfl⟩
theorem Encoding.vlop3 (ty : VTy) (vd va vb vc : VReg) (tt : BitVec 8) (mk : MReg) : Encoding.Statement (.vlop3 ty vd va vb vc tt mk) := by
  rintro y w ⟨⟩; exact ⟨wordV_sync .., by rw [wordV_op]; rfl⟩
theorem Encoding.vpopc (ty : VTy) (vd va : VReg) (mk : MReg) : Encoding.Statement (.vpopc ty vd va mk) := by
  rintro y w ⟨⟩; exact ⟨wordV_sync .., by rw [wordV_op]; rfl⟩
theorem Encoding.vclz (ty : VTy) (vd va : VReg) (mk : MReg) : Encoding.Statement (.vclz ty vd va mk) := by
  rintro y w ⟨⟩; exact ⟨wordV_sync .., by rw [wordV_op]; rfl⟩
theorem Encoding.vcvt (dst src : VTy) (vd va : VReg) (mk : MReg) : Encoding.Statement (.vcvt dst src vd va mk) := by
  rintro y w ⟨⟩; exact ⟨wordV_sync .., by rw [wordV_op]; rfl⟩
theorem Encoding.vpack (dst src : VTy) (vd va vb : VReg) (mk : MReg) : Encoding.Statement (.vpack dst src vd va vb mk) := by
  rintro y w ⟨⟩; exact ⟨wordV_sync .., by rw [wordV_op]; rfl⟩
theorem Encoding.vunpack (dst src : VTy) (vd va : VReg) (mk : MReg) : Encoding.Statement (.vunpack dst src vd va mk) := by
  rintro y w ⟨⟩; exact ⟨wordV_sync .., by rw [wordV_op]; rfl⟩
theorem Encoding.vmxq (fmt : MxFmt) (ty : VTy) (vd va : VReg) (sb : SReg) (mk : MReg) : Encoding.Statement (.vmxq fmt ty vd va sb mk) := by
  rintro y w ⟨⟩; exact ⟨wordV_sync .., by rw [wordV_op]; rfl⟩
theorem Encoding.vmxd (fmt : MxFmt) (ty : VTy) (vd va : VReg) (sb : SReg) (mk : MReg) : Encoding.Statement (.vmxd fmt ty vd va sb mk) := by
  rintro y w ⟨⟩; exact ⟨wordV_sync .., by rw [wordV_op]; rfl⟩
theorem Encoding.vsel (vd va vb : VReg) (mk : MReg) : Encoding.Statement (.vsel vd va vb mk) := by
  rintro y w ⟨⟩; exact ⟨wordV_sync .., by rw [wordV_op]; rfl⟩
theorem Encoding.mand (md ma mb : MReg) (mk : MReg) : Encoding.Statement (.mand md ma mb mk) := by
  rintro y w ⟨⟩; exact ⟨wordV_sync .., by rw [wordV_op]; rfl⟩
theorem Encoding.mor (md ma mb : MReg) (mk : MReg) : Encoding.Statement (.mor md ma mb mk) := by
  rintro y w ⟨⟩; exact ⟨wordV_sync .., by rw [wordV_op]; rfl⟩
theorem Encoding.mxor (md ma mb : MReg) (mk : MReg) : Encoding.Statement (.mxor md ma mb mk) := by
  rintro y w ⟨⟩; exact ⟨wordV_sync .., by rw [wordV_op]; rfl⟩
theorem Encoding.mnot (md ma : MReg) (mk : MReg) : Encoding.Statement (.mnot md ma mk) := by
  rintro y w ⟨⟩; exact ⟨wordV_sync .., by rw [wordV_op]; rfl⟩
theorem Encoding.mpopc (sd : SReg) (ma : MReg) (mk : MReg) : Encoding.Statement (.mpopc sd ma mk) := by
  rintro y w ⟨⟩; exact ⟨wordV_sync .., by rw [wordV_op]; rfl⟩
theorem Encoding.mfirst (sd : SReg) (ma : MReg) (mk : MReg) : Encoding.Statement (.mfirst sd ma mk) := by
  rintro y w ⟨⟩; exact ⟨wordV_sync .., by rw [wordV_op]; rfl⟩
theorem Encoding.vmov (vd va : VReg) (mk : MReg) : Encoding.Statement (.vmov vd va mk) := by
  rintro y w ⟨⟩; exact ⟨wordV_sync .., by rw [wordV_op]; rfl⟩
theorem Encoding.vmovs (vd va : VReg) (sb : SReg) (mk : MReg) : Encoding.Statement (.vmovs vd va sb mk) := by
  rintro y w ⟨⟩; exact ⟨wordV_sync .., by rw [wordV_op]; rfl⟩
theorem Encoding.vext (sd : SReg) (va : VReg) (idx : BitVec 12) (mk : MReg) : Encoding.Statement (.vext sd va idx mk) := by
  rintro y w ⟨⟩; exact ⟨wordV_sync .., by rw [wordV_op]; rfl⟩
theorem Encoding.vins (vd va : VReg) (sb : SReg) (idx : BitVec 12) (mk : MReg) : Encoding.Statement (.vins vd va sb idx mk) := by
  rintro y w ⟨⟩; exact ⟨wordV_sync .., by rw [wordV_op]; rfl⟩
theorem Encoding.vmovi (ty : VTy) (vd : VReg) (imm : BitVec 32) (mk : MReg) : Encoding.Statement (.vmovi ty vd imm mk) := by
  rintro y w ⟨⟩; exact ⟨wordW_sync .., by rw [wordW_op]; rfl⟩
theorem Encoding.vrotr (ty : VTy) (vd va : VReg) (k : BitVec 8) (mk : MReg) : Encoding.Statement (.vrotr ty vd va k mk) := by
  rintro y w ⟨⟩; exact ⟨wordV_sync .., by rw [wordV_op]; rfl⟩
theorem Encoding.vbcr (ty : VTy) (vd va : VReg) (c : BitVec 8) (mk : MReg) : Encoding.Statement (.vbcr ty vd va c mk) := by
  rintro y w ⟨⟩; exact ⟨wordV_sync .., by rw [wordV_op]; rfl⟩
theorem Encoding.vredr (op : RedOp) (ty : VTy) (vd va : VReg) (mk : MReg) : Encoding.Statement (.vredr op ty vd va mk) := by
  rintro y w ⟨⟩; exact ⟨wordV_sync .., by rw [wordV_op]; rfl⟩
theorem Encoding.vscanr (op : RedOp) (ty : VTy) (vd va : VReg) (mk : MReg) : Encoding.Statement (.vscanr op ty vd va mk) := by
  rintro y w ⟨⟩; exact ⟨wordV_sync .., by rw [wordV_op]; rfl⟩
theorem Encoding.vrotc (ty : VTy) (vd va : VReg) (k : BitVec 8) (mk : MReg) : Encoding.Statement (.vrotc ty vd va k mk) := by
  rintro y w ⟨⟩; exact ⟨wordV_sync .., by rw [wordV_op]; rfl⟩
theorem Encoding.vbcc (ty : VTy) (vd va : VReg) (r : BitVec 8) (mk : MReg) : Encoding.Statement (.vbcc ty vd va r mk) := by
  rintro y w ⟨⟩; exact ⟨wordV_sync .., by rw [wordV_op]; rfl⟩
theorem Encoding.vredc (op : RedOp) (ty : VTy) (vd va : VReg) (mk : MReg) : Encoding.Statement (.vredc op ty vd va mk) := by
  rintro y w ⟨⟩; exact ⟨wordV_sync .., by rw [wordV_op]; rfl⟩
theorem Encoding.vtrn (vd va : VReg) (mk : MReg) : Encoding.Statement (.vtrn vd va mk) := by
  rintro y w ⟨⟩; exact ⟨wordV_sync .., by rw [wordV_op]; rfl⟩
theorem Encoding.vperm (vd va vb : VReg) (mk : MReg) : Encoding.Statement (.vperm vd va vb mk) := by
  rintro y w ⟨⟩; exact ⟨wordV_sync .., by rw [wordV_op]; rfl⟩
theorem Encoding.vcompress (vd va : VReg) (sc : SReg) (mk : MReg) : Encoding.Statement (.vcompress vd va sc mk) := by
  rintro y w ⟨⟩; exact ⟨wordV_sync .., by rw [wordV_op]; rfl⟩
theorem Encoding.vexpand (vd va : VReg) (mk : MReg) : Encoding.Statement (.vexpand vd va mk) := by
  rintro y w ⟨⟩; exact ⟨wordV_sync .., by rw [wordV_op]; rfl⟩
theorem Encoding.vld (ord : MemOrder) (ls : ListIx) (vd : VReg) (sa : SReg) (off : BitVec 14) (mk : MReg) : Encoding.Statement (.vld ord ls vd sa off mk) := by
  rintro y w ⟨⟩; exact ⟨wordL_sync .., by rw [wordL_op]; rfl⟩
theorem Encoding.vst (ord : MemOrder) (ls : ListIx) (vd : VReg) (sa : SReg) (off : BitVec 14) (mk : MReg) : Encoding.Statement (.vst ord ls vd sa off mk) := by
  rintro y w ⟨⟩; exact ⟨wordL_sync .., by rw [wordL_op]; rfl⟩
theorem Encoding.vldb (ord : MemOrder) (ls : ListIx) (vd : VReg) (sa : SReg) (off : BitVec 14) (mk : MReg) : Encoding.Statement (.vldb ord ls vd sa off mk) := by
  rintro y w ⟨⟩; exact ⟨wordL_sync .., by rw [wordL_op]; rfl⟩
theorem Encoding.vlds (ord : MemOrder) (ls : ListIx) (vd : VReg) (sa sb : SReg) (off : BitVec 14) (mk : MReg) : Encoding.Statement (.vlds ord ls vd sa sb off mk) := by
  rintro y w ⟨⟩; exact ⟨wordL_sync .., by rw [wordL_op]; rfl⟩
theorem Encoding.vsts (ord : MemOrder) (ls : ListIx) (vd : VReg) (sa sb : SReg) (off : BitVec 14) (mk : MReg) : Encoding.Statement (.vsts ord ls vd sa sb off mk) := by
  rintro y w ⟨⟩; exact ⟨wordL_sync .., by rw [wordL_op]; rfl⟩
theorem Encoding.vgath (ord : MemOrder) (ls : ListIx) (vd vb : VReg) (sa : SReg) (mk : MReg) : Encoding.Statement (.vgath ord ls vd vb sa mk) := by
  rintro y w ⟨⟩; exact ⟨wordL_sync .., by rw [wordL_op]; rfl⟩
theorem Encoding.vscat (ord : MemOrder) (ls : ListIx) (vd vb : VReg) (sa : SReg) (mk : MReg) : Encoding.Statement (.vscat ord ls vd vb sa mk) := by
  rintro y w ⟨⟩; exact ⟨wordL_sync .., by rw [wordL_op]; rfl⟩
theorem Encoding.accld (cv : Bool) (vd : VReg) (tl sl : BitVec 4) : Encoding.Statement (.accld cv vd tl sl) := by
  rintro y w ⟨⟩; exact ⟨wordC_sync .., by rw [wordC_op]; rfl⟩
theorem Encoding.accst (vd : VReg) (tl sl : BitVec 4) : Encoding.Statement (.accst vd tl sl) := by
  rintro y w ⟨⟩; exact ⟨wordC_sync .., by rw [wordC_op]; rfl⟩
theorem Encoding.accz (tl : BitVec 4) : Encoding.Statement (.accz tl) := by
  rintro y w ⟨⟩; exact ⟨wordC_sync .., by rw [wordC_op]; rfl⟩
theorem Encoding.accwait (n : BitVec 6) : Encoding.Statement (.accwait n) := by
  rintro y w ⟨⟩; exact ⟨wordC_sync .., by rw [wordC_op]; rfl⟩
theorem Encoding.menq (sa : SReg) (imm : BitVec 20) : Encoding.Statement (.menq sa imm) := by
  rintro y w ⟨⟩; exact ⟨wordQ_sync .., by rw [wordQ_op]; rfl⟩
theorem Encoding.cenq (q : Queue) (sa : SReg) (imm : BitVec 20) : Encoding.Statement (.cenq q sa imm) := by
  rintro y w ⟨⟩; exact ⟨wordQ_sync .., by rw [wordQ_op]; rfl⟩
theorem Encoding.qjoin (q : Queue) (sa : SReg) (imm : BitVec 20) : Encoding.Statement (.qjoin q sa imm) := by
  rintro y w ⟨⟩; exact ⟨wordQ_sync .., by rw [wordQ_op]; rfl⟩
theorem Encoding.slate (n : BitVec 8) : Encoding.Statement (.slate n) := by
  rintro y w ⟨⟩; exact ⟨wordQ_sync .., by rw [wordQ_op]; rfl⟩
theorem Encoding.qstat (sd : SReg) (q : Queue) : Encoding.Statement (.qstat sd q) := by
  rintro y w ⟨⟩; exact ⟨wordQ_sync .., by rw [wordQ_op]; rfl⟩
theorem Encoding.rendezvous (core : Nat) (addr : Word) : Encoding.Statement (.rendezvous core addr) := by
  rintro y w ⟨⟩
theorem Encoding.trapEntry (core : Nat) : Encoding.Statement (.trapEntry core) := by
  rintro y w ⟨⟩
theorem Encoding.loadReturn (core : Nat) : Encoding.Statement (.loadReturn core) := by
  rintro y w ⟨⟩
theorem Encoding.vectorLoadReturn (core : Nat) : Encoding.Statement (.vectorLoadReturn core) := by
  rintro y w ⟨⟩
theorem Encoding.accMovePerformed (core pos : Nat) : Encoding.Statement (.accMovePerformed core pos) := by
  rintro y w ⟨⟩
theorem Encoding.semaphoreAdd (sig : Signal) : Encoding.Statement (.semaphoreAdd sig) := by
  rintro y w ⟨⟩
theorem Encoding.barrierAnswer (core : Nat) : Encoding.Statement (.barrierAnswer core) := by
  rintro y w ⟨⟩
theorem Encoding.clsetComplete (part : Nat) (entry : ListIx) : Encoding.Statement (.clsetComplete part entry) := by
  rintro y w ⟨⟩
theorem Encoding.holderRead (p : Party) (pa : BitVec 52) : Encoding.Statement (.holderRead p pa) := by
  rintro y w ⟨⟩
theorem Encoding.holderWrite (p : Party) (pa : BitVec 52) (w : Word) (release : Bool) : Encoding.Statement (.holderWrite p pa w release) := by
  rintro y w ⟨⟩
theorem Encoding.partialStoreMerge (p : Party) (pa : BitVec 52) (n : Word) (mask : BitVec 8) (release : Bool) : Encoding.Statement (.partialStoreMerge p pa n mask release) := by
  rintro y w ⟨⟩
theorem Encoding.llcEviction (line : Nat) : Encoding.Statement (.llcEviction line) := by
  rintro y w ⟨⟩
theorem Encoding.pagePin (p : Party) (va : Word) (kind : AccessKind) : Encoding.Statement (.pagePin p va kind) := by
  rintro y w ⟨⟩
theorem Encoding.translationWalk (p : Party) (va : Word) (kind : AccessKind) : Encoding.Statement (.translationWalk p va kind) := by
  rintro y w ⟨⟩
theorem Encoding.sealRefetch (p : Party) : Encoding.Statement (.sealRefetch p) := by
  rintro y w ⟨⟩
theorem Encoding.contextLoss (part : Nat) (loss : Loss) : Encoding.Statement (.contextLoss part loss) := by
  rintro y w ⟨⟩
theorem Encoding.timingDetection (core stage lane : Nat) : Encoding.Statement (.timingDetection core stage lane) := by
  rintro y w ⟨⟩
theorem Encoding.mma (core : Nat) : Encoding.Statement (.mma core) := by
  rintro y w ⟨⟩
theorem Encoding.mgrp (core : Nat) : Encoding.Statement (.mgrp core) := by
  rintro y w ⟨⟩
theorem Encoding.wpre (core : Nat) : Encoding.Statement (.wpre core) := by
  rintro y w ⟨⟩
theorem Encoding.wswap (core : Nat) : Encoding.Statement (.wswap core) := by
  rintro y w ⟨⟩
theorem Encoding.mchain (core : Nat) : Encoding.Statement (.mchain core) := by
  rintro y w ⟨⟩
theorem Encoding.copyRecord (core : Nat) (q : Queue) : Encoding.Statement (.copyRecord core q) := by
  rintro y w ⟨⟩
theorem Encoding.fill (core : Nat) (q : Queue) : Encoding.Statement (.fill core q) := by
  rintro y w ⟨⟩
theorem Encoding.scalefeed (core : Nat) (q : Queue) : Encoding.Statement (.scalefeed core q) := by
  rintro y w ⟨⟩
theorem Encoding.wbfill (core : Nat) (q : Queue) : Encoding.Statement (.wbfill core q) := by
  rintro y w ⟨⟩
theorem Encoding.join (core : Nat) (q : Queue) : Encoding.Statement (.join core q) := by
  rintro y w ⟨⟩
theorem Encoding.recordWaitSatisfied (core : Nat) (q : Queue) : Encoding.Statement (.recordWaitSatisfied core q) := by
  rintro y w ⟨⟩
theorem Encoding.leaveGrant (cluster : Nat) : Encoding.Statement (.leaveGrant cluster) := by
  rintro y w ⟨⟩
theorem Encoding.preloadDelivery (core : Nat) : Encoding.Statement (.preloadDelivery core) := by
  rintro y w ⟨⟩
theorem Encoding.kstepCommit (core : Nat) : Encoding.Statement (.kstepCommit core) := by
  rintro y w ⟨⟩
theorem Encoding.recordPerformed (core : Nat) (q : Queue) : Encoding.Statement (.recordPerformed core q) := by
  rintro y w ⟨⟩
theorem Encoding.cycleBoundOverrun (core : Nat) (q : Queue) : Encoding.Statement (.cycleBoundOverrun core q) := by
  rintro y w ⟨⟩
theorem Encoding.shotReplay (core : Nat) : Encoding.Statement (.shotReplay core) := by
  rintro y w ⟨⟩
theorem Encoding.dispatchStep (part : Nat) : Encoding.Statement (.dispatchStep part) := by
  rintro y w ⟨⟩
theorem Encoding.nodeComplete (part node : Nat) : Encoding.Statement (.nodeComplete part node) := by
  rintro y w ⟨⟩
theorem Encoding.tspawnAccept (core : Nat) : Encoding.Statement (.tspawnAccept core) := by
  rintro y w ⟨⟩
theorem Encoding.residentLimitOverrun (core : Nat) : Encoding.Statement (.residentLimitOverrun core) := by
  rintro y w ⟨⟩
theorem Encoding.clapperReport (part device : Nat) (ready : Bool) : Encoding.Statement (.clapperReport part device ready) := by
  rintro y w ⟨⟩
theorem Encoding.clapperStart (part : ClapperStart) : Encoding.Statement (.clapperStart part) := by
  rintro y w ⟨⟩
theorem Encoding.clapperAbort (part : ClapperAbort) : Encoding.Statement (.clapperAbort part) := by
  rintro y w ⟨⟩
theorem Encoding.doorbell (part ring : Nat) (x : Word) : Encoding.Statement (.doorbell part ring x) := by
  rintro y w ⟨⟩
theorem Encoding.enable (part ring : Nat) (x : Word) : Encoding.Statement (.enable part ring x) := by
  rintro y w ⟨⟩
theorem Encoding.ringReset (part ring : Nat) : Encoding.Statement (.ringReset part ring) := by
  rintro y w ⟨⟩
theorem Encoding.endPacket (part ring : Nat) : Encoding.Statement (.endPacket part ring) := by
  rintro y w ⟨⟩
theorem Encoding.ringFetch (part ring : Nat) : Encoding.Statement (.ringFetch part ring) := by
  rintro y w ⟨⟩
theorem Encoding.nopPacket (part ring : Nat) : Encoding.Statement (.nopPacket part ring) := by
  rintro y w ⟨⟩
theorem Encoding.launch (part : Nat) (ring : LaunchSource) : Encoding.Statement (.launch part ring) := by
  rintro y w ⟨⟩
theorem Encoding.launchSlotGrant (part : Nat) : Encoding.Statement (.launchSlotGrant part) := by
  rintro y w ⟨⟩
theorem Encoding.invoke (part ring : Nat) : Encoding.Statement (.invoke part ring) := by
  rintro y w ⟨⟩
theorem Encoding.copyPacket (part ring : Nat) : Encoding.Statement (.copyPacket part ring) := by
  rintro y w ⟨⟩
theorem Encoding.waitPacket (part ring : Nat) : Encoding.Statement (.waitPacket part ring) := by
  rintro y w ⟨⟩
theorem Encoding.signalPacket (part ring : Nat) : Encoding.Statement (.signalPacket part ring) := by
  rintro y w ⟨⟩
theorem Encoding.clupdate (part ring : Nat) : Encoding.Statement (.clupdate part ring) := by
  rintro y w ⟨⟩
theorem Encoding.pholeClaim (part ring : Nat) : Encoding.Statement (.pholeClaim part ring) := by
  rintro y w ⟨⟩
theorem Encoding.pholeLoad (part ring : Nat) : Encoding.Statement (.pholeLoad part ring) := by
  rintro y w ⟨⟩
theorem Encoding.pholeDrop (part ring : Nat) : Encoding.Statement (.pholeDrop part ring) := by
  rintro y w ⟨⟩
theorem Encoding.pholeRebase (part ring : Nat) : Encoding.Statement (.pholeRebase part ring) := by
  rintro y w ⟨⟩
theorem Encoding.barrierPacket (part ring : Nat) : Encoding.Statement (.barrierPacket part ring) := by
  rintro y w ⟨⟩
theorem Encoding.completionRecord (part : Nat) : Encoding.Statement (.completionRecord part) := by
  rintro y w ⟨⟩
theorem Encoding.cri (part : Nat) (x : Word) : Encoding.Statement (.cri part x) := by
  rintro y w ⟨⟩
theorem Encoding.presume (part : Nat) (x : Word) : Encoding.Statement (.presume part x) := by
  rintro y w ⟨⟩
theorem Encoding.hresume (x : Word) : Encoding.Statement (.hresume x) := by
  rintro y w ⟨⟩
theorem Encoding.hresumeDiscard (x : Word) : Encoding.Statement (.hresumeDiscard x) := by
  rintro y w ⟨⟩
theorem Encoding.create (part : Nat) : Encoding.Statement (.create part) := by
  rintro y w ⟨⟩
theorem Encoding.resize (part : Nat) (force : Bool) : Encoding.Statement (.resize part force) := by
  rintro y w ⟨⟩
theorem Encoding.clusterRemoval (part : Nat) : Encoding.Statement (.clusterRemoval part) := by
  rintro y w ⟨⟩
theorem Encoding.destroy (part : Nat) : Encoding.Statement (.destroy part) := by
  rintro y w ⟨⟩
theorem Encoding.lend (part : Nat) (force : Bool) : Encoding.Statement (.lend part force) := by
  rintro y w ⟨⟩
theorem Encoding.revoke (part : Nat) : Encoding.Statement (.revoke part) := by
  rintro y w ⟨⟩
theorem Encoding.revokeSaveTimeout (part core : Nat) : Encoding.Statement (.revokeSaveTimeout part core) := by
  rintro y w ⟨⟩
theorem Encoding.mlend (part : Nat) (x : Word) : Encoding.Statement (.mlend part x) := by
  rintro y w ⟨⟩
theorem Encoding.budgetWord (part vcluster : Nat) (x : Word) : Encoding.Statement (.budgetWord part vcluster x) := by
  rintro y w ⟨⟩
theorem Encoding.s1inv (part : Nat) (x : Word) : Encoding.Statement (.s1inv part x) := by
  rintro y w ⟨⟩
theorem Encoding.s2inv (part : Nat) (x : Word) : Encoding.Statement (.s2inv part x) := by
  rintro y w ⟨⟩
theorem Encoding.invalidationComplete (part : Nat) (stage : Stage) : Encoding.Statement (.invalidationComplete part stage) := by
  rintro y w ⟨⟩
theorem Encoding.vfstate (part : Nat) (x : Word) : Encoding.Statement (.vfstate part x) := by
  rintro y w ⟨⟩
theorem Encoding.functionLevelReset (part : Nat) : Encoding.Statement (.functionLevelReset part) := by
  rintro y w ⟨⟩
theorem Encoding.stopRequest (core : Nat) (deadline : Nat) : Encoding.Statement (.stopRequest core deadline) := by
  rintro y w ⟨⟩
theorem Encoding.softStop (core : Nat) : Encoding.Statement (.softStop core) := by
  rintro y w ⟨⟩
theorem Encoding.hardStop (core : Nat) : Encoding.Statement (.hardStop core) := by
  rintro y w ⟨⟩
theorem Encoding.stopSave (core : Nat) : Encoding.Statement (.stopSave core) := by
  rintro y w ⟨⟩
theorem Encoding.memberResume (core : Nat) : Encoding.Statement (.memberResume core) := by
  rintro y w ⟨⟩
theorem Encoding.pause (part : Nat) : Encoding.Statement (.pause part) := by
  rintro y w ⟨⟩
theorem Encoding.resume (part : Nat) : Encoding.Statement (.resume part) := by
  rintro y w ⟨⟩
theorem Encoding.go (channel : Nat) : Encoding.Statement (.go channel) := by
  rintro y w ⟨⟩
theorem Encoding.abort (channel : Nat) : Encoding.Statement (.abort channel) := by
  rintro y w ⟨⟩
theorem Encoding.channelCopyDone (channel : Nat) : Encoding.Statement (.channelCopyDone channel) := by
  rintro y w ⟨⟩
theorem Encoding.fabricAccess (r : FabricRequest) : Encoding.Statement (.fabricAccess r) := by
  rintro y w ⟨⟩
theorem Encoding.linkTraining (device : Nat) (master : Option Word) : Encoding.Statement (.linkTraining device master) := by
  rintro y w ⟨⟩
theorem Encoding.timebaseCorrection (master : Word) : Encoding.Statement (.timebaseCorrection master) := by
  rintro y w ⟨⟩
theorem Encoding.limiterTransferStart (part : Nat) (which : Limiter) (n : Nat) : Encoding.Statement (.limiterTransferStart part which n) := by
  rintro y w ⟨⟩
theorem Encoding.energyPeriodEnd (part : Nat) : Encoding.Statement (.energyPeriodEnd part) := by
  rintro y w ⟨⟩
theorem Encoding.point (cluster : Nat) (x : Word) : Encoding.Statement (.point cluster x) := by
  rintro y w ⟨⟩
theorem Encoding.pointChangeComplete (cluster : Nat) : Encoding.Statement (.pointChangeComplete cluster) := by
  rintro y w ⟨⟩
theorem Encoding.voltageLoop (cluster : Nat) : Encoding.Statement (.voltageLoop cluster) := by
  rintro y w ⟨⟩
theorem Encoding.cadenceStep (cluster : Nat) (raise : Bool) : Encoding.Statement (.cadenceStep cluster raise) := by
  rintro y w ⟨⟩
theorem Encoding.currentClamp (cluster : Nat) : Encoding.Statement (.currentClamp cluster) := by
  rintro y w ⟨⟩
theorem Encoding.thermalTrip (cluster : Nat) : Encoding.Statement (.thermalTrip cluster) := by
  rintro y w ⟨⟩
theorem Encoding.thermalTripClear (cluster : Nat) : Encoding.Statement (.thermalTripClear cluster) := by
  rintro y w ⟨⟩
theorem Encoding.repeatMode (x : Word) : Encoding.Statement (.repeatMode x) := by
  rintro y w ⟨⟩
theorem Encoding.firmwareHeartbeat : Encoding.Statement (.firmwareHeartbeat) := by
  rintro y w ⟨⟩
theorem Encoding.heartbeatTimeout : Encoding.Statement (.heartbeatTimeout) := by
  rintro y w ⟨⟩
theorem Encoding.coldReset : Encoding.Statement (.coldReset) := by
  rintro y w ⟨⟩
theorem Encoding.hotReset : Encoding.Statement (.hotReset) := by
  rintro y w ⟨⟩
theorem Encoding.vfEnableClear (x : VfEnable) : Encoding.Statement (.vfEnableClear x) := by
  rintro y w ⟨⟩
theorem Encoding.mbctlCopyB (kind : BitVec 8) : Encoding.Statement (.mbctlCopyB kind) := by
  rintro y w ⟨⟩
theorem Encoding.mbctlCopyA (kind : BitVec 8) : Encoding.Statement (.mbctlCopyA kind) := by
  rintro y w ⟨⟩
theorem Encoding.repairTableWrite (core k : Nat) (x : Word) : Encoding.Statement (.repairTableWrite core k x) := by
  rintro y w ⟨⟩
theorem Encoding.reparm (core : Nat) : Encoding.Statement (.reparm core) := by
  rintro y w ⟨⟩
theorem Encoding.repinj (core : Nat) (x : Word) : Encoding.Statement (.repinj core x) := by
  rintro y w ⟨⟩
theorem Encoding.repairTimeout (core : Nat) : Encoding.Statement (.repairTimeout core) := by
  rintro y w ⟨⟩
theorem Encoding.spdmGetVersion : Encoding.Statement (.spdmGetVersion) := by
  rintro y w ⟨⟩
theorem Encoding.spdmGetCapabilities : Encoding.Statement (.spdmGetCapabilities) := by
  rintro y w ⟨⟩
theorem Encoding.spdmNegotiateAlgorithms : Encoding.Statement (.spdmNegotiateAlgorithms) := by
  rintro y w ⟨⟩
theorem Encoding.spdmGetDigests : Encoding.Statement (.spdmGetDigests) := by
  rintro y w ⟨⟩
theorem Encoding.spdmGetCertificate (offset : SlotRequest Nat) (length : Nat) : Encoding.Statement (.spdmGetCertificate offset length) := by
  rintro y w ⟨⟩
theorem Encoding.spdmChallenge (nonce : SlotRequest (List Byte)) : Encoding.Statement (.spdmChallenge nonce) := by
  rintro y w ⟨⟩
theorem Encoding.spdmGetMeasurements (index : SlotRequest (BitVec 8)) : Encoding.Statement (.spdmGetMeasurements index) := by
  rintro y w ⟨⟩
theorem Encoding.spdmKeyExchange (random : SlotRequest (List Byte)) : Encoding.Statement (.spdmKeyExchange random) := by
  rintro y w ⟨⟩
theorem Encoding.spdmFinish (verifyData : List Byte) : Encoding.Statement (.spdmFinish verifyData) := by
  rintro y w ⟨⟩
theorem Encoding.spdmEndSession : Encoding.Statement (.spdmEndSession) := by
  rintro y w ⟨⟩
theorem Encoding.spdmOtherRequest : Encoding.Statement (.spdmOtherRequest) := by
  rintro y w ⟨⟩
theorem Encoding.kSetGo (x : IdeStream) : Encoding.Statement (.kSetGo x) := by
  rintro y w ⟨⟩
theorem Encoding.pfBar2Access (write : Bool) (offset : Nat) (x : HostWord) (mask : BitVec 8) : Encoding.Statement (.pfBar2Access write offset x mask) := by
  rintro y w ⟨⟩
theorem Encoding.vfBar2Access (part : Nat) (write : Bool) (offset : Nat) (x : HostWord) (mask : BitVec 8) : Encoding.Statement (.vfBar2Access part write offset x mask) := by
  rintro y w ⟨⟩
theorem Encoding.msixVectorUnmask (entry : Nat) : Encoding.Statement (.msixVectorUnmask entry) := by
  rintro y w ⟨⟩
theorem Encoding.registerWrite (f : HostFunction) (offset size : Nat) (x : Word) : Encoding.Statement (.registerWrite f offset size x) := by
  rintro y w ⟨⟩
theorem Encoding.scrubEnd (clusters : BitVec 32) : Encoding.Statement (.scrubEnd clusters) := by
  rintro y w ⟨⟩
theorem Encoding.currentClampEnd (cluster : Nat) : Encoding.Statement (.currentClampEnd cluster) := by
  rintro y w ⟨⟩
theorem Encoding.powerControllerImageUpdate (begin_ : Bool) : Encoding.Statement (.powerControllerImageUpdate begin_) := by
  rintro y w ⟨⟩
theorem Encoding.fabricPortLoss (port : Nat) : Encoding.Statement (.fabricPortLoss port) := by
  rintro y w ⟨⟩

end Sys2Proof.Laws
end

