-- ==== Sys2Proof/Safety.lean ====
section
/-! DEFINITION. What a safe run is, and the words in which claims are stated: what an instruction leaves alone, how a chain
advances, what a result register holds, what a trap records, and the canonical form of every memory of the device. -/

namespace Sys2Proof

/-- A step of the machine is safe when it gives a next state. -/
def Safe (s : Machine.State) : Prop := ∃ t, Machine.step s = .next t

/-- `n` steps in a row are safe. -/
def SafeFor : Nat → Machine.State → Prop
  | 0, _ => True
  | n + 1, s => ∃ t, Machine.step s = .next t ∧ SafeFor n t

namespace Machine

/-! Frames. -/

/-- Nothing differs but core `c`. -/
def OnlyCore (s t : State) (c : Nat) : Prop :=
  { t with cores := s.cores } = s ∧ ∀ k, k ≠ c → t.core k = s.core k

/-- Nothing differs but partition `p`, and what a reading of TIMEBASE moves on: it is read for the records that are made. -/
def PartActs (s t : State) (p : Nat) : Prop :=
  { t with parts := s.parts, timebase := s.timebase, holdUntil := s.holdUntil, fresh := s.fresh } = s ∧
    ∀ k, k ≠ p → t.part k = s.part k

/-- Nothing differs but the acting slot's core, and there but the registers and the acting slot: memory, the core's store,
semaphores, accumulators, queues, the other slots and every other core are as before. -/
def SlotActs (s t : State) : Prop :=
  OnlyCore s t s.cur.core ∧ { t.cc with regs := s.cc.regs, slots := s.cc.slots } = s.cc ∧
    ∀ k, k ≠ s.cur.slot → t.cc.slot k = s.cc.slot k

/-! What the acting slot does. -/

/-- A slot whose chain has advanced by ChainStep with the outcome `b` (R110): what it kept for the bundle that it issued is
used up (R16, R120, R364), and nothing else of the slot differs. -/
def SlotState.chained (x : SlotState) (b : Branch) : SlotState :=
  { x with
    c0 := x.c1, c1 := x.c2, c2 := if b.taken then b.target else x.c2 + 32
    ann0 := x.ann1 || b.annul, ann1 := b.annul
    rww := x.rww && !x.resumed, resumed := false, solo := false, waitHalf := false, clwait := none, snap := none
    redirect := none }

/-- The acting slot's chain has advanced with the outcome `b`, and nothing else of the slot differs. -/
def Chained (s t : State) (b : Branch) : Prop := t.cs = s.cs.chained b

/-- The condition of CND between a and b: eq, ne, lt and ge compare signed, ltu and geu unsigned (R75, R106). -/
def CondTrue (c : Cond) (a b : Word) : Bool :=
  match c with
  | .eq => decide (a = b)
  | .ne => decide (a ≠ b)
  | .lt => decide (a.toInt < b.toInt)
  | .ge => decide (b.toInt ≤ a.toInt)
  | .ltu => decide (a.toNat < b.toNat)
  | .geu => decide (b.toNat ≤ a.toNat)

/-- The outcome of a branch: NUL 01 annuls when it is not taken, NUL 10 when it is (R110). -/
def outcome (nul : Nul) (taken : Bool) (target : Word) : Branch :=
  { taken, target, annul := (decide (nul = .notTaken) && !taken) || (decide (nul = .taken) && taken) }

/-- The scalar registers of `r` with `v` and its taint bit in s[SD]; s0 stays zero and untainted (R19, R20). Nothing else of
the registers differs. -/
def ScalarWritten (r r' : Regs) (sd : SReg) (v : Word) (tt : Bool) : Prop :=
  { r' with s := r.s, taint := r.taint } = r ∧
  (∀ n, r'.sget n = if n = sd ∧ n ≠ 0 then v else r.sget n) ∧
  (∀ n, r'.tget n = if n = sd ∧ n ≠ 0 then tt else r.tget n)

/-- The vector registers of `r` with the elements `f` in v[VD], for the elements 0 to 1,023. -/
def VectorWritten (r r' : Regs) (vd : VReg) (f : Nat → Elem) : Prop :=
  { r' with v := r.v } = r ∧
  (∀ e, e < 1024 → (r'.vget vd.toNat).get e = f e) ∧
  (∀ n, n ≠ vd.toNat → r'.vget n = r.vget n)

/-- The mask registers of `r` with the bits `f` in m[MD]; m0 stays all ones (R19). -/
def MaskWritten (r r' : Regs) (md : MReg) (f : Nat → Bool) : Prop :=
  { r' with m := r.m } = r ∧
  (∀ e, e < 1024 → (r'.mget md).getLsbD e = if md = 0 then true else f e) ∧
  (∀ n, n ≠ md → r'.mget n = r.mget n)

/-- The instruction completes: s[SD] takes `v` with the taint bit `tt`, the chain advances, and nothing else differs. -/
def GivesScalar (i : Instr) (s : State) (sd : SReg) (v : Word) (tt : Bool) : Prop :=
  ∃ t, exec i s = .next t ∧ SlotActs s t ∧ Chained s t s.gbrOutcome ∧ ScalarWritten s.cc.regs t.cc.regs sd v tt

/-- The instruction completes: the chain advances with the outcome `b`, and nothing else differs. -/
def GivesBranch (i : Instr) (s : State) (b : Branch) : Prop :=
  ∃ t, exec i s = .next t ∧ SlotActs s t ∧ Chained s t b ∧ t.cc.regs = s.cc.regs

/-- The instruction completes: v[VD] takes the elements `f`, the chain advances, and nothing else differs. -/
def GivesVector (i : Instr) (s : State) (vd : VReg) (f : Nat → Elem) : Prop :=
  ∃ t, exec i s = .next t ∧ SlotActs s t ∧ Chained s t s.gbrOutcome ∧ VectorWritten s.cc.regs t.cc.regs vd f

/-- The OR of the conditions of a list of elements (R61). -/
def raisedBy (l : List Nat) (c : Nat → Conds) : Conds := l.foldr (fun e r => c e ||| r) 0

/-- The elements of a mask register that are active, in rising order. -/
def activeElems (m : BitVec 1024) : List Nat := (List.range 1024).filter (fun e => m.getLsbD e)

/-- The flags and the trap of an instruction whose element e raises `c e`, for the elements of `l` in rising order: FPFLAGS takes the OR of
the conditions (R63); when one whose enable bit in FPCTL is set arose, the slot has trap 0x50 to take, with its chain
advanced, and DETAIL names the lowest such element (R64). -/
def Flagged (s t : State) (r : Regs) (l : List Nat) (c : Nat → Conds) : Prop :=
  let raised := raisedBy l c
  let enabled := raised &&& enables s.cc.src.fpctl
  t.cc.regs = { r with fpflags := r.fpflags ||| raised.setWidth 64 } ∧
  (enabled = 0 → Chained s t s.gbrOutcome) ∧
  (enabled ≠ 0 → ∃ e, e ∈ l ∧ c e &&& enables s.cc.src.fpctl ≠ 0 ∧ (∀ j, j ∈ l → j < e → c j &&& enables s.cc.src.fpctl = 0) ∧
    t.cs = { s.cs.chained s.gbrOutcome with
      pend := some { code := 0x50, detail := 0#6 ++ BitVec.ofNat 10 e ++ 0#6 ++ raised ++ enabled, tval := 0 } })

/-- What element `e` of v[VD] holds when the mask m[MK] leaves it out: the value that it had when the bundle issued; an empty mask
writes nothing at all (R129). -/
def State.held (s : State) (vd : VReg) (mk : MReg) (e : Nat) : Elem :=
  if s.rm mk = 0 then (s.cc.regs.vget vd.toNat).get e else (s.rv vd).get e

/-- A vector instruction under the mask m[MK] completes: each active element e takes `g e`, every other element keeps its bits, and the
conditions of the active elements count (R61, R63, R64, R129). Nothing else differs. -/
def GivesArith (i : Instr) (s : State) (vd : VReg) (mk : MReg) (g : Nat → ElemRes) : Prop :=
  ∃ t r, exec i s = .next t ∧ SlotActs s t ∧
    VectorWritten s.cc.regs r vd (fun e => if (s.rm mk).getLsbD e then (g e).v else s.held vd mk e) ∧
    Flagged s t r (activeElems (s.rm mk)) (fun e => (g e).c)

/-- A vector instruction that raises no condition. -/
def GivesMasked (i : Instr) (s : State) (vd : VReg) (mk : MReg) (g : Nat → Elem) : Prop :=
  GivesVector i s vd (fun e => if (s.rm mk).getLsbD e then g e else s.held vd mk e)

/-- Element whose sub-element i of type `t` is `f i` modulo its width. -/
def elemOf (t : VTy) (f : Nat → Nat) : Elem :=
  BitVec.ofNat 32 (((List.range t.group).map (fun i => f i % 2 ^ tyWidth t * 2 ^ (tyWidth t * i))).sum)

/-! Rounding, as R54 and R55 say it of an exact number. -/

/-- The six binary formats with the significand and the exponent of the unit of their largest finite number (R48). -/
def formats : List (Fmt × Nat × Int) :=
  [(fp32, 2 ^ 24 - 1, 104), (fp16, 2047, 5), (bf16, 255, 120), (e5m2, 7, 13), (e4m3, 14, 5), (e2m1, 3, 1)]

/-- How h × 2^k compares with m × 2^e. -/
def cmpNum (m : Nat) (e : Int) (h : Nat) (k : Int) : Ordering := compare (h * 2 ^ (k - e).toNat) (m * 2 ^ (e - k).toNat)

/-- `y` is the integer to which a rounding mode takes ± a positive number; `half h` says how h / 2 compares with it (R54). -/
def ByMode (rm : Rm) (neg : Bool) (half : Nat → Ordering) (y : Nat) : Prop :=
  let floor := half (2 * y) ≠ .gt ∧ half (2 * y + 2) = .gt
  let ceil := 0 < y ∧ half (2 * y - 2) = .lt ∧ half (2 * y) ≠ .lt
  match rm with
  | .rne => (0 < y → half (2 * y - 1) ≠ .gt) ∧ half (2 * y + 1) ≠ .lt ∧
      ((0 < y ∧ half (2 * y - 1) = .eq) ∨ half (2 * y + 1) = .eq → y % 2 = 0)
  | .rtz => floor
  | .rdn => if neg then ceil else floor
  | .rup => if neg then floor else ceil

/-- `r` is Round of ± a positive number in a format whose largest finite number is `top`; `cmp h k` says how h × 2^k compares with the
number (R54 to R56). -/
def Rounded (env : FpEnv) (f : Fmt) (top : Nat × Int) (neg : Bool) (cmp : Nat → Int → Ordering) (r : Res) : Prop :=
  ∃ (q : Int) (y : Nat),
    let least : Int := 1 - (f.bias : Int) - (f.p - 1 : Nat)
    (least ≤ q ∧ cmp 1 (q + f.p) = .gt ∧ (q = least ∨ cmp 1 (q + (f.p - 1 : Nat)) ≠ .gt)) ∧
    ByMode env.rm neg (fun h => cmp h (q - 1)) y ∧
    let big := top.2 < q ∨ top.1 * 2 ^ (top.2 - q).toNat < y
    let toMax := env.sat = true ∨ f = e2m1 ∨ env.rm = .rtz ∨ (env.rm = .rdn ∧ neg = false) ∨ (env.rm = .rup ∧ neg = true)
    let tiny := y < 2 ^ (f.p - 1)
    let flushed := tiny ∧ y ≠ 0 ∧ env.ftz = true ∧ (f = fp32 ∨ f = fp16 ∨ f = bf16)
    (big → r.c = (cOF ||| cNX) ∧ (toMax → f.decode false r.v = .num neg top.1 top.2) ∧
      (¬ toMax → f ≠ e4m3 → f.decode false r.v = .inf neg) ∧ (¬ toMax → f = e4m3 → r.v = if neg then 0xFF else 0x7F)) ∧
    (¬ big → flushed → f.decode false r.v = .zero neg ∧ r.c = (cUF ||| cNX)) ∧
    (¬ big → ¬ flushed →
      r.c = (if cmp y q = .eq then 0 else if tiny then cUF ||| cNX else cNX) ∧
      (y = 0 → f.decode false r.v = .zero neg) ∧
      (y ≠ 0 → ∃ (m : Nat) (k : Nat), f.decode false r.v = .num neg m (q + k) ∧ m * 2 ^ k = y))

/-- ± m × 2^e as an integer in units of 2^k, for k ≤ e. -/
def inUnits (neg : Bool) (m : Nat) (e k : Int) : Int := (if neg then -1 else 1) * (m * 2 ^ (e - k).toNat : Nat)

/-- Round of an exact sum x × 2^k; an exact zero takes the sign of the rounding mode (R54). -/
def roundSum (env : FpEnv) (f : Fmt) (x k : Int) : Res :=
  if x = 0 then { v := f.zero (env.rm == .rdn) } else round env f (decide (x < 0)) x.natAbs k false

/-- The instruction completes: m[MD] takes the bits `f`, the chain advances, and nothing else differs. -/
def GivesMask (i : Instr) (s : State) (md : MReg) (f : Nat → Bool) : Prop :=
  ∃ t, exec i s = .next t ∧ SlotActs s t ∧ Chained s t s.gbrOutcome ∧ MaskWritten s.cc.regs t.cc.regs md f

/-- The instruction has no effect but a fault-class trap that waits to be taken (R32, R117). -/
def Traps (i : Instr) (s : State) (code : BitVec 8) (detail : BitVec 32) (tval : Word) : Prop :=
  ∃ t, exec i s = .next t ∧ OnlyCore s t s.cur.core ∧ { t.cc with slots := s.cc.slots } = s.cc ∧
    (∀ k, k ≠ s.cur.slot → t.cc.slot k = s.cc.slot k) ∧
    t.cs = { s.cs with pend := some { code, detail, tval, kept := false } }

/-- The slot `k` of core `c` has parked with a report: cause, address and reason are those of `p`, and its chain stands at
the bundle (R16, R328). -/
def ParkedAt (s t : State) (c : Nat) (k : Slot) (p : Park) : Prop :=
  ∃ h, (t.core c).slot k = { (s.core c).slot k with park := some { p with handle := h }, solo := true }

/-! Memory. -/

/-- Every memory of the device is in canonical form. -/
def State.MemWf (s : State) : Prop :=
  s.mem.wf = true ∧ (∀ c, (s.cluster c).l2Home.wf = true) ∧
    ∀ c, (s.core c).store.wf = true ∧ (s.core c).code.wf = true ∧ (s.core c).repair.spareCs.wf = true

/-- One byte of the device's memory: of the store of core `phys` at an offset (home 01), of the L2 of cluster `phys` (home 10), or of
HBM and host space (R170). -/
def State.byteAt (s : State) (home : BitVec 2) (phys a : Nat) : Byte :=
  if home = 1 then (s.core phys).store.byte a
  else if home = 2 then (s.cluster phys).l2Home.byte a
  else s.mem.byte a

/-- The address of a place in the array that holds it. -/
def Place.addr (p : Place) : Nat := if p.home = 1 then p.off else p.pa

/-- The place stands in an array of this device, and not behind a fabric window (R384). -/
def Place.here (p : Place) : Bool := p.home == 1 || p.home == 2 || decide (p.pa < remoteBase)

/-- The place stands in the array that `home` and `phys` name. -/
def Place.inArray (p : Place) (home : BitVec 2) (phys : Nat) : Bool :=
  if p.home = 1 ∨ p.home = 2 then home == p.home && phys == p.phys else home != 1 && home != 2

/-- The word of core-store offset `a` has a bit that REPINJ forces (R448). -/
def Core.forced (c : Core) (a : Nat) : Prop := c.repair.repinj.getLsbD 63 = true ∧ (c.repair.repinj.extractLsb' 3 18).toNat = a / 8

/-- The `n` bytes from address `a` on, in the array of the place `p`, take the low bytes of `x`, and every other byte of every
array is as before, where the memories are in canonical form and no bit of the word is forced. A word of another device is that
device's. -/
def StoredAt (s t : State) (p : Place) (a n : Nat) (x : Word) : Prop := s.MemWf → (p.home = 1 → ¬ (s.core p.phys).forced a) →
  (p.here → ∀ k, k < n → t.byteAt p.home p.phys (a + k) = x.extractLsb' (8 * k) 8) ∧
  ∀ home phys b, ¬ (p.here ∧ p.inArray home phys ∧ a ≤ b ∧ b < a + n) → t.byteAt home phys b = s.byteAt home phys b

/-- Every byte of every array is as before. -/
def BytesKept (s t : State) : Prop := ∀ home phys a, t.byteAt home phys a = s.byteAt home phys a

/-- What transfers leave of the partitions: their limiters and the bytes that are to be charged alone change (R347, R402). -/
def PartsMetered (s t : State) : Prop :=
  ∀ p, { t.part p with lims := (s.part p).lims, fabBytes := (s.part p).fabBytes, hostBytes := (s.part p).hostBytes } = s.part p

/-- What an access to memory by the acting slot leaves alone: it may change memory, the copies, timestamps and releases of the memory
system, the values on their way to the slots, what is due, and what the limiters count, for which time may pass; of another slot, its
logical time. Every register, semaphore, accumulator and queue is as before, and the rest of every partition. -/
def AccessKeeps (s t : State) : Prop :=
  { t with mem := s.mem, again := s.again, homes := s.homes, homeDirty := s.homeDirty, memts := s.memts, bypassRts := s.bypassRts,
           bankRts := s.bankRts, bypassRels := s.bypassRels, bankRels := s.bankRels, cores := s.cores, clusters := s.clusters,
           parts := s.parts, timebase := s.timebase, holdUntil := s.holdUntil, agenda := s.agenda, fresh := s.fresh } = s ∧
  PartsMetered s t ∧
  (∀ c, { t.core c with store := (s.core c).store, lease := (s.core c).lease, slots := (s.core c).slots,
                        loads := (s.core c).loads, vloads := (s.core c).vloads } = s.core c) ∧
  (∀ a, a ∈ t.again → a ∈ s.again) ∧
  (∀ c, { t.cluster c with l2 := (s.cluster c).l2, l2Home := (s.cluster c).l2Home, l2HomeTs := (s.cluster c).l2HomeTs
                           again := (s.cluster c).again } = s.cluster c ∧ ∀ a, a ∈ (t.cluster c).again → a ∈ (s.cluster c).again) ∧
  ∀ c k, c ≠ s.cur.core ∨ k ≠ s.cur.slot →
    { (t.core c).slot k with pts := ((s.core c).slot k).pts } = (s.core c).slot k

/-- The acting slot's chain has advanced; its logical time may have risen, and it may have kept releases that it has read (R186,
R277). -/
def ChainedInTime (s t : State) (b : Branch) : Prop :=
  { t.cs with pts := s.cs.pts, seen := s.cs.seen, dep := s.cs.dep } = s.cs.chained b ∧ s.cs.pts ≤ t.cs.pts

/-- An access with the order `o` on list `l` may issue: a plain one names no list; any other finds its list neither updating,
nor stale, nor invalid (R184). -/
def ListGood (s : State) (o : MemOrder) (l : ListIx) : Prop :=
  o = .plain ∨ (bit s.cc.updating l.toNat = false ∧ (s.entry s.cur.core l.toNat).stale = false ∧
    (s.entry s.cur.core l.toNat).valid = true)

/-- The table entry at a physical address: the word there, read once more when it is damaged; nothing when that is damaged too (R352,
R406). -/
def State.entryAt (s : State) (pa : Nat) : Option Word :=
  let x := (s.mem.word (pa / 8), s.mem.sealAt (pa / 8))
  let y := if x.2 = sealOf x.1 then x else secondIn s.again (pa / 8) x
  if y.2 = sealOf y.1 then some y.1 else none

/-- From a stage-2 table with `n` levels below it, the entries lead from `ipa` to the leaf `x.1`, which stands at `x.2.1` and maps
`x.2.2` bytes: nine bits of the address index each level, bit 1 marks a leaf, and at the last level bit 8 the group of 16 entries
of a 64 KiB page (R350, R351). -/
def Leads2 (entry : Nat → Option Word) (ipa : Nat) : Nat → Nat → Word × Nat × Nat → Prop
  | 0, _, _ => False
  | n + 1, table, x =>
    let size := 2 ^ (12 + 9 * n)
    let at_ := table + 8 * (ipa / size % 512)
    let first := table + 8 * (ipa / size % 512 / 16 * 16)
    ∃ e, entry at_ = some e ∧
      ((n = 0 ∧ e.getLsbD 8 = false ∧ x = (e, at_, size)) ∨
        (n = 0 ∧ e.getLsbD 8 = true ∧ ∃ e', entry first = some e' ∧ x = (e', first, 0x10000)) ∨
        (n ≠ 0 ∧ e.getLsbD 1 = true ∧ x = (e, at_, size)) ∨
        (n ≠ 0 ∧ e.getLsbD 1 = false ∧ table2Ok e = true ∧ hasTarget (entryAddr e) = true ∧ Leads2 entry ipa n (entryAddr e) x))

/-- From a stage-1 table at intermediate address `table` with `n` levels below it, the entries lead from `va` to the leaf `e` of a page
of `size` bytes, each read as stage 2 maps it; `t` is the state after the reads. Bit 10 marks the group of a 64 KiB page (R350, R351,
R353). -/
def Leads1 (part va : Nat) : Nat → Nat → State → State → Word → Nat → Prop
  | 0, _, _, _, _, _ => False
  | n + 1, table, s, t, e, size =>
    let i := va / 2 ^ (12 + 9 * n) % 512
    ∃ u x, s.readEntry1 part (table + 8 * i) = (u, .ok x) ∧
      ((n = 0 ∧ x.getLsbD 10 = false ∧ t = u ∧ e = x ∧ size = 0x1000) ∨
        (n = 0 ∧ x.getLsbD 10 = true ∧ u.readEntry1 part (table + 8 * (i / 16 * 16)) = (t, .ok e) ∧ size = 0x10000) ∨
        (1 ≤ n ∧ n ≤ 2 ∧ x.getLsbD 1 = true ∧ t = u ∧ e = x ∧ size = 2 ^ (12 + 9 * n)) ∨
        (n ≠ 0 ∧ x.getLsbD 1 = false ∧ table1Ok x = true ∧ Leads1 part va n (entryAddr x) u t e size))

/-- Each address of a list, the first of its page in an access, is translated, in order: their places, and the state after it;
nothing when a translation faults. -/
def pagesFound (part : Nat) (who : Party) (k : AccessKind) : List Word → List (Word × Place) → State →
    Option (List (Word × Place) × State)
  | [], done, s => some (done, s)
  | a :: r, done, s =>
    match s.translate part who a k with
    | .ok p s => pagesFound part who k r ((a, p) :: done) s
    | .fault .. | .lost .. => none

/-- The words of a list of addresses, each read once, in the order of the list: what the reads give, and the state after them. -/
def wordsRead (pages : List (Word × Place)) (acq : Bool) (l : ListIx) : List Word → List VWord → State → List VWord × State
  | [], ws, s => (ws, s)
  | a :: r, ws, s =>
    let n := a.toNat / 8
    if ws.any (fun x => x.n == n) then wordsRead pages acq l r ws s
    else
      let p := placeIn pages (BitVec.ofNat 64 (8 * n))
      match (s.meter s.me p 8).readWord s.me p acq with
      | ((w, sl), u) => wordsRead pages acq l r (ws ++ [{ n, place := p, word := w, sl }]) (u.heard p acq l false)

/-- Each damaged word of a list is read once more, in the order of the list (R406). -/
def wordsReadAgain (who : Party) : List VWord → State → List VWord × State
  | [], s => ([], s)
  | w :: r, s =>
    if w.sl = sealOf w.word then let y := wordsReadAgain who r s; (w :: y.1, y.2)
    else match s.readAgain who w.place false with
      | ((x, sl), u) =>
        let y := wordsReadAgain who r u
        ({ w with word := x, sl, y1 := w.sl ^^^ sealOf w.word } :: y.1, y.2)

/-- Pages begin at whole words of their arrays: each address stands at its own byte within a word there, and the page that holds it
lies in the array from its first byte on. -/
def PagesWhole (l : List (Word × Place)) : Prop :=
  ∀ x, x ∈ l → x.2.addr % 8 = x.1.toNat % 8 ∧ x.1.toNat % 4096 ≤ x.2.addr

/-- What the last of a list of 4-byte stores to the byte `b` of an array leaves there, if one covers it. -/
def lastStore (l : List (Place × Elem)) (home : BitVec 2) (phys b : Nat) : Option Byte :=
  l.reverse.findSome? (fun x =>
    if x.1.here ∧ x.1.inArray home phys ∧ x.1.addr ≤ b ∧ b < x.1.addr + 4 then some (x.2.extractLsb' (8 * (b - x.1.addr)) 8)
    else none)

/-! Packets and launches. -/

/-- The packet that ring `r` runs completes with STATUS and DETAIL (R327, R329): it is done, and its record waits to be written
after those that wait already. -/
def PacketDone (s t : State) (part r : Nat) (status : BitVec 8) (detail : Word) : Prop :=
  ∃ k k' time, ((s.part part).ring r).run = some k ∧ ((t.part part).ring r).run = some k' ∧ k'.done = true ∧ k'.words = k.words ∧
    (t.part part).due = (s.part part).due ++ [{
      words := [BitVec.ofNat 64 k.pos, (wordAt k.words 0).extractLsb' 0 32 ++ status ++ (wordAt k.words 0).extractLsb' 60 4 ++
        (s.part part).ringNumber r ++ 0#16, detail, time]
      pend := if (wordAt k.words 0).getLsbD 57 then some 0 else none, gen := k.gen, ring := some r }]

/-- The packet of kind `kind` that ring `r` runs may act: it has started, or it starts now (R324). -/
def RingActs (s : State) (part r kind : Nat) (k : Packet) : Prop :=
  part < 32 ∧ r < 16 ∧ (s.part part).acting r = some k ∧ pkind k.words = kind ∧
    (k.started = true ∨ ((s.part part).listUse (pacq k.words) = .go ∧ (s.part part).listUse (prel k.words) = .go))

/-- What a ring's packet leaves of its partition but for that ring, the records that are due, and what `f` gives. -/
def RingKeeps (s t : State) (part r : Nat) : Prop :=
  { t.part part with rings := (s.part part).rings, due := (s.part part).due } = s.part part ∧
    ∀ q, q ≠ r → (t.part part).ring q = (s.part part).ring q

end Machine

end Sys2Proof
end

