-- ==== Sys2Proof/Certificates/Slice0/Obligations.lean ====
section
/-! DEFINITION. The statements: what the rules of spec/ say that an instruction or the machine does. -/

open Sys2Proof Sys2Proof.Machine

/-! The machine: its state after reset, its step, and the encoding. -/

/-- R5, R28, R39, R331, R335, R362, R401, R422 to R424, R442: what reset leaves where the rules give a value: every core at bundle 0
of the march reel in repair mode, no partition, no launch, free holes, the limits of power at their reset values. That reset
stands after step 5 of boot is the model's choice (log 2). -/
def Obligations.ResetState : Prop :=
  let s := State.reset
  s.MemWf ∧ s.agenda = [] ∧ s.opened = none ∧ s.timebase = 0 ∧ s.repeatable = false ∧ s.pcap = 1800 ∧ s.trips = 0 ∧ s.fwsafe = false ∧
  s.fwupd = false ∧ s.rcad = 8 ∧ s.bootDone = false ∧ s.retired = [] ∧ s.holes = [] ∧
  (∀ c k, (s.core c).inRepair = true ∧ ((s.core c).slot k).c0 = 0x400040 ∧ ((s.core c).slot k).c1 = 0x400060 ∧
    ((s.core c).slot k).c2 = 0x400080 ∧ ((s.core c).slot k).halted = false ∧ ((s.core c).slot k).pend = none) ∧
  (∀ c, (∀ n, (s.core c).regs.sget n = 0 ∧ (s.core c).regs.tget n = false) ∧ (s.core c).regs.tvec = 0 ∧ (s.core c).regs.mchk = 10 ∧
    (s.core c).accZero = 0xFFFF ∧ (s.core c).sems = [] ∧ (s.core c).repair.repstat = 0) ∧
  (∀ c, (s.cluster c).owner = none ∧ (s.cluster c).cadence = 4 ∧ (s.cluster c).point = 16 ∧ (s.cluster c).trip = false) ∧
  ∀ p, (s.part p).state = 0 ∧ (s.part p).clusters = [] ∧ (s.part p).launch = none ∧ (s.part p).spdl = 50 ∧
    (s.part p).pmask = BitVec.allOnes 64 ∧ (s.part p).vfstate = 0 ∧ (s.part p).eperiod = 1000 ∧ (s.part p).pincap = 0

/-- R9, R11, R14, R82, R83, R110: a step lets the next member of the open bundle act: it runs the instruction that its word decodes
to, an annulled one advances its chain, and a word that decodes to none is to trap; the last member closes the bundle. With no
bundle open, the oldest due event happens, or the scheduler lets a unit act; a group that may issue opens the bundle that was
fetched at its address. That the open bundle goes first, then the oldest due event, then a round of the units is the model's choice
(log 11), and that a bundle opens as a whole and its members act in column order is its reading (logs 12 and 13). -/
def Obligations.StepRunsDecodedInstruction : Prop :=
  (∀ (s : State) (o : Opened) (m : Member) (r : List Member), s.opened = some o → o.todo = m :: r →
    let u : State := { s with opened := some { o with todo := r }, cur := { core := o.core, slot := m.slot, word := m.word } }
    let closed (t : State) : State := if r = [] then t.closeBundle o.core else t
    (m.annulled = false → ∀ i, decode m.slot m.word = .ok i → ∀ t, exec i u = .next t → step s = .next (closed t)) ∧
    (m.annulled = true → ∃ t, step s = .next (closed t) ∧ SlotActs u t ∧ Chained u t u.gbrOutcome ∧ t.cc.regs = u.cc.regs) ∧
    (m.annulled = false → ∀ code, decode m.slot m.word = .trap code → ∃ t, step s = .next (closed t) ∧ OnlyCore u t o.core ∧
      t.cs = { u.cs with pend := some { code, detail := 0, tval := m.word } })) ∧
  (∀ (s : State) (o : Opened), s.opened = some o → o.todo = [] → step s = .next (s.closeBundle o.core)) ∧
  (∀ (s : State) (i : Instr) (r : List Instr), s.opened = none → s.agenda = i :: r → step s = exec i { s with agenda := r }) ∧
  (∀ s t : State, s.opened = none → s.agenda = [] → { s with turn := (s.turn + 1) % numUnits }.tryUnit s.turn = some t → step s = .next t) ∧
  ∀ (c g : Nat) (k : Slot) (r : List Slot) (s u : State) (ws : List Word),
    (s.core c).issuers g = k :: r → (s.core c).issues = true → s.fetch c k ((s.core c).slot k).c0 = .ok ws u →
    (s.core c).meetAt ws ((s.core c).slot k).c0 (k :: r) = .issue → u.ready c ((s.core c).membersOf ws (k :: r)) = .go →
    clash ((s.core c).membersOf ws (k :: r)) = none →
    ∃ t o, s.tryIssue c g = some t ∧ t.opened = some o ∧ o.core = c ∧ o.members = k :: r ∧
      o.todo.map (·.slot) = k :: r ∧ (∀ m, m ∈ o.todo → m.word = ws.getD (slotIx m.slot) 0 ∧ m.annulled = ((s.core c).slot m.slot).ann0) ∧
      (t.core c).slots = (u.core c).slots ∧ (t.core c).src = (u.core c).regs ∧ t.mem = u.mem

/-- R73 to R80, R82: words written out from the formats and the opcode map decode to the instructions that they stand for; a word with
a reserved field, in a column whose slot does not have the opcode, or with a QU or a vector register outside its limit, is refused
with its cause. -/
def Obligations.DecodeWords : Prop :=
  decode .A (0#1 ++ 0x01#7 ++ 3#6 ++ 4#6 ++ 5#6 ++ 0#6 ++ 0#8 ++ 0x00#8 ++ 0#16) = .ok (.add 3 4 5) ∧
  decode .B (1#1 ++ 0x08#7 ++ 7#6 ++ 9#6 ++ 0#12 ++ 0xFFFFFFFF#32) = .ok (.addi 7 9 0xFFFFFFFF) ∧
  decode .V (0#1 ++ 0x20#7 ++ 1#6 ++ 2#6 ++ 3#3 ++ 1#2 ++ 0#7 ++ 0x20#32) = .ok (.br .ge .notTaken 1 2 0x20) ∧
  decode .A (0#1 ++ 0x30#7 ++ 8#6 ++ 9#6 ++ 3#2 ++ 0#1 ++ 0#1 ++ 1#2 ++ 4#5 ++ 0#1 ++ 0x10#32) = .ok (.ld .d false .acquire 4 8 9 0x10) ∧
  decode .B (0#1 ++ 0x45#7 ++ 0#6 ++ 6#6 ++ 0#6 ++ 17#8 ++ 2#5 ++ 1#1 ++ 0#4 ++ 5#20) = .ok (.semsig 17 5 2 true 6) ∧
  decode .V (0#1 ++ 0x51#7 ++ 10#8 ++ 11#8 ++ 12#8 ++ 13#8 ++ 1#4 ++ 0#4 ++ 0#4 ++ 0#4 ++ 0#8) = .ok (.vfma .f32 10 11 12 13 1) ∧
  decode .E (0#1 ++ 0x70#7 ++ 20#8 ++ 0#8 ++ 5#6 ++ 0#6 ++ 2#4 ++ 0#2 ++ 0#5 ++ 0#3 ++ 3#14) = .ok (.vld .plain 0 20 5 3 2) ∧
  decode .E (0#1 ++ 0x78#7 ++ 5#6 ++ 0#6 ++ 0#2 ++ 0#18 ++ 0#4 ++ 64#20) = .ok (.menq 5 64) ∧
  decode .E (0#1 ++ 0x78#7 ++ 5#6 ++ 0#6 ++ 3#2 ++ 0#18 ++ 0#4 ++ 64#20) = .trap 0x03 ∧
  decode .A (0#1 ++ 0x01#7 ++ 3#6 ++ 4#6 ++ 5#6 ++ 1#6 ++ 0#8 ++ 0x00#8 ++ 0#16) = .trap 0x01 ∧
  decode .V (0#1 ++ 0x01#7 ++ 3#6 ++ 4#6 ++ 5#6 ++ 0#6 ++ 0#8 ++ 0x00#8 ++ 0#16) = .trap 0x02 ∧
  decode .V (0#1 ++ 0x51#7 ++ 160#8 ++ 11#8 ++ 12#8 ++ 13#8 ++ 1#4 ++ 0#4 ++ 0#4 ++ 0#4 ++ 0#8) = .trap 0x03

/-- R73 to R80, R82: decode and encode agree: the word of a well-formed instruction decodes to it, with every operand at every value,
in the column whose slot has its opcode; and a word that decodes to an instruction is that instruction's word, with its sync bit. -/
def Obligations.DecodeEncodeAgree : Prop :=
  (∀ (y : BitVec 1) (i : Instr) (w : Word), i.wellFormed = true → encode y i = some w →
    decode (homeSlot w) w = .ok i ∧ w.extractLsb' 63 1 = y ∧
    ∀ (k : Slot) (l : List Slot), opSlots (w.extractLsb' 56 7).toNat = some l → decode k w = if k ∈ l then .ok i else .trap 0x02) ∧
  ∀ (k : Slot) (w : Word) (i : Instr), decode k w = .ok i → i.wellFormed = true ∧ encode (w.extractLsb' 63 1) i = some w

/-- Every step keeps every memory of the device in its canonical form: addresses strictly rising, and none listed that holds what an
unlisted one reads. -/
def Obligations.StepKeepsMemoryCanonical : Prop := ∀ s t : State, s.MemWf → step s = .next t → t.MemWf

/-! Scalar integer instructions. -/

/-- R103: the two-source and one-source forms, with a and b the values of s[SA] and s[SB], n = b[5:0], and the taint bit of R20;
nothing else of the machine differs but the slot's chain (R102). R104: the division forms round towards zero, with their corners,
and never trap. R105: the three-source forms; a and b are the halves of a 128-bit value in FSHL and FSHR. -/
def Obligations.ScalarArithmetic : Prop :=
  (∀ (sd sa sb : SReg) (s : State),
    let a := s.rs sa
    let b := s.rs sb
    let n := b.toNat % 64
    let t2 := s.rt sa || s.rt sb
    let t1 := s.rt sa
    GivesScalar (.add sd sa sb) s sd (BitVec.ofNat 64 (a.toNat + b.toNat)) t2 ∧
    GivesScalar (.sub sd sa sb) s sd (BitVec.ofInt 64 (a.toInt - b.toInt)) t2 ∧
    GivesScalar (.mul sd sa sb) s sd (BitVec.ofNat 64 (a.toNat * b.toNat)) t2 ∧
    GivesScalar (.mulh sd sa sb) s sd (BitVec.ofInt 64 (a.toInt * b.toInt / 2 ^ 64)) t2 ∧
    GivesScalar (.mulhu sd sa sb) s sd (BitVec.ofNat 64 (a.toNat * b.toNat / 2 ^ 64)) t2 ∧
    GivesScalar (.and sd sa sb) s sd (a &&& b) t2 ∧
    GivesScalar (.or sd sa sb) s sd (a ||| b) t2 ∧
    GivesScalar (.xor sd sa sb) s sd (a ^^^ b) t2 ∧
    GivesScalar (.andn sd sa sb) s sd (a &&& ~~~b) t2 ∧
    GivesScalar (.orn sd sa sb) s sd (a ||| ~~~b) t2 ∧
    GivesScalar (.shl sd sa sb) s sd (BitVec.ofNat 64 (a.toNat * 2 ^ n)) t2 ∧
    GivesScalar (.shr sd sa sb) s sd (BitVec.ofNat 64 (a.toNat / 2 ^ n)) t2 ∧
    GivesScalar (.sar sd sa sb) s sd (BitVec.ofInt 64 (a.toInt / 2 ^ n)) t2 ∧
    (∃ v, GivesScalar (.rotl sd sa sb) s sd v t2 ∧ ∀ i, i < 64 → v.getLsbD ((i + n) % 64) = a.getLsbD i) ∧
    (∃ v, GivesScalar (.rotr sd sa sb) s sd v t2 ∧ ∀ i, i < 64 → v.getLsbD i = a.getLsbD ((i + n) % 64)) ∧
    GivesScalar (.min sd sa sb) s sd (BitVec.ofInt 64 (min a.toInt b.toInt)) t2 ∧
    GivesScalar (.max sd sa sb) s sd (BitVec.ofInt 64 (max a.toInt b.toInt)) t2 ∧
    GivesScalar (.minu sd sa sb) s sd (BitVec.ofNat 64 (min a.toNat b.toNat)) t2 ∧
    GivesScalar (.maxu sd sa sb) s sd (BitVec.ofNat 64 (max a.toNat b.toNat)) t2 ∧
    (∃ k, k ≤ 64 ∧ GivesScalar (.clz sd sa) s sd (BitVec.ofNat 64 k) t1 ∧
      (∀ i, 64 - k ≤ i → i < 64 → a.getLsbD i = false) ∧ (k < 64 → a.getLsbD (63 - k) = true)) ∧
    (∃ k, k ≤ 64 ∧ GivesScalar (.ctz sd sa) s sd (BitVec.ofNat 64 k) t1 ∧
      (∀ i, i < k → a.getLsbD i = false) ∧ (k < 64 → a.getLsbD k = true)) ∧
    GivesScalar (.popc sd sa) s sd (BitVec.ofNat 64 ((List.range 64).countP (fun i => a.getLsbD i))) t1 ∧
    (∃ v, GivesScalar (.brev sd sa) s sd v t1 ∧ ∀ i, i < 64 → v.getLsbD i = a.getLsbD (63 - i)) ∧
    (∃ v, GivesScalar (.bswap sd sa) s sd v t1 ∧ ∀ i, i < 8 → v.extractLsb' (8 * i) 8 = a.extractLsb' (8 * (7 - i)) 8) ∧
    GivesScalar (.abs sd sa) s sd (BitVec.ofNat 64 a.toInt.natAbs) t1) ∧
  (∀ (sd sa sb : SReg) (s : State),
    let a := s.rs sa
    let b := s.rs sb
    let tt := s.rt sa || s.rt sb
    let corner := a = 0x8000000000000000 ∧ b = 0xFFFFFFFFFFFFFFFF
    GivesScalar (.div sd sa sb) s sd
      (if b = 0 then 0xFFFFFFFFFFFFFFFF else if corner then a else BitVec.ofInt 64 (a.toInt.tdiv b.toInt)) tt ∧
    GivesScalar (.rem sd sa sb) s sd
      (if b = 0 then a else if corner then 0 else BitVec.ofInt 64 (a.toInt.tmod b.toInt)) tt ∧
    GivesScalar (.divu sd sa sb) s sd (if b = 0 then 0xFFFFFFFFFFFFFFFF else BitVec.ofNat 64 (a.toNat / b.toNat)) tt ∧
    GivesScalar (.remu sd sa sb) s sd (if b = 0 then a else BitVec.ofNat 64 (a.toNat % b.toNat)) tt) ∧
  (∀ (sd sa sb sc : SReg) (tt : BitVec 8) (s : State),
    let a := s.rs sa
    let b := s.rs sb
    let c := s.rs sc
    let m := c.toNat % 64
    let t3 := s.rt sa || s.rt sb || s.rt sc
    (∃ v, GivesScalar (.lop3 sd sa sb sc tt) s sd v t3 ∧
      ∀ i, i < 64 → v.getLsbD i = tt.getLsbD
        (4 * (if a.getLsbD i then 1 else 0) + 2 * (if b.getLsbD i then 1 else 0) + (if c.getLsbD i then 1 else 0))) ∧
    GivesScalar (.fshl sd sa sb sc) s sd (((a ++ b) <<< m).extractLsb' 64 64) t3 ∧
    GivesScalar (.fshr sd sa sb sc) s sd (((a ++ b) >>> m).extractLsb' 0 64) t3 ∧
    GivesScalar (.sel sd sa sb sc) s sd (if c ≠ 0 then a else b) t3)

/-- R106: CMP writes 1 when the condition holds, else 0; a word of its opcode with FN above 5 is an illegal instruction. R107: the
bit-field forms on every field that the encoding admits, and illegal operand for any other width. -/
def Obligations.ScalarCompareAndBitFields : Prop :=
  ((∀ (sd sa sb : SReg) (s : State),
    let a := s.rs sa
    let b := s.rs sb
    let tt := s.rt sa || s.rt sb
    ∀ c, GivesScalar (.cmp c sd sa sb) s sd (if CondTrue c a b then 1 else 0) tt) ∧
  ∀ (k : Slot) (w : Word), k = .A ∨ k = .B → w.extractLsb' 56 7 = 0x03 → 6 ≤ (w.extractLsb' 16 8).toNat →
    decode k w = .trap 0x01) ∧
  ((∀ (sd sa : SReg) (pos : BitVec 6) (wid : BitVec 7) (s : State), 1 ≤ wid.toNat → pos.toNat + wid.toNat ≤ 64 →
    let a := s.rs sa
    let p := pos.toNat
    let w := wid.toNat
    (∃ v, GivesScalar (.bfx sd sa pos wid) s sd v (s.rt sa) ∧
      ∀ i, i < 64 → v.getLsbD i = a.getLsbD (p + min i (w - 1))) ∧
    GivesScalar (.bfxu sd sa pos wid) s sd (BitVec.ofNat 64 (a.toNat / 2 ^ p % 2 ^ w)) (s.rt sa) ∧
    (∃ v, GivesScalar (.bfi sd sa pos wid) s sd v (s.rt sd || s.rt sa) ∧
      ∀ i, i < 64 → v.getLsbD i = if p ≤ i ∧ i < p + w then a.getLsbD (i - p) else (s.rs sd).getLsbD i)) ∧
  (∀ (sd sa : SReg) (wid : BitVec 7) (s : State), 1 ≤ wid.toNat → wid.toNat ≤ 64 →
    (∃ v, GivesScalar (.sext sd sa wid) s sd v (s.rt sa) ∧
      ∀ i, i < 64 → v.getLsbD i = (s.rs sa).getLsbD (min i (wid.toNat - 1))) ∧
    GivesScalar (.zext sd sa wid) s sd (BitVec.ofNat 64 ((s.rs sa).toNat % 2 ^ wid.toNat)) (s.rt sa)) ∧
  ∀ (k : Slot) (y : BitVec 1) (sd sa : SReg) (fn : BitVec 8) (pos : BitVec 6) (wid : BitVec 7),
    k = .A ∨ k = .B → fn.toNat < 3 ∨ (fn.toNat < 5 ∧ pos = 0) → wid.toNat = 0 ∨ 64 < wid.toNat ∨ 64 < pos.toNat + wid.toNat →
    decode k (wordK y 0x04 { sd := sd, sa := sa, fn := fn, ext := 0#2 ++ pos ++ 0#1 ++ wid }) = .trap 0x03)

/-- R108: address and immediate forms with their taint bits; NOP writes nothing. -/
def Obligations.ScalarAddressAndImmediateForms : Prop :=
  ∀ (sd sa sb : SReg) (sh : BitVec 8) (imm : BitVec 32) (s : State),
    (sh.toNat < 64 →
      GivesScalar (.lea sd sa sb sh) s sd (BitVec.ofNat 64 ((s.rs sa).toNat + (s.rs sb).toNat * 2 ^ sh.toNat)) (s.rt sa || s.rt sb)) ∧
    GivesScalar (.addi sd sa imm) s sd (BitVec.ofInt 64 ((s.rs sa).toInt + imm.toInt)) (s.rt sa) ∧
    GivesScalar (.movi sd imm) s sd (BitVec.ofInt 64 imm.toInt) false ∧
    GivesScalar (.movhi sd imm) s sd (imm ++ (s.rs sd).extractLsb' 0 32) (s.rt sd) ∧
    GivesBranch .nop s s.gbrOutcome

/-! Control. -/

/-- R112: BR, JMP and CALL with the target X + 32 × OFF32; JMP and CALL with NUL 01 are reserved encodings. -/
def Obligations.RelativeBranches : Prop :=
  (∀ (c : Cond) (nul : Nul) (sd sa sb : SReg) (off : BitVec 32) (s : State),
    let target := BitVec.ofInt 64 (s.cs.c0.toInt + 32 * off.toInt)
    GivesBranch (.br c nul sa sb off) s (outcome nul (CondTrue c (s.rs sa) (s.rs sb)) target) ∧
    GivesBranch (.jmp nul off) s (outcome nul true target) ∧
    ∃ t, exec (.call sd nul off) s = .next t ∧ SlotActs s t ∧ Chained s t (outcome nul true target) ∧
      ScalarWritten s.cc.regs t.cc.regs sd (s.cs.c0 + 96) false) ∧
  ∀ (k : Slot) (w : Word), k = .A ∨ k = .B → w.extractLsb' 56 7 = 0x22 ∨ w.extractLsb' 56 7 = 0x23 → w.extractLsb' 39 2 = 1 ∨ w.extractLsb' 39 2 = 3 →
    decode k w = .trap 0x01

/-- R113: CALLR and RET take their target from a register; a misaligned target traps with no effect. R114: the outcome of a GBR moves
slot A's own chain, and waits for every other member of the joined group, whose instruction at that bundle, if it is no branch of
its own, advances the chain with it; an annulled member too. R115: JT. An index past the table is not taken; a misaligned table
traps with no effect; else the entry is read as a plain load, its seal is good, and the chain takes the target base + 32 × entry. -/
def Obligations.RegisterGroupAndTableBranches : Prop :=
  (∀ (nul : Nul) (sd sa : SReg) (s : State),
    let target := s.rs sa
    (target.extractLsb' 0 5 = 0 →
      GivesBranch (.ret sa nul) s (outcome nul true target) ∧
      ∃ t, exec (.callr sd sa nul) s = .next t ∧ SlotActs s t ∧ Chained s t (outcome nul true target) ∧
        ScalarWritten s.cc.regs t.cc.regs sd (s.cs.c0 + 96) false) ∧
    (target.extractLsb' 0 5 ≠ 0 →
      Traps (.ret sa nul) s 0x04 0 target ∧ Traps (.callr sd sa nul) s 0x04 0 target)) ∧
  ((∀ (c : Cond) (nul : Nul) (sa sb : SReg) (off : BitVec 32) (s : State) (o : Opened),
    s.opened = some o → o.core = s.cur.core → s.cur.slot ∈ o.members →
    let b := outcome nul (CondTrue c (s.rs sa) (s.rs sb)) (BitVec.ofInt 64 (s.cs.c0.toInt + 32 * off.toInt))
    ∃ t, exec (.gbr c nul sa sb off) s = .next t ∧ OnlyCore s t s.cur.core ∧
      { t.cc with slots := s.cc.slots } = s.cc ∧ Chained s t b ∧
      (∀ k, k ∈ o.members → k ≠ s.cur.slot → t.cc.slot k = { s.cc.slot k with redirect := some b }) ∧
      ∀ k, k ∉ o.members → t.cc.slot k = s.cc.slot k) ∧
  ∀ (s : State) (m : Member) (b : Branch), m.annulled = true → s.cs.redirect = some b →
    ∃ t, s.act m = .next t ∧ SlotActs s t ∧ Chained s t b ∧ t.cc.regs = s.cc.regs) ∧
  (∀ (sa sb sc : SReg) (s : State),
    let i := s.rs sa
    let base := s.rs sc
    ((s.rs sb).toNat ≤ i.toNat → GivesBranch (.jt sa sb sc) s Branch.none) ∧
    (i.toNat < (s.rs sb).toNat → base.extractLsb' 0 5 ≠ 0 → Traps (.jt sa sb sc) s 0x04 0 base) ∧
    ∀ (b : Bind) (p : Place) (s1 s2 : State) (w : Word) (sl : BitVec 8),
      i.toNat < (s.rs sb).toNat → base.extractLsb' 0 5 = 0 → s.cc.bind = some b →
      s.translate b.part s.me (base + i * 4) .read = .ok p s1 →
      ((s1.depend (s.rt sa || s.rt sc)).meter s.me p 8).readWord s.me p false = ((w, sl), s2) → sl = sealOf w →
      ∃ t, exec (.jt sa sb sc) s = .next t ∧ SlotActs s2 t ∧ t.cc.regs = s2.cc.regs ∧
        ∃ e : BitVec 32, e = w.extractLsb' (8 * ((base + i * 4).toNat % 8)) 32 ∧
          { t.cs with seen := s2.cs.seen } =
            s2.cs.chained { taken := true, target := BitVec.ofInt 64 (base.toInt + 32 * e.toInt), annul := false })

/-- R121: TRAP and DBG complete: the chain advances as of an instruction that is no branch, and the trap waits with its cause and
DETAIL, and TVAL 0. R118, R119: trap entry takes the trap of the lowest column. Every slot that has not halted has its chain in
its XPC words and takes the handler's chain as one joined group; TCAUSE and TVAL name the trap; the handler-busy state is set.
R31, R119: a task-handled trap while TVEC is 0, or while a handler runs, enters no handler: the task is parked, and the launch is
to end with the unhandled-trap status, unless it was ending already. -/
def Obligations.TrapsAndTheirEntry : Prop :=
  (∀ (d : BitVec 32) (code : BitVec 20) (s : State),
    (∃ t, exec (.trap d) s = .next t ∧ SlotActs s t ∧ t.cc.regs = s.cc.regs ∧
      t.cs = { s.cs.chained Branch.none with pend := some { code := 0x05, detail := d, tval := 0 } }) ∧
    ∃ t, exec (.dbg code) s = .next t ∧ SlotActs s t ∧ t.cc.regs = s.cc.regs ∧
      t.cs = { s.cs.chained s.gbrOutcome with pend := some { code := 0x06, detail := 0#12 ++ code, tval := 0 } }) ∧
  (∀ (s : State) (c : Nat) (b : Bind) (k : Slot) (tr : Trap),
    let x := s.core c
    x.bind = some b → x.frozen = false → x.busy = false → x.regs.tvec ≠ 0 → (x.slot .B).await = none →
    (x.slot k).pend = some tr → (∀ j, slotIx j < slotIx k → (x.slot j).pend = none) → (x.slot k).halted = false →
    ∃ t, exec (.trapEntry c) s = .next t ∧ { t with cores := s.cores, parts := s.parts } = s ∧
      (∀ j, j ≠ c → t.core j = s.core j) ∧ (∀ p, { t.part p with handles := (s.part p).handles } = s.part p) ∧
      { t.core c with regs := x.regs, slots := x.slots, busy := x.busy, entry70 := x.entry70, moves := x.moves } = x ∧
      (t.core c).moves.map (fun m => { m with knows := 0, joinedV := false }) = x.moves.map (fun m => { m with knows := 0, joinedV := false }) ∧
      (t.core c).busy = true ∧
      { (t.core c).regs with xpc := x.regs.xpc, tcause := x.regs.tcause, tval := x.regs.tval } = x.regs ∧
      (t.core c).regs.tcause = tr.detail ++ 0#22 ++ BitVec.ofNat 2 (slotIx k) ++ tr.code ∧ (t.core c).regs.tval = tr.tval ∧
      (∀ j, ((t.core c).slot j).pend = (match (x.slot j).pend with
          | some u => if j = k ∨ (1 ≤ u.code.toNat ∧ u.code.toNat ≤ 4) then none else some { u with kept := true } | none => none)) ∧
      (∀ j, (x.slot j).halted = true → { (t.core c).slot j with pend := (x.slot j).pend } = x.slot j ∧
        ∀ i, i < 4 → (t.core c).regs.xget j i = x.regs.xget j i) ∧
      ∀ j, (x.slot j).halted = false →
        (t.core c).regs.xget j 0 = bundleAddr (x.slot j).c0 ∧ (t.core c).regs.xget j 1 = bundleAddr (x.slot j).c1 ∧
        (t.core c).regs.xget j 2 = bundleAddr (x.slot j).c2 ∧
        (t.core c).regs.xget j 3 = 0#62 ++ ofBool1 (x.slot j).ann1 ++ ofBool1 (x.slot j).ann0 ∧
        ((t.core c).slot j).c0 = x.regs.tvec ∧ ((t.core c).slot j).c1 = x.regs.tvec + 32 ∧
        ((t.core c).slot j).c2 = x.regs.tvec + 64 ∧ ((t.core c).slot j).ann0 = false ∧ ((t.core c).slot j).ann1 = false ∧
        ((t.core c).slot j).park = none ∧
        ((t.core c).slot j).rww = ((match (x.slot j).pend with
          | some u => decide (1 ≤ u.code.toNat ∧ u.code.toNat ≤ 4) | none => false) ||
          ((x.slot j).rww && (x.slot j).resumed && (x.slot j).park.isNone && (x.slot j).await.isNone && (tr.kept || !s.stalled c j))) ∧
        (∀ l, (x.slot l).halted = false → ((t.core c).slot l).group = ((t.core c).slot j).group)) ∧
  (∀ (s : State) (c : Nat) (b : Bind) (k : Slot) (tr : Trap) (l : Launch),
    let x := s.core c
    x.bind = some b → x.frozen = false → (x.busy = true ∨ x.regs.tvec = 0) → (x.slot .B).await = none →
    (x.slot k).pend = some tr → tr.kept = false → (∀ j, slotIx j < slotIx k → (x.slot j).pend = none) →
    (s.part b.part).launch = some l → l.ending = none →
    ∃ t, exec (.trapEntry c) s = .next t ∧ (t.core c) = { x with frozen := true } ∧
      ∃ d, (t.part b.part).launch = some { l with ending := some (0x06, d) } ∧
        { t with cores := s.cores, parts := s.parts } = s ∧ (∀ j, j ≠ c → t.core j = s.core j) ∧
        (∀ p, p ≠ b.part → t.part p = s.part p))

/-- R120: ERET restores the slot's chain and annul bits from its XPC words as they stood when the bundle issued, and marks it
returned; the handler-busy state clears when every slot has returned or halted, and an entry by the notice gives TCAUSE and TVAL
back. R124: HALT ends its slot, and makes the test of ERET. -/
def Obligations.EretAndHalt : Prop :=
  (∀ (s : State),
    let x := s.cc
    let k := s.cur.slot
    let last := x.busy = true ∧ ∀ j, j ≠ k → (x.slot j).returned = true ∨ (x.slot j).halted = true
    ∃ t, exec .eret s = .next t ∧ OnlyCore s t s.cur.core ∧
      { t.cc with regs := x.regs, slots := x.slots, busy := x.busy, entry70 := x.entry70 } = x ∧
      (∀ j, j ≠ k → t.cc.slot j = x.slot j) ∧
      t.cs.c0 = x.src.xget k 0 ∧ t.cs.c1 = x.src.xget k 1 ∧ t.cs.c2 = x.src.xget k 2 ∧
      t.cs.ann0 = (x.src.xget k 3).getLsbD 0 ∧ t.cs.ann1 = (x.src.xget k 3).getLsbD 1 ∧ t.cs.returned = true ∧
      t.cs.rww = s.cs.rww ∧ t.cs.halted = s.cs.halted ∧ t.cs.pend = s.cs.pend ∧
      (last → t.cc.busy = false ∧ t.cc.regs = match x.entry70 with
        | some (tc, tv) => { x.regs with tcause := tc, tval := tv } | none => x.regs) ∧
      (¬ last → t.cc.busy = x.busy ∧ t.cc.regs = x.regs)) ∧
  (∀ (s : State),
    let x := s.cc
    let k := s.cur.slot
    let last := x.busy = true ∧ ∀ j, j ≠ k → (x.slot j).returned = true ∨ (x.slot j).halted = true
    ∃ t, exec .halt s = .next t ∧ OnlyCore s t s.cur.core ∧
      { t.cc with regs := x.regs, slots := x.slots, busy := x.busy, entry70 := x.entry70 } = x ∧
      (∀ j, j ≠ k → t.cc.slot j = x.slot j) ∧ t.cs.halted = true ∧ t.cs.pend = s.cs.pend ∧
      (last → t.cc.busy = false ∧ t.cc.regs = match x.entry70 with
        | some (tc, tv) => { x.regs with tcause := tc, tval := tv } | none => x.regs) ∧
      (¬ last → t.cc.busy = x.busy ∧ t.cc.regs = x.regs))

/-! Memory instructions of slot A. -/

/-- R173: the merge of a partial store into a word with a valid seal gives the new word with its valid seal. -/
def Obligations.MergeKeepsSealValid : Prop :=
  ∀ (w n : Word) (m : BitVec 8), n &&& ~~~(byteMask m) = 0 →
    mergeWord w (sealOf w) n (byteMask m) (sealOf n) =
      ((w &&& ~~~(byteMask m)) ||| n, sealOf ((w &&& ~~~(byteMask m)) ||| n))

/-- R176, R178: LD and LDC read the word, and its return becomes due; the registers change only then. -/
def Obligations.LoadsIssue : Prop :=
  ∀ (sz : Size) (un : Bool) (ord : MemOrder) (ls : ListIx) (sd sa : SReg) (off : BitVec 32) (s : State) (b : Bind),
    let n := Size.bytes sz
    let va := BitVec.ofInt 64 ((s.rs sa).toInt + off.toInt)
    let issued (s2 t : State) (p : Place) (w : Word) (sl : BitVec 8) (taint : Bool) : Prop :=
      AccessKeeps s2 t ∧ BytesKept s2 t ∧ ChainedInTime s2 t s2.gbrOutcome ∧
      t.agenda = s2.agenda ++ [.loadReturn s.cur.core] ∧
      t.cc.loads = s2.cc.loads ++ [{ slot := s.cur.slot, sd, va, place := p, bytes := n, un, taint, word := w, sl, again := false }]
    s.cc.inRepair = false → s.cc.bind = some b → va.toNat % n = 0 →
    ∀ (p : Place) (s1 s2 : State) (w : Word) (sl : BitVec 8), s.translate b.part s.me va .read = .ok p s1 →
      (ListGood s ord ls → ((s1.depend (s.rt sa)).meter s.me p n).readWord s.me p (ord = .acquire ∨ ord = .acqRel) = ((w, sl), s2) →
        ∃ t, exec (.ld sz un ord ls sd sa off) s = .next t ∧ issued s2 t p w sl (s.rt sa)) ∧
      (((s1.depend (s.rt sa)).meter s.me p n).readWord s.me p false = ((w, sl), s2) →
        ∃ t, exec (.ldc sz un sd sa off) s = .next t ∧ issued s2 t p w sl true)

/-- R174 to R176: LOAD_RETURN. A word with a valid seal gives s[SD] its bytes at the address, zero- or sign-extended; a first mismatch
writes nothing and has the word fetched once more, and a second one loses the context. R174, R179, R183: VECTOR_LOAD_RETURN. When
every fetched word has a valid seal, the active elements take their four bytes and every other element keeps its value; a first
mismatch writes nothing and has the damaged words fetched once more. R406: SEAL_REFETCH drops the lane's copies of what was damaged and
reads it at its holder, and the return is due again. -/
def Obligations.LoadReturnsWriteRegisters : Prop :=
  (∀ (c : Nat) (s : State) (l : PendLoad) (rest : List PendLoad), (s.core c).loads = l :: rest →
    (l.sl = sealOf l.word → 1 ≤ l.bytes → 8 * (l.va.toNat % 8) + 8 * l.bytes ≤ 64 →
      ∃ t v, exec (.loadReturn c) s = .next t ∧ { t with cores := s.cores, ecseal := s.ecseal } = s ∧
        (∀ k, k ≠ c → t.core k = s.core k) ∧
        { t.core c with regs := (s.core c).regs, loads := l :: rest } = s.core c ∧ (t.core c).loads = rest ∧
        ScalarWritten (s.core c).regs (t.core c).regs l.sd v l.taint ∧
        ∀ i, i < 64 → v.getLsbD i =
          if i < 8 * l.bytes then l.word.getLsbD (8 * (l.va.toNat % 8) + i)
          else !l.un && l.word.getLsbD (8 * (l.va.toNat % 8) + 8 * l.bytes - 1)) ∧
    (l.sl ≠ sealOf l.word → l.again = false →
      ∃ t, exec (.loadReturn c) s = .next t ∧ t = { s with agenda := s.agenda ++ [.sealRefetch (.slot c l.slot)] }) ∧
    (l.sl ≠ sealOf l.word → l.again = true → ∀ b, (s.core c).bind = some b →
      ∃ t x, exec (.loadReturn c) s = .next t ∧ OnlyCore { s with agenda := s.agenda ++ [.contextLoss b.part x] } t c ∧
        t.core c = { s.core c with loads := rest } ∧ x.source = .scalarLoad ∧ x.party = some (.slot c l.slot) ∧ x.va = l.va ∧
        x.cause = if l.sl ^^^ sealOf l.word = 0xFF then 0x62 else 0x60)) ∧
  (∀ (c : Nat) (s : State) (v : PendVec) (rest : List PendVec), (s.core c).vloads = v :: rest →
    ((∀ x, x ∈ v.words → x.sl = sealOf x.word) →
      ∃ t, exec (.vectorLoadReturn c) s = .next t ∧ { t with cores := s.cores, ecseal := s.ecseal } = s ∧
        (∀ k, k ≠ c → t.core k = s.core k) ∧
        { t.core c with regs := (s.core c).regs, vloads := v :: rest } = s.core c ∧ (t.core c).vloads = rest ∧
        ∃ f, VectorWritten (s.core c).regs (t.core c).regs v.vd f ∧
          (∀ e, (∀ y, y ∈ v.elems → y.1 ≠ e) → f e = ((s.core c).regs.vget v.vd.toNat).get e) ∧
          ∀ (e : Nat) (va : Word) (x : VWord), v.elems.find? (fun y => y.1 == e) = some (e, va) →
            v.words.find? (fun y => y.n == va.toNat / 8) = some x → va.toNat % 4 = 0 →
            f e = x.word.extractLsb' (8 * (va.toNat % 8)) 32) ∧
    (∀ x, x ∈ v.words → x.sl ≠ sealOf x.word → v.again = false →
      exec (.vectorLoadReturn c) s = .next { s with agenda := s.agenda ++ [.sealRefetch (.slot c .E)] })) ∧
  ∀ (c : Nat) (k : Slot) (s : State),
    let read (u : State) (p : Place) : (Word × BitVec 8) × State := u.readAgain (.slot c k) p false
    (∀ (l : PendLoad) (rest : List PendLoad), k ≠ .E → (s.core c).loads = l :: rest →
      (l.sl = sealOf l.word → exec (.sealRefetch (.slot c k)) s = .next s) ∧
      (l.sl ≠ sealOf l.word → ∀ x sl u, read s l.place = ((x, sl), u) →
        ∃ t, exec (.sealRefetch (.slot c k)) s = .next t ∧ OnlyCore { u with agenda := u.agenda ++ [.loadReturn c] } t c ∧
          t.core c = { u.core c with loads := { l with word := x, sl, again := true, y1 := l.sl ^^^ sealOf l.word } :: rest })) ∧
    ∀ (v : PendVec) (rest : List PendVec), k = .E → (s.core c).vloads = v :: rest →
      let u := (wordsReadAgain (.slot c k) v.words s).2
      ∃ t, exec (.sealRefetch (.slot c k)) s = .next t ∧ BytesKept s t ∧ (∀ d, (t.core d).regs = (s.core d).regs) ∧
        OnlyCore { u with agenda := u.agenda ++ [.vectorLoadReturn c] } t c ∧
        t.core c = { u.core c with vloads := { v with words := (wordsReadAgain (.slot c k) v.words s).1, again := true } :: rest }

/-- R172, R176: ST stores the low bytes of s[SD] at its address, the word there takes a valid seal, and every other byte of memory is
as before. -/
def Obligations.StoreWritesItsBytesAlone : Prop :=
  ∀ (sz : Size) (ord : MemOrder) (ls : ListIx) (sd sa : SReg) (off : BitVec 32) (s s1 : State) (b : Bind) (p : Place),
    let n := Size.bytes sz
    let va := BitVec.ofInt 64 ((s.rs sa).toInt + off.toInt)
    s.cc.inRepair = false → s.cc.bind = some b → va.toNat % n = 0 → ListGood s ord ls →
    s.translate b.part s.me va .write = .ok p s1 → n = 8 ∨ (s1.holderWord p).2 = sealOf (s1.holderWord p).1 →
    ∃ t, exec (.st sz ord ls sd sa off) s = .next t ∧
      StoredAt s1 t p (p.addr / 8 * 8 + va.toNat % 8) n (s.rs sd) ∧
      (s1.MemWf → p.here → (p.home = 1 → ¬ (s1.core p.phys).forced p.off) → (t.holderWord p).2 = sealOf (t.holderWord p).1) ∧
      AccessKeeps s1 t ∧ t.cc.loads = s1.cc.loads ∧ t.agenda = s1.agenda ∧ ChainedInTime s1 t s1.gbrOutcome

/-- R187 to R189: AMO writes the result of its operation on the old value at the holder, and CAS its new value when the old one is
equal; the old value returns to s[SD] by a load return, zero-extended, with the taint of the sources. No other byte changes. -/
def Obligations.AtomicsAtTheHolder : Prop :=
  ∀ (dw : Bool) (ord : MemOrder) (ls : ListIx) (sd sa sb sc : SReg) (off : BitVec 20) (s s1 : State) (b : Bind) (p : Place) (w : Word),
    let n := if dw then 8 else 4
    let va := BitVec.ofInt 64 ((s.rs sa).toInt + off.toInt)
    let x : Word := BitVec.ofNat 64 (w.toNat / 2 ^ (8 * (va.toNat % 8)) % 2 ^ (8 * n))
    let y : Word := BitVec.ofNat 64 ((s.rs sb).toNat % 2 ^ (8 * n))
    let sx (v : Word) : Int := if dw then v.toInt else (v.setWidth 32).toInt
    let back (t : State) (taint : Bool) : Prop :=
      AccessKeeps s1 t ∧ ChainedInTime s1 t s1.gbrOutcome ∧ t.agenda = s1.agenda ++ [.loadReturn s.cur.core] ∧
      t.cc.loads = s1.cc.loads ++ [{ slot := s.cur.slot, sd, va, place := p, bytes := n, un := true, taint, word := w,
                                     sl := sealOf w, again := false }]
    let amo (i : Instr) (new : Word) : Prop :=
      ∃ t, exec i s = .next t ∧ StoredAt s1 t p (p.addr / 8 * 8 + va.toNat % 8) n new ∧ back t (s.rt sa || s.rt sb)
    s.cc.bind = some b → va.toNat % n = 0 → ListGood s ord ls → s.translate b.part s.me va .both = .ok p s1 →
    s1.holderWord p = (w, sealOf w) →
    amo (.amoAdd dw ord ls sd sa sb off) (x + y) ∧
    amo (.amoAnd dw ord ls sd sa sb off) (x &&& y) ∧
    amo (.amoOr dw ord ls sd sa sb off) (x ||| y) ∧
    amo (.amoXor dw ord ls sd sa sb off) (x ^^^ y) ∧
    amo (.amoMin dw ord ls sd sa sb off) (if sx y < sx x then y else x) ∧
    amo (.amoMax dw ord ls sd sa sb off) (if sx x < sx y then y else x) ∧
    amo (.amoMinu dw ord ls sd sa sb off) (if y.toNat < x.toNat then y else x) ∧
    amo (.amoMaxu dw ord ls sd sa sb off) (if x.toNat < y.toNat then y else x) ∧
    amo (.amoSwap dw ord ls sd sa sb off) y ∧
    ∃ t, exec (.cas dw ord ls sd sa sb sc off) s = .next t ∧ back t (s.rt sa || s.rt sb || s.rt sc) ∧
      (x = y → StoredAt s1 t p (p.addr / 8 * 8 + va.toNat % 8) n (s.rs sc)) ∧ (x ≠ y → BytesKept s1 t)

/-- R169: a scalar access whose address is not a multiple of its size traps with no effect, TVAL holding the address. R169, R179 to
R181: a vector access with a misaligned row, or a misaligned active element, traps with no effect, TVAL holding the lowest such
address. -/
def Obligations.MisalignedAccessesTrap : Prop :=
  (∀ (sz : Size) (un dw : Bool) (ord : MemOrder) (ls : ListIx) (sd sa sb sc : SReg) (off : BitVec 32) (off20 : BitVec 20) (s : State),
    s.cc.inRepair = false →
    let va := BitVec.ofInt 64 ((s.rs sa).toInt + off.toInt)
    let va20 := BitVec.ofInt 64 ((s.rs sa).toInt + off20.toInt)
    (va.toNat % Size.bytes sz ≠ 0 →
      Traps (.ld sz un ord ls sd sa off) s 0x04 0 va ∧ Traps (.ldc sz un sd sa off) s 0x04 0 va ∧
      Traps (.st sz ord ls sd sa off) s 0x04 0 va) ∧
    (va20.toNat % (if dw then 8 else 4) ≠ 0 →
      Traps (.amoAdd dw ord ls sd sa sb off20) s 0x04 0 va20 ∧ Traps (.amoAnd dw ord ls sd sa sb off20) s 0x04 0 va20 ∧
      Traps (.amoOr dw ord ls sd sa sb off20) s 0x04 0 va20 ∧ Traps (.amoXor dw ord ls sd sa sb off20) s 0x04 0 va20 ∧
      Traps (.amoMin dw ord ls sd sa sb off20) s 0x04 0 va20 ∧ Traps (.amoMax dw ord ls sd sa sb off20) s 0x04 0 va20 ∧
      Traps (.amoMinu dw ord ls sd sa sb off20) s 0x04 0 va20 ∧ Traps (.amoMaxu dw ord ls sd sa sb off20) s 0x04 0 va20 ∧
      Traps (.amoSwap dw ord ls sd sa sb off20) s 0x04 0 va20 ∧ Traps (.cas dw ord ls sd sa sb sc off20) s 0x04 0 va20)) ∧
  (∀ (ord : MemOrder) (ls : ListIx) (vd vb : VReg) (sa sb : SReg) (off : BitVec 14) (mk : MReg) (s : State),
    let a := BitVec.ofInt 64 ((s.rs sa).toInt + 64 * off.toInt)
    let at_ (e : Nat) : Word := s.rs sa + ((s.rv vb).get e).setWidth 64
    let row (i : Nat) : Word := a + BitVec.ofNat 64 i * s.rs sb
    (a.toNat % 64 ≠ 0 →
      Traps (.vld ord ls vd sa off mk) s 0x04 0 a ∧ Traps (.vldb ord ls vd sa off mk) s 0x04 0 a ∧
      Traps (.vst ord ls vd sa off mk) s 0x04 0 a) ∧
    (∀ i, i < 16 → (row i).toNat % 64 ≠ 0 → (∀ j, j < i → (row j).toNat % 64 = 0) →
      Traps (.vlds ord ls vd sa sb off mk) s 0x04 0 (row i) ∧ Traps (.vsts ord ls vd sa sb off mk) s 0x04 0 (row i)) ∧
    ∀ e, e < 1024 → (s.rm mk).getLsbD e = true → (at_ e).toNat % 4 ≠ 0 →
      (∀ j, j < e → (s.rm mk).getLsbD j = true → (at_ j).toNat % 4 = 0) →
      Traps (.vgath ord ls vd vb sa mk) s 0x04 0 (at_ e) ∧ Traps (.vscat ord ls vd vb sa mk) s 0x04 0 (at_ e))

/-- R177, R186: PREF changes nothing but the chain; a FENCE changes only logical time and what the members keep of their last release:
its release part raises the list's time to the time of the group, and each member keeps the release for its later plain stores; its
acquire part raises each member's time to the list's, and to that of the releases which the group's plain loads have read and which
synchronise with it (R270, R274). That each member keeps the release for its later plain stores, and that plain reads are remembered, is
the model's reading (log 63), and so is that the party adopts the list time whether or not it is a member (log 18). -/
def Obligations.PrefetchAndFences : Prop :=
  ∀ (sa : SReg) (off : BitVec 32) (ls : ListIx) (s : State),
    GivesBranch (.pref sa off) s s.gbrOutcome ∧
    (s.cc.bind = none →
      GivesBranch (.fenceAcq ls) s s.gbrOutcome ∧ GivesBranch (.fenceRel ls) s s.gbrOutcome ∧
      GivesBranch (.fenceFull ls) s s.gbrOutcome) ∧
    (s.cc.bind.isSome = true → ListGood s .acquire ls →
      let kept (t : State) : Prop :=
        { t with cores := s.cores, clusters := s.clusters, parts := s.parts } = s ∧
        (∀ c, { t.core c with slots := (s.core c).slots, cl0Time := (s.core c).cl0Time } = s.core c) ∧
        (∀ c, { t.cluster c with cl1Time := (s.cluster c).cl1Time } = s.cluster c) ∧
        (∀ p, { t.part p with listTime := (s.part p).listTime } = s.part p) ∧
        (∀ c k, c ≠ s.cur.core ∨ k ≠ s.cur.slot → { (t.core c).slot k with
          pts := ((s.core c).slot k).pts, fenced := ((s.core c).slot k).fenced } = (s.core c).slot k) ∧
        { t.cs with pts := s.cs.pts, fenced := s.cs.fenced } = s.cs.chained s.gbrOutcome
      let time (u : State) := u.listTime s.cur.core ls.toNat
      let e := s.myEntry ls
      let read := timeOf (s.members.flatMap (fun k => (s.cc.slot k).seen))
        (fun r => r.meets e (s.peerOf s.cur.core) (s.vcoreOf s.cur.core))
      let kept' (t : State) : Prop := ∀ k, k ∈ s.members →
        (t.cc.slot k).fenced = keepRelease
          { core := s.vcoreOf s.cur.core, mask := e.cores, group := e.namesGroup (s.peerOf s.cur.core), ts := s.releaseTs }
          (s.cc.slot k).fenced
      (∃ t, exec (.fenceAcq ls) s = .next t ∧ kept t ∧ time t = time s ∧
        ∀ k, k ∈ s.members → (t.cc.slot k).pts = max s.releaseTs (max read (time s)) ∧ (s.cc.slot k).pts ≤ s.releaseTs ∧
          (t.cc.slot k).fenced = (s.cc.slot k).fenced) ∧
      (∃ t, exec (.fenceRel ls) s = .next t ∧ kept t ∧ kept' t ∧ (∀ k, k ∈ s.members → (s.cc.slot k).pts ≤ time t) ∧
        time t = max (time s) s.releaseTs) ∧
      ∃ t, exec (.fenceFull ls) s = .next t ∧ kept t ∧ kept' t ∧ time t = max (time s) s.releaseTs ∧
        ∀ k, k ∈ s.members → (t.cc.slot k).pts = max read (time t) ∧ (s.cc.slot k).pts ≤ time t)

/-- R179 to R182: VLD, VLDB, VLDS and VGATH. Every page that an active element touches is translated first; then each active element's
word is read, and the return becomes due with the elements' addresses. -/
def Obligations.VectorLoadsIssue : Prop :=
  ∀ (ord : MemOrder) (ls : ListIx) (vd vb : VReg) (sa sb : SReg) (off : BitVec 14) (mk : MReg) (s s1 : State) (b : Bind)
    (pages : List (Word × Place)),
    let a := BitVec.ofInt 64 ((s.rs sa).toInt + 64 * off.toInt)
    let active := (List.range 1024).filter (fun e => (s.rm mk).getLsbD e)
    let acq : Bool := decide (ord = .acquire ∨ ord = .acqRel)
    let loads (i : Instr) (at_ : Nat → Word) : Prop :=
      pagesFound b.part s.me .read (pagesOf (active.map at_)) [] s = some (pages, s1) →
      let ws := wordsRead pages acq ls (active.map at_) [] s1
      ∃ t, exec i s = .next t ∧ AccessKeeps s1 t ∧ BytesKept s1 t ∧ ChainedInTime s1 t s1.gbrOutcome ∧
        t.agenda = s1.agenda ++ [.vectorLoadReturn s.cur.core] ∧ t.cc.loads = s1.cc.loads ∧
        t.cc.vloads = s1.cc.vloads ++ [{ vd, elems := active.map (fun e => (e, at_ e)), words := ws.1, again := false }] ∧
        { t with cores := ws.2.cores, agenda := ws.2.agenda } = ws.2 ∧
        ∀ e, e ∈ active → ∃ x, x ∈ ws.1 ∧ x.n = (at_ e).toNat / 8 ∧ x.place = placeIn pages (BitVec.ofNat 64 (8 * x.n))
    s.cc.bind = some b → ListGood s ord ls →
    (a.toNat % 64 = 0 →
      loads (.vld ord ls vd sa off mk) (fun e => a + BitVec.ofNat 64 (4 * e)) ∧
      loads (.vldb ord ls vd sa off mk) (fun e => a + BitVec.ofNat 64 (4 * (e % 64)))) ∧
    ((∀ i, i < 16 → (a.toNat + i * (s.rs sb).toNat) % 64 = 0) →
      loads (.vlds ord ls vd sa sb off mk)
        (fun e => a + BitVec.ofNat 64 (e / 64) * s.rs sb + BitVec.ofNat 64 (4 * (e % 64)))) ∧
    ((∀ e, e ∈ active → (s.rs sa + ((s.rv vb).get e).setWidth 64).toNat % 4 = 0) →
      loads (.vgath ord ls vd vb sa mk) (fun e => s.rs sa + ((s.rv vb).get e).setWidth 64))

/-- R179 to R182: VST, VSTS and VSCAT write the active elements at their addresses, the highest last, and no other byte, where every
place is one of this device, every word there has its seal, and REPINJ forces none of them (R448). -/
def Obligations.VectorStoresWriteActiveElementsAlone : Prop :=
  ∀ (ord : MemOrder) (ls : ListIx) (vd vb : VReg) (sa sb : SReg) (off : BitVec 14) (mk : MReg) (s s1 : State) (b : Bind)
    (pages : List (Word × Place)),
    let a := BitVec.ofInt 64 ((s.rs sa).toInt + 64 * off.toInt)
    let active := (List.range 1024).filter (fun e => (s.rm mk).getLsbD e)
    let stores (i : Instr) (at_ : Nat → Word) : Prop :=
      pagesFound b.part s.me .write (pagesOf (active.map at_)) [] s = some (pages, s1) → PagesWhole pages →
      (∀ e, e ∈ active → (placeIn pages (at_ e)).here = true ∧
        ((placeIn pages (at_ e)).home = 1 → ¬ (s1.core (placeIn pages (at_ e)).phys).forced (placeIn pages (at_ e)).off) ∧
        (s1.holderWord (placeIn pages (at_ e))).2 = sealOf (s1.holderWord (placeIn pages (at_ e))).1) →
      s1.MemWf →
      ∃ t, exec i s = .next t ∧ AccessKeeps s1 t ∧ ChainedInTime s1 t s1.gbrOutcome ∧ t.agenda = s1.agenda ∧
        t.cc.loads = s1.cc.loads ∧ t.cc.vloads = s1.cc.vloads ∧
        ∀ home phys x, t.byteAt home phys x =
          (lastStore (active.map (fun e => (placeIn pages (at_ e), (s.rv vd).get e))) home phys x).getD (s1.byteAt home phys x)
    s.cc.bind = some b → ListGood s ord ls →
    (a.toNat % 64 = 0 → stores (.vst ord ls vd sa off mk) (fun e => a + BitVec.ofNat 64 (4 * e))) ∧
    ((∀ i, i < 16 → (a.toNat + i * (s.rs sb).toNat) % 64 = 0) →
      stores (.vsts ord ls vd sa sb off mk)
        (fun e => a + BitVec.ofNat 64 (e / 64) * s.rs sb + BitVec.ofNat 64 (4 * (e % 64)))) ∧
    ((∀ e, e ∈ active → (s.rs sa + ((s.rv vb).get e).setWidth 64).toNat % 4 = 0) →
      stores (.vscat ord ls vd vb sa mk) (fun e => s.rs sa + ((s.rv vb).get e).setWidth 64))

/-! Join bits, control registers, circulation entries, semaphores and barriers (slot B). -/

/-- R125: JSET sets its bit and releases, JCLR clears it, JWAIT of a set bit acquires, and JWAIT of a clear bit traps with DETAIL = n.
R25, R126: CRD reads every control register by its number, with a clear taint bit, and changes nothing else; a number with no
register traps. That a CRD of CYC does not count its own bundle in repeatable mode is the model's reading (log 19). -/
def Obligations.JoinBitsAndControlReads : Prop :=
  (∀ (j : BitVec 8) (s : State), j.toNat < 32 →
    let frame (t : State) : Prop :=
      OnlyCore s t s.cur.core ∧
      { t.cc with regs := s.cc.regs, slots := s.cc.slots, joinTs := s.cc.joinTs } = s.cc ∧
      { t.cc.regs with j := s.cc.regs.j } = s.cc.regs ∧
      (∀ k, k ≠ s.cur.slot → { t.cc.slot k with pts := (s.cc.slot k).pts } = s.cc.slot k) ∧
      ChainedInTime s t s.gbrOutcome
    (∃ t, exec (.jset j) s = .next t ∧ frame t ∧
      (∀ i, i < 32 → t.cc.regs.j.getLsbD i = (decide (i = j.toNat) || s.cc.regs.j.getLsbD i)) ∧
      (∀ k, k ∈ s.members → (s.cc.slot k).pts ≤ Tab.get 0 t.cc.joinTs j.toNat) ∧
      ∀ i, i ≠ j.toNat → Tab.get 0 t.cc.joinTs i = Tab.get 0 s.cc.joinTs i) ∧
    (∃ t, exec (.jclr j) s = .next t ∧ frame t ∧ t.cc.joinTs = s.cc.joinTs ∧
      ∀ i, i < 32 → t.cc.regs.j.getLsbD i = (!decide (i = j.toNat) && s.cc.regs.j.getLsbD i)) ∧
    (s.cc.regs.j.getLsbD j.toNat = true →
      ∃ t, exec (.jwait j) s = .next t ∧ frame t ∧ t.cc.regs = s.cc.regs ∧ t.cc.joinTs = s.cc.joinTs ∧
        ∀ k, k ∈ s.members → (t.cc.slot k).pts = max (s.cc.slot k).pts (Tab.get 0 s.cc.joinTs j.toNat)) ∧
    (s.cc.regs.j.getLsbD j.toNat = false → Traps (.jwait j) s 0x03 (0#24 ++ j) s.cur.word)) ∧
  (∀ (sd : SReg) (s : State),
    let r := s.cc.regs
    let p (f : Bind → Word) : Word := match s.cc.bind with | some b => f b | none => 0
    GivesScalar (.crd sd 0x000) s sd (0#32 ++ BitVec.ofNat 12 s.device ++ 0#12 ++ BitVec.ofNat 8 s.cur.core) false ∧
    GivesScalar (.crd sd 0x001) s sd r.vcore false ∧
    GivesScalar (.crd sd 0x002) s sd (p (fun b => 0#16 ++ (s.part b.part).rgen ++ 0#18 ++
      BitVec.ofNat 6 (s.part b.part).clusters.length ++ 0#3 ++ BitVec.ofNat 5 b.part)) false ∧
    GivesScalar (.crd sd 0x004) s sd (p (fun b => (s.part b.part).clapper)) false ∧
    GivesScalar (.crd sd 0x005) s sd (p (fun b => (s.part b.part).phole)) false ∧
    GivesScalar (.crd sd 0x008) s sd r.tvec false ∧ GivesScalar (.crd sd 0x009) s sd r.tcause false ∧
    GivesScalar (.crd sd 0x00A) s sd r.tval false ∧
    (∀ (k : Slot) (i : Nat), i < 4 → GivesScalar (.crd sd (BitVec.ofNat 12 (0x010 + 4 * slotIx k + i))) s sd (r.xget k i) false) ∧
    GivesScalar (.crd sd 0x020) s sd r.fpctl false ∧ GivesScalar (.crd sd 0x021) s sd r.fpflags false ∧
    GivesScalar (.crd sd 0x022) s sd r.mchk false ∧
    (s.repeatable = true → GivesScalar (.crd sd 0x030) s sd s.cc.src.cyc false) ∧
    (s.repeatable = false → ∃ t d, exec (.crd sd 0x030) s = .next t ∧ SlotActs { s with fresh := t.fresh } t ∧
      ScalarWritten { r with cyc := r.cyc + d } t.cc.regs sd (r.cyc + d) false ∧ Chained s t s.gbrOutcome) ∧
    (∃ t, exec (.crd sd 0x031) s = .next t ∧ ScalarWritten r t.cc.regs sd t.timebase false ∧ Chained s t s.gbrOutcome ∧
      SlotActs { s with timebase := t.timebase, holdUntil := t.holdUntil, fresh := t.fresh } t) ∧
    GivesScalar (.crd sd 0x032) s sd ((s.cluster (s.cur.core / 8)).cadence.setWidth 64) false ∧
    (∀ i, i < 16 → GivesScalar (.crd sd (BitVec.ofNat 12 (0x040 + i))) s sd (p (fun b => Tab.get 0 (s.part b.part).ba i)) false) ∧
    ∀ n : BitVec 12, n.toNat ∉ [0x000, 0x001, 0x002, 0x004, 0x005, 0x008, 0x009, 0x00A, 0x020, 0x021, 0x022, 0x030, 0x031, 0x032] →
      ¬ (0x010 ≤ n.toNat ∧ n.toNat < 0x020) → ¬ (0x040 ≤ n.toNat ∧ n.toNat < 0x050) → Traps (.crd sd n) s 0x03 0 s.cur.word)

/-- R25, R31, R32, R34, R35, R37, R126: CWR stores s[SA] under each register's own rules, CRSET and CRCLR store the register with bits
set or cleared; a register that is read only, or absent, is left as it is, and the instruction traps. -/
def Obligations.ControlRegisterWrites : Prop :=
  ∀ (sa : SReg) (s : State),
    let r := s.cc.regs
    let x := s.rs sa
    let puts (i : Instr) (r' : Regs) (xpc : Option Slot) : Prop :=
      ∃ t, exec i s = .next t ∧ OnlyCore s t s.cur.core ∧ { t.cc with regs := r, slots := s.cc.slots } = s.cc ∧
        t.cc.regs = r' ∧
        (∀ k, k ≠ s.cur.slot → t.cc.slot k = if some k = xpc then { s.cc.slot k with rww := false } else s.cc.slot k) ∧
        t.cs = if some s.cur.slot = xpc then { s.cs.chained s.gbrOutcome with rww := false } else s.cs.chained s.gbrOutcome
    let each (n : BitVec 12) (old : Word) (put : Word → Regs) (xpc : Option Slot) : Prop :=
      puts (.cwr n sa) (put x) xpc ∧ puts (.crset n sa) (put (old ||| x)) xpc ∧ puts (.crclr n sa) (put (old &&& ~~~x)) xpc
    each 0x008 r.tvec (fun v => { r with tvec := bundleAddr v }) none ∧
    each 0x009 r.tcause (fun v => { r with tcause := v &&& 0xFFFFFFFF000003FF }) none ∧
    each 0x00A r.tval (fun v => { r with tval := v }) none ∧
    (∀ (k : Slot) (i : Nat), i < 4 → each (BitVec.ofNat 12 (0x010 + 4 * slotIx k + i)) (r.xget k i)
      (fun v => r.xset k i (if i = 3 then v &&& 3 else bundleAddr v)) (if i = 0 then some k else none)) ∧
    each 0x020 r.fpctl (fun v => { r with fpctl := v &&& 0xFFFFFFFF00001F3F, srstep := 0 }) none ∧
    each 0x021 r.fpflags (fun v => { r with fpflags := v &&& 0x1F }) none ∧
    each 0x022 r.mchk (fun v => { r with mchk := BitVec.ofNat 64 (max 4 (min 23 (v.toNat % 32))) }) none ∧
    ∀ n : BitVec 12, n.toNat ∉ [0x008, 0x009, 0x00A, 0x020, 0x021, 0x022] → ¬ (0x010 ≤ n.toNat ∧ n.toNat < 0x020) →
      Traps (.cwr n sa) s 0x03 0 s.cur.word ∧ Traps (.crset n sa) s 0x03 0 s.cur.word ∧ Traps (.crclr n sa) s 0x03 0 s.cur.word

/-- R198, R199, R202: CLGET reads a word of the core's copy of an entry, the fixed ones included, and changes nothing else. R200,
R201: CLSET with a good image asks the dispatcher and waits; a misaligned offset and one past the task array trap, a bad image parks
slot B with the reason, and a damaged one loses the context, without any other effect. Then the entry is marked updating on every core
of the partition; every core takes the new version, which is stale where it names cores that have gone since (R280); and the CLSET completes when nothing that has snapshotted the entry holds the old
one, and every party parked on the entry goes on. In repair mode, where there is no list, CLSET ends repair mode (the model's
choice, log 60). -/
def Obligations.CirculationEntries : Prop :=
  (∀ (sd : SReg) (n : BitVec 8) (k : BitVec 3) (s : State),
    let ncl := match s.cc.bind with | some b => (s.part b.part).clusters.length | none => 0
    let v := match s.cc.bind with | some b => b.vcore | none => 0
    let group : BitVec 12 := match s.cc.bind.bind (fun b => (s.part b.part).launch) with | some l => l.peer | none => 0
    let image (e : ClEntry) : Word :=
      if k.toNat < 4 then e.cores.extractLsb' (64 * k.toNat) 64
      else if k = 4 then ofBool1 e.valid ++ ofBool1 e.stale ++ 0#10 ++ e.ver ++ e.peer ++ 0#2 ++ ofBool1 e.sys ++ ofBool1 e.home ++ e.ccm
      else 0
    (4 ≤ n.toNat → GivesScalar (.clget sd n k) s sd (image (Tab.get {} s.cc.cl n.toNat)) false) ∧
    (n = 0 → GivesScalar (.clget sd n k) s sd
      (image { cores := BitVec.ofNat 256 (2 ^ v), valid := true, ccm := BitVec.ofNat 32 (2 ^ (v / 8)) }) false) ∧
    (n = 1 → GivesScalar (.clget sd n k) s sd
      (image { cores := BitVec.ofNat 256 (255 * 2 ^ (v / 8 * 8)), valid := true, ccm := BitVec.ofNat 32 (2 ^ (v / 8)) }) false) ∧
    (n = 2 → GivesScalar (.clget sd n k) s sd
      (image { cores := BitVec.ofNat 256 (2 ^ (8 * ncl) - 1), valid := true, ccm := BitVec.ofNat 32 (2 ^ ncl - 1), home := true }) false) ∧
    (n = 3 → GivesScalar (.clget sd n k) s sd
      (image { cores := BitVec.ofNat 256 (2 ^ (8 * ncl) - 1), valid := true, ccm := BitVec.ofNat 32 (2 ^ ncl - 1), home := true,
               sys := true, peer := group }) false)) ∧
  ((∀ (n : BitVec 8) (sa : SReg) (s : State),
    let off := s.rs sa
    (off.toNat % 64 ≠ 0 → Traps (.clset n sa) s 0x04 0 off) ∧
    (off.toNat % 64 = 0 → 0x200000 - 65536 * s.cc.csPin ≤ off.toNat → Traps (.clset n sa) s 0x03 0 s.cur.word) ∧
    (off.toNat % 64 = 0 → off.toNat < 0x200000 - 65536 * s.cc.csPin → s.cc.bind = none →
      ∃ t, exec (.clset n sa) s = .next t ∧ OnlyCore s t s.cur.core ∧ t.cc = s.cc.abortRepair) ∧
    (∀ b y, off.toNat % 64 = 0 → off.toNat < s.cc.taskBytes → s.cc.bind = some b → s.cc.taskWords off.toNat 8 = .error y →
      ∃ x, exec (.clset n sa) s = .next { s with agenda := s.agenda ++ [.contextLoss b.part x] } ∧ x.party = some s.me ∧
        x.cause = if y.2 = 0xFF then 0x62 else 0x60) ∧
    (∀ b w m, off.toNat % 64 = 0 → off.toNat < s.cc.taskBytes → s.cc.bind = some b → s.cc.taskWords off.toNat 8 = .ok w →
      imageReason w (s.part b.part).clusters.length = some m →
      ∃ t, exec (.clset n sa) s = .next t ∧ { t.cc with slots := s.cc.slots } = s.cc ∧ t.mem = s.mem ∧
        (t.part b.part).clsets = (s.part b.part).clsets ∧
        ParkedAt s t s.cur.core s.cur.slot { cause := 0x21, addr := n.setWidth 64, reason := BitVec.ofNat 8 m }) ∧
    ∀ b w, s.cc.bind = some b → off.toNat % 64 = 0 → off.toNat < s.cc.taskBytes → s.cc.taskWords off.toNat 8 = .ok w →
      imageReason w (s.part b.part).clusters.length = none →
      ∃ t, exec (.clset n sa) s = .next t ∧ { t with cores := s.cores, parts := s.parts, agenda := s.agenda, ecseal := s.ecseal } = s ∧
        t.agenda = s.agenda ++ [.clsetComplete b.part (n.extractLsb' 0 5)] ∧
        (∀ c, c ≠ s.cur.core → t.core c = s.core c) ∧ { t.cc with slots := s.cc.slots } = s.cc ∧
        (∀ k, k ≠ s.cur.slot → t.cc.slot k = s.cc.slot k) ∧
        t.cs = { s.cs with await := some (.clset n.toNat (s.part b.part).clsetNum) } ∧
        (∀ p, p ≠ b.part → t.part p = s.part p) ∧
        t.part b.part = { s.part b.part with
          clsets := (s.part b.part).clsets ++ [{ entry := n.toNat, image := ClEntry.ofImage w, origin := .slotB s.cur.core,
                                                 accepted := false, num := (s.part b.part).clsetNum }]
          clsetNum := (s.part b.part).clsetNum + 1 }) ∧
  (∀ (part : Nat) (e : ListIx) (s : State), (s.part part).clsets.find? (fun y => y.entry == e.toNat) = none →
    exec (.clsetComplete part e) s = .next s) ∧
  ∀ (part : Nat) (e : ListIx) (s : State) (x : ClSet), (s.part part).clsets.find? (fun y => y.entry == e.toNat) = some x →
    let onCore (c : Nat) : Prop := c ∈ (s.part part).cores
    (x.accepted = false →
      ∃ t, exec (.clsetComplete part e) s = .next t ∧ { t with cores := s.cores, parts := s.parts } = s ∧
        (∀ c, ¬ onCore c → t.core c = s.core c) ∧
        (∀ c, onCore c → { t.core c with updating := (s.core c).updating } = s.core c ∧ (t.core c).updating.getLsbD e.toNat = true) ∧
        (t.part part).clsets.find? (fun y => y.entry == e.toNat) = some { x with accepted := true }) ∧
    (x.accepted = true → x.replaced = false →
      let old := Tab.get {} (s.part part).cl e.toNat
      let ncl := (s.part part).clusters.length
      let gone : Bool := x.image.valid && (decide (2 ^ (8 * ncl) ≤ x.image.cores.toNat) || decide (2 ^ ncl ≤ x.image.ccm.toNat))
      let new : ClEntry := { x.image with stale := gone, ver := old.ver + 1 }
      ∃ t, exec (.clsetComplete part e) s = .next t ∧ { t with cores := s.cores, parts := s.parts } = s ∧
        Tab.get {} (t.part part).cl e.toNat = new ∧
        (t.part part).clsets.find? (fun y => y.entry == e.toNat) = some { x with replaced := true } ∧ (∀ c, ¬ onCore c → t.core c = s.core c) ∧
        (∀ c, onCore c → { t.core c with updating := (s.core c).updating, cl := (s.core c).cl } = s.core c ∧
          (t.core c).updating.getLsbD e.toNat = false ∧ Tab.get {} (t.core c).cl e.toNat = new)) ∧
    (x.accepted = true → x.replaced = true → s.oldSnapshot part e.toNat (Tab.get {} (s.part part).cl e.toNat).ver = true →
      exec (.clsetComplete part e) s = .next s) ∧
    (x.accepted = true → x.replaced = true → s.oldSnapshot part e.toNat (Tab.get {} (s.part part).cl e.toNat).ver = false →
      ∃ t, exec (.clsetComplete part e) s = .next t ∧
        (t.part part).clsets = (s.part part).clsets.eraseP (fun y => y.entry == e.toNat) ∧
        (∀ c k p, (∃ h, (h, Parked.slot c k) ∈ (s.part part).handles) → ((s.core c).slot k).park = some p → p.list = some e.toNat →
          ((t.core c).slot k).park = none) ∧
        (∀ c q p, (∃ h, (h, Parked.queue c q) ∈ (s.part part).handles) → ((s.core c).queue q).park = some p → p.list = some e.toNat →
          ((t.core c).queue q).park = none) ∧
        ∀ c, x.origin = .slotB c → ((s.core c).slot .B).await = some (.clset e.toNat x.num) →
          ((t.core c).slot .B).await = none ∧ ((t.core c).slot .B).c0 = ((s.core c).slot .B).c1))

/-- R190, R191: SEMSIG sends its add and waits for the result; a target outside the partition traps. SEMAPHORE_ADD adds at the target
core, saturating; slot B goes on, and takes semaphore overflow when the exact sum was too large; a signal of a partition whose context
is lost adds nothing (R413). R192, R193: SEMWAIT and SEMACQ go
on only when the count has reached the threshold, and then acquire; SEMACQ takes the threshold away; below it they have no effect.
SEMSET writes the count, SEMRD reads it. R195 to R197: the barrier instructions of slot B. BARSET, BARARR and the first half of
BARARW ask the dispatcher and wait; BARWAIT holds while its token's phase lasts, then acquires from the arrivals of that phase, however
many have ended since, and drops the token; without a token it traps. R196, R197: the dispatcher's answers. BARSET writes EXPECT and completes a phase that it fills; an arrival counts
once per phase, and the last one completes the phase; one that is not counted raises barrier misuse and changes nothing. -/
def Obligations.SemaphoresAndBarriers : Prop :=
  ((∀ (sem inc : BitVec 8) (ls : ListIx) (rmt : Bool) (sa : SReg) (s : State) (b : Bind),
    s.cc.bind = some b → ListGood s .release ls →
    let x := s.rs sa
    let target := if rmt then x.toNat else b.vcore
    ((rmt = true ∧ 8 * (s.part b.part).clusters.length ≤ x.toNat) → Traps (.semsig sem inc ls rmt sa) s 0x03 0 s.cur.word) ∧
    ((rmt = true → x.toNat < 8 * (s.part b.part).clusters.length ∧ x.toNat < 256) →
      ∃ t sig, exec (.semsig sem inc ls rmt sa) s = .next t ∧ { t with cores := s.cores, agenda := s.agenda } = s ∧
        t.agenda = s.agenda ++ [.semaphoreAdd sig] ∧ sig.part = b.part ∧ sig.target = target ∧ sig.sem = sem ∧ sig.inc = inc ∧
        sig.remote = rmt ∧ sig.from_ = .slot s.cur.core s.cur.slot ∧ (∀ k, k ∈ s.members → (s.cc.slot k).pts ≤ sig.pts) ∧
        sig.vcore = b.vcore ∧ sig.mask = (s.myEntry ls).cores ∧
        (∀ c, c ≠ s.cur.core → t.core c = s.core c) ∧ { t.cc with slots := s.cc.slots } = s.cc ∧
        (∀ k, k ≠ s.cur.slot → t.cc.slot k = s.cc.slot k) ∧
        { t.cs with pts := s.cs.pts } = { s.cs with await := some (.signal sem target rmt), snap := some (ls.toNat, s.myEntry ls) })) ∧
  (∀ (sig : Signal) (s : State), (s.part sig.part).lost = true → exec (.semaphoreAdd sig) s = .next s) ∧
  ∀ (sig : Signal) (s : State) (c k : Nat) (j : Slot), sig.from_ = .slot k j → (s.part sig.part).lost = false →
    s.signalCore sig = some c →
    ((s.core k).slot .B).await = some (.signal sig.sem sig.target sig.remote) → (∀ i, ((s.core k).slot i).pend = none) →
    (s.core k).notice = false →
    let n := (Tab.get 0 (s.core c).sems sig.sem.toNat).toNat + sig.inc.toNat
    ∃ t, exec (.semaphoreAdd sig) s = .next t ∧ { t with cores := s.cores, agenda := s.agenda } = s ∧
      (∀ d, d ≠ c → d ≠ k → t.core d = s.core d) ∧
      Tab.get 0 (t.core c).sems sig.sem.toNat = BitVec.ofNat 32 (min n 0xFFFFFFFF) ∧
      (∀ m, m ≠ sig.sem.toNat → Tab.get 0 (t.core c).sems m = Tab.get 0 (s.core c).sems m) ∧
      Tab.get 0 (t.core c).semRts sig.sem.toNat = max (Tab.get 0 (s.core c).semRts sig.sem.toNat) sig.pts ∧
      (∀ d, (t.core d).regs = (s.core d).regs) ∧ ((t.core k).slot .B).await = none ∧
      ((t.core k).slot .B).c0 = ((s.core k).slot .B).c1 ∧
      (n ≤ 0xFFFFFFFF → ((t.core k).slot .B).pend = none ∧ t.agenda = s.agenda) ∧
      (0xFFFFFFFF < n → t.agenda = s.agenda ++ [.trapEntry k] ∧ ((t.core k).slot .B).pend =
        some { code := 0x30, detail := 0#15 ++ ofBool1 sig.remote ++ BitVec.ofNat 8 sig.target ++ sig.sem, tval := 0 })) ∧
  (∀ (sem : BitVec 8) (sa sd : SReg) (imm : BitVec 20) (ls : ListIx) (s : State),
    let n := Tab.get 0 s.cc.sems sem.toNat
    let thr := (s.rs sa + imm.setWidth 64).extractLsb' 0 32
    let count (t : State) (v : BitVec 32) : Prop :=
      OnlyCore { s with fresh := t.fresh } t s.cur.core ∧ { t.cc with slots := s.cc.slots, sems := s.cc.sems } = s.cc ∧
      (∀ m, Tab.get 0 t.cc.sems m = if m = sem.toNat then v else Tab.get 0 s.cc.sems m) ∧
      (∀ k, k ≠ s.cur.slot → { t.cc.slot k with pts := (s.cc.slot k).pts } = s.cc.slot k) ∧ ChainedInTime s t s.gbrOutcome
    let acquired (t : State) : Prop := ∀ k r, k ∈ s.members → r ∈ Tab.get [] s.cc.semRels sem.toNat →
      r.meets (s.myEntry ls) (s.peerOf s.cur.core) (s.vcoreOf s.cur.core) = true → r.ts ≤ (t.cc.slot k).pts
    (ListGood s .acquire ls → n.toNat < thr.toNat →
      exec (.semwait sem sa imm ls) s = .next s ∧ exec (.semacq sem sa imm ls) s = .next s) ∧
    (ListGood s .acquire ls → thr.toNat ≤ n.toNat →
      (∃ t, exec (.semwait sem sa imm ls) s = .next t ∧ count t n ∧ acquired t) ∧
      ∃ t, exec (.semacq sem sa imm ls) s = .next t ∧ count t (n - thr) ∧ acquired t) ∧
    (∃ t, exec (.semset sem sa) s = .next t ∧ count t ((s.rs sa).extractLsb' 0 32)) ∧
    GivesScalar (.semrd sd sem) s sd (n.setWidth 64) false) ∧
  (∀ (bn : BitVec 8) (sa : SReg) (ls : ListIx) (s : State) (d : Bind), s.cc.bind = some d →
    let bar := (s.part d.part).barrier bn.toNat
    let asks (i : Instr) (w : Await) (snap : Option (Nat × ClEntry)) : Prop :=
      ∃ t, exec i s = .next t ∧ { t with cores := s.cores, agenda := s.agenda } = s ∧
        t.agenda = s.agenda ++ [.barrierAnswer s.cur.core] ∧ (∀ c, c ≠ s.cur.core → t.core c = s.core c) ∧
        { t.cc with slots := s.cc.slots } = s.cc ∧ (∀ k, k ≠ s.cur.slot → t.cc.slot k = s.cc.slot k) ∧
        { t.cs with pts := s.cs.pts } = { s.cs with await := some w, snap }
    let mine : Option (Nat × ClEntry) := some (ls.toNat, s.myEntry ls)
    let list : ClEntry := match s.cs.held with | some e => e | none => s.myEntry ls
    let waits (i : Instr) : Prop :=
      (Tab.find? s.cc.tokens bn.toNat = none → Traps i s 0x03 (0#24 ++ bn) s.cur.word) ∧
      (∀ ph, Tab.find? s.cc.tokens bn.toNat = some ph → bar.phase = ph → exec i s = .next s) ∧
      (∀ ph, Tab.find? s.cc.tokens bn.toNat = some ph → bar.phase ≠ ph →
        ∃ t, exec i s = .next t ∧ OnlyCore { s with fresh := t.fresh } t s.cur.core ∧
          { t.cc with slots := s.cc.slots, tokens := s.cc.tokens } = s.cc ∧
          t.cc.tokens = Tab.erase s.cc.tokens bn.toNat ∧ ChainedInTime s t s.gbrOutcome ∧
          ∀ k r, k ∈ s.members → r ∈ Tab.get [] (s.part d.part).bnRels bn.toNat ++
              ((Tab.get [] (s.part d.part).bnPast bn.toNat).find? (fun y => y.1 == ph)).elim [] (fun y => y.2.2) →
            r.meets list (s.peerOf s.cur.core) (s.vcoreOf s.cur.core) = true → r.ts ≤ (t.cc.slot k).pts)
    ((s.rs sa).toNat < 65536 → asks (.barset bn sa) (.barset bn.toNat ((s.rs sa).extractLsb' 0 16)) s.cs.snap) ∧
    (65536 ≤ (s.rs sa).toNat → Traps (.barset bn sa) s 0x03 0 s.cur.word) ∧
    (ListGood s .release ls →
      asks (.bararr bn ls) (.bararr bn.toNat) mine ∧ (s.cs.waitHalf = false → asks (.bararw bn ls) (.bararw bn.toNat) mine) ∧
      waits (.barwait bn ls) ∧ (s.cs.waitHalf = true → waits (.bararw bn ls)))) ∧
  (∀ (c : Nat) (s : State) (d : Bind) (bn : Nat), (s.core c).bind = some d → (∀ k, ((s.core c).slot k).pend = none) →
    (s.core c).notice = false →
    let bar := (s.part d.part).barrier bn
    let after (t : State) : Barrier := (t.part d.part).barrier bn
    let others (t : State) : Prop :=
      { t with cores := s.cores, parts := s.parts, agenda := s.agenda } = s ∧ (∀ k, k ≠ c → t.core k = s.core k) ∧
      (∀ p, p ≠ d.part → t.part p = s.part p) ∧ (∀ b, b ≠ bn → (t.part d.part).barrier b = (s.part d.part).barrier b)
    let slotB (u : State) : SlotState := (u.core c).slot .B
    (∀ e : BitVec 16, (slotB s).await = some (.barset bn e) →
      ∃ t, exec (.barrierAnswer c) s = .next t ∧ others t ∧ t.agenda = s.agenda ∧
        after t = (if 1 ≤ e.toNat ∧ e.toNat ≤ bar.arrived.toNat then { phase := bar.phase + 1, arrived := 0, expect := e }
          else { bar with expect := e }) ∧ (slotB t).await = none ∧ (slotB t).c0 = (slotB s).c1) ∧
    ∀ half : Bool, (slotB s).await = some (if half then .bararw bn else .bararr bn) →
      (bar.expect = 0 ∨ Tab.find? (s.core c).tokens bn = some bar.phase →
        ∃ t, exec (.barrierAnswer c) s = .next t ∧ others t ∧ after t = bar ∧ t.agenda = s.agenda ++ [.trapEntry c] ∧
          (t.core c).tokens = (s.core c).tokens ∧ (slotB t).c0 = (slotB s).c1 ∧
          (slotB t).pend = some { code := 0x31, detail := BitVec.ofNat 32 bn, tval := 0 }) ∧
      (bar.expect ≠ 0 → Tab.find? (s.core c).tokens bn ≠ some bar.phase →
        ∃ t, exec (.barrierAnswer c) s = .next t ∧ others t ∧ t.agenda = s.agenda ∧
          after t = (if bar.arrived + 1 = bar.expect then { phase := bar.phase + 1, arrived := 0, expect := bar.expect }
            else { bar with arrived := bar.arrived + 1 }) ∧
          Tab.find? (t.core c).tokens bn = some bar.phase ∧ (slotB t).await = none ∧
          (half = false → (slotB t).c0 = (slotB s).c1) ∧
          (half = true → (slotB t).c0 = (slotB s).c0 ∧ (slotB t).waitHalf = true)))

/-! Vector arithmetic. -/

/-- R54 to R56: for every format, Round gives the multiple of the format's spacing that the rounding mode names, with NX when it differs
from the exact number and UF when it is then tiny; FTZ flushes a subnormal result; past the largest finite number the result is
that of the table of R55, with OF and NX. -/
def Obligations.RoundingIsByMode : Prop :=
  ∀ (env : FpEnv) (f : Fmt) (top : Nat × Int) (neg : Bool) (m : Nat) (e : Int), (f, top) ∈ formats → 0 < m →
    Rounded env f top neg (cmpNum m e) (round env f neg m e false)

/-- R50, R54, R131 to R133, R136: sums, products and fused sums of numbers are Round of the exact value, written in integers; zeros,
infinities and NaNs as the tables say. 1/a, 1/√a and √a of a number are Round of the exact value; the values of 2^a, log2 a and tanh a
that are not exact rest on log 9, and only their tables and exact values are stated. R61, R63, R64, R129: the floating-point forms
act so on each sub-element of each active element, with the controls of FPCTL; the conditions of the active elements go to FPFLAGS,
and an enabled one traps after the instruction has completed. -/
def Obligations.VectorFloatForms : Prop :=
  (∀ (env : FpEnv) (f : Fmt) (np nc s t u : Bool) (m n o fr : Nat) (e g i : Int) (a b : FVal),
    let bad : Res := { v := f.nan false 0, c := cNV }
    let inf (s : Bool) : Res := { v := f.infinity s }
    let zero (s : Bool) : Res := { v := f.zero s }
    let signals (l : List FVal) : Conds := if l.any FVal.snan then cNV else 0
    let k := min e g
    let k3 := min (e + g) i
    fAdd env f (.num s m e) (.num t n g) = roundSum env f (inUnits s m e k + inUnits t n g k) k ∧
    fAdd env f (.zero s) (.zero t) = zero (if s = t then s else env.rm == .rdn) ∧
    fAdd env f (.num s m e) (.zero t) = round env f s m e false ∧ fAdd env f (.zero t) (.num s m e) = round env f s m e false ∧
    (f.ieee = true → a.isNan = false → a ≠ .inf (!s) → fAdd env f (.inf s) a = inf s ∧ fAdd env f a (.inf s) = inf s) ∧
    fAdd env f (.inf s) (.inf (!s)) = bad ∧
    fAdd env f (.nan s fr) b = { v := f.nan s fr, c := signals [.nan s fr, b] } ∧
    (a.isNan = false → fAdd env f a (.nan s fr) = { v := f.nan s fr, c := signals [.nan s fr] }) ∧
    (FVal.num s m e).minus = .num (!s) m e ∧ (FVal.zero s).minus = .zero (!s) ∧ (FVal.inf s).minus = .inf (!s) ∧
    (FVal.nan s fr).minus = .nan s fr ∧
    fMul env f (.num s m e) (.num t n g) = round env f (s != t) (m * n) (e + g) false ∧
    fMul env f (.zero s) (.num t n g) = zero (s != t) ∧ fMul env f (.num s m e) (.zero t) = zero (s != t) ∧
    fMul env f (.zero s) (.zero t) = zero (s != t) ∧ fMul env f (.zero s) (.inf t) = bad ∧ fMul env f (.inf s) (.zero t) = bad ∧
    (f.ieee = true → fMul env f (.inf s) (.num t n g) = inf (s != t) ∧ fMul env f (.num t n g) (.inf s) = inf (t != s) ∧
      fMul env f (.inf s) (.inf t) = inf (s != t)) ∧
    fMul env f (.nan s fr) b = { v := f.nan s fr, c := signals [.nan s fr, b] } ∧
    (a.isNan = false → fMul env f a (.nan s fr) = { v := f.nan s fr, c := signals [.nan s fr] }) ∧
    fFma env f np nc (.num s m e) (.num t n g) (.num u o i) =
      roundSum env f (inUnits ((s != t) != np) (m * n) (e + g) k3 + inUnits (u != nc) o i k3) k3 ∧
    fFma env f np nc (.num s m e) (.num t n g) (.zero u) = round env f ((s != t) != np) (m * n) (e + g) false ∧
    (fMul env f a b = zero s → a.isNan = false → b.isNan = false → (a = .zero a.neg ∨ b = .zero b.neg) → s = (a.neg != b.neg) →
      fFma env f np nc a b (.num u o i) = round env f (u != nc) o i false ∧
      fFma env f np nc a b (.zero u) = zero (if (s != np) = (u != nc) then s != np else env.rm == .rdn)) ∧
    (f.ieee = true → fFma env f np nc (.num s m e) (.num t n g) (.inf u) = inf (u != nc) ∧
      fFma env f np nc (.inf s) (.num t n g) (.num u o i) = inf ((s != t) != np) ∧
      fFma env f np nc (.inf s) (.num t n g) (.inf u) = if ((s != t) != np) = (u != nc) then inf (u != nc) else bad) ∧
    fFma env f np nc (.zero s) (.inf t) (.nan u fr) = { v := f.nan u fr, c := cNV } ∧
    (b.isNan = false → fFma env f np nc (.inf s) (.zero t) b = bad) ∧
    fFma env f np nc (.nan s fr) a b = { v := f.nan s fr, c := signals [.nan s fr, a, b] } ∧
    (a.isNan = false → fFma env f np nc a (.nan s fr) b = { v := f.nan s fr, c := signals [.nan s fr, b] }) ∧
    fFma env f np nc (.num s m e) (.num t n g) (.nan u fr) = { v := f.nan u fr, c := signals [.nan u fr] } ∧
    (a.isNan = false → b.isNan = false →
      fMinMax env f false a b = deliver env f (if fLtZ a b then a else b) ∧
      fMinMax env f true a b = deliver env f (if fLtZ a b then b else a)) ∧
    fLtZ (.num s m e) (.num t n g) = decide (inUnits s m e k < inUnits t n g k) ∧ fLtZ (.zero s) (.zero t) = (s && !t) ∧
    fLtZ (.num s m e) (.zero t) = s ∧ fLtZ (.zero t) (.num s m e) = !s ∧
    (a.isNan = false → fLtZ (.inf s) a = (s && decide (a ≠ .inf true)) ∧ fLtZ a (.inf s) = (!s && decide (a ≠ .inf false))) ∧
    fMinMax env f np (.nan s fr) b = { v := f.nan s fr, c := signals [.nan s fr, b] } ∧
    (a.isNan = false → fMinMax env f np a (.nan s fr) = { v := f.nan s fr, c := signals [.nan s fr] }) ∧
    fSign env f t (.num s m e) = round env f t m e false ∧ fSign env f t (.zero s) = zero t ∧
    (f.ieee = true → fSign env f t (.inf s) = inf t) ∧
    fSign env f t (.nan s fr) = { v := f.nan t fr, c := signals [.nan s fr] } ∧
    ∀ h : FpEnv → Fmt → FVal → Res, h ∈ [fRcp, fRsq, fSqrt, fExp2, fLog2, fTanh] →
      h env f (.nan s fr) = { v := f.nan s fr, c := signals [.nan s fr] }) ∧
  (∀ (env : FpEnv) (f : Fmt) (top : Nat × Int) (s : Bool) (m : Nat) (e : Int), (f, top) ∈ formats → f.ieee = true → 0 < m →
    let bad : Res := { v := f.nan false 0, c := cNV }
    let pole (s : Bool) : Res := { v := f.infinity s, c := cDZ }
    let one (s : Bool) : Res := round env f s 1 0 false
    Rounded env f top s (fun h k => compare (h * m * 2 ^ (k + e).toNat) (2 ^ (-(k + e)).toNat)) (fRcp env f (.num s m e)) ∧
    Rounded env f top false (fun h k => compare (h * h * m * 2 ^ (2 * k + e).toNat) (2 ^ (-(2 * k + e)).toNat))
      (fRsq env f (.num false m e)) ∧
    Rounded env f top false (fun h k => compare (h * h * 2 ^ (2 * k - e).toNat) (m * 2 ^ (e - 2 * k).toNat))
      (fSqrt env f (.num false m e)) ∧
    fRcp env f (.inf s) = { v := f.zero s } ∧ fRcp env f (.zero s) = pole s ∧
    fRsq env f (.num true m e) = bad ∧ fRsq env f (.inf true) = bad ∧ fRsq env f (.inf false) = { v := f.zero false } ∧
    fRsq env f (.zero s) = pole s ∧
    fSqrt env f (.num true m e) = bad ∧ fSqrt env f (.inf true) = bad ∧ fSqrt env f (.inf false) = { v := f.infinity false } ∧
    fSqrt env f (.zero s) = { v := f.zero s } ∧
    fExp2 env f (.inf true) = { v := f.zero false } ∧ fExp2 env f (.inf false) = { v := f.infinity false } ∧
    fExp2 env f (.zero s) = one false ∧
    (∀ n : Nat, n ≤ 4096 → m * 2 ^ e.toNat = n * 2 ^ (-e).toNat →
      fExp2 env f (.num s m e) = round env f false 1 (if s then -(n : Int) else n) false) ∧
    fLog2 env f (.num true m e) = bad ∧ fLog2 env f (.inf true) = bad ∧ fLog2 env f (.inf false) = { v := f.infinity false } ∧
    fLog2 env f (.zero s) = pole true ∧
    (∀ j : Nat, fLog2 env f (.num false (2 ^ j) e) =
      if (j : Int) + e = 0 then { v := f.zero false } else round env f (decide ((j : Int) + e < 0)) ((j : Int) + e).natAbs 0 false) ∧
    fTanh env f (.inf s) = one s ∧ fTanh env f (.zero s) = { v := f.zero s }) ∧
  ∀ (ty : VTy) (vd va vb vc : VReg) (mk : MReg) (s : State),
    let env := FpEnv.ofCtl s.cc.src.fpctl
    let f := tyFmt ty
    let x (v : VReg) (e i : Nat) : FVal := f.decode env.daz (sub ((s.rv v).get e) (tyWidth ty) i)
    let one (g : FVal → Res) (e : Nat) : ElemRes := mapSubs ty (fun i => g (x va e i))
    let two (g : FVal → FVal → Res) (e : Nat) : ElemRes := mapSubs ty (fun i => g (x va e i) (x vb e i))
    let three (negProduct negC : Bool) (e : Nat) : ElemRes :=
      mapSubs ty (fun i => fFma env f negProduct negC (x va e i) (x vb e i) (x vc e i))
    GivesArith (.vadd ty vd va vb mk) s vd mk (two (fAdd env f)) ∧
    GivesArith (.vsub ty vd va vb mk) s vd mk (two (fun a b => fAdd env f a b.minus)) ∧
    GivesArith (.vmul ty vd va vb mk) s vd mk (two (fMul env f)) ∧
    GivesArith (.vmin ty vd va vb mk) s vd mk (two (fMinMax env f false)) ∧
    GivesArith (.vmax ty vd va vb mk) s vd mk (two (fMinMax env f true)) ∧
    GivesArith (.vcpysgn ty vd va vb mk) s vd mk (two (fun a b => fSign env f b.neg a)) ∧
    GivesArith (.vfma ty vd va vb vc mk) s vd mk (three false false) ∧
    GivesArith (.vfms ty vd va vb vc mk) s vd mk (three false true) ∧
    GivesArith (.vfnma ty vd va vb vc mk) s vd mk (three true false) ∧
    GivesArith (.vabs ty vd va mk) s vd mk (one (fSign env f false)) ∧
    GivesArith (.vneg ty vd va mk) s vd mk (one (fun a => fSign env f (!a.neg) a)) ∧
    GivesMasked (.vclass ty vd va mk) s vd mk (fun e => elemOf ty (fun i => fClass f (sub ((s.rv va).get e) (tyWidth ty) i))) ∧
    GivesArith (.vrcp ty vd va mk) s vd mk (one (fRcp env f)) ∧
    GivesArith (.vrsq ty vd va mk) s vd mk (one (fRsq env f)) ∧
    GivesArith (.vsqrt ty vd va mk) s vd mk (one (fSqrt env f)) ∧
    GivesArith (.vexp2 ty vd va mk) s vd mk (one (fExp2 env f)) ∧
    GivesArith (.vlog2 ty vd va mk) s vd mk (one (fLog2 env f)) ∧
    GivesArith (.vtanh ty vd va mk) s vd mk (one (fTanh env f))

/-- R135, R164: VCMP sets the mask bit of each active element: for ne when some sub-element differs, for every other condition when it
holds in all of them; inactive bits keep their value. R164, R165: the mask forms act on each bit that the mask selects; MPOPC
counts and MFIRST finds the lowest selected bit, 1,024 for none. -/
def Obligations.VectorCompareAndMasks : Prop :=
  (∀ (c : VCond) (ty : VTy) (md : MReg) (va vb : VReg) (mk : MReg) (s : State),
    let env := FpEnv.ofCtl s.cc.src.fpctl
    let a (e : Nat) := (s.rv va).get e
    let b (e : Nat) := (s.rv vb).get e
    let n := vcondIx (if c = .ne then .eq else c)
    let subs (e : Nat) := (List.range ty.group).map (fun i => cmpSub env n ty (a e) (b e) i)
    let holds (e : Nat) : Bool := (subs e).all (fun x => x.1)
    ∃ t r, exec (.vcmp c ty md va vb mk) s = .next t ∧ SlotActs s t ∧
      (s.rm mk ≠ 0 → MaskWritten s.cc.regs r md (fun e =>
        if (s.rm mk).getLsbD e then (if c = .ne then !holds e else holds e) else (s.rm md).getLsbD e)) ∧
      (s.rm mk = 0 → r = s.cc.regs) ∧
      Flagged s t r (activeElems (s.rm mk)) (fun e => (subs e).foldr (fun x y => x.2 ||| y) 0)) ∧
  (∀ (md ma mb mk : MReg) (sd : SReg) (s : State),
    let put (i : Instr) (g : Nat → Bool) : Prop :=
      GivesMask i s md (fun e => if (s.rm mk).getLsbD e then g e else (s.rm md).getLsbD e)
    let a (e : Nat) := (s.rm ma).getLsbD e
    let b (e : Nat) := (s.rm mb).getLsbD e
    let hit (e : Nat) : Bool := a e && (s.rm mk).getLsbD e
    put (.mand md ma mb mk) (fun e => a e && b e) ∧ put (.mor md ma mb mk) (fun e => a e || b e) ∧
    put (.mxor md ma mb mk) (fun e => a e != b e) ∧ put (.mnot md ma mk) (fun e => !a e) ∧
    GivesScalar (.mpopc sd ma mk) s sd (BitVec.ofNat 64 ((List.range 1024).countP hit)) false ∧
    GivesScalar (.mfirst sd ma mk) s sd (BitVec.ofNat 64 (((List.range 1024).find? hit).getD 1024)) false)

/-- R137 to R140: the integer forms on each sub-element of width w, read as numbers; shift amounts are modulo w; VIADD and VISUB wrap,
or clamp to the type's range when SAT is set. They raise no condition. -/
def Obligations.VectorIntegerForms : Prop :=
  ∀ (ty : VTy) (vd va vb vc : VReg) (tt : BitVec 8) (mk : MReg) (s : State),
    let w := tyWidth ty
    let x (v : VReg) (e i : Nat) : Nat := sub ((s.rv v).get e) w i
    let wrap (n : Int) : Nat := (n % (2 ^ w : Nat)).toNat
    let fit (n : Int) : Nat := wrap (if s.cc.src.fpctl.getLsbD 2 then
      max (if tySigned ty then -(2 ^ (w - 1) : Nat) else 0) (min (if tySigned ty then (2 ^ (w - 1) : Nat) - 1 else (2 ^ w : Nat) - 1) n) else n)
    let one (g : Nat → Nat) (e : Nat) : Elem := elemOf ty (fun i => g (x va e i))
    let two (g : Nat → Nat → Nat) (e : Nat) : Elem := elemOf ty (fun i => g (x va e i) (x vb e i))
    let three (g : Nat → Nat → Nat → Nat) (e : Nat) : Elem := elemOf ty (fun i => g (x va e i) (x vb e i) (x vc e i))
    let v := ival ty
    GivesMasked (.viadd ty vd va vb mk) s vd mk (two (fun a b => fit (v a + v b))) ∧
    GivesMasked (.visub ty vd va vb mk) s vd mk (two (fun a b => fit (v a - v b))) ∧
    GivesMasked (.vimul ty vd va vb mk) s vd mk (two (fun a b => wrap (v a * v b))) ∧
    GivesMasked (.vimulh ty vd va vb mk) s vd mk (two (fun a b => wrap (v a * v b / (2 ^ w : Nat)))) ∧
    GivesMasked (.vimin ty vd va vb mk) s vd mk (two (fun a b => wrap (min (v a) (v b)))) ∧
    GivesMasked (.vimax ty vd va vb mk) s vd mk (two (fun a b => wrap (max (v a) (v b)))) ∧
    GivesMasked (.vshl ty vd va vb mk) s vd mk (two (fun a b => a * 2 ^ (b % w))) ∧
    GivesMasked (.vshr ty vd va vb mk) s vd mk (two (fun a b => a / 2 ^ (b % w))) ∧
    GivesMasked (.vsar ty vd va vb mk) s vd mk
      (two (fun a b => wrap ((if 2 ^ (w - 1) ≤ a then (a : Int) - (2 ^ w : Nat) else a) / (2 ^ (b % w) : Nat)))) ∧
    GivesMasked (.vrotl ty vd va vb mk) s vd mk (two (fun a b => a * 2 ^ (b % w) + a / 2 ^ (w - b % w))) ∧
    GivesMasked (.vand ty vd va vb mk) s vd mk (fun e => (s.rv va).get e &&& (s.rv vb).get e) ∧
    GivesMasked (.vor ty vd va vb mk) s vd mk (fun e => (s.rv va).get e ||| (s.rv vb).get e) ∧
    GivesMasked (.vxor ty vd va vb mk) s vd mk (fun e => (s.rv va).get e ^^^ (s.rv vb).get e) ∧
    GivesMasked (.vimad ty vd va vb vc mk) s vd mk (three (fun a b c => a * b + c)) ∧
    GivesMasked (.vfshl ty vd va vb vc mk) s vd mk (three (fun a b c => (a * 2 ^ w + b) * 2 ^ (c % w) / 2 ^ w)) ∧
    GivesMasked (.vfshr ty vd va vb vc mk) s vd mk (three (fun a b c => (a * 2 ^ w + b) / 2 ^ (c % w))) ∧
    GivesMasked (.vlop3 ty vd va vb vc tt mk) s vd mk (fun e => BitVec.ofNat 32 (((List.range 32).map (fun i =>
      if tt.getLsbD (4 * (if ((s.rv va).get e).getLsbD i then 1 else 0) + 2 * (if ((s.rv vb).get e).getLsbD i then 1 else 0) +
        (if ((s.rv vc).get e).getLsbD i then 1 else 0)) then 2 ^ i else 0)).sum)) ∧
    GivesMasked (.vpopc ty vd va mk) s vd mk (one (fun a => (List.range w).countP (fun i => a.testBit i))) ∧
    GivesMasked (.vclz ty vd va mk) s vd mk (one (fun a => if a = 0 then w else w - 1 - Nat.log2 a))

/-- R58 to R60, R141 to R144: VCVT, VPACK and VUNPACK convert the sub-elements in order. A stochastic conversion uses the bits of R59
for each element and sub-element, and each such instruction counts SRSTEP. R52, R145, R146: VMXQ quantises eight blocks of 32
values to the element format, in value order, and writes their scales to s[SB]; VMXD gives each value times the scale of its
block. R52, R53, R54, R57: a conversion of a number is Round of it; one to an integer rounds by the mode and is invalid outside the
range; a block takes the scale of its largest value, and each element is Round of its value over the scale. -/
def Obligations.ConversionsAndMxBlocks : Prop :=
  (∀ (env : FpEnv) (dst src : VTy) (x : Nat) (s : Bool) (m fr : Nat) (e : Int),
    let a := (tyFmt src).decode env.daz x
    let c := convert env dst src none x
    let lo : Int := if tySigned dst then -(2 ^ (tyWidth dst - 1) : Nat) else 0
    let hi : Int := if tySigned dst then (2 ^ (tyWidth dst - 1) : Nat) - 1 else (2 ^ tyWidth dst : Nat) - 1
    let wrap (n : Int) : Nat := (n % (2 ^ tyWidth dst : Nat)).toNat
    let v := ival src x
    (src.isFloat = true → dst.isFloat = true →
      (a = .num s m e → c = round env (tyFmt dst) s m e false) ∧ (a = .zero s → c = { v := (tyFmt dst).zero s }) ∧
      (a = .inf s → dst ≠ .e4m3x4 → c = { v := (tyFmt dst).infinity s }) ∧
      (a = .inf s → dst = .e4m3x4 → c = { v := (if s then 0x80 else 0) + if env.sat = true ∨ env.rm = .rtz ∨
          (env.rm = .rdn ∧ s = false) ∨ (env.rm = .rup ∧ s = true) then 0x7E else 0x7F, c := cOF ||| cNX }) ∧
      (a = .nan s fr → c = { v := (tyFmt dst).nan s fr, c := if fr < 2 ^ 22 then cNV else 0 })) ∧
    (src.isFloat = true → dst.isFloat = false →
      (a = .nan s fr → c = { v := 0, c := cNV }) ∧ (a = .inf s → c = { v := wrap (if s then lo else hi), c := cNV }) ∧
      (a = .zero s → c = { v := 0 }) ∧
      (a = .num s m e → ∃ y, ByMode env.rm s (fun h => cmpNum m e h (-1)) y ∧
        let n : Int := if s then -(y : Int) else y
        c = if n < lo then { v := wrap lo, c := cNV } else if hi < n then { v := wrap hi, c := cNV }
          else { v := wrap n, c := if cmpNum m e y 0 = .eq then 0 else cNX })) ∧
    (src.isFloat = false → dst.isFloat = true →
      (v = 0 → c = { v := 0 }) ∧ (v ≠ 0 → c = round env (tyFmt dst) (decide (v < 0)) v.natAbs 0 false)) ∧
    (src.isFloat = false → dst.isFloat = false → c = { v := wrap (if env.sat then max lo (min hi v) else v) })) ∧
  (∀ (env : FpEnv) (f d : Fmt) (l : List FVal) (x y : Nat) (s : Bool) (m : Nat) (e top : Int),
    let emax : Int := if f = e2m1 then 2 else if f = e4m3 then 8 else 15
    let b := mxQuantise f l
    let near : FpEnv := { rm := .rne, sat := true, ftz := false, daz := false }
    let scaled (s : Bool) (m : Nat) (e : Int) : Res := round near f s m (e - ((b.x : Int) - 127)) false
    (f = e2m1 ∨ f = e4m3 ∨ f = e5m2) →
    ((∃ v, v ∈ l ∧ (v.isNan = true ∨ v = .inf v.neg)) → b = { x := 0xFF, elems := l.map (fun _ => 0), c := cNV }) ∧
    ((∀ v, v ∈ l → v = .zero v.neg) → b = { x := 0, elems := l.map (fun v => f.zero v.neg), c := 0 }) ∧
    ((∀ v, v ∈ l → v.isNan = false ∧ v ≠ .inf v.neg) → (∃ v, v ∈ l ∧ v.log2 = some top) →
      (∀ (v : FVal) (t : Int), v ∈ l → v.log2 = some t → t ≤ top) →
      (b.x : Int) = max 0 (min 254 (top - emax + 127)) ∧
      (∀ (j : Nat) (s : Bool) (m : Nat) (e : Int), l[j]? = some (.num s m e) → b.elems[j]? = some (scaled s m e).v) ∧
      (∀ (j : Nat) (s : Bool), l[j]? = some (.zero s) → b.elems[j]? = some (f.zero s)) ∧
      ((∃ s m e, FVal.num s m e ∈ l ∧ (scaled s m e).c ≠ 0) → b.c = cNX) ∧
      ((∀ s m e, FVal.num s m e ∈ l → (scaled s m e).c = 0) → b.c = 0)) ∧
    mxDequant env f d 0xFF y = { v := d.nan false 0 } ∧
    (x < 0xFF → f.decode false y = .num s m e → mxDequant env f d x y = round env d s m (e + ((x : Int) - 127)) false) ∧
    (x < 0xFF → f.decode false y = .zero s → mxDequant env f d x y = { v := d.zero s }) ∧
    (x < 0xFF → d.ieee = true → f.decode false y = .inf s → mxDequant env f d x y = { v := d.infinity s })) ∧
  (∀ (dst src : VTy) (vd va vb : VReg) (mk : MReg) (s : State),
    let env := FpEnv.ofCtl s.cc.src.fpctl
    let stoch : Bool := s.cc.src.fpctl.getLsbD 5 && decide (dst = .bf16x2) && src.isFloat
    let rnd (e i : Nat) : Option Nat :=
      if stoch then some (srBits (s.cc.src.fpctl.extractLsb' 32 32) s.cc.src.srstep (s.cc.src.vcore.extractLsb' 8 3).toNat e i) else none
    let x (v : VReg) (e i : Nat) : Nat := sub ((s.rv v).get e) (tyWidth src) i
    let arith (i : Instr) (g : Nat → ElemRes) : Prop :=
      ∃ t r, exec i s = .next t ∧ SlotActs s t ∧
        VectorWritten { s.cc.regs with srstep := if stoch then s.cc.regs.srstep + 1 else s.cc.regs.srstep } r vd
          (fun e => if (s.rm mk).getLsbD e then (g e).v else s.held vd mk e) ∧
        Flagged s t r (activeElems (s.rm mk)) (fun e => (g e).c)
    arith (.vcvt dst src vd va mk) (fun e => mapSubs dst (fun i => convert env dst src (rnd e i) (x va e i))) ∧
    arith (.vpack dst src vd va vb mk) (fun e => mapSubs dst (fun i =>
      convert env dst src (rnd e i) (if i < src.group then x va e i else x vb e (i - src.group)))) ∧
    (vd ≠ 255 → ∃ t r1 r, exec (.vunpack dst src vd va mk) s = .next t ∧ SlotActs s t ∧
      (let half (k e : Nat) : ElemRes := mapSubs dst (fun i => convert env dst src none (x va e (dst.group * k + i)))
       VectorWritten s.cc.regs r1 vd (fun e => if (s.rm mk).getLsbD e then (half 0 e).v else s.held vd mk e) ∧
       VectorWritten r1 r (vd + 1) (fun e => if (s.rm mk).getLsbD e then (half 1 e).v else s.held (vd + 1) mk e) ∧
       Flagged s t r (activeElems (s.rm mk)) (fun e => (half 0 e).c ||| (half 1 e).c)))) ∧
  (∀ (fmt : MxFmt) (ty : VTy) (vd va : VReg) (sb : SReg) (mk : MReg) (s : State),
    let env := FpEnv.ofCtl s.cc.src.fpctl
    let ef := mxFmt fmt
    let per := 32 / ef.w
    (let value (n : Nat) : FVal := (tyFmt ty).decode env.daz (sub ((s.rv va).get (n / ty.group)) (tyWidth ty) (n % ty.group))
     let block (k : Nat) := mxQuantise ef ((List.range 32).map (fun j => value (32 * k + j)))
     ∃ t r0 r, exec (.vmxq fmt ty vd va sb mk) s = .next t ∧ SlotActs s t ∧
       ScalarWritten s.cc.regs r0 sb (BitVec.ofNat 64 (((List.range 8).map (fun k => (block k).x % 256 * 256 ^ k)).sum)) false ∧
       VectorWritten r0 r vd (fun e => if (s.rm mk).getLsbD e then
         (if e < 256 / per then BitVec.ofNat 32 (((List.range per).map (fun i =>
           (block ((per * e + i) / 32)).elems.getD ((per * e + i) % 32) 0 % 2 ^ ef.w * 2 ^ (ef.w * i))).sum) else 0)
         else s.held vd mk e) ∧
       Flagged s t r ((activeElems (s.rm mk)).filter (fun e => e < 256 / per)) (fun e => (block (per * e / 32)).c)) ∧
    GivesArith (.vmxd fmt ty vd va sb mk) s vd mk (fun e =>
      if e < 256 / ty.group then mapSubs ty (fun i =>
        mxDequant env ef (tyFmt ty) (((s.rs sb).extractLsb' (8 * ((ty.group * e + i) / 32)) 8).toNat)
          (sub ((s.rv va).get ((ty.group * e + i) / per)) ef.w ((ty.group * e + i) % per)))
      else { v := 0 }))

/-- R150, R152 to R154, R162, R163: moves, insertions, selection, compression and expansion. R155, R156, R160, R161: rotations and
broadcasts along rows (element 64 i + j stands in row i, column j) and columns, the transpose and the permutation. -/
def Obligations.VectorMovesAndAxes : Prop :=
  (∀ (ty : VTy) (vd va vb : VReg) (sd sb : SReg) (idx : BitVec 12) (imm : BitVec 32) (mk : MReg) (s : State),
    let on (e : Nat) : Bool := (s.rm mk).getLsbD e
    let a (e : Nat) := (s.rv va).get e
    let low : Elem := (s.rs sb).extractLsb' 0 32
    GivesVector (.vsel vd va vb mk) s vd (fun e => if on e then a e else (s.rv vb).get e) ∧
    GivesMasked (.vmov vd va mk) s vd mk a ∧
    GivesVector (.vmovs vd va sb mk) s vd (fun e => if on e then low else a e) ∧
    (idx.toNat < 1024 → on idx.toNat = true → GivesScalar (.vext sd va idx mk) s sd ((a idx.toNat).setWidth 64) false) ∧
    (idx.toNat < 1024 → on idx.toNat = false → GivesBranch (.vext sd va idx mk) s s.gbrOutcome) ∧
    (idx.toNat < 1024 →
      GivesVector (.vins vd va sb idx mk) s vd (fun e => if on e = true ∧ e = idx.toNat then low else a e)) ∧
    GivesMasked (.vmovi ty vd imm mk) s vd mk (fun _ => elemOf ty (fun _ => imm.toNat)) ∧
    (let t := activeElems (s.rm mk)
     ∃ u r, exec (.vcompress vd va sb mk) s = .next u ∧ SlotActs s u ∧ Chained s u s.gbrOutcome ∧
       ScalarWritten s.cc.regs r sb (BitVec.ofNat 64 t.length) false ∧
       VectorWritten r u.cc.regs vd (fun e => match t[e]? with | some j => a j | none => 0)) ∧
    GivesVector (.vexpand vd va mk) s vd (fun e => if on e then a ((List.range e).countP on) else 0)) ∧
  (∀ (ty : VTy) (vd va vb : VReg) (k : BitVec 8) (mk : MReg) (s : State),
    let a (row col : Nat) := (s.rv va).get (64 * row + col)
    (k.toNat < 64 →
      GivesMasked (.vrotr ty vd va k mk) s vd mk (fun e => a (e / 64) ((e % 64 + (64 - k.toNat)) % 64)) ∧
      GivesMasked (.vbcr ty vd va k mk) s vd mk (fun e => a (e / 64) k.toNat)) ∧
    (k.toNat < 16 →
      GivesMasked (.vrotc ty vd va k mk) s vd mk (fun e => a ((e / 64 + (16 - k.toNat)) % 16) (e % 64)) ∧
      GivesMasked (.vbcc ty vd va k mk) s vd mk (fun e => a k.toNat (e % 64))) ∧
    GivesMasked (.vtrn vd va mk) s vd mk (fun e => a (e % 16) (e % 64 / 16 * 16 + e / 64)) ∧
    GivesMasked (.vperm vd va vb mk) s vd mk (fun e =>
      if ((s.rv vb).get e).toNat < 1024 then (s.rv va).get ((s.rv vb).get e).toNat else 0))

/-- R65, R66: the tree T of R65 over 2^k inputs, written as the rule's recursion: the left half, then the right half; a node with one
absent child is the other child, and with two is absent. R158: the operation of a node by sub-element. R157 to R159, R167: a
reduction gives each active element the tree of its row's or column's active inputs; a scan goes through six levels of doubling
distance, each made from the one before it. Conditions count for the lowest active element of a group, and in a scan for the
position at which their node forms; that they count at inactive positions too is the model's reading (log 59). -/
def Obligations.ReductionsAndScansWhole : Prop :=
  (∀ (f : TNode → TNode → TNode) (k : Nat) (l r : List TNode), l.length = 2 ^ k → r.length = 2 ^ k →
    tree f (k + 1) (l ++ r) = f (tree f k l) (tree f k r) ∧ ∀ x : TNode, tree f 0 [x] = x) ∧
  (∀ (env : FpEnv) (op : RedOp) (ty : VTy) (a b : Elem) (x y : Nat) (c d : Conds),
    comb env op ty { v := none, c } { v := none, c := d } = { v := none, c := c ||| d } ∧
    comb env op ty { v := some a, c } { v := none, c := d } = { v := some a, c := c ||| d } ∧
    comb env op ty { v := none, c } { v := some b, c := d } = { v := some b, c := c ||| d } ∧
    (let r := mapSubs ty (fun i => redSub env op ty (sub a (tyWidth ty) i) (sub b (tyWidth ty) i))
     comb env op ty { v := some a, c } { v := some b, c := d } = { v := some r.v, c := c ||| d ||| r.c }) ∧
    (ty.isFloat = true →
      redSub env .add ty x y = fAdd env (tyFmt ty) ((tyFmt ty).decode false x) ((tyFmt ty).decode false y) ∧
      redSub env .min ty x y = fMinMax env (tyFmt ty) false ((tyFmt ty).decode false x) ((tyFmt ty).decode false y) ∧
      redSub env .max ty x y = fMinMax env (tyFmt ty) true ((tyFmt ty).decode false x) ((tyFmt ty).decode false y)) ∧
    (ty.isFloat = false →
      redSub env .add ty x y = { v := (x + y) % 2 ^ tyWidth ty } ∧
      redSub env .min ty x y = { v := if ival ty y < ival ty x then y else x } ∧
      redSub env .max ty x y = { v := if ival ty x < ival ty y then y else x }) ∧
    redSub env .and ty x y = { v := x &&& y } ∧ redSub env .or ty x y = { v := x ||| y } ∧
    redSub env .xor ty x y = { v := x ^^^ y }) ∧
  (∀ (op : RedOp) (ty : VTy) (vd va : VReg) (mk : MReg) (s : State),
    let env := FpEnv.ofCtl s.cc.src.fpctl
    let on (e : Nat) : Bool := (s.rm mk).getLsbD e
    let input (e : Nat) : TNode := { v := if on e then some (readInput env ty ((s.rv va).get e)) else none }
    let total (k : Nat) (g : List Nat) : TNode := tree (comb env op ty) k (g.map input)
    let row (i : Nat) := (List.range 64).map (fun j => 64 * i + j)
    let col (j : Nat) := (List.range 16).map (fun i => 64 * i + j)
    let reduces (i : Instr) (groups : List (List Nat)) (k : Nat) (mine : Nat → List Nat) : Prop :=
      ∃ t r, exec i s = .next t ∧ SlotActs s t ∧
        VectorWritten s.cc.regs r vd (fun e => if on e then (total k (mine e)).v.getD 0 else s.held vd mk e) ∧
        Flagged s t r (groups.filterMap (fun g => g.find? on)) (fun e => (total k (mine e)).c)
    reduces (.vredr op ty vd va mk) ((List.range 16).map row) 6 (fun e => row (e / 64)) ∧
    reduces (.vredc op ty vd va mk) ((List.range 64).map col) 4 (fun e => col (e % 64)) ∧
    ∃ t r, exec (.vscanr op ty vd va mk) s = .next t ∧ SlotActs s t ∧
      ∃ y : Nat → Nat → TNode, (∀ e, e < 1024 → y 0 e = input e) ∧
        (∀ l e, l < 6 → e < 1024 → y (l + 1) e =
          if 2 ^ l ≤ e % 64 then comb env op ty { y l (e - 2 ^ l) with c := 0 } (y l e) else y l e) ∧
        VectorWritten s.cc.regs r vd (fun e => if on e then (y 6 e).v.getD 0 else s.held vd mk e) ∧
        Flagged s t r (List.range 1024) (fun e => (y 6 e).c))

/-! Accumulator moves, engine queues and engine records. -/

/-- R41, R203 to R206: an accumulator move issues among at most 32, takes its operands at issue, and is performed after the earlier
moves of its tile; ACCLD then writes v[VD], ACCST one slice, ACCZ a whole tile. ACCWAIT waits, and reports the conditions of
performed moves, with the element of the one that issued first. -/
def Obligations.AccumulatorMoves : Prop :=
  (∀ (cv : Bool) (vd : VReg) (tl sl : BitVec 4) (s : State),
    let issues (i : Instr) (kind : MoveKind) (slice : Nat) : Prop :=
      (s.cc.moves.length < 32 → ∃ t, exec i s = .next t ∧ OnlyCore s t s.cur.core ∧
        { t.cc with slots := s.cc.slots } =
          { s.cc with moveSeq := s.cc.moveSeq + 1, moves := s.cc.moves ++
              [{ seq := s.cc.moveSeq, kind, tile := tl.toNat, slice, fpctl := s.cc.src.fpctl, mqBefore := s.cc.mq.enq,
                 knows := slotMask (allSlots.filter (fun k => (s.cc.slot k).group == s.cs.group))
                 joinedV := (s.cc.slot .V).group == s.cs.group }] } ∧
        (∀ k, k ≠ s.cur.slot → t.cc.slot k = s.cc.slot k) ∧ Chained s t s.gbrOutcome) ∧
      (32 ≤ s.cc.moves.length → exec i s = .next s)
    issues (.accld cv vd tl sl) (.ld cv vd) sl.toNat ∧ issues (.accst vd tl sl) (.st vd (s.rv vd)) sl.toNat ∧
    issues (.accz tl) .zero 0) ∧
  (∀ (n : BitVec 6) (s : State),
    (n.toNat < s.cc.moves.length → exec (.accwait n) s = .next s) ∧
    (s.cc.moves.length ≤ n.toNat → s.cc.conds = [] → GivesBranch (.accwait n) s s.gbrOutcome) ∧
    (s.cc.moves.length ≤ n.toNat → s.cc.conds ≠ [] →
      ∃ t x, x ∈ s.cc.conds ∧ (∀ y, y ∈ s.cc.conds → x.seq ≤ y.seq) ∧ exec (.accwait n) s = .next t ∧ OnlyCore s t s.cur.core ∧
        { t.cc with slots := s.cc.slots } = { s.cc with conds := [] } ∧ (∀ k, k ≠ s.cur.slot → t.cc.slot k = s.cc.slot k) ∧
        t.cs = { s.cs.chained s.gbrOutcome with
          pend := some { code := 0x50, tval := 0, detail := 0#6 ++ BitVec.ofNat 10 x.elem ++ 0#6 ++
            (s.cc.conds.foldl (fun c y => c ||| y.raised) 0) ++ (s.cc.conds.foldl (fun c y => c ||| y.enabled) 0) } })) ∧
  ∀ (c pos : Nat) (m : Move) (s : State), (s.core c).moves[pos]? = some m → m.tile < 16 → m.slice < 16 →
    (∀ x, x ∈ (s.core c).moves.take pos → x.tile ≠ m.tile) → (s.core c).moveHeld m = false →
    let k := s.core c
    let old := k.slice m.tile m.slice
    ∃ t, exec (.accMovePerformed c pos) s = .next t ∧ OnlyCore s t c ∧
      { t.core c with regs := k.regs, moves := k.moves, conds := k.conds, acc := k.acc, accZero := k.accZero } = k ∧
      (t.core c).moves = k.moves.eraseIdx pos ∧
      match m.kind with
      | .ld false vd => VectorWritten k.regs (t.core c).regs vd old.get ∧ (t.core c).conds = k.conds ∧
          (t.core c).acc = k.acc ∧ (t.core c).accZero = k.accZero
      | .ld true vd =>
        let out (n : Nat) : Res := fCvt { FpEnv.ofCtl m.fpctl with rm := .rne } fp32 bf16 (old.get n).toNat
        let raised := raisedBy (List.range 1024) (fun n => (out n).c)
        let on := enables m.fpctl
        (t.core c).acc = k.acc ∧ (t.core c).accZero = k.accZero ∧
        (∃ r, VectorWritten k.regs r vd (fun e => if e / 512 = m.slice % 2
            then BitVec.ofNat 16 (out (2 * (e % 512) + 1)).v ++ BitVec.ofNat 16 (out (2 * (e % 512))).v
            else (k.regs.vget vd.toNat).get e) ∧
          (t.core c).regs = { r with fpflags := r.fpflags ||| raised.setWidth 64 }) ∧
        (raised &&& on = 0 → (t.core c).conds = k.conds) ∧
        (raised &&& on ≠ 0 → ∃ n, n < 1024 ∧ (out n).c &&& on ≠ 0 ∧ (∀ j, j < n → (out j).c &&& on = 0) ∧
          (t.core c).conds = k.conds ++
            [{ seq := m.seq, raised, enabled := raised &&& on, elem := 512 * (m.slice % 2) + n / 2 }])
      | .st _ v => (t.core c).regs = k.regs ∧ (t.core c).conds = k.conds ∧
          ∀ i j e, i < 16 → j < 16 →
            ((t.core c).slice i j).get e = if i = m.tile ∧ j = m.slice then v.get e else (k.slice i j).get e
      | .zero => (t.core c).regs = k.regs ∧ (t.core c).conds = k.conds ∧
          ∀ i j e, i < 16 → j < 16 → ((t.core c).slice i j).get e = if i = m.tile then 0 else (k.slice i j).get e

/-- R44, R208 to R211, R229, R230: MENQ, CENQ and QJOIN put a checked record into its queue, behind at most 31 others, with what it is
ordered after; SLATE raises the stage counter, which saturates, and a released entry of the shot list enters its queue; QSTAT
reads a queue, in which a record that has still to signal counts as performed. -/
def Obligations.EngineEnqueues : Prop :=
  (∀ (q : Queue) (sa sd : SReg) (imm : BitVec 20) (n : BitVec 8) (s : State),
    let ra := s.rs sa + imm.setWidth 64
    let enters (i : Instr) (x : Enqueuer) (q : Queue) : Prop := s.cc.bind.isSome = true →
      (ra.toNat % 64 ≠ 0 ∨ 0x200000 ≤ ra.toNat → ∃ t, exec i s = .next t ∧
        ParkedAt s t s.cur.core s.cur.slot { cause := 0x42, addr := ra, reason := 1 }) ∧
      (∀ n, s.checkEnqueue x ra = .park n → ∃ t, exec i s = .next t ∧ { t.cc with slots := s.cc.slots } = s.cc ∧
        ParkedAt s t s.cur.core s.cur.slot { cause := 0x42, addr := ra, reason := BitVec.ofNat 8 n }) ∧
      ∀ r, s.checkEnqueue x ra = .ok r →
        r.w = (List.range 8).map (fun k =>
          let x := (s.cc.store.word (ra.toNat / 8 + k), s.cc.store.sealAt (ra.toNat / 8 + k))
          if x.2 = sealOf x.1 then x.1 else (secondIn s.cc.again (ra.toNat / 8 + k) x).1) ∧ r.kindOk x = true ∧ r.wait ≤ 3 ∧ r.bound ≠ 0 ∧
        (32 ≤ (s.cc.queue q).recs.length → exec i s = .next s) ∧
        ((s.cc.queue q).recs.length < 32 → ∃ t, exec i s = .next t ∧ OnlyCore { s with ecseal := t.ecseal } t s.cur.core ∧
          { t.cc with slots := s.cc.slots, mq := s.cc.mq, cq0 := s.cc.cq0, cq1 := s.cc.cq1 } = s.cc ∧
          (∀ k, k ≠ s.cur.slot → t.cc.slot k = s.cc.slot k) ∧ Chained s t s.gbrOutcome ∧
          ∀ p, t.cc.queue p = if p = q then { s.cc.queue q with
            enq := (s.cc.queue q).enq + 1, recs := (s.cc.queue q).recs ++
              [{ r with before := [s.cc.mq.enq, s.cc.cq0.enq, s.cc.cq1.enq], moves := s.cc.moveSeq, ts := s.cs.pts }] }
            else s.cc.queue p)
    enters (.menq sa imm) .menq .mq ∧ enters (.cenq q sa imm) (.cenq q) q ∧ enters (.qjoin q sa imm) (.qjoin q) q ∧
    (n = 0 → Traps (.slate n) s 0x03 0 s.cur.word) ∧
    (n ≠ 0 → ∃ t, exec (.slate n) s = .next t ∧ OnlyCore s t s.cur.core ∧
      { t.cc with slots := s.cc.slots, stage := s.cc.stage } = s.cc ∧ (∀ k, k ≠ s.cur.slot → t.cc.slot k = s.cc.slot k) ∧
      Chained s t s.gbrOutcome ∧ t.cc.stage.toNat = min (s.cc.stage.toNat + n.toNat) 0xFFFFFFFF) ∧
    ∃ w, GivesScalar (.qstat sd q) s sd w false ∧
      let x := s.cc.queue q
      let performed := if x.phase = .signal then 1 else 0
      let left := x.recs.drop performed
      w.extractLsb' 0 16 = BitVec.ofNat 16 (x.done + performed) ∧
      w.extractLsb' 56 8 = (match x.park with | some p => p.cause | none => 0) ∧
      (left = [] → w.extractLsb' 16 40 = 0) ∧
      ∀ r l, left = r :: l → w.extractLsb' 16 16 = r.tag ∧ w.extractLsb' 32 6 = BitVec.ofNat 6 left.length ∧
        w.extractLsb' 38 7 = 0 ∧ w.getLsbD 45 = decide (x.phase = .run) ∧ w.getLsbD 46 = decide (x.phase = .leave) ∧
        w.getLsbD 47 = decide (x.phase = .waiting) ∧
        w.extractLsb' 48 8 = if x.phase ≠ .waiting then 0
          else BitVec.ofNat 8 (if (Tab.get 0 s.cc.sems r.semA).toNat < r.thrA then r.semA else r.semB)) ∧
  ∀ (c : Nat) (x : Shot) (s : State), (s.core c).shots[(s.core c).shotsDone]? = some x → x.stage ≤ (s.core c).stage.toNat →
    let k := s.core c
    (32 ≤ (k.queue x.q).recs.length → exec (.shotReplay c) s = .next s) ∧
    ((k.queue x.q).recs.length < 32 → ∃ t, exec (.shotReplay c) s = .next t ∧ OnlyCore s t c ∧
      { t.core c with mq := k.mq, cq0 := k.cq0, cq1 := k.cq1, shotsDone := k.shotsDone } = k ∧
      (t.core c).shotsDone = k.shotsDone + 1 ∧
      ∀ p, (t.core c).queue p = if p = x.q then { k.queue p with
        enq := (k.queue p).enq + 1, recs := (k.queue p).recs ++
          [{ x.rcd with before := [k.mq.enq, k.cq0.enq, k.cq1.enq], moves := k.moveSeq, ts := (k.slot .E).pts }] } else k.queue p)

/-- R212 to R217, R228, R425: the life of the record at the head of a queue. It starts once it may use its list and, for a JOIN, once
the records before it are performed, and is then ordered after them (that its queue's time rises to theirs is the model's reading, log 63); waits for its semaphores; asks for leave, which the governor
grants in line, while a stop withdraws the request (R365); and when performed leaves the queue and signals, or parks when its target
is gone, or its list may not be used after a park has dropped its snapshot. A bound parks the queue, or stops
the array's record at its next K-step boundary. A list that it may not use parks it. -/
def Obligations.RecordLife : Prop :=
  ∀ (c cl : Nat) (q : Queue) (s : State) (r : Rec),
    let k := s.core c
    let x := k.queue q
    let frame (t : State) : Prop :=
      { t with cores := s.cores, clusters := s.clusters } = s ∧ (∀ d, d ≠ c → t.core d = s.core d) ∧
      { t.core c with mq := k.mq, cq0 := k.cq0, cq1 := k.cq1, activeFor := k.activeFor, shadowFor := k.shadowFor,
                      markDone := k.markDone } = k ∧
      (∀ p, p ≠ q → (t.core c).queue p = k.queue p) ∧
      (∀ d, { t.cluster d with granted := (s.cluster d).granted, line := (s.cluster d).line } = s.cluster d) ∧
      ∀ d, d ≠ c / 8 → t.cluster d = s.cluster d
    let proceeds (y : QState) (t : State) : Prop :=
      (r.needsLeave = false → (t.core c).queue q = { y with phase := .run } ∧ t.clusters = s.clusters) ∧
      (r.needsLeave = true → s.repeatable = true → (t.core c).queue q = { y with phase := .run, leave := r.cls + 1 } ∧
        (t.cluster (c / 8)).granted = (s.cluster (c / 8)).granted + (r.cls + 1)) ∧
      (r.needsLeave = true → s.repeatable = false → (t.core c).queue q = { y with phase := .leave } ∧
        (t.cluster (c / 8)).line = (s.cluster (c / 8)).line ++ [(c, q)])
    let starts (i : Instr) (kind : Nat) : Prop := r.kind = kind → k.running = true → k.headIn q .idle = some r →
      (kind = 0x20 → k.joinReady r = true) → r.broken = none →
      (∀ p, s.useList c r.ls = .park p → k.bind.isSome = true →
        ∃ t p', exec i s = .next t ∧ ((t.core c).queue q).park = some p' ∧ p'.cause = p.cause ∧ p'.addr = p.addr ∧
          ((t.core c).queue q).recs = x.recs) ∧
      (s.useList c r.ls = .go →
        let joined := if kind = 0x20 then max (if (wordAt r.w 2).getLsbD 0 then k.mq.pts else 0)
          (max (if (wordAt r.w 2).getLsbD 1 then k.cq0.pts else 0) (if (wordAt r.w 2).getLsbD 2 then k.cq1.pts else 0)) else 0
        let y : QState := { x with snap := some (r.ls, s.entry c r.ls), started := true, pts := max (max x.pts r.ts) joined,
                                   mchk := if x.started then x.mchk else k.regs.mchk, phase := .waiting }
        (r.wait ≠ 0 → x.waitMet = false →
          ∃ t, exec i s = .next t ∧ frame t ∧ t.clusters = s.clusters ∧ (t.core c).queue q = y) ∧
        (r.wait = 0 ∨ x.waitMet = true → ∃ t, exec i s = .next t ∧ frame t ∧ proceeds y t))
    (q = .mq → starts (.mma c) 1 ∧ starts (.mgrp c) 2 ∧ starts (.wpre c) 3 ∧ starts (.wswap c) 4 ∧ starts (.mchain c) 5) ∧
    starts (.copyRecord c q) 0x10 ∧ starts (.fill c q) 0x11 ∧ starts (.scalefeed c q) 0x12 ∧ starts (.wbfill c q) 0x13 ∧
    starts (.join c q) 0x20 ∧
    (k.running = true → k.headIn q .waiting = some r →
      let a := decide (r.thrA ≤ (Tab.get 0 k.sems r.semA).toNat)
      let b := decide (r.thrB ≤ (Tab.get 0 k.sems r.semB).toNat)
      let met := if r.wait = 1 then a else if r.wait = 2 then a && b else a || b
      (met = false → exec (.recordWaitSatisfied c q) s = .next s) ∧
      (met = true → ∃ t n, exec (.recordWaitSatisfied c q) s = .next t ∧ frame { t with fresh := s.fresh } ∧
        proceeds { x with waitMet := true, pts := n } t ∧ x.pts ≤ n ∧
        ∀ sem rel, (sem = r.semA ∧ a = true) ∨ (sem = r.semB ∧ r.wait ≠ 1 ∧ b = true) → rel ∈ Tab.get [] k.semRels sem →
          rel.meets (s.listOfHead c q r) (s.peerOf c) (s.vcoreOf c) = true → rel.ts ≤ n)) ∧
    (∀ rest, cl = c / 8 → (s.cluster cl).line = (c, q) :: rest → k.running = false → x.leave = 0 →
      ∃ t, exec (.leaveGrant cl) s = .next t ∧ frame t ∧ (t.cluster cl).granted = (s.cluster cl).granted ∧
        (t.cluster cl).line = rest.filter (fun y => !(y == (c, q))) ∧
        (x.phase = .leave → (t.core c).queue q = { x with phase := .idle, snap := none, started := false })) ∧
    (∀ rest, cl = c / 8 → (s.cluster cl).line = (c, q) :: rest → k.running = true → k.headIn q .leave = some r →
      let fits := s.repeatable = true ∨ (s.cluster cl).granted + (r.cls + 1) ≤ (s.cluster cl).allot ∨ (s.cluster cl).granted = 0
      (¬ fits → exec (.leaveGrant cl) s = .next s) ∧
      (fits → ∃ t, exec (.leaveGrant cl) s = .next t ∧ frame t ∧ (t.cluster cl).line = rest ∧
        (t.cluster cl).granted = (s.cluster cl).granted + (r.cls + 1) ∧
        (t.core c).queue q = { x with phase := .run, leave := r.cls + 1 })) ∧
    (r.kind = 0x20 → k.headIn q .run = some r →
      ∃ t, exec (.join c q) s = .next t ∧ frame t ∧
        (t.core c).queue q = { x with phase := .signal, cut := none, leave := 0 } ∧
        (t.cluster (c / 8)).granted = (s.cluster (c / 8)).granted - x.leave) ∧
    (k.headIn q .signal = some r →
      let popped : QState := { x with recs := x.recs.drop 1, done := x.done + 1, phase := .idle, snap := none,
                                      waitMet := false, started := false, pos := 0, cut := none }
      (r.inc = 0 → ∃ t, exec (.recordPerformed c q) s = .next t ∧ frame t ∧ (t.core c).queue q = popped) ∧
      (r.inc ≠ 0 → x.snap = none → ∀ p, s.useList c r.ls = .park p → k.bind.isSome = true →
        ∃ t p', exec (.recordPerformed c q) s = .next t ∧ ((t.core c).queue q).park = some p' ∧ p'.cause = p.cause ∧
          p'.addr = p.addr ∧ ((t.core c).queue q).recs = x.recs ∧ t.agenda = s.agenda) ∧
      (r.inc ≠ 0 → x.snap.isSome = true ∨ s.useList c r.ls = .go → r.rmt = false ∨ r.tgt < 8 * (s.part (s.partOf c)).ncl →
        ∃ t, exec (.recordPerformed c q) s = .next t ∧ frame { t with agenda := s.agenda } ∧ (t.core c).queue q = popped ∧
          t.agenda = s.agenda ++ [.semaphoreAdd {
            from_ := .queue c q, part := s.partOf c, target := if r.rmt then r.tgt else s.vcoreOf c
            sem := (wordAt r.w 2).extractLsb' 56 8, inc := BitVec.ofNat 8 r.inc, remote := r.rmt, pts := x.pts
            vcore := s.vcoreOf c, mask := (s.listOfHead c q r).cores, group := (s.listOfHead c q r).namesGroup (s.peerOf c) }]) ∧
      (r.inc ≠ 0 → x.snap.isSome = true ∨ s.useList c r.ls = .go → r.rmt = true → 8 * (s.part (s.partOf c)).ncl ≤ r.tgt →
        k.bind.isSome = true →
        ∃ t p, exec (.recordPerformed c q) s = .next t ∧ ((t.core c).queue q).park = some p ∧ p.cause = 0x20 ∧ p.reason = 1 ∧
          ((t.core c).queue q).recs = x.recs)) ∧
    (k.running = true → x.recs.head? = some r → x.park = none → x.phase ≠ .signal → (x.phase = .idle → r.kind = 0x20) →
      let inside := q = .mq ∧ x.phase = .run ∧ (r.kind = 1 ∨ r.kind = 2) ∧ s.atBoundary c = false
      (inside →
        ∃ t, exec (.cycleBoundOverrun c q) s = .next t ∧ frame t ∧ (t.core c).queue q = { x with cut := some 0x40 }) ∧
      (¬ inside → k.bind.isSome = true →
        ∃ t p, exec (.cycleBoundOverrun c q) s = .next t ∧ ((t.core c).queue q).park = some p ∧ p.cause = 0x40 ∧
          ((t.core c).queue q).recs = x.recs))

/-- R220 to R224, R233 to R236, R241, R245: the matrix records. A row enters with its words and scales, and with the weight set that
it swaps in; WPRE preloads the shadow plane, WSWAP exchanges the planes, MCHAIN links its partners; a K-step whose checks pass is
added into the tile and counted, and the one behind it becomes the oldest; one that fails is entered again once, with the scales
that it has popped, and what has entered behind it is dropped. That a scale word leaves the FIFO with the odd row is the model's choice
(log 23), that all partners of an MCHAIN change at once its reading (log 24), and the interval that a row keeps its choice (logs 41
and 69). -/
def Obligations.MatrixRecords : Prop :=
  ∀ (c : Nat) (s : State) (r : Rec),
    let k := s.core c
    let g := k.front r
    let i := g.rows.length
    let swap := k.needsSwap r g.k i
    let old := match swap with | some _ => some k.active | none => none
    let active := match swap with | some _ => k.shadow | none => k.active
    let enters (x : Instr) (kind : Nat) : Prop := r.kind = kind → k.finishing = true → k.headIn .mq .run = some r →
      k.running = true → k.mq.cut = none → k.startFault r = false → k.recordHeld r = false → i < r.rows →
      g.begun = true ∨ s.stepBegins c = true → (∀ seg, swap = some seg → k.shadowFor = some (g.k, seg)) →
      let row (a : ARow) : Prop :=
        ∃ t, exec x s = .next t ∧ OnlyCore { s with ecseal := t.ecseal } t c ∧
          { t.core c with active := k.active, shadow := k.shadow, activeFor := k.activeFor, shadowFor := k.shadowFor,
                          detected := k.detected, staged := k.staged, ahead := k.ahead, fifo := k.fifo, west := k.west
                          late := k.late } = k ∧
          (let g' : Staged := { g with rows := g.rows ++
             [{ a, plane := active, swapped := old, gap := s.gapOf c r swap.isSome }] }
           (k.staged.all (fun h => h.k == g.k) = true → (t.core c).staged = some g' ∧ (t.core c).ahead = k.ahead) ∧
           (k.staged.all (fun h => h.k == g.k) = false → (t.core c).staged = k.staged ∧ (t.core c).ahead = some g')) ∧
          (t.core c).active = active ∧
          (t.core c).fifo = (if r.scaled = true ∧ g.kept.length ≤ i ∧ i % 2 = 1 then k.fifo.drop 1 else k.fifo) ∧
          (t.core c).west = if r.fwd then k.west.drop 1 else k.west
      (r.fwd = true → ∀ a rest, k.west = .row a :: rest → row { a with row := i }) ∧
      (r.fwd = false → s.followersReady c = true → ∀ w, k.aWords r i g.k = .ok w →
        (r.scaled = false → row { row := i, words := w, scales := 0x7F7F7F7F }) ∧
        (∀ x, r.scaled = true → g.kept[i]? = some x → row { row := i, words := w, scales := x }) ∧
        (r.scaled = true → g.kept[i]? = none → ∀ y rest, k.fifo = .scale y (sealOf y) r.tag :: rest →
          row { row := i, words := w, scales := y.extractLsb' (32 * (i % 2)) 32 }))
    let ends (t : State) : Prop :=
      { t with cores := s.cores, clusters := s.clusters } = s ∧ (∀ d, d ≠ c → t.core d = s.core d) ∧
      { t.core c with mq := k.mq, active := k.active, shadow := k.shadow, shadowFor := k.shadowFor, chainLen := k.chainLen,
                      chainPos := k.chainPos, west := k.west } = k ∧
      (t.core c).mq = { k.mq with phase := .signal, cut := none, leave := 0 }
    enters (.mma c) 1 ∧ enters (.mgrp c) 2 ∧
    (r.kind = 3 → k.running = true → k.finishing = true → k.headIn .mq .run = some r →
      ∀ p, k.weightSet r.bt r.cmp r.wbg = .ok p →
        (∃ t, exec (.wpre c) s = .next t ∧ ends t ∧ (t.core c).shadow = p ∧ (t.core c).active = k.active) ∧
        ∃ t, exec (.preloadDelivery c) s = .next t ∧ ends t ∧ (t.core c).shadow = p ∧ (t.core c).active = k.active) ∧
    (r.kind = 4 → k.running = true → k.headIn .mq .run = some r →
      ∃ t, exec (.wswap c) s = .next t ∧ ends t ∧ (t.core c).active = k.shadow ∧ (t.core c).shadow = k.active) ∧
    (r.kind = 5 → k.running = true → k.headIn .mq .run = some r → r.chainPos ≤ c →
      let partner (d : Nat) : Prop := c - r.chainPos ≤ d ∧ d < c - r.chainPos + r.len
      let started := ∀ p, p < r.len → (s.core (c - r.chainPos + p)).chainAt r.len p = true
      (k.chainMet = false → ¬ started → exec (.mchain c) s = .next s) ∧
      (k.chainMet = true ∨ started → ∃ t, exec (.mchain c) s = .next t ∧ { t with cores := s.cores, clusters := s.clusters } = s ∧
        (∀ d, d ≠ c → t.core d = if k.chainMet = false ∧ partner d then { s.core d with chainMet := true } else s.core d) ∧
        { t.core c with mq := k.mq, chainLen := k.chainLen, chainPos := k.chainPos, west := k.west, chainMet := k.chainMet } = k ∧
        (t.core c).chainLen = r.len ∧ (t.core c).chainPos = r.chainPos ∧ (t.core c).west = [] ∧ (t.core c).chainMet = false ∧
        (t.core c).mq = { k.mq with phase := .signal, cut := none, leave := 0 })) ∧
    (∀ g : Staged, k.chainLen = 1 → k.kstepReady = some (r, g) →
      let rows := g.results r.at_
      (failingRow r.bt k.mq.tol rows = none → ∃ t, exec (.kstepCommit c) s = .next t ∧
        { t with cores := s.cores, clusters := s.clusters, ecmrep := s.ecmrep } = s ∧ (∀ d, d ≠ c → t.core d = s.core d) ∧
        t.ecmrep = (if g.replay = true ∧ s.ecmrep ≠ BitVec.allOnes 64 then s.ecmrep + 1 else s.ecmrep) ∧
        (t.core c).staged = k.ahead ∧ (t.core c).ahead = none ∧ (t.core c).mq.pos = g.k + 1 ∧
        (t.core c).mq.phase = (if g.k + 1 = r.trip 1 then .signal else k.mq.phase) ∧
        (t.core c).regs = k.regs ∧ (t.core c).store = k.store ∧
        (t.core c).acc = (k.commitRows r.bt r.tile rows).acc ∧ (t.core c).accZero = (k.commitRows r.bt r.tile rows).accZero) ∧
      (failingRow r.bt k.mq.tol rows ≠ none → g.replay = false → ∃ t, exec (.kstepCommit c) s = .next t ∧ OnlyCore s t c ∧
        { t.core c with staged := k.staged, ahead := k.ahead, active := k.active, activeFor := k.activeFor, shadowFor := k.shadowFor,
                        west := k.west } = k ∧
        (t.core c).active = (k.flight.findSome? (fun x => x.swapped)).getD k.active ∧
        (t.core c).staged = some { k := g.k, kept := g.popped, replay := true } ∧
        (t.core c).ahead = k.ahead.map (fun h => { k := h.k, kept := h.popped, replay := h.replay })) ∧
      ∀ n b, failingRow r.bt k.mq.tol rows = some n → g.replay = true → k.bind = some b →
        ∃ x : Loss, exec (.kstepCommit c) s = .next { s with agenda := s.agenda ++ [.contextLoss b.part x] } ∧
          x.cause = 0x61 ∧ x.source = .matrixCheck ∧ x.party = some (.queue c .mq) ∧
          x.detail = r.tag ++ BitVec.ofNat 32 g.k ++ BitVec.ofNat 16 n) ∧
    (let l := s.chain c
     ∀ n, 1 < k.chainLen → l.length = k.chainLen →
      (∀ h q, l.head? = some h → (s.core h).head .mq = some q → n + 1 = q.trip 1 → ∀ d, d ∈ l.drop 1 → (s.core d).markSeen = true) →
      (∀ d, d ∈ l → ∃ r g, (s.core d).kstepReady = some (r, g) ∧ g.k = n) →
      ((∀ d, d ∈ l → (s.core d).kstepFails = none) → ∃ t, exec (.kstepCommit c) s = .next t ∧ (∀ d, d ∉ l → t.core d = s.core d) ∧
        ∀ d r g, d ∈ l → (s.core d).kstepReady = some (r, g) →
          (t.core d).staged = (s.core d).ahead ∧ (t.core d).ahead = none ∧ (t.core d).mq.pos = n + 1 ∧
          (t.core d).acc = ((s.core d).commitRows r.bt r.tile (g.results r.at_)).acc) ∧
      ((∃ d, d ∈ l ∧ (s.core d).kstepFails ≠ none) → (∀ d g, d ∈ l → (s.core d).staged = some g → g.replay = false) →
        ∃ t, exec (.kstepCommit c) s = .next t ∧ (∀ d, d ∉ l → t.core d = s.core d) ∧
          ∀ d g, d ∈ l → (s.core d).staged = some g →
            (t.core d).staged = some { k := g.k, kept := g.popped, replay := true } ∧ (t.core d).acc = (s.core d).acc))

/-- R225 to R227: the copy records move the elements of their grid in rank order, each to its place and nowhere else: COPY to memory,
FILL its pattern to memory, SCALEFEED a word to the scale FIFO and after the last one the end mark, WBFILL to the weight buffer.
Elements that lie side by side in one word at the source and in one at the destination move together (the model's choice, log 73). -/
def Obligations.CopyRecords : Prop :=
  ∀ (c : Nat) (q : Queue) (s : State) (r : Rec), (s.core c).running = true → (s.core c).headIn q .run = some r →
    let pos := ((s.core c).queue q).pos
    let es := geoEs r.shape
    let a := r.address r.src pos
    let b := r.address r.dst pos
    let n := r.run pos
    let len := n * es
    let beside (g : List Word) (x : Word) : Prop :=
      x.toNat % 8 + len ≤ 8 ∧ ∀ i, i < n → r.address g (pos + i) = x + BitVec.ofNat 64 (i * es)
    let kept (u t : State) : Prop :=
      { t with mem := u.mem, again := u.again, homes := u.homes, homeDirty := u.homeDirty, memts := u.memts, bypassRts := u.bypassRts,
               bankRts := u.bankRts, bypassRels := u.bypassRels, bankRels := u.bankRels, fresh := u.fresh, cores := u.cores,
               clusters := u.clusters, parts := u.parts, timebase := u.timebase, holdUntil := u.holdUntil,
               agenda := u.agenda } = u ∧ PartsMetered u t ∧
      (∀ d, { t.core d with store := (u.core d).store, lease := (u.core d).lease, mq := (u.core d).mq, cq0 := (u.core d).cq0,
                            cq1 := (u.core d).cq1, fifo := (u.core d).fifo, wbuf := (u.core d).wbuf } = u.core d) ∧
      (∀ d p, d ≠ c ∨ p ≠ q → (t.core d).queue p = (u.core d).queue p) ∧
      (∀ d, d ≠ c → (t.core d).fifo = (u.core d).fifo ∧ (t.core d).wbuf = (u.core d).wbuf)
    let moved (u t : State) : Prop := kept u t ∧ ((t.core c).queue q).pos = pos + n ∧
      ((t.core c).queue q).phase = (if pos + n = r.volume ∧ r.kind ≠ 0x12 then .signal else .run)
    (1 ≤ n ∧ (pos < r.volume → pos + n ≤ r.volume)) ∧
    (r.kind = 0x11 → ∀ (p : Place) (s1 : State), s.reach c q r.dst b .write = .ok p s1 →
      len = 8 ∨ (s1.holderWord p).2 = sealOf (s1.holderWord p).1 → b.toNat % es = 0 →
      ((s1.core c).queue q).pos = pos → ((s1.core c).queue q).phase = .run →
      beside r.dst b ∧
      ∃ t x, exec (.fill c q) s = .next t ∧ moved s1 t ∧ (t.core c).fifo = (s1.core c).fifo ∧ (t.core c).wbuf = (s1.core c).wbuf ∧
        StoredAt s1 t p (p.addr / 8 * 8 + b.toNat % 8) len x ∧
        ∀ i, i < len → x.extractLsb' (8 * i) 8 = r.pattern.extractLsb' (8 * (i % es)) 8) ∧
    (r.kind ≠ 0x11 → ∀ (p : Place) (s1 : State), s.reach c q r.src a .read = .ok p s1 → a.toNat % es = 0 →
      (r.kind = 0x10 → ∀ (p2 : Place) (s2 s3 : State) (w : Word), s1.reach c q r.dst b .write = .ok p2 s2 → b.toNat % es = 0 →
        s2.copyWord c q r.src p len = ((w, sealOf w), s3) → len = 8 ∨ (s3.holderWord p2).2 = sealOf (s3.holderWord p2).1 →
        ((s3.core c).queue q).pos = pos → ((s3.core c).queue q).phase = .run → (s3.core c).bind.isSome = true →
        beside r.src a ∧ beside r.dst b ∧
        ∃ t, exec (.copyRecord c q) s = .next t ∧ moved s3 t ∧ (t.core c).fifo = (s3.core c).fifo ∧
          (t.core c).wbuf = (s3.core c).wbuf ∧ StoredAt s3 t p2 (p2.addr / 8 * 8 + b.toNat % 8) len (w >>> (8 * (a.toNat % 8)))) ∧
      ∀ (s2 : State) (w : Word) (sl : BitVec 8), s1.copyWord c q r.src p len = ((w, sl), s2) →
        ((s2.core c).queue q).pos = pos → ((s2.core c).queue q).phase = .run →
        (r.kind = 0x12 → (s.core c).fifo.length < 64 → pos ≠ r.volume →
          ∃ t, exec (.scalefeed c q) s = .next t ∧ moved s2 t ∧ BytesKept s2 t ∧
            (t.core c).fifo = (s2.core c).fifo ++ [.scale w sl r.ftag] ∧ (t.core c).wbuf = (s2.core c).wbuf) ∧
        (r.kind = 0x13 →
          let d := pos * es
          let g := r.baseC + d / 64
          let o := Tab.get (List.replicate 8 (0, 0)) (s2.core c).wbuf g
          let others : Word := (o.getD (d % 64 / 8) (0, 0)).1 &&& ~~~(byteMask (byteSel d len))
          ∃ t sl', exec (.wbfill c q) s = .next t ∧ moved s2 t ∧ BytesKept s2 t ∧ (t.core c).fifo = (s2.core c).fifo ∧
            Tab.find? (t.core c).wbuf g = some (o.set (d % 64 / 8) (others ||| place8 (pick w a.toNat len) d len, sl')) ∧
            (len = 8 → sl' = sl) ∧ beside r.src a ∧ ∀ m, m ≠ g → Tab.find? (t.core c).wbuf m = Tab.find? (s2.core c).wbuf m)) ∧
    (r.kind = 0x12 → (s.core c).fifo.length < 64 → pos = r.volume →
      ∃ t, exec (.scalefeed c q) s = .next t ∧ kept s t ∧ BytesKept s t ∧ (t.core c).wbuf = (s.core c).wbuf ∧
        (t.core c).fifo = (s.core c).fifo ++ [.mark r.ftag] ∧ ((t.core c).queue q).phase = .signal)

/-! The dispatcher, launches and the clapper. -/

/-- R117, R127, R294 to R296: TSPAWN asks the dispatcher and slot B waits; the dispatcher adds the node and its edges, or refuses with
the lowest reason that applies, and slot B goes on or takes trap 0x03 with that reason; a translation fault of the reads parks it, which for the read of the reel is the model's reading (log 62). -/
def Obligations.TaskSpawns : Prop :=
  (∀ (sa : SReg) (s : State),
    let va := s.rs sa
    let frame (t : State) : Prop := OnlyCore { s with agenda := t.agenda } t s.cur.core ∧
      { t.cc with slots := s.cc.slots } = s.cc ∧ ∀ k, k ≠ s.cur.slot → t.cc.slot k = s.cc.slot k
    (va.toNat % 64 ≠ 0 → ∃ t, exec (.tspawn sa) s = .next t ∧ frame t ∧ t.agenda = s.agenda ∧
      { t.cs with pts := s.cs.pts } = { s.cs with pend := some { code := 0x04, detail := 0, tval := va } }) ∧
    (va.toNat % 64 = 0 → s.cc.bind.isSome = true →
      ∃ t, exec (.tspawn sa) s = .next t ∧ frame t ∧ t.agenda = s.agenda ++ [.tspawnAccept s.cur.core] ∧
        { t.cs with pts := s.cs.pts } = { s.cs with await := some (.tspawn va) } ∧ s.cs.pts ≤ t.cs.pts)) ∧
  ∀ (c : Nat) (s : State) (b : Bind) (va : Word) (l : Launch),
    (s.core c).bind = some b → ((s.core c).slot .B).await = some (.tspawn va) → (s.part b.part).launch = some l →
    let parks (u : State) (k : Park) : Prop := (u.core c).bind = some b →
      ∃ t h, exec (.tspawnAccept c) s = .next t ∧ ((t.core c).slot .B).await = none ∧
        ((t.core c).slot .B).park = some { k with handle := h } ∧ ((t.core c).slot .B).c0 = ((u.core c).slot .B).c0
    (∀ (u : State) (k : Park), s.getNode b.part (.dispatcher b.part) va l.nnode true = .fault k u → parks u k) ∧
    ∀ (s1 : State) (r : ReadNode), s.getNode b.part (.dispatcher b.part) va l.nnode true = .ok r s1 →
    let full := l.nnode + l.nspawn ≤ l.nodes.length
    let late := ∃ i, i ∈ r.node.succ ∧ (match Tab.find? l.nodes i with | some y => y.left = 0 | none => True)
    let reason (n : Nat) : Prop :=
      if r.ok = false ∨ r.node.pred ≠ 0 then n = 1
      else if full then n = 2
      else if ∃ i, i ∈ r.node.succ ∧ l.nnode ≤ i then n = 3
      else n = 4 ∧ late
    (∀ n, reason n → ∃ t, exec (.tspawnAccept c) s = .next t ∧ BytesKept s1 t ∧ t.parts = s1.parts ∧
      (t.core c).regs = (s1.core c).regs ∧ ((t.core c).slot .B).await = none ∧
      ((t.core c).slot .B).pend = some { code := 0x03, detail := BitVec.ofNat 32 n, tval := va } ∧
      ((t.core c).slot .B).c0 = ((s1.core c).slot .B).c0) ∧
    ((∀ n, ¬ reason n) → ∀ s2, s1.checkReel b.part (.dispatcher b.part) r.node.reel = .ok false s2 →
      ∃ t, exec (.tspawnAccept c) s = .next t ∧ BytesKept s2 t ∧ t.parts = s2.parts ∧ ((t.core c).slot .B).await = none ∧
        ((t.core c).slot .B).pend = some { code := 0x03, detail := 5, tval := va } ∧
        ((t.core c).slot .B).c0 = ((s2.core c).slot .B).c0) ∧
    ((∀ n, ¬ reason n) → ∀ (u : State) (k : Park),
      s1.checkReel b.part (.dispatcher b.part) r.node.reel = .fault k u → parks u k) ∧
    ((∀ n, ¬ reason n) → ∀ s2, s1.checkReel b.part (.dispatcher b.part) r.node.reel = .ok true s2 →
      (s2.part b.part).launch = some l → (∀ x, x ∈ l.nodes → x.1 < l.nodes.length) → b.node < l.nodes.length →
      (∀ i, i ∈ r.node.succ → i < l.nodes.length) →
      ∃ t l' n', exec (.tspawnAccept c) s = .next t ∧ BytesKept s2 t ∧ (t.part b.part).launch = some l' ∧
        Tab.find? l'.nodes l.nodes.length = some n' ∧ n'.desc = r.node.desc ∧ n'.succ = r.node.succ ∧
        n'.spawner = some b.node ∧ n'.ts = ((s2.core c).slot .B).pts ∧ n'.st = (if r.node.after then r.node.st else .ready) ∧
        n'.left = (if r.node.after then 1 else 0) ∧
        (∀ i y, i ∈ r.node.succ → i ≠ b.node → r.node.succ.count i = 1 → Tab.find? l.nodes i = some y →
          Tab.find? l'.nodes i = some { y with left := y.left + 1 }) ∧
        ((t.core c).slot .B).await = none ∧ ((t.core c).slot .B).c0 = ((s2.core c).slot .B).c1 ∧
        (t.core c).regs = (s2.core c).regs)

/-- R286, R291, R292, R299: a dispatch step takes, of the ready nodes that fit, the one of least CLASS and then SEQ, and its cores
begin at ENTRY with reset registers; a node whose members have met R13 leaves its cores and its successors' counts fall; a member
past its resident limit is reported and stops. -/
def Obligations.DispatchAndCompletion : Prop :=
  (∀ l x, choose l = some x → x ∈ l ∧ ∀ y, y ∈ l → sooner y.2.1 x.2.1 = false) ∧
  (∀ (p i : Nat) (s : State) (l : Launch) (n : Node) (vs : List Nat),
    (s.part p).launch = some l → (s.part p).reserve = none → l.closed = false → l.clapper = none → (s.part p).job = none →
    (s.part p).state = 1 ∨ (s.part p).state = 2 → choose (s.candidates p l) = some (i, n, vs) → n.requeued = false → n.nshot = 0 →
    ∃ t l' n', exec (.dispatchStep p) s = .next t ∧ t.mem = s.mem ∧ t.clusters = s.clusters ∧ (∀ q, q ≠ p → t.part q = s.part q) ∧
      (t.part p).launch = some l' ∧ Tab.find? l'.nodes i = some n' ∧ n'.st = .dispatched ∧ n'.seats.map (·.vcore) = vs ∧
      (∀ c, (∀ v, v ∈ vs → (s.part p).physCore v ≠ some c) → t.core c = s.core c) ∧
      ∀ v c, v ∈ vs → (s.part p).physCore v = some c → ∃ b : Bind, (t.core c).bind = some b ∧ b.part = p ∧ b.node = i ∧
        vs[b.gpos]? = some b.vcore ∧ (s.part p).physCore b.vcore = some c ∧
        (t.core c).regs = { vcore := vcoreWord b.vcore b.gpos (n.members - 1), tvec := wordAt n.desc 1 } ∧
        (∀ k : Slot, (t.core c).slot k = { c0 := wordAt n.desc 0, c1 := wordAt n.desc 0 + 32, c2 := wordAt n.desc 0 + 64, pts := n.ts }) ∧
        (t.core c).busy = false ∧ (t.core c).frozen = false ∧ (t.core c).moves = [] ∧ (t.core c).accZero = 0xFFFF ∧
        (t.core c).stage = 0 ∧ (t.core c).tokens = [] ∧ (t.core c).mq.recs = [] ∧ (t.core c).cq0.recs = [] ∧ (t.core c).cq1.recs = []) ∧
  (∀ (p i : Nat) (s : State) (l : Launch) (n : Node),
    (s.part p).launch = some l → Tab.find? l.nodes i = some n → n.st = .dispatched → s.membersDone p l n = true →
    let cores := n.seats.filterMap (s.part p).seatCore
    (∀ c b, c ∈ cores → (s.core c).bind = some b → b.part = p) →
    ∃ t l' n', exec (.nodeComplete p i) s = .next t ∧ t.mem = s.mem ∧ (∀ q, q ≠ p → t.part q = s.part q) ∧
      (∀ c, c ∉ cores → t.core c = s.core c) ∧
      (∀ c, c ∈ cores → (t.core c).bind = none ∧ (t.core c).store = (s.core c).store ∧ (t.core c).sems = (s.core c).sems) ∧
      (t.part p).launch = some l' ∧ Tab.find? l'.nodes i = some n' ∧ (i ∉ n.succ → n'.st = .complete ∧ n'.seats = []) ∧
      ((∀ c, c ∈ cores → (s.core c).frozen = false) → ∀ m y, m ∈ n.succ → m ≠ i → n.succ.count m = 1 → Tab.find? l.nodes m = some y →
        ∃ y', Tab.find? l'.nodes m = some y' ∧ y'.left = y.left - 1 ∧ y'.desc = y.desc ∧
          y'.st = if y.left = 1 ∧ y.st = .waiting then .ready else y.st)) ∧
  ∀ (c : Nat) (s : State) (b : Bind) (n : Node), (s.core c).bind = some b → s.nodeOf c = some n →
    (n.limit = 0 → exec (.residentLimitOverrun c) s = .next s) ∧
    (n.limit ≠ 0 → (s.core c).overrun = none → (s.core c).finished = false → (s.core c).running = true →
      ∃ t h, exec (.residentLimitOverrun c) s = .next t ∧ (t.core c) = { s.core c with overrun := some h } ∧
        (∀ d, d ≠ c → t.core d = s.core d) ∧ t.mem = s.mem ∧ (h, Parked.limit c) ∈ (t.part b.part).handles ∧
        ∀ q, q ≠ b.part → t.part q = s.part q)

/-- R301: each report of a peer is counted; with the last one Ts is set 20,000 ns on and sent to the other members, and at Ts the
launch may dispatch. A report that a member is not ready, or no report within the limit, ends the launch with clapper failure and
the number of that member, and the originator tells the others; at another member the originator's start and abort arrive. A
replica takes its place in the line for the launch slot behind those before it; where the partition does not work, the device
reports that it is not ready: its place behind the rings and that report are the model's reading (log 33). -/
def Obligations.ClapperLaunches : Prop :=
  (∀ (p r : Nat) (y : Replica) (s : State),
    ((s.part p).works = false → exec (.launch p ⟨r, some y⟩) s =
      .next { s with sent := s.sent ++ [.clapper y.origin p (.report false)] }) ∧
    ((s.part p).works = true →
      let k : Packet := { words := y.words, pos := y.pos, gen := (s.part p).rgen, started := true, origin := some (y.origin, r) }
      ∃ t, exec (.launch p ⟨r, some y⟩) s = .next t ∧ { t with parts := s.parts } = s ∧ (∀ q, q ≠ p → t.part q = s.part q) ∧
        { t.part p with rings := (s.part p).rings, wants := (s.part p).wants, replicas := (s.part p).replicas } = s.part p ∧
        (∀ q, q ≠ 16 → (t.part p).ring q = (s.part p).ring q) ∧
        (((s.part p).ring 16).run.isSome = true →
          (t.part p).replicas = (s.part p).replicas ++ [k] ∧ (t.part p).ring 16 = (s.part p).ring 16 ∧
          (t.part p).wants = (s.part p).wants) ∧
        (((s.part p).ring 16).run = none → ∀ k' rest, (s.part p).replicas ++ [k] = k' :: rest →
          (t.part p).replicas = rest ∧ (t.part p).ring 16 = { (s.part p).ring 16 with run := some k' } ∧
          (t.part p).wants = (s.part p).wants ++ [16]))) ∧
  ∀ (p : Nat) (s : State) (l : Launch) (x : Clapper),
    (s.part p).launch = some l → l.closed = false → l.clapper = some x →
    let group := s.groupOf l.words
    let fails (i : Instr) (d : Nat) : Prop := l.ending = none →
      ∃ t l', exec i s = .next t ∧ t.cores = s.cores ∧ t.mem = s.mem ∧ (∀ q, q ≠ p → t.part q = s.part q) ∧
        t.sent = s.sent ++ (if x.origin = none then group.map (fun y => .clapper y p (.abort d)) else []) ∧
        (t.part p).launch = some l' ∧ l'.nodes = [] ∧ l'.clapper = none ∧ l'.closed = true ∧
        l'.ending = some (0x08, BitVec.ofNat 64 d) ∧ (((s.part p).ring l.ring).run.isSome = true → PacketDone s t p l.ring 0x08 (BitVec.ofNat 64 d))
    (∀ d : Nat, d ∈ x.missing →
      (∃ t time, exec (.clapperReport p d true) s = .next t ∧ PartActs { s with sent := t.sent } t p ∧
        { t.part p with launch := (s.part p).launch } = s.part p ∧ t.timebase = time ∧
        (let last := ∀ y, y ∈ x.missing → y = d
         t.sent = s.sent ++ (if last then group.map (fun y => .clapper y p (.start ((wordAt l.words 2).extractLsb' 0 32) (time + 20000))) else []) ∧
         (t.part p).launch = some { l with clapper := some { x with
           missing := x.missing.filter (fun y => y != d), start := if last then some (time + 20000) else x.start } })) ∧
      fails (.clapperReport p d false) d) ∧
    (∀ ts, x.start = some ts →
      let u : State := { s with
        timebase := if s.timebase < ts then ts else s.timebase
        parts := Tab.set s.parts p { s.part p with launch := some { l with clapper := none } } }
      ∃ t, exec (.clapperStart ⟨p, none⟩) s = .next t ∧ exec (.dispatchStep p) u = .next t) ∧
    (x.start = none → exec (.clapperStart ⟨p, none⟩) s = .next s) ∧
    (∀ key ts,
      let mine := x.origin.isSome = true ∧ (wordAt l.words 2).extractLsb' 0 32 = key
      (mine → exec (.clapperStart ⟨p, some (key, ts)⟩) s = .next { s with
        parts := Tab.set s.parts p { s.part p with launch := some { l with clapper := some { x with start := some ts } } } }) ∧
      (¬ mine → exec (.clapperStart ⟨p, some (key, ts)⟩) s = .next s)) ∧
    (∀ d, (x.origin.isSome = true → fails (.clapperAbort ⟨p, some d⟩) d) ∧
      (x.origin = none → exec (.clapperAbort ⟨p, some d⟩) s = .next s)) ∧
    (x.missing = [] → exec (.clapperAbort ⟨p, none⟩) s = .next s) ∧
    ∀ d rest, x.missing = d :: rest → fails (.clapperAbort ⟨p, none⟩) d

/-! Submission rings, their packets, and the records that the device writes. -/

/-- R319, R320, R326, R327: DOORBELL raises WI, notes a value that moves back, and stops a ring that it overruns; RCFG sets a ring
that is not enabled; RESET empties it, at once or when its packet completes; END completes a COPY, WAIT or BARRIER, a launch that
waits for the slot, and the launch that holds it; with no packet of its own, a ring's END is that of the replica that goes by its
number (the model's choice, log 33); CRI moves up to CWI. That the record of an overrun has TAG 0 and KIND 0 is the model's reading
(log 34). -/
def Obligations.RingRegisters : Prop :=
  ∀ (p r : Nat) (x : Word) (s : State), p < 32 → r < 16 → s.bootDone = true →
    let y := (s.part p).ring r
    let keeps (t : State) : Prop := PartActs s t p ∧ RingKeeps s t p r
    (let z : Ring := if x.toNat < y.wi then { y with back := true }
       else if 2 ^ y.log2sz.toNat < x.toNat - y.rd ∧ y.overrun = false then
         { y with wi := x.toNat, overrun := true, overrunDue := some x.toNat }
       else { y with wi := x.toNat }
     (y.run.isSome = true ∨ (z.overrunDue = none ∧ z.resetDue = false) →
       ∃ t, exec (.doorbell p r x) s = .next t ∧ keeps t ∧ (t.part p).ring r = z ∧ (t.part p).due = (s.part p).due) ∧
     (∀ w, y.run = none → z.overrunDue = some w → z.resetDue = false →
       ∃ t time, exec (.doorbell p r x) s = .next t ∧ keeps t ∧ (t.part p).ring r = { z with overrunDue := none } ∧
         (t.part p).due = (s.part p).due ++ [{
           words := [BitVec.ofNat 64 y.rd, 0#32 ++ 0x01#8 ++ 0#4 ++ BitVec.ofNat 4 r ++ 0#16, BitVec.ofNat 64 w, time]
           pend := none, gen := (s.part p).rgen }])) ∧
    (let z : Ring := if y.enable then y else { y with loc := x.getLsbD 3, log2sz := x.extractLsb' 4 5 }
     ∃ t, exec (.enable p r x) s = .next t ∧ keeps t ∧ (t.part p).due = (s.part p).due ∧
       (t.part p).ring r = if x.getLsbD 0 = true ∧ (z.log2sz.toNat < 4 ∨ 16 < z.log2sz.toNat) then y
         else { z with enable := x.getLsbD 0 }) ∧
    (y.run.isSome = true → ∃ t, exec (.ringReset p r) s = .next t ∧ keeps t ∧ (t.part p).ring r = { y with resetDue := true }) ∧
    (y.run = none → y.overrunDue = none → ∃ t, exec (.ringReset p r) s = .next t ∧ PartActs s t p ∧
      (∀ k, y.park = some k → ∀ h, h ∈ (t.part p).handles → h.1 ≠ k.handle) ∧
      (t.part p).ring r = { y with rd := y.wi, overrun := false, overrunDue := none, back := false, park := none, resetDue := false }) ∧
    (∀ k, y.run = none → ((s.part p).ring 16).run = some k → k.done = false → (s.part p).ringNumber 16 = BitVec.ofNat 4 r →
      pkind k.words = 1 → (∀ l, (s.part p).launch = some l → l.ring ≠ 16 ∨ l.closed = true) →
      ∃ t, exec (.endPacket p r) s = .next t ∧ PartActs s t p ∧ PacketDone s t p 16 0x0D 0 ∧ 16 ∉ (t.part p).wants) ∧
    (∀ k, y.run = some k → k.done = false →
      (pkind k.words ∈ [3, 4, 8] → ∃ t, exec (.endPacket p r) s = .next t ∧ PartActs s t p ∧ PacketDone s t p r 0x0D 0 ∧
        ((t.part p).ring r).park = none) ∧
      (pkind k.words ∈ [0, 5, 6, 7] → exec (.endPacket p r) s = .next s) ∧
      (pkind k.words ∈ [1, 2] → (∀ l, (s.part p).launch = some l → l.ring ≠ r ∨ l.closed = true) →
        ∃ t, exec (.endPacket p r) s = .next t ∧ PartActs s t p ∧ PacketDone s t p r 0x0D 0 ∧ r ∉ (t.part p).wants) ∧
      (pkind k.words ∈ [1, 2] → ∀ l, (s.part p).launch = some l → l.ring = r → l.closed = false →
        (∀ c b, c ∈ (s.part p).cores → (s.core c).bind = some b → b.part = p) →
        ∃ t l' e, exec (.endPacket p r) s = .next t ∧ (t.part p).launch = some l' ∧ l'.ending = some e ∧ l'.closed = true ∧
          e = l.ending.getD (0x0D, 0) ∧ PacketDone s t p r e.1 e.2 ∧ t.mem = s.mem ∧ (∀ q, q ≠ p → t.part q = s.part q) ∧
          ∀ c, if c ∈ (s.part p).cores then (t.core c).bind = none else t.core c = s.core c)) ∧
    (x.toNat ≤ (s.part p).compl.wi → ∃ t, exec (.cri p x) s = .next t ∧ PartActs s t p ∧
      t.part p = { s.part p with compl := { (s.part p).compl with ri := x.toNat } }) ∧
    ((s.part p).compl.wi < x.toNat → exec (.cri p x) s = .next s)

/-- R320 to R324: an enabled ring fetches the packet at RD as far as WI reaches; a bad packet completes with its reason, and any other
becomes due by its kind. Its start is an acquire on ACQ, with SYS after what the host has written, and puts a LAUNCH or INVOKE in
the line for the launch slot. -/
def Obligations.RingFetchAndStart : Prop :=
  ∀ (p r : Nat) (s : State), p < 32 → r < 16 →
    let y := (s.part p).ring r
    (∀ w0 w s1 s2 n, (s.part p).works = true → (s.part p).job = none → y.enable = true → y.overrun = false → y.resetDue = false →
      y.run = none → y.park = none → y.rd < y.wi →
      State.getSlots p r 1 y.rd [] (s.modRing p r (fun x => { x with head := [] })) = .ok w0 s1 → n = slotsOf (wordAt w0 0) →
      (y.wi < y.rd + n → exec (.ringFetch p r) s = .next s) ∧
      (y.rd + n ≤ y.wi → State.getSlots p r (n - 1) (y.rd + 1) w0 s1 = .ok w s2 →
        ∃ t k, exec (.ringFetch p r) s = .next t ∧ BytesKept s2 t ∧ t.cores = s2.cores ∧
          ((t.part p).ring r).rd = ((s2.part p).ring r).rd + n ∧ ((t.part p).ring r).run = some k ∧ k.words = w ∧
          k.pos = ((s2.part p).ring r).rd ∧ k.gen = (s2.part p).rgen ∧ k.started = false ∧
          (∀ m, packetReason w = some m → k.done = true ∧ t.agenda = s2.agenda ∧ ∃ d, (t.part p).due = (s2.part p).due ++ [d] ∧
            (wordAt d.words 1).extractLsb' 24 8 = 0x02 ∧ wordAt d.words 2 = BitVec.ofNat 64 m) ∧
          (packetReason w = none → k.done = false ∧ (t.part p).due = (s2.part p).due ∧
            ∃ i, packetEvent p r w = some i ∧ t.agenda = s2.agenda ++ [i]))) ∧
    (∀ (k : Packet), (s.part p).acting r = some k → k.started = false →
      (s.part p).listUse (pacq k.words) = .go → (s.part p).listUse (prel k.words) = .go →
      let u := s.modRing p r (fun x => { x with
        run := some { k with started := true, marks := (List.range 16).map (fun q => ((s.part p).ring q).rd) }
        pts := if ((s.part p).listEntry (pacq k.words)).sys then max x.pts (s.part p).hostTime else x.pts })
      let starts (i : Instr) (kind : Nat) : Prop := pkind k.words = kind → exec i s = exec i u
      let lines (i : Instr) (kind : Nat) : Prop := pkind k.words = kind →
        exec i s = .next (u.modPart p (fun x => { x with wants := x.wants ++ [r] }))
      starts (.nopPacket p r) 0 ∧ lines (.launch p ⟨r, none⟩) 1 ∧ lines (.invoke p r) 2 ∧ starts (.copyPacket p r) 3 ∧
      starts (.waitPacket p r) 4 ∧ starts (.signalPacket p r) 5 ∧ starts (.clupdate p r) 6 ∧ starts (.barrierPacket p r) 8 ∧
      (phop k.words = 0 → starts (.pholeClaim p r) 7) ∧ (phop k.words = 1 → starts (.pholeLoad p r) 7) ∧
      (phop k.words = 2 → starts (.pholeDrop p r) 7) ∧ (phop k.words = 3 → starts (.pholeRebase p r) 7))

/-- R323: what the packets of a ring do once they have started: NOP; COPY moves its next bytes, as many as lie in one word at both ends
(the model's choice, log 73), and the limiters count them (R347); WAIT completes when the doubleword has
reached its threshold; SIGNAL writes or adds; CLUPDATE asks for a new entry and completes with it; BARRIER completes after the
packets before it. -/
def Obligations.RingPackets : Prop :=
  ∀ (p r kind : Nat) (s : State) (k : Packet), RingActs s p r kind k → k.started = true →
    let who : Party := .ring p r
    let kept (u t : State) : Prop :=
      { t with mem := u.mem, again := u.again, homes := u.homes, homeDirty := u.homeDirty, memts := u.memts, bypassRts := u.bypassRts,
               bankRts := u.bankRts, bypassRels := u.bypassRels, bankRels := u.bankRels, cores := u.cores, clusters := u.clusters,
               parts := u.parts, agenda := u.agenda, timebase := u.timebase, holdUntil := u.holdUntil, fresh := u.fresh } = u ∧
      (∀ c, { t.core c with store := (u.core c).store } = u.core c) ∧
      (∀ c, { t.cluster c with l2Home := (u.cluster c).l2Home, l2HomeTs := (u.cluster c).l2HomeTs, again := (u.cluster c).again } =
        u.cluster c) ∧
      PartsMetered u { t with parts := Tab.set t.parts p { t.part p with rings := (u.part p).rings, due := (u.part p).due } } ∧
      ∀ q, q ≠ r → (t.part p).ring q = (u.part p).ring q
    (kind = 0 → ∃ t, exec (.nopPacket p r) s = .next t ∧ PartActs s t p ∧ RingKeeps s t p r ∧ PacketDone s t p r 0 0) ∧
    (kind = 3 →
      let a := wordAt k.words 1 + BitVec.ofNat 64 k.moved
      let b := wordAt k.words 2 + BitVec.ofNat 64 k.moved
      let left := ((wordAt k.words 3).extractLsb' 0 40).toNat - k.moved
      let n := min left (min (8 - a.toNat % 8) (8 - b.toNat % 8))
      ∀ (pa pb : Place) (s1 s2 s3 : State) (w : Word), s.translate p who a .read = .ok pa s1 → s1.translate p who b .write = .ok pb s2 →
        (s2.meter who pa n).readWord who pa false = ((w, sealOf w), s3) →
        n = 8 ∨ (s3.holderWord pb).2 = sealOf (s3.holderWord pb).1 → ((s3.part p).ring r).run = some k →
        ∃ t k', exec (.copyPacket p r) s = .next t ∧ kept s3 t ∧
          StoredAt s3 t pb (pb.addr / 8 * 8 + b.toNat % 8) n (w >>> (8 * (a.toNat % 8))) ∧
          ((t.part p).ring r).run = some k' ∧ k'.moved = k.moved + n ∧ (left = n → PacketDone s3 t p r 0 0) ∧
          (left ≠ n → k' = { k with moved := k.moved + n } ∧ (t.part p).due = (s3.part p).due)) ∧
    (kind = 4 → ∀ (pl : Place) (s1 s2 : State) (w : Word), s.translate p who (wordAt k.words 1) .read = .ok pl s1 →
      s1.consume who pl true = .good w s2 → ((s2.part p).ring r).run = some k →
      (w.toNat < (wordAt k.words 2).toNat → exec (.waitPacket p r) s = .next s) ∧
      ((wordAt k.words 2).toNat ≤ w.toNat →
        ∃ t, exec (.waitPacket p r) s = .next t ∧ PartActs s2 t p ∧ RingKeeps s2 t p r ∧ PacketDone s2 t p r 0 0)) ∧
    (kind = 5 →
      let add := (wordAt k.words 3).getLsbD 0
      ∀ (pl : Place) (s1 : State) (w : Word) (sl : BitVec 8),
        s.translate p who (wordAt k.words 1) (if add then .both else .write) = .ok pl s1 →
        s1.holderWord pl = (w, sl) → (add = true → sl = sealOf w) → ((s1.part p).ring r).run = some k →
        ∃ t, exec (.signalPacket p r) s = .next t ∧ kept s1 t ∧ PacketDone s1 t p r 0 0 ∧
          StoredAt s1 t pl (pl.addr / 8 * 8) 8 (if add then w + wordAt k.words 2 else wordAt k.words 2)) ∧
    (kind = 6 →
      (k.moved = 0 → ∀ w s1, State.getWords p who 8 (wordAt k.words 2) [] s = .ok w s1 → ((s1.part p).ring r).run = some k →
        (∀ m, imageReason w (s1.part p).ncl = some m → ∃ t, exec (.clupdate p r) s = .next t ∧ PartActs s1 t p ∧
          PacketDone s1 t p r 0x02 (BitVec.ofNat 64 (256 * m + 6)) ∧ (t.part p).clsets = (s1.part p).clsets) ∧
        (imageReason w (s1.part p).ncl = none → ∃ t, exec (.clupdate p r) s = .next t ∧ PartActs s1 t p ∧
          (t.part p).clsets = (s1.part p).clsets ++ [{
            entry := ((wordAt k.words 1).extractLsb' 0 5).toNat, image := ClEntry.ofImage w, origin := .ring r, accepted := false
            num := (s1.part p).clsetNum }] ∧
          ((t.part p).ring r).run = some { k with moved := 1 } ∧ (t.part p).due = (s1.part p).due)) ∧
      (k.moved ≠ 0 → (∃ x, x ∈ (s.part p).clsets ∧ x.origin = .ring r) → exec (.clupdate p r) s = .next s) ∧
      (k.moved ≠ 0 → (∀ x, x ∈ (s.part p).clsets → x.origin ≠ .ring r) →
        ∃ t, exec (.clupdate p r) s = .next t ∧ PartActs s t p ∧ RingKeeps s t p r ∧ PacketDone s t p r 0 0)) ∧
    (kind = 8 →
      let past := ∀ q, q < 16 → q ≠ r → (wordAt k.words 1).getLsbD q = true →
        ∀ k', ((s.part p).ring q).run = some k' → k.marks.getD q 0 ≤ k'.pos
      (past → ∃ t, exec (.barrierPacket p r) s = .next t ∧ PartActs s t p ∧ RingKeeps s t p r ∧ PacketDone s t p r 0 0) ∧
      (¬ past → exec (.barrierPacket p r) s = .next s))

/-- R331 to R334: the pigeonhole operations. CLAIM takes a free hole; LOAD puts a checked graph into a claimed one, DROP frees a hole
and REBASE replaces its copy, each only for the owner that names the hole's generation, which it raises; a requirement that fails,
and a graph that acceptance refuses, completes the packet with its status and changes no hole. The dispatcher makes the reads of
acceptance, after the packet's start. -/
def Obligations.PigeonholePackets : Prop :=
  ∀ (p r : Nat) (s : State) (k : Packet), RingActs s p r 7 k → k.started = true →
    let n := ((wordAt k.words 1).extractLsb' 48 8).toNat
    let base := ((wordAt k.words 1).extractLsb' 40 8).toNat
    let kind := (wordAt k.words 1).extractLsb' 58 2
    let gen := (wordAt k.words 1).extractLsb' 0 32
    let h := s.hole n
    let held : Word := BitVec.ofNat 8 n ++ 0#51 ++ BitVec.ofNat 5 h.owner
    let next : BitVec 32 := if h.gen + 1 = 0 then 1 else h.gen + 1
    let only (u t : State) (h' : Hole) (st : BitVec 8) (d : Word) : Prop :=
      { t with parts := u.parts, holes := u.holes, timebase := u.timebase, holdUntil := u.holdUntil, fresh := u.fresh,
               capGen := u.capGen, pba := u.pba, sent := u.sent } = u ∧
      (∀ q, q ≠ p → t.part q = u.part q) ∧ RingKeeps u t p r ∧ PacketDone u t p r st d ∧
      t.hole n = h' ∧ ∀ m, m ≠ n → t.hole m = u.hole m
    let refused (i : Instr) (st : BitVec 8) (d : Word) : Prop := ∃ t, exec i s = .next t ∧ only s t h st d ∧ t.capGen = s.capGen
    let guards (i : Instr) (right : Prop) : Prop :=
      (h.state ≠ 0 → h.owner ≠ p → refused i 0x0A held) ∧
      (h.state = 0 ∨ (h.owner = p ∧ ¬ right) → refused i 0x0B (BitVec.ofNat 64 n)) ∧
      (h.state ≠ 0 → h.owner = p → right → h.gen ≠ gen → refused i 0x0C (h.gen.setWidth 64))
    let mine := h.state ≠ 0 ∧ h.owner = p ∧ h.gen = gen
    let busy := ∃ l, (s.part p).launch = some l ∧ l.hole = some n
    (phop k.words = 0 →
      (h.state ≠ 0 → refused (.pholeClaim p r) 0x0A held) ∧
      (h.state = 0 → kind ≠ 0 → (s.hole base).state ≠ 2 ∨ (s.hole base).owner ≠ p →
        refused (.pholeClaim p r) 0x0B (BitVec.ofNat 64 base)) ∧
      (h.state = 0 → kind = 0 ∨ ((s.hole base).state = 2 ∧ (s.hole base).owner = p) →
        ∃ t, exec (.pholeClaim p r) s = .next t ∧ t.capGen = s.capGen + 2 ∧
          only s t { h with state := 1, owner := p, kind := kind, base := base, bgen := 0, copy := none } 0 0)) ∧
    (phop k.words = 1 → guards (.pholeLoad p r) (h.state = 1) ∧
      (mine → h.state = 1 → ∀ s1, ((s1.part p).ring r).run = some k → s1.holes = s.holes →
        (∀ g, s.acceptFor p r (wordAt k.words 2) = .ok (.ok g) s1 →
          ∃ t, exec (.pholeLoad p r) s = .next t ∧ only s1 t { h with
            state := 2, copy := some g, bgen := if h.kind = 0 then 0 else (s.hole h.base).gen, gen := next } 0 0) ∧
        ∀ st d, s.acceptFor p r (wordAt k.words 2) = .ok (.error (st, d)) s1 →
          ∃ t, exec (.pholeLoad p r) s = .next t ∧ only s1 t h st d)) ∧
    (phop k.words = 2 → guards (.pholeDrop p r) True ∧
      (mine → busy → exec (.pholeDrop p r) s = .next s) ∧
      (mine → ¬ busy → ∃ t, exec (.pholeDrop p r) s = .next t ∧ t.capGen = s.capGen + 2 ∧ only s t { gen := next } 0 0)) ∧
    (phop k.words = 3 → guards (.pholeRebase p r) (h.state = 2 ∧ h.kind = 0) ∧
      (mine → h.state = 2 → h.kind = 0 → (s.part p).launch = none →
        ∀ s1, ((s1.part p).ring r).run = some k → s1.holes = s.holes →
        (∀ g, s.acceptFor p r (wordAt k.words 2) = .ok (.ok g) s1 →
          ∃ t, exec (.pholeRebase p r) s = .next t ∧ only s1 t { h with copy := some g, gen := next } 0 0) ∧
        ∀ st d, s.acceptFor p r (wordAt k.words 2) = .ok (.error (st, d)) s1 →
          ∃ t, exec (.pholeRebase p r) s = .next t ∧ only s1 t h st d))

/-- R283, R301, R325, R333, R5, R18: the free launch slot goes to the first packet in the line. A LAUNCH that is accepted, and an INVOKE of
a resident hole, start their graph with the semaphores, barriers, ba registers, CLAPPER and PHOLE of a launch; a packet that is
not accepted completes. With a peer group the originator sends the packet to the other members and waits for them, and another
member reports whether it has accepted its own; without a key, or without a fabric, the packet completes as a bad graph, with DETAIL 0xFFFF (the model's reading, log 33). -/
def Obligations.LaunchSlot : Prop :=
  ∀ (p r : Nat) (rest : List Nat) (s : State) (k : Packet),
    (s.part p).wants = r :: rest → (s.part p).launch = none → (s.part p).job = none → (s.part p).works = true →
    (s.part p).acting r = some k →
    let u := s.modPart p (fun x => { x with wants := rest })
    let begins (v : State) (g : Graph) (ba : Nat → Word) (phole : Word) (hole : Option Nat) : Prop :=
      ∃ t l, exec (.launchSlotGrant p) s = .next t ∧ t.mem = v.mem ∧ (∀ q, q ≠ p → t.part q = v.part q) ∧
        (t.part p).launch = some l ∧ l.ring = r ∧ l.words = k.words ∧ l.hole = hole ∧ l.closed = false ∧ l.ending = none ∧
        l.nnode = g.nodes.length ∧ l.nspawn = g.nspawn ∧ (t.part p).reserve = none ∧ (t.part p).phole = phole ∧
        (∀ i, i < 16 → Tab.get 0 (t.part p).ba i = ba i) ∧ (t.part p).bn = [] ∧
        (∀ c, c ∈ (v.part p).cores → (t.core c).sems = [] ∧ (t.core c).regs = (v.core c).regs) ∧
        ∀ i n, g.nodes[i]? = some n → ∃ n', Tab.find? l.nodes i = some n' ∧ n'.desc = n.desc ∧ n'.succ = n.succ ∧
          n'.left = n.left ∧ n'.st = (if n.left = 0 then .ready else n.st)
    (pkind k.words = 1 → (wordAt k.words 2).extractLsb' 52 12 = 0 → ∀ v,
      (∀ g, u.acceptFor p r (wordAt k.words 1) = .ok (.ok g) v → begins v g (fun _ => 0) 0 none) ∧
      (∀ st d, u.acceptFor p r (wordAt k.words 1) = .ok (.error (st, d)) v → ((v.part p).ring r).run.isSome = true →
        (v.part p).launch = none → ∃ t l, exec (.launchSlotGrant p) s = .next t ∧ PacketDone v t p r st d ∧
          (t.part p).launch = some l ∧ l.closed = true)) ∧
    (pkind k.words = 1 → (wordAt k.words 2).extractLsb' 52 12 ≠ 0 →
      let key := (wordAt k.words 2).extractLsb' 0 32
      let group := s.groupOf k.words
      (key = 0 ∨ s.trained = false → ∃ t, exec (.launchSlotGrant p) s = .next t ∧ PacketDone u t p r 0x03 0xFFFF) ∧
      (key ≠ 0 → s.trained = true → k.origin = none → ∀ g v,
        { u with sent := u.sent ++ group.map (fun d => Sent.clapper d p (.replica k.words r k.pos)) }.acceptFor p r (wordAt k.words 1) =
          .ok (.ok g) v → v.device = s.device → v.peers = s.peers →
        ∃ t l x, exec (.launchSlotGrant p) s = .next t ∧ t.sent = v.sent ∧ (t.part p).launch = some l ∧ l.ring = r ∧
          l.words = k.words ∧ l.nnode = g.nodes.length ∧ l.closed = false ∧ l.clapper = some x ∧ x.missing = group ∧
          x.limit = t.timebase + 1000000000 ∧ x.origin = none ∧
          x.start = (if group = [] then some (t.timebase + 20000) else none) ∧ (t.part p).clapper = key.setWidth 64) ∧
      (key ≠ 0 → s.trained = true → ∀ o y v, k.origin = some o → u.acceptFor p r (wordAt k.words 1) = .ok y v →
        ∃ t l x, exec (.launchSlotGrant p) s = .next t ∧ t.mem = v.mem ∧ (t.part p).launch = some l ∧ l.ring = r ∧
          l.clapper = some x ∧ x.missing = [] ∧ x.start = none ∧ x.origin = some o.1 ∧
          t.sent = v.sent ++ [.clapper o.1 p (.report (match y with | .ok _ => true | .error _ => false))] ∧
          (t.part p).clapper = key.setWidth 64)) ∧
    (pkind k.words = 2 →
      let n := ((wordAt k.words 1).extractLsb' 56 8).toNat
      let gen := (wordAt k.words 1).extractLsb' 0 32
      let h := s.hole n
      (h.state ≠ 2 ∨ h.owner ≠ p → ∃ t, exec (.launchSlotGrant p) s = .next t ∧ PacketDone s t p r 0x0B (BitVec.ofNat 64 n)) ∧
      (h.state = 2 → h.owner = p → gen ≠ 0 → gen ≠ h.gen →
        ∃ t, exec (.launchSlotGrant p) s = .next t ∧ PacketDone s t p r 0x0C (h.gen.setWidth 64)) ∧
      (s.holeReady p n gen = none → ∀ l v0 g v,
        State.getWords p (.ring p r) ((wordAt k.words 1).extractLsb' 43 8).toNat (wordAt k.words 2) [] u = .ok l v0 →
        v0.badEntry p n l = none → (v0.hole n).copy = some g →
        State.checkReels p (.dispatcher p) (reelsOf g.nodes) (v0.dispatcherAfter p r) = .ok none v → v.hole n = h →
        begins v g (fun i => if i < ((wordAt k.words 1).extractLsb' 51 5).toNat then wordAt k.words (3 + i) else 0)
          (h.gen ++ 0#23 ++ 1#1 ++ BitVec.ofNat 8 n) (some n)))

/-- R327, R328, R357, R358, R360: a record whose turn it is goes to its place in the completion ring, and sets its bit of PEND; one of
work that a reset has cut off is dropped. PRESUME and HRESUME let the party of an outstanding handle go on, each for its own
reports, and HRESUME with bit 63 completes what holds the party with a translation fault. That PRESUME ignores the causes that the hypervisor
resolves, that HRESUME serves those alone, and what a discard ends are the model's reading (log 36). -/
def Obligations.RecordsAndResumes : Prop :=
  (∀ (p : Nat) (s : State) (d : Due) (rest : List Due), (s.part p).due = d :: rest → (s.part p).lost = false →
    let done (t : State) : Prop := (t.part p).due = rest ∧ (∀ q, q ≠ p → t.part q = s.part q) ∧ t.cores = s.cores ∧
      ∀ r, d.ring = some r → ((t.part p).ring r).run = none
    let noMore := ∀ r, d.ring = some r → ((s.part p).ring r).overrunDue = none
    (d.gen ≠ (s.part p).rgen → noMore → ∃ t, exec (.completionRecord p) s = .next t ∧ done t ∧ t.mem = s.mem ∧
      (t.part p).compl = (s.part p).compl ∧ (t.part p).pend = (s.part p).pend) ∧
    (d.gen = (s.part p).rgen → (s.part p).complPark = none → (s.part p).state ≠ 4 →
      let x := (s.part p).compl
      (x.enable = false ∨ 2 ^ x.log2sz.toNat ≤ x.wi - x.ri → exec (.completionRecord p) s = .next s) ∧
      (noMore → x.enable = true → x.wi - x.ri < 2 ^ x.log2sz.toNat → x.loc = false → ∃ t, exec (.completionRecord p) s = .next t ∧ done t ∧
        (t.part p).compl = { x with wi := x.wi + 1 } ∧
        (t.part p).pend = (match d.pend with | some n => (s.part p).pend ||| (1#64 <<< n) | none => (s.part p).pend) ∧
        t.mem = (s.putHost (x.base + BitVec.ofNat 64 (32 * (x.wi % 2 ^ x.log2sz.toNat))) d.words).mem) ∧
      (noMore → x.enable = true → x.wi - x.ri < 2 ^ x.log2sz.toNat → x.loc = true → ∀ (pl : Place) (s1 : State),
        s.translate p (.completion p) (x.base + BitVec.ofNat 64 (32 * (x.wi % 2 ^ x.log2sz.toNat))) .write = .ok pl s1 →
        (s1.part p).due = d :: rest → (s1.part p).compl = x →
        (pl.home = 1 → ∀ i, i < 4 → ¬ (s1.core pl.phys).forced (pl.off + 8 * i)) → d.words.length = 4 → ∃ t, exec (.completionRecord p) s = .next t ∧ (t.part p).due.take rest.length = rest ∧
          (t.part p).compl = { x with wi := x.wi + 1 } ∧
          (s1.MemWf → ∀ i w, d.words[i]? = some w → (pl.plus (8 * i)).here = true → t.holderWord (pl.plus (8 * i)) = (w, sealOf w))))) ∧
  ∀ (p : Nat) (s : State) (h : Nat) (who : Parked), p < 32 → h < 8192 → s.bootDone = true →
    (s.part p).handles.find? (fun x => x.1 == h) = some (h, who) →
    let own : Word := BitVec.ofNat 64 h
    let hyp : Word := BitVec.ofNat 64 (2 ^ 32 * p + h)
    let toHost : Prop := who = .completion ∨ ∃ k, s.parkOf p who = some k ∧ (k.cause = 0x12 ∨ k.cause = 0x13)
    let resumed (i : Instr) : Prop := ∃ t, exec i s = .next t ∧ t.mem = s.mem ∧ t.agenda = s.agenda ∧
      (∀ x, x ∈ (t.part p).handles → x.1 ≠ h) ∧ t.parkOf p who = none ∧
      (∀ c, (t.core c).regs = (s.core c).regs ∧ (t.core c).store = (s.core c).store) ∧ ∀ q, q ≠ p → t.part q = s.part q
    (toHost → exec (.presume p own) s = .next s ∧ resumed (.hresume hyp)) ∧
    (¬ toHost → exec (.hresume hyp) s = .next s ∧ exec (.hresumeDiscard hyp) s = .next s ∧ resumed (.presume p own)) ∧
    (∀ r k, who = .ring r → ((s.part p).ring r).run.isSome = true → s.parkOf p who = some k → toHost →
      ∃ t, exec (.hresumeDiscard hyp) s = .next t ∧ PartActs s t p ∧ PacketDone s t p r 0x05 k.addr ∧
        ((t.part p).ring r).park = none) ∧
    (∀ c k x l, who = .slot c k → s.parkOf p who = some x → toHost → (s.part p).launch = some l → l.ending = none →
      ∃ t l', exec (.hresumeDiscard hyp) s = .next t ∧ t.mem = s.mem ∧ (t.part p).launch = some l' ∧
        l'.ending = some (0x05, x.addr)) ∧
    (who = .completion → ∀ d rest, (s.part p).due = d :: rest →
      ∃ t, exec (.hresumeDiscard hyp) s = .next t ∧ (t.part p).complPark = none ∧
        (t.part p).compl = (s.part p).compl ∧ t.mem = s.mem ∧ t.cores = s.cores ∧ ∀ q, q ≠ p → t.part q = s.part q)

/-! The memory system by physical address, translation, rendezvous and the timing detectors. -/

/-- R253, R254, R172, R173, R256: a read at a holder takes a lease of 32 and changes no byte; a whole word is written with a valid
seal and new timestamps; a partial store merges its bytes into a word that is intact, at the first or the second reading, and marks a broken one poisoned; an evicted
line leaves its lease in MEMTS, and goes back to HBM when it has been written (R347). -/
def Obligations.HolderAccesses : Prop :=
  ∀ (who : Party) (pa : BitVec 52) (s : State),
    let p := (Place.plain pa.toNat).of (s.partyPart who)
    let hbm := pa.toNat < Config.hbmEnd
    let host := Config.hostBase ≤ pa.toNat
    let tells := ∀ n, who ≠ .completion n
    let quiet (t : State) : Prop := t.agenda = s.agenda ∧ t.holes = s.holes ∧ t.sent = s.sent ∧
      (∀ c, (t.core c).regs = (s.core c).regs ∧ (t.core c).sems = (s.core c).sems ∧ (t.core c).acc = (s.core c).acc) ∧
      ∀ q, (t.part q).launch = (s.part q).launch ∧ (t.part q).tlb = (s.part q).tlb ∧ (t.part q).pins = (s.part q).pins
    let written (t : State) (rel : Bool) : Prop := quiet t ∧
      (hbm → ∃ n, n = max (s.pts who) ((s.homeTs p).rts + 1) ∧ t.homeTs p = { wts := n, rts := n } ∧ (tells → t.pts who = n)) ∧
      (host → ∃ n, n = max (s.pts who) (s.rts p + 1) ∧ t.rts p = (if rel then n else s.rts p) ∧ (tells → t.pts who = n))
    (hbm → ∃ t, exec (.holderRead who pa) s = .next t ∧ BytesKept s t ∧ quiet t ∧
      t.homeTs p = { wts := (s.homeTs p).wts, rts := max (s.homeTs p).rts (max ((s.homeTs p).wts + 32) (s.pts who + 32)) } ∧
      (tells → t.pts who = max (s.pts who) (s.homeTs p).wts)) ∧
    (host ∨ hasTarget pa.toNat = false → exec (.holderRead who pa) s = .next s) ∧
    (∀ (w : Word) (rel : Bool), hbm ∨ host → ∃ t, exec (.holderWrite who pa w rel) s = .next t ∧ written t rel ∧
      StoredAt s t p (pa.toNat / 8 * 8) 8 w ∧ (s.MemWf → t.holderWord p = (w, sealOf w))) ∧
    (∀ (n : Word) (m : BitVec 8) (rel : Bool), hbm ∨ host →
      let old := s.holderWord p
      let second := s.secondWord p
      let poisoned : Prop := syn old.1 old.2 = 0xFF
      let merges (w : Word) : Prop := ∃ t, exec (.partialStoreMerge who pa n m rel) s = .next t ∧ written t rel ∧
        (s.MemWf → (t.holderWord p).2 = sealOf (t.holderWord p).1 ∧
          ∀ k, k < 8 → (t.holderWord p).1.extractLsb' (8 * k) 8 = (if m.getLsbD k then n else w).extractLsb' (8 * k) 8) ∧
        (s.MemWf → ∀ home phys b, ¬ (p.inArray home phys ∧ pa.toNat / 8 * 8 ≤ b ∧ b < pa.toNat / 8 * 8 + 8) →
          t.byteAt home phys b = s.byteAt home phys b)
      (m = 0xFF ∨ old.2 = sealOf old.1 → merges old.1) ∧
      (m ≠ 0xFF → old.2 ≠ sealOf old.1 → ¬ poisoned → second.2 = sealOf second.1 → merges second.1) ∧
      (m ≠ 0xFF → old.2 ≠ sealOf old.1 → poisoned ∨ second.2 ≠ sealOf second.1 → ∀ q, s.partyPart who = some q →
        ∃ t l, exec (.partialStoreMerge who pa n m rel) s = .next t ∧ t.agenda = s.agenda ++ [.contextLoss q l] ∧ l.source = .merge ∧
          l.cause = (if poisoned ∨ syn second.1 second.2 = 0xFF then 0x62 else 0x60) ∧
          (s.MemWf → (poisoned → t.holderWord p = old) ∧ (¬ poisoned → t.holderWord p = (second.1, poisonSeal second.1))))) ∧
    (∀ w rel, hasTarget pa.toNat = false → exec (.holderWrite who pa w rel) s = .next s) ∧
    ∀ line : Nat,
      (∀ h, Tab.find? s.homes line = some h → s.keptLine line = false →
        exec (.llcEviction line) s = .next { (if s.homeDirty.contains line then s.hbmMoves (line * 128) 128 else s) with
          homes := Tab.erase s.homes line
          homeDirty := s.homeDirty.filter (fun n => n != line)
          memts := Tab.set s.memts (channelOf (line * 128)) (max (Tab.get 0 s.memts (channelOf (line * 128))) h.rts) }) ∧
      (Tab.find? s.homes line = none ∨ s.keptLine line = true → exec (.llcEviction line) s = .next s)

/-- R350 to R353: stage 2 leads from S2ROOT over its entries to the leaf that maps the address, which names a target and no retired
frame; a stage-1 entry is read as stage 2 maps it, and sets A there; a walk reaches the intermediate address that the stage-1
entries give, checks the rights of both stages, and sets A and D in the final leaf. R262, R354, R384: a walk, or the first access to
a page that asks for a pin, gives the party its translation, touches no register, and leaves a page of home 01 or 10 pinned at the
place; an address in a fabric window is reached at its far end, and no translation of it is kept (a window of this device is served
here: the model's choice, log 42); a walk that fails parks the party with its cause. -/
def Obligations.WalksAndPins : Prop :=
  (∀ (s : State) (root : Word) (ipa : Nat) (l : Leaf2), s.stage2 root ipa = .ok l ↔
    root.getLsbD 0 = true ∧ ipa < 2 ^ 52 ∧
    ∃ e0 x, s.entryAt ((root.extractLsb' 16 36).toNat * 65536 + 8 * (ipa / 2 ^ 39)) = some e0 ∧ table2Ok e0 = true ∧
      hasTarget (entryAddr e0) = true ∧ Leads2 s.entryAt ipa 3 (entryAddr e0) x ∧ leaf2Ok x.1 x.2.2 (decide (x.2.2 = 0x10000)) = true ∧
      l = { pa := entryAddr x.1 + ipa % x.2.2, base := ipa / x.2.2 * x.2.2, size := x.2.2, r := x.1.getLsbD 2, w := x.1.getLsbD 3
            x := x.1.getLsbD 4, nc := x.1.getLsbD 7, d := x.1.getLsbD 6, at_ := x.2.1, entry := x.1 } ∧
      hasTarget l.pa = true ∧ s.retiredIn (l.pa / l.size * l.size) l.size = false) ∧
  (∀ (s t : State) (q ipa : Nat) (e : Word), (s.part q).window ipa = none → s.readEntry1 q ipa = (t, .ok e) →
    ∃ l, s.stage2 (s.part q).s2root ipa = .ok l ∧ l.r = true ∧ t.entryAt l.pa = some e ∧
      t.mem = (if l.entry.getLsbD 5 then s.mem else s.mem.store (l.at_ / 8) (l.entry ||| 0x20))) ∧
  ∀ (who : Party) (q : Nat) (va : Word) (k : AccessKind) (s : State), s.partyPart who = some q →
    let v := (va.extractLsb' 0 57).toNat
    let still (t : State) : Prop := t.agenda = s.agenda ∧ t.holes = s.holes ∧
      (∀ c, { t.core c with store := (s.core c).store } = s.core c) ∧
      PartsMetered s { t with parts := Tab.set t.parts q { t.part q with tlb := (s.part q).tlb, pins := (s.part q).pins } }
    let leads (u : State) (e : Word) (size ipa : Nat) : Prop := (s.part q).s1root.getLsbD 0 = true ∧
      Leads1 q v 5 (((s.part q).s1root.extractLsb' 12 40).toNat * 4096) s u e size ∧
      leaf1Ok e size (decide (size = 0x10000)) = true ∧ ipa = entryAddr e + v % size
    let allowed (r w x : Bool) : Bool := match k with | .read => r | .write => w | .both => r && w | .fetch => x
    let writes : Bool := match k with | .write | .both => true | .read | .fetch => false
    let windowTo (u : State) (r : Remote) : Prop := ∃ e size ipa, leads u e size ipa ∧ (s.part q).window ipa = some r
    let pinned (t : State) (p : Place) : Prop := p.home = 1 ∨ p.home = 2 → ∃ o x, x ∈ (t.part o).pins ∧ x.home = p.home ∧
      { p with far := none, win := none } = x.place p.pa ∧ (o = q ∨ ∃ u r, windowTo u r ∧ r.dev = s.device ∧ r.part = o)
    (∀ c p, (s.part q).cached who va k = some c → s.cachedPlace q c va = some p → s.translate q who va k = .ok p s) ∧
    (∀ p t, s.translate q who va k = .ok p t → exec (.pagePin who va k) s = .next t ∧ still t ∧ pinned t p ∧
      (s.MemWf → ∀ x, (t.part q).pins = x :: (s.part q).pins → x.home = 1 ∨ x.home = 2 →
        ∀ n, x.pa / 8 ≤ n → n < (x.pa + x.size) / 8 → n ≠ x.leaf / 8 →
          (x.home = 1 → ¬ (s.core x.phys).forced (x.place (8 * n)).off) →
          t.holderWord (x.place (8 * n)) = (t.mem.word n, t.mem.sealAt n))) ∧
    (∀ p t, s.walk q who va k = .ok p t → exec (.translationWalk who va k) s = .next t ∧ still t ∧ pinned t p ∧
      ∃ u e size ipa, leads u e size ipa ∧ allowed (e.getLsbD 2) (e.getLsbD 3) (e.getLsbD 4) = true ∧
        ((s.part q).window ipa = none → ∃ l, u.stage2 (s.part q).s2root ipa = .ok l ∧ allowed l.r l.w l.x = true ∧ p.pa = l.pa ∧
          p.home = (if l.nc = true ∨ Config.hostBase ≤ l.pa then 3 else e.extractLsb' 7 2) ∧
          (let e' := l.entry ||| 0x20 ||| (if writes ∧ l.w then 0x40 else 0)
           t.mem = if e' = l.entry then u.mem else u.mem.store (l.at_ / 8) e') ∧
          ∃ c, c ∈ (t.part q).tlb ∧ c.party = who ∧ c.va ≤ v ∧ p.pa = c.pa + (v - c.va)) ∧
        ∀ r, (s.part q).window ipa = some r → (t.part q).tlb = (s.part q).tlb ∧
          (r.dev ≠ s.device → p = r.place q) ∧
          (r.dev = s.device → ∃ l pl, u.serves r.part s.device q r.ipa = .here l pl ∧ p = pl.through r q ∧
            (u.part r.part).admits s.device q = true ∧ u.stage2 (u.part r.part).s2root r.ipa = .ok l ∧ p.pa = l.pa ∧
            allowed l.r l.w l.x = true)) ∧
    (∀ u e size ipa, canonical va = true → leads u e size ipa → (s.part q).window ipa = none →
      let fails (cause : BitVec 8) : Prop := ∃ x t, s.walk q who va k = .fault x t ∧ x.cause = cause ∧ x.ipa = ipa ∧ x.table = false
      (∀ c b i, u.stage2 (s.part q).s2root ipa = .error (.fault c b i) → fails c) ∧
      ∀ l, u.stage2 (s.part q).s2root ipa = .ok l →
        (allowed (e.getLsbD 2) (e.getLsbD 3) (e.getLsbD 4) = false → fails 0x11) ∧
        (allowed (e.getLsbD 2) (e.getLsbD 3) (e.getLsbD 4) = true → allowed l.r l.w l.x = false → fails 0x13)) ∧
    ∀ x t, s.walk q who va k = .fault x t → x.addr = va ∧ x.kind = k ∧ x.cause ∈ [0x10, 0x11, 0x12, 0x13, 0x14] ∧
      (∀ c j, who = .slot c j → (t.core c).bind.isSome = true → ((t.core c).slot j).park = none →
        ∃ u, exec (.translationWalk who va k) s = .next u ∧ ParkedAt t u c j x)

/-- R12, R409, R410: the slots that must meet at a bundle become one joined group once each has it as its address, and nothing else of
any slot changes; a move that issued before one of them comes before the next instruction of each (R63). The first detection of a
stage replays the ck and counts, and a second one before the stage has passed the ck after the replay loses the context. -/
def Obligations.RendezvousAndDetectors : Prop :=
  (∀ (c : Nat) (x : Word) (ws : List Word) (s u : State), s.fetch c .A x = .ok ws u →
    let must := (u.core c).party ws
    let labels := must.map (fun k => ((u.core c).slot k).group)
    let joins (k : Slot) : Prop := ((u.core c).slot k).group ∈ labels ∧ ((u.core c).slot k).halted = false
    ∃ t, exec (.rendezvous c x) s = .next t ∧ BytesKept u t ∧ OnlyCore u t c ∧
      { t.core c with slots := (u.core c).slots, moves := (u.core c).moves } = u.core c ∧
      (t.core c).moves.map (fun m => { m with knows := 0, joinedV := false }) =
        (u.core c).moves.map (fun m => { m with knows := 0, joinedV := false }) ∧
      (∀ k, { (t.core c).slot k with group := ((u.core c).slot k).group } = (u.core c).slot k) ∧
      ((∃ k, k ∈ must ∧ ((u.core c).slot k).c0 ≠ x) → ∀ k, (t.core c).slot k = (u.core c).slot k) ∧
      ((∀ k, k ∈ must → (u.core c).arrived x k = true) →
        (∀ k, ¬ joins k → (t.core c).slot k = (u.core c).slot k) ∧
        (∀ (i : Nat) (m : Move), (u.core c).moves[i]? = some m → (∃ k, joins k ∧ m.knows.getLsbD (slotIx k) = true) →
          ∃ m', (t.core c).moves[i]? = some m' ∧ ∀ k, joins k → m'.knows.getLsbD (slotIx k) = true) ∧
        ∀ k j, joins k → joins j → ((t.core c).slot k).group = ((t.core c).slot j).group ∧
          ((t.core c).slot k).group ≤ slotIx k)) ∧
  ∀ (c stage lane : Nat) (s : State),
    let n := Tab.get 0 s.ecrepl (c / 8)
    (stage = 0 ∨ 5 < stage → exec (.timingDetection c stage lane) s = .next s) ∧
    (1 ≤ stage → stage ≤ 5 → (∀ x, x ∈ (s.core c).detected → x.1 ≠ stage) →
      exec (.timingDetection c stage lane) s = .next { s with
        cores := Tab.set s.cores c { s.core c with detected := (s.core c).detected ++ [(stage, false)] }
        ecrepl := Tab.set s.ecrepl (c / 8) (if n = BitVec.allOnes 64 then n else n + 1) }) ∧
    ∀ b x, (s.core c).bind = some b → 1 ≤ stage → stage ≤ 5 → (stage, x) ∈ (s.core c).detected →
      ∃ t l who, exec (.timingDetection c stage lane) s = .next t ∧ t.agenda = s.agenda ++ [.contextLoss b.part l] ∧ l.cause = 0x63 ∧
        l.source = .timing ∧ l.detail = 0#40 ++ BitVec.ofNat 8 stage ++ BitVec.ofNat 16 lane ∧ l.party = some who ∧
        who ∈ (if stage = 1 then [.slot c .A, .slot c .B] else if stage ≤ 3 then [.slot c .V] else [Party.queue c .mq]) ∧
        { t.core c with detected := (s.core c).detected } = s.core c ∧
        (t.core c).detected = (s.core c).detected.filter (fun y => y.1 ≠ stage) ∧ t.mem = s.mem ∧ t.parts = s.parts

/-! Partitions: their creation and destruction, resizes, lending, budgets, invalidations, limiters and resets of functions. -/

/-- R335, R336, R337, R344: CREATE and DESTROY give ERR by the first check that fails, and change nothing else then. CREATE builds the
cluster list, binds the clusters, gives everything of context lifetime its reset value and raises RGEN; DESTROY frees the holes
and clusters of the partition, whose stores hold zeros (but for a bit that REPINJ forces, R448) and whose slices and banks hold no time, and tells the
peers that wait for its launches; the end of a scrub leaves zeros in the channels. That any of
bits 15 to 1 of S2ROOT gives ERR 5 is the model's reading (log 45). -/
def Obligations.PartitionsComeAndGo : Prop :=
  (∀ (n : Nat) (s : State), n < 32 → (s.part n).job = none → s.bootDone = true →
    let p := s.part n
    let named (m : BitVec 32) : List Nat := (List.range 32).filter (fun c => m.getLsbD c)
    let said (i : Instr) (e : Nat) : Prop := exec i s = .next { s with parts := Tab.set s.parts n { p with err := BitVec.ofNat 8 e } }
    let e1 := if p.state ≠ 0 then 1 else if s.vfEnabled n = false then 14 else if p.pguar = 0 ∨ p.pguar &&& p.pmargin ≠ 0 then 2
      else if (named (p.pguar ||| p.pmargin)).any (fun c => !s.clusterFree c) then 3
      else if p.s2root.getLsbD 0 = false ∨ p.s2root.extractLsb' 1 15 ≠ 0 then 5 else 0
    let e2 := if p.state ≠ 1 then 1 else if (List.range 32).any (fun c => s.lentOut n c) then 4 else 0
    (e1 ≠ 0 → said (.create n) e1) ∧ (e2 ≠ 0 → said (.destroy n) e2) ∧
    (e1 = 0 → ∃ t, exec (.create n) s = .next t ∧ t.mem = s.mem ∧ t.holes = s.holes ∧ t.capGen = s.capGen + 2 ∧
      (∀ k, k ≠ n → t.part k = s.part k) ∧
      (let q := t.part n
       q.state = 1 ∧ q.err = 0 ∧ q.job = none ∧ q.rgen = p.rgen + 1 ∧ q.margin = p.pmargin ∧
       q.clusters = named p.pguar ++ named p.pmargin ∧
       q.launch = none ∧ q.rings = [] ∧ q.due = [] ∧ q.handles = [] ∧ q.compl = {} ∧ q.cl = [] ∧ q.bn = [] ∧ q.ba = [] ∧ q.budget = [] ∧
       q.pins = [] ∧ q.tlb = [] ∧ q.s1root = 0 ∧ q.mlend = 0 ∧ q.pend = 0 ∧ q.pmask = BitVec.allOnes 64 ∧ q.inv1 = {} ∧ q.ecount = 0 ∧
       q.lost = false ∧ q.clapper = 0 ∧ q.phole = 0 ∧
       q.s2root = p.s2root ∧ q.pincap = p.pincap ∧ q.svroot = p.svroot ∧ q.spdl = p.spdl ∧ q.pguar = p.pguar ∧ q.pmargin = p.pmargin ∧
       q.plend = p.plend ∧ q.fwin = p.fwin ∧ q.facc = p.facc ∧ q.migimg = p.migimg ∧ q.mimport = p.mimport ∧ q.eperiod = p.eperiod ∧
       (∀ i, i < 4 → (Tab.get {} q.lims i).reg = (Tab.get {} p.lims i).reg ∧
         (Tab.get {} q.lims i).bytes = ((max ((Tab.get {} p.lims i).reg.extractLsb' 32 16).toNat 1 * 1024000 : Nat) : Int)) ∧
       (∀ c, c ∈ q.clusters → (t.cluster c).owner = some n ∧ (t.cluster c).holder = some n ∧
         ∀ k, k < 8 → t.core (8 * c + k) = { s.core (8 * c + k) with cl := [], updating := 0 }) ∧
       (∀ c, c ∉ q.clusters → { t.cluster c with allot := (s.cluster c).allot } = s.cluster c) ∧
       ∀ k, k / 8 ∉ q.clusters → t.core k = s.core k)) ∧
    (e2 = 0 → (∀ c, c ∈ p.clusters → (s.cluster c).owner = some n) →
      (∀ k b, k ∈ p.cores → (s.core k).bind = some b → b.part = n) →
      ∃ t, exec (.destroy n) s = .next t ∧ t.mem = s.mem ∧ t.capGen = s.capGen + 2 ∧ (∀ k, k ≠ n → t.part k = s.part k) ∧
        (let ofLaunch : List Sent := match p.launch with
           | some l => match l.clapper with
             | some x => match x.origin with
               | some d => [.clapper d n (.report false)]
               | none => (s.groupOf l.words).map (fun d => .clapper d n (.abort s.device))
             | none => []
           | none => []
         let ofReplicas : List Sent := p.replicas.filterMap (fun k => k.origin.map (fun d => .clapper d.1 n (.report false)))
         t.sent = s.sent ++ ofLaunch ++ ofReplicas) ∧ Tab.get 0 t.bypassRts (384 + n) = 0 ∧
        (let q := t.part n
         q.state = 0 ∧ q.err = 0 ∧ q.rgen = p.rgen ∧ q.clusters = [] ∧ q.launch = none ∧ q.rings = [] ∧ q.due = [] ∧ q.pins = [] ∧
         q.budget = [] ∧ q.s2root = p.s2root ∧ q.pguar = p.pguar ∧ q.pmargin = p.pmargin) ∧
        (∀ h, if (s.hole h).state ≠ 0 ∧ (s.hole h).owner = n then
            t.hole h = { gen := if (s.hole h).gen + 1 = 0 then 1 else (s.hole h).gen + 1 }
          else t.hole h = s.hole h) ∧
        (∀ c, c ∈ p.clusters → (t.cluster c).owner = none ∧ (t.cluster c).holder = none ∧ (t.cluster c).scrubbing = true ∧
          (t.cluster c).l2Home = {} ∧ ∀ k, k < 8 → (t.core (8 * c + k)).bind = none ∧
            ((s.core (8 * c + k)).repair.repinj.getLsbD 63 = false → (t.core (8 * c + k)).store = {}) ∧
            (t.core (8 * c + k)).regs = {} ∧ (t.core (8 * c + k)).sems = [] ∧ (∀ j, ((t.core (8 * c + k)).slot j).halted = true) ∧
            (t.core (8 * c + k)).repair = (s.core (8 * c + k)).repair) ∧
        (∀ i, (i / 256 ∈ p.clusters → Tab.get 0 t.bankRts i = 0) ∧ (i * 128 / Config.clusterBytes ∈ p.clusters → Tab.find? t.homes i = none) ∧
          (i / 12 ∈ p.clusters → Tab.get 0 t.memts i = 0 ∧ Tab.get 0 t.bypassRts i = 0)) ∧
        (∀ c, c ∉ p.clusters → t.cluster c = s.cluster c) ∧ ∀ k, k / 8 ∉ p.clusters → t.core k = s.core k)) ∧
  ∀ (m : BitVec 32) (s : State),
    let hit (c : Nat) : Prop := c < 32 ∧ m.getLsbD c = true ∧ (s.cluster c).scrubbing = true
    ((∀ c, ¬ hit c) → exec (.scrubEnd m) s = .next s) ∧
    (∀ c, hit c → s.MemWf → (∀ f, f ∈ s.retired → f.1 % 4096 = 0) → ∃ t, exec (.scrubEnd m) s = .next t ∧ t.parts = s.parts ∧
      t.cores = s.cores ∧ t.capGen = s.capGen + 2 ∧
      (∀ c, hit c → t.cluster c = { s.cluster c with scrubbing := false }) ∧ (∀ c, ¬ hit c → t.cluster c = s.cluster c) ∧
      ∀ a, (hit (a / Config.clusterBytes) → (∀ f, f ∈ s.retired → ¬ (f.1 ≤ a ∧ a < f.1 + 4096)) → t.mem.byte a = 0) ∧
        (¬ hit (a / Config.clusterBytes) ∨ (∃ f, f ∈ s.retired ∧ f.1 ≤ a ∧ a < f.1 + 4096) → t.mem.byte a = s.mem.byte a))

/-- R336, R338 to R343: RESIZE, LEND and REVOKE give ERR by the first check that fails. Added clusters join the list at once; removed
ones leave it one by one, the last cluster taking the place of each, with its semaphores' counts; LEND gives the cluster to the
borrower; REVOKE and MLEND recall it, and the generations of that moment decide which guest is told of the return (log 47). Each change
of a list raises the generation of the capability table, and tells the guest unless its function has been reset since. The return of a
recalled cluster starts at once where no command is in progress, or one that waits for the launch slot or for its own revoked cluster:
that one rests until the return is over (log 47). What S2ROOT a command refuses, and where clusters of an owner that is gone go, are the
model's reading (logs 45 and 46). -/
def Obligations.ResizesAndLending : Prop :=
  ∀ (n : Nat) (s : State), n < 32 →
    let p := s.part n
    let one (m : Word) : List Nat := (List.range 32).filter (fun c => m.getLsbD c)
    let said (i : Instr) (e : Nat) : Prop := exec i s = .next { s with parts := Tab.set s.parts n { p with err := BitVec.ofNat 8 e } }
    let others (t : State) : Prop := t.mem = s.mem ∧ t.holes = s.holes ∧ ∀ q, q ≠ n → t.part q = s.part q
    let allots (t : State) : Prop := t.cores = s.cores ∧ ∀ c, { t.cluster c with allot := (s.cluster c).allot } = s.cluster c
    let gen (q : Option Nat) : BitVec 16 := match q with | some q => (s.part q).rgen | none => 0
    let wanted (c : Nat) : Cluster := { s.cluster c with
      recalled := true, recallGen := gen (s.cluster c).holder, recallGain := gen (s.cluster c).owner }
    let due := p.clusters.find? (fun c => (s.cluster c).owner != some n && (s.cluster c).recalled)
    let rests : Prop := match p.job with
      | none => p.state = 1
      | some (.await _) => p.resting = none
      | some (.remove _ w _) => w = true ∧ p.launch.isSome = true ∧ p.departing = [] ∧ p.resting = none
      | some (.pause ..) => False
    let quiet : Prop := ¬ rests ∨ due = none
    let ended : Partition := match p.resting with
      | some (j, g, h) => { p with job := some j, jobGen := g, gainGen := h, resting := none }
      | none => { p with job := none, state := 1 }
    (p.job = none → s.bootDone = true →
      let all := p.pguar ||| p.pmargin
      let add := (List.range 32).filter (fun c => all.getLsbD c && !((s.cluster c).owner == some n))
      let del := (List.range 32).filter (fun c => !all.getLsbD c && ((s.cluster c).owner == some n))
      let e := if p.state ≠ 1 then 1
        else if p.pguar = 0 ∨ p.pguar &&& p.pmargin ≠ 0 ∨ (add = [] ∧ p.clusters.all (fun c => del.contains c)) then 2
        else if add.any (fun c => !s.clusterFree c) then 3 else if del.any (fun c => s.lentOut n c) then 4
        else if p.s2root.getLsbD 0 = false ∨ p.s2root.extractLsb' 1 15 ≠ 0 then 5 else 0
      ∀ force : Bool,
        (e ≠ 0 → said (.resize n force) e) ∧
        (e = 0 → ∃ u t, exec (.resize n force) s = .next t ∧ (if del ≠ [] ∧ add = [] then t = u else exec (.dispatchStep n) u = .next t) ∧
          others u ∧
          (u.part n).clusters = p.clusters ++ add ∧ (u.part n).err = 0 ∧ (u.part n).margin = p.pmargin ∧ (u.part n).launch = p.launch ∧
          (u.part n).rings = p.rings ∧ u.capGen = s.capGen + (if add ≠ [] ∨ p.margin ≠ p.pmargin then 2 else 0) ∧
          (del = [] → (u.part n).state = 1 ∧ (u.part n).job = none ∧ (u.part n).pend = p.pend ||| 4) ∧
          (del ≠ [] → (u.part n).state = 2 ∧ (u.part n).jobGen = p.rgen ∧
            (u.part n).job = some (.remove (p.clusters.filter (fun c => del.contains c)).reverse (!force) none)) ∧
          (∀ c, c ∈ add → (u.cluster c).owner = some n ∧ (u.cluster c).holder = some n ∧
            ∀ k, k < 8 → (u.core (8 * c + k)).cl = p.cl) ∧
          (∀ k, k / 8 ∉ add → u.core k = s.core k))) ∧
    (p.job = none → s.bootDone = true → ∀ force : Bool,
      let to_ := (p.plend.extractLsb' 32 5).toNat
      let lends (c : Nat) : Prop := p.margin.getLsbD c = true ∧ s.lentOut n c = false ∧ (s.cluster c).owner = some n ∧
        (s.part to_).state = 1
      (p.state ≠ 1 → said (.lend n force) 1 ∧ said (.revoke n) 1) ∧
      (p.state = 1 → (∀ c, one p.plend ≠ [c]) → said (.lend n force) 6 ∧ said (.revoke n) 6) ∧
      ∀ c, p.state = 1 → one p.plend = [c] →
        (p.clusters = [c] → said (.lend n force) 2) ∧
        (p.clusters ≠ [c] → ¬ lends c → said (.lend n force) 6) ∧
        (p.clusters ≠ [c] → lends c → p.mlend.getLsbD c = false → said (.lend n force) 7) ∧
        (p.clusters ≠ [c] → lends c → p.mlend.getLsbD c = true → ∃ t, exec (.lend n force) s = .next t ∧ others t ∧ allots t ∧
          t.part n = { p with state := 2, err := 0, job := some (.remove [c] (!force) (some to_)), jobGen := p.rgen
                              gainGen := (s.part to_).rgen }) ∧
        (p.margin.getLsbD c = false ∨ s.lentOut n c = false ∨ (s.part to_).state ≠ 1 → said (.revoke n) 6) ∧
        (p.margin.getLsbD c = true → s.lentOut n c = true → (s.part to_).state = 1 → ∃ t, exec (.revoke n) s = .next t ∧ others t ∧ t.cores = s.cores ∧
          t.part n = { p with state := 2, err := 0, job := some (.await c) } ∧
          t.cluster c = wanted c ∧ ∀ d, d ≠ c → t.cluster d = s.cluster d)) ∧
    (s.bootDone = true → ∀ x : Word, (p.state = 0 → exec (.mlend n x) s = .next s) ∧
      (p.state ≠ 0 → ∃ t, exec (.mlend n x) s = .next t ∧ others t ∧ t.cores = s.cores ∧ t.part n = { p with mlend := x.extractLsb' 0 32 } ∧
        ∀ c, t.cluster c = if c < 32 ∧ p.mlend.getLsbD c = true ∧ x.getLsbD c = false ∧ s.lentOut n c = true ∧
          (s.cluster c).recalled = false then wanted c else s.cluster c)) ∧
    (∀ c, rests → due = some c →
      let q : Partition := { p with
        state := 2, job := some (.remove [c] false (s.cluster c).owner), jobGen := (s.cluster c).recallGen
        gainGen := (s.cluster c).recallGain, resting := p.job.map (fun j => (j, p.jobGen, p.gainGen)) }
      exec (.clusterRemoval n) s = .next { s with parts := Tab.set s.parts n q }) ∧
    (quiet → p.job = none → exec (.clusterRemoval n) s = .next s) ∧
    (∀ c, quiet → p.job = some (.await c) → exec (.clusterRemoval n) s = .next (if (s.cluster c).recalled then s else
      { s with parts := Tab.set s.parts n ended })) ∧
    (∀ w g, p.job = some (.remove [] w g) → p.launch = none → ∃ t, exec (.clusterRemoval n) s = .next t ∧ others t ∧ t.cores = s.cores ∧
      t.clusters = s.clusters ∧ t.capGen = s.capGen ∧
      t.part n = { ended with pend := if p.jobGen = p.rgen then p.pend ||| 4 else p.pend }) ∧
    (∀ c rest w g, quiet → p.job = some (.remove (c :: rest) w g) → c ∈ p.clusters → p.clusters.Nodup →
      let v := p.clusters.findIdx (fun d => d == c)
      let last := p.clusters.length - 1
      let moved := p.clusters.getD last 0
      let leaving (k : Nat) : Prop := k / 8 = c ∨ k / 8 = moved
      (w = true → p.launch.isSome = true → exec (.clusterRemoval n) s = .next s) ∧
      (w = false ∨ p.launch = none → p.departing = [] → ∃ t, exec (.clusterRemoval n) s = .next t ∧ others t ∧
        t.part n = { p with departing := [v, last] } ∧ (∀ k, ¬ leaving k → t.core k = s.core k) ∧
        ∀ k, leaving k → (t.core k).regs = (s.core k).regs ∧ ((s.core k).stoppable = true → (t.core k).stop ≠ .none)) ∧
      (w = false ∨ p.launch = none → p.departing ≠ [] → (∃ k, leaving k ∧ (s.core k).bind.isSome = true) →
        ∃ t, exec (.clusterRemoval n) s = .next t ∧ others t ∧ t.part n = p ∧ t.clusters = s.clusters) ∧
      let here (q : Nat) : Option Nat := if (s.part q).state = 0 then none else some q
      let gains := g.bind (fun q => (here q).or ((s.cluster c).owner.bind here))
      (w = false ∨ p.launch = none → p.departing ≠ [] → (∀ k, leaving k → (s.core k).bind = none) →
        (∀ q, gains = some q → (s.part q).launch = none) →
        ∃ t, exec (.clusterRemoval n) s = .next t ∧ t.capGen = s.capGen + 2 ∧
          (t.part n).clusters = (if v = last then p.clusters.dropLast else (p.clusters.set v moved).dropLast) ++
            (if gains = some n then [c] else []) ∧
          (t.part n).job = some (.remove rest w g) ∧ (t.part n).departing = [] ∧ (t.part n).launch = p.launch ∧
          (∀ i, Tab.get 0 (t.part n).budget i =
            if i = last ∨ (i = v ∧ (s.cluster moved).owner ≠ some n) then 0 else Tab.get 0 p.budget i) ∧
          (∀ l, 4 ≤ l → let x := Tab.get ({} : ClEntry) p.cl l
            (Tab.get ({} : ClEntry) (t.part n).cl l) = if x.valid = true ∧ (2 ^ (8 * last) ≤ x.cores.toNat ∨ 2 ^ last ≤ x.ccm.toNat) then
              { x with stale := true } else x) ∧
          (v ≠ last → ∀ k, k < 8 → (t.core (8 * moved + k)).sems = (s.core (8 * c + k)).sems ∧
            (t.core (8 * moved + k)).regs = (s.core (8 * moved + k)).regs) ∧
          (∀ k, k < 8 → ((s.core (8 * c + k)).repair.repinj.getLsbD 63 = false → (t.core (8 * c + k)).store = {}) ∧
            (t.core (8 * c + k)).sems = []) ∧
          (gains = none → (t.cluster c).owner = none ∧ (t.cluster c).holder = none ∧ (t.cluster c).scrubbing = true) ∧
          (∀ q, gains = some q → (t.cluster c).owner = (s.cluster c).owner ∧ (t.cluster c).holder = some q ∧ (t.cluster c).recalled = false ∧
            (q ≠ n → (t.part q).clusters = (s.part q).clusters ++ [c]) ∧
            (t.part q).pend = if p.gainGen = (s.part q).rgen then (s.part q).pend ||| 4 else (s.part q).pend))) ∧
    (∀ (k : Nat) (b : Bind) (l : Launch) (c : Nat) (rest : List Nat) (w : Bool) (g : Option Nat),
      (s.core k).bind = some b → b.part = n → b.vcore / 8 ∈ p.departing → p.job = some (.remove (c :: rest) w g) →
      (s.cluster c).owner ≠ some n → p.launch = some l → l.closed = false →
      (∃ x, ((s.part n).ring l.ring).run = some x ∧ x.done = false) →
      (∀ j x, j ∈ p.cores → (s.core j).bind = some x → x.part = n) →
      ∃ t l' e, exec (.revokeSaveTimeout n k) s = .next t ∧ others t ∧ (t.part n).launch = some l' ∧ l'.closed = true ∧
        l'.ending = some e ∧ e = l.ending.getD (0x0D, 0) ∧ PacketDone s t n l.ring e.1 e.2 ∧
        ∀ j, if j ∈ p.cores then (t.core j).bind = none else t.core j = s.core j)

/-- R258, R259, R347, R348, R355, R358, R359, R360: a budget word is clamped, and refused as a whole where a total or a pinned page
forbids it; a transfer waits until its bucket is not below 0, and its bytes are counted; invalidations are counted, and the oldest completes with no
translation of its range left; VFSTATE runs and quiesces a function; a function-level reset clears PEND, masks every event and
raises RGEN, and ends a loss. When a total above its cap refuses a budget word (log 47), and that a base is rounded down and ALL admits
any LOG2SZ (log 44), are the model's reading. From the close of a pause to the resume no byte counts towards a charge (R403). A cached translation does not
tell from which tables it came, so that S2INV drops them all (log 44). R408, R462, R412 to R414, R389: a lost context has no task, no launch and no record on its way, its rings stand,
a pause of it fails, and its dead letter names the first event, while later ones are counted, each with an event of the physical
function (log 43). -/
def Obligations.BudgetsInvalidationsAndResets : Prop :=
  ∀ (n : Nat) (s : State),
    let p := s.part n
    let just (t : State) (q : Partition) : Prop := { t with parts := s.parts } = s ∧ t.part n = q ∧ ∀ k, k ≠ n → t.part k = s.part k
    (∀ (v : Nat) (x : Word),
      let y := budgetStored x
      let old := budgetTotals p.budget
      let new := budgetTotals (Tab.set p.budget v y)
      let refused (c : Nat) : Prop := (s.cluster c).owner ≠ some n ∨
        ((p.pincap.extractLsb' 0 13).toNat < new.1 ∧ old.1 < new.1) ∨ ((p.pincap.extractLsb' 16 10).toNat < new.2.1 ∧ old.2.1 < new.2.1) ∨
        ((p.pincap.extractLsb' 32 10).toNat < new.2.2 ∧ old.2.2 < new.2.2) ∨
        (∃ k, k < 8 ∧ (y.extractLsb' (5 * k) 5).toNat * 65536 < p.pinned 1 (8 * c + k)) ∨
        (y.extractLsb' 48 5).toNat * 0x40000 < p.pinned 2 c ∨ (y.extractLsb' 53 5).toNat * 0x100000 < p.pinned 0 c
      (∀ k, k < 8 → y.extractLsb' (5 * k) 5 = BitVec.ofNat 5 (min (x.extractLsb' (5 * k) 5).toNat 16)) ∧
      y.extractLsb' 48 5 = BitVec.ofNat 5 (min (x.extractLsb' 48 5).toNat 24) ∧
      y.extractLsb' 53 5 = BitVec.ofNat 5 (min (x.extractLsb' 53 5).toNat 24) ∧ y.extractLsb' 40 8 = 0 ∧ y.extractLsb' 58 6 = 0 ∧
      (p.clusters[v]? = none → exec (.budgetWord n v x) s = .next s) ∧
      ∀ c, p.clusters[v]? = some c → s.bootDone = true → (refused c → exec (.budgetWord n v x) s = .next s) ∧
        (¬ refused c → ∃ t, exec (.budgetWord n v x) s = .next t ∧ just t { p with budget := Tab.set p.budget v y })) ∧
    (s.bootDone = true → ∀ x : Word,
      let m := (x.extractLsb' 57 6).toNat
      let good := x.getLsbD 63 = true ∨ (12 ≤ m ∧ m ≤ 57)
      let range := if x.getLsbD 63 = true then (0, 2 ^ 64) else ((x.extractLsb' 12 45).toNat * 4096 / 2 ^ m * 2 ^ m, 2 ^ m)
      let next (v : Inval) : Inval := if v.req - v.done < 16 then { v with req := v.req + 1, waiting := v.waiting ++ [(range.1, range.2, p.rgen)] }
        else { v with ovf := true }
      (good → p.state ≠ 0 → ∃ t, exec (.s1inv n x) s = .next t ∧ just t { p with inv1 := next p.inv1 }) ∧
      (good → ∃ t, exec (.s2inv n x) s = .next t ∧ just t { p with inv2 := next p.inv2 }) ∧
      (¬ good ∨ p.state = 0 → ∃ t, exec (.s1inv n x) s = .next t ∧ just t p) ∧ (¬ good → ∃ t, exec (.s2inv n x) s = .next t ∧ just t p)) ∧
    (∀ a m gen rest,
      (p.inv1.waiting = (a, m, gen) :: rest → ∃ t, exec (.invalidationComplete n .s1) s = .next t ∧
        (∀ c, c ∈ (t.part n).tlb ↔ c ∈ p.tlb ∧ (c.va + c.size ≤ a ∨ a + m ≤ c.va)) ∧
        (∀ x, x ∈ (t.part n).pins ↔ x ∈ p.pins ∧ (x.va + x.size ≤ a ∨ a + m ≤ x.va)) ∧
        (t.part n).inv1 = { p.inv1 with done := p.inv1.done + 1, waiting := rest } ∧
        (t.part n).pend = (if gen = p.rgen then p.pend ||| 8 else p.pend) ∧
        t.mem = ((p.pins.filter (fun x => decide (x.va < a + m) && decide (a < x.va + x.size))).foldl State.emptyPin s).mem ∧
        (∀ c, { t.core c with store := (s.core c).store } = s.core c) ∧ ∀ k, k ≠ n → t.part k = s.part k) ∧
      (p.inv2.waiting = (a, m, gen) :: rest → ∃ t, exec (.invalidationComplete n .s2) s = .next t ∧
        just t { p with tlb := [], inv2 := { p.inv2 with done := p.inv2.done + 1, waiting := rest } })) ∧
    (p.inv1.waiting = [] → exec (.invalidationComplete n .s1) s = .next s) ∧
    (p.inv2.waiting = [] → exec (.invalidationComplete n .s2) s = .next s) ∧
    (n < 32 → s.bootDone = true → ∀ x : Word,
      (x = 0 ∨ x = 1 → ∃ t, exec (.vfstate n x) s = .next t ∧ { t with parts := s.parts, sent := s.sent } = s ∧
        t.part n = { p with vfstate := x.toNat } ∧ (∀ k, k ≠ n → t.part k = s.part k) ∧
        t.sent = s.sent ++ (if x = 0 ∧ p.vfstate ≠ 0 then
          ((List.range 8).filter (fun i => (p.pend &&& ~~~p.pmask).getLsbD i)).map (fun i => .msi (some (n + 1)) i) else [])) ∧
      (x ≠ 0 → x ≠ 1 → exec (.vfstate n x) s = .next s)) ∧
    (n < 32 → s.bootDone = true → (
      (∀ c b, c ∈ p.cores → (s.core c).bind = some b → b.part = n) →
        ∃ t, exec (.functionLevelReset n) s = .next t ∧ t.mem = s.mem ∧ (∀ k, k ≠ n → t.part k = s.part k) ∧
          (t.part n).pend = 0 ∧ (t.part n).pmask = BitVec.allOnes 64 ∧ (t.part n).rgen = p.rgen + 1 ∧ (t.part n).lost = false ∧
          (t.part n).clusters = p.clusters ∧ (t.part n).state = p.state ∧ (t.part n).s1root = p.s1root ∧ (t.part n).replicas = [] ∧
          (∀ c, c ∉ p.cores → t.core c = s.core c) ∧
          (p.lost = true → (t.part n).due = [] ∧ ∀ r, ((t.part n).ring r).wi = (p.ring r).wi ∧
            ((t.part n).ring r).run = none ∧ ((t.part n).ring r).rd = (p.ring r).wi ∧ ((t.part n).ring r).enable = false))) ∧
    (∀ l : Loss,
      let cause := if l.source = .parity then 0x60 else l.cause
      let frame := l.pa.toNat / 4096 * 4096
      let listed := ∃ o, (frame, o) ∈ s.retired
      let retires := l.source ≠ .parity ∧ l.fromHbm = true ∧ (cause = 0x60 ∨ cause = 0x62)
      (p.state = 0 ∨ p.state = 3 → exec (.contextLoss n l) s = .next s) ∧
      (p.state ≠ 0 → p.state ≠ 3 → p.lost = true →
        let w := wordAt p.dl 0
        let x := w.extractLsb' 16 16
        let q : Partition := { p with dl := p.dl.set 0 (w.extractLsb' 32 32 ++ (if x = 0xFFFF then x else x + 1) ++ w.extractLsb' 0 16) }
        let u : State := { s with parts := Tab.set s.parts n q }
        exec (.contextLoss n l) s = .next (if s.masked 6 = true then { u with pba := s.pba ||| 0x40 }
          else { u with sent := s.sent ++ [.msi none 6] })) ∧
      (p.state ≠ 0 → p.state ≠ 3 → p.lost = false → (∀ c b, c ∈ p.cores → (s.core c).bind = some b → b.part = n) →
        ∃ t, exec (.contextLoss n l) s = .next t ∧ t.mem = s.mem ∧ t.holes = s.holes ∧
          (∀ k, k ≠ n → { t.part k with tlb := (s.part k).tlb } = s.part k) ∧ (∀ c, c ∉ p.cores → t.core c = s.core c) ∧
          (∀ c, c ∈ p.cores → (t.core c).bind = none ∧ (t.core c).sems = [] ∧ (t.core c).store = (s.core c).store) ∧
          (let q := t.part n
           let dl (i : Nat) : Word := wordAt q.dl i
           q.lost = true ∧ q.launch = none ∧ q.due = [] ∧ q.handles = [] ∧ q.wants = [] ∧ q.bn = [] ∧ q.pend = p.pend ||| 16 ∧
           q.clusters = p.clusters ∧ q.pins = p.pins ∧ q.cl = p.cl ∧ q.budget = p.budget ∧ q.s1root = p.s1root ∧ q.ecount = p.ecount ∧
           (∀ r, r < 16 → (q.ring r).stuck = true ∧ (q.ring r).rbase = (p.ring r).rbase ∧ (q.ring r).wi = (p.ring r).wi ∧
             (q.ring r).rd = (p.ring r).rd) ∧
           (∀ i vf, p.job = some (.pause i vf) → q.job = none ∧ q.err = 13 ∧ q.state = 1 ∧ q.vfstate = vf) ∧
           (p.pausing = false → q.job = p.job ∧ q.state = p.state ∧ q.vfstate = p.vfstate) ∧
           (dl 0).extractLsb' 56 8 = cause ∧ (dl 0).extractLsb' 16 16 = 0 ∧ (dl 0).extractLsb' 0 16 = p.rgen ∧ dl 1 = l.va ∧
           ((dl 2).getLsbD 63 = true ↔ retires ∧ (listed ∨ s.retired.length < 8192)) ∧ dl 3 = l.detail ∧ dl 5 = t.timebase ∧
           (dl 6).extractLsb' 0 32 = (wordAt p.dl 6).extractLsb' 0 32 + 1) ∧
          (retires → s.retired.length < 8192 → ∃ o, (frame, o) ∈ t.retired) ∧ (¬ retires → t.retired = s.retired))) ∧
    ∀ (w : Limiter) (len : Nat),
      let b := Tab.get {} p.lims (limiterIx w)
      s.holdUntil = none → -(2 ^ 60 : Int) < b.bytes →
      ∃ t b' t0, exec (.limiterTransferStart n w len) s = .next t ∧ PartActs s t n ∧
        t.part n = { p with
          lims := Tab.set p.lims (limiterIx w) b'
          fabBytes := p.fabBytes + (if w = .fab ∧ p.state ≠ 4 then len else 0)
          hostBytes := p.hostBytes + (if w = .host ∧ p.state ≠ 4 then len else 0) } ∧
        b'.reg = b.reg ∧ b'.at_ = t.timebase ∧
        (let rate := (b.reg.extractLsb' 0 32).toNat
         let ready := ((b.refill t0).refill t.timebase).bytes
         (rate = 0 → b'.bytes = ready ∧ t.timebase = t0) ∧ (rate ≠ 0 → b'.bytes = ready - ((1000 * len : Nat) : Int) ∧
           (t0.toNat < 2 ^ 63 → 0 ≤ ready)))

/-! Stops, saves and resumes; pause and resume of a partition; migration channels, the fabric and the accounts. -/

/-- R361 to R365, R371, R372, R373: a stop request sets a deadline and a notice, and a second one keeps the earlier deadline; the
slots stop softly at a bundle that has a safe point, and hard at the deadline, but for a member that has finished; a member at rest
is saved to its slot, after a soft stop with what its live mask names, and leaves its core, and without a slot its launch ends. That a finished member is not stopped (log 37), the
bits of s0 and m0 in a live mask, and that an unreadable mask saves everything (log 39), are the model's reading. -/
def Obligations.StopsAndSaves : Prop :=
  ∀ (c : Nat) (s : State),
    let k := s.core c
    let timed (t : State) (x : Core) : Prop := t.core c = x ∧ (∀ d, d ≠ c → t.core d = s.core d) ∧
      { t with cores := s.cores, agenda := s.agenda, timebase := s.timebase, holdUntil := s.holdUntil, fresh := s.fresh } = s
    (∀ us : Nat, ∃ t, exec (.stopRequest c us) s = .next t ∧
      (let due := t.timebase.toNat + 1000 * us
       (k.stoppable = false → timed t k ∧ t.agenda = s.agenda) ∧
       (k.stoppable = true →
         (k.stop = .none → us = 0 → timed t { k with stop := .slots true none due } ∧ t.agenda = s.agenda) ∧
         (k.stop = .none → us ≠ 0 → let x : Core := { k with stop := .soft due, notice := k.notice || k.regs.tvec != 0 }
           timed t x ∧ t.agenda = s.agenda ++ (if x.trapDue = true then [.trapEntry c] else [])) ∧
         (∀ e, k.stop = .soft e → timed t { k with stop := if us = 0 then .slots true none due else .soft (min due e) }) ∧
         (∀ h l e, k.stop = .slots h l e → timed t { k with stop := .slots h l (min due e) })))) ∧
    (∀ d x b n u, k.stop = .soft d → k.safeAddr = some x → k.bind = some b →
      (s.part b.part).launch.bind (fun l => Tab.find? l.nodes b.node) = some n →
      (∀ live, s.safePoint b.part n.reel x = .ok (some live) u → ∃ t, exec (.softStop c) s = .next t ∧ OnlyCore u t c ∧
        t.core c = { u.core c with stop := .slots false (some live) d }) ∧
      (s.safePoint b.part n.reel x = .ok none u → exec (.softStop c) s = .next s)) ∧
    (k.safeAddr = none ∨ (∀ d, k.stop ≠ .soft d) → exec (.softStop c) s = .next s) ∧
    (∀ d, k.stop = .soft d ∨ (∃ l, k.stop = .slots false l d) → d < 2 ^ 64 → ∃ t, exec (.hardStop c) s = .next t ∧ t.agenda = s.agenda ∧
      (k.finished = false → timed t { k with stop := .slots true none d } ∧ t.timebase.toNat = max s.timebase.toNat d) ∧
      (k.finished = true → (t.core c).stop = .none ∧ t.mem = s.mem ∧ t.timebase = s.timebase ∧
        ((∀ b l n, k.bind = some b → (s.part b.part).launch = some l → Tab.find? l.nodes b.node = some n → n.seats.all (fun y => !y.away) = true) →
          timed t { k with stop := .none }))) ∧
    (k.stop = .none ∨ (∃ l d, k.stop = .slots true l d) → exec (.hardStop c) s = .next s) ∧
    (s.atRest c = false → exec (.stopSave c) s = .next s) ∧
    (∀ (b : Bind) (hard : Bool) (live : Option Nat) (d : Nat) (l : Launch), k.bind = some b → k.stop = .slots hard live d → s.atRest c = true →
      (s.part b.part).launch = some l →
      (s.saveSlot b = none → l.closed = false → ∃ t l' e, exec (.stopSave c) s = .next t ∧ t.mem = s.mem ∧ (t.part b.part).launch = some l' ∧
        l'.ending = some e ∧ e = l.ending.getD (0x0D, 0)) ∧
      (∀ base, s.saveSlot b = some base →
        let saved (u : State) (whole : Bool) (mask : List Word) : Prop :=
          let k := u.core c
          ∃ t x z y, exec (.stopSave c) s = .next t ∧
            t.mem = u.mem.save base ((y : Core).image x z) ∧ y.regs = k.regs ∧ y.store = k.store ∧ y.mq = k.mq ∧ y.cq0 = k.cq0 ∧ y.cq1 = k.cq1 ∧
            y.acc = k.acc ∧ (∀ j, (k.slot j).await = none → y.slot j = k.slot j) ∧
            x.hard = whole ∧ x.mask = mask ∧ x.bind = b ∧
            (t.core c).bind = none ∧ (t.core c).store = k.store ∧ (t.core c).sems = k.sems ∧
            ∀ n seat, Tab.find? l.nodes b.node = some n → n.seats[b.gpos]? = some seat → n.st = .dispatched →
              ∃ l' n' seat', (t.part b.part).launch = some l' ∧ Tab.find? l'.nodes b.node = some n' ∧ n'.seats[b.gpos]? = some seat' ∧
                seat'.away = true ∧ seat'.save = some base ∧ seat'.csSize = k.taskBytes
        (hard = true ∨ live = none → saved s true fullMask) ∧
        ∀ i n, hard = false → live = some i → Tab.find? l.nodes b.node = some n →
          (∀ mask u, s.liveMask b.part n.reel i = .ok mask u → saved u false mask) ∧
          ∀ x u, s.liveMask b.part n.reel i = .fault x u → saved u true fullMask)) ∧
    ∀ (x : SaveInfo), x.mask.length = 4 →
      let w := k.control x
      wordAt w 0 = 0#8 ++ (if x.hard then 2#8 else 1#8) ++ 1#16 ++ 0x45564153#32 ∧ wordAt w 3 = BitVec.ofNat 64 k.taskBytes ∧
      (∀ i, i < 4 → wordAt w (4 + i) = wordAt x.mask i) ∧
      (∀ n, n < 64 → wordAt w (8 + n) = if n ≠ 0 ∧ (wordAt x.mask 0).getLsbD n = true then Tab.get 0 k.regs.s n else 0) ∧
      wordAt w 73 = k.regs.fpctl ∧ wordAt w 74 = k.regs.fpflags ∧ wordAt w 77 = k.regs.tvec ∧ wordAt w 78 = k.regs.tcause ∧
      wordAt w 79 = k.regs.tval ∧ (∀ i, i < 16 → wordAt w (80 + i) = Tab.get 0 k.regs.xpc i) ∧
      ∀ j : Slot, wordAt w (96 + 8 * slotIx j) = (k.slot j).c0 ∧ wordAt w (97 + 8 * slotIx j) = (k.slot j).c1 ∧
        wordAt w (98 + 8 * slotIx j) = (k.slot j).c2

/-- R377, R379: a member's registers, slots, queues and task array come back from its save slot, and what its task array had not is zero;
a word that the leaf consumes and that is broken is read once more, and one broken then too loses the context; a slot that is not what
the node saved refuses the node. The segments of an MGRP that the member does not have are read again from its task array (log 41), and
what a slot of another device has no place for is the model's choice (log 70): of that the statement says nothing. -/
def Obligations.MemberResumes : Prop :=
  ∀ (c base : Nat) (s : State) (b : Bind) (l : Launch) (n : Node) (seat : Seat),
    (s.core c).bind = some b → (s.part b.part).launch = some l → Tab.find? l.nodes b.node = some n → n.seats[b.gpos]? = some seat →
    seat.save = some base → (s.core c).loading = true → (s.core c).restored = false →
    let m := (s.slotRead base).1
    let f := m.saved
    let mask := savedWords f 0x20 4
    (s.again = [] → m = s.region base 0x800000) ∧
    (∀ off, m.savedBad f.head = some off ∨ (m.savedBad f.head = none ∧ f.good b = true ∧ m.savedBad f.formed = some off) → ∃ t x, exec (.memberResume c) s = .next t ∧ t.agenda = s.agenda ++ [.contextLoss b.part x] ∧
      x.source = .restore ∧ x.pa = BitVec.ofNat 52 (base + off) ∧ t.cores = s.cores ∧ t.mem = s.mem) ∧
    (m.savedBad f.head = none → f.good b = false → l.closed = false → ∃ t l' n', exec (.memberResume c) s = .next t ∧ t.mem = s.mem ∧
      (t.part b.part).launch = some l' ∧ Tab.find? l'.nodes b.node = some n' ∧ n'.st = .refused ∧ n'.seats = [] ∧
      ∃ e, l'.ending = some e ∧ (l.ending = none → e.1 = 0x07)) ∧
    (m.savedBad f.head = none → f.good b = true → m.savedBad f.formed = none →
      let bare (j : Nat) : Prop := j < f.depth 0 ∧ (f (0x3000 + 64 * j)).extractLsb' 58 6 = 2 ∧
        ∀ x q y, seat.kept = some x → x.queues[0]? = some q → q.recs[j]? = some y → y.2.2.2 = []
      ∃ t, exec (.memberResume c) s = .next t ∧ t.mem = s.mem ∧ t.parts = s.parts ∧ (
        (∃ x, t.agenda = s.agenda ++ [.contextLoss b.part x] ∧ t.cores = s.cores ∧
          ((x.source = .matrixA ∧ (f 8).getLsbD 0 = true) ∨ (x.source = .restore ∧ ∃ j, bare j))) ∨
        (let k := t.core c
         (k.restored = true ∨ k.loading = false) ∧ k.stop = .none ∧ k.bind = some b ∧ k.sems = (s.core c).sems ∧
         (∀ i : SReg, k.regs.sget i = if i ≠ 0 ∧ (wordAt mask 0).getLsbD i.toNat = true then f (0x40 + 8 * i.toNat) else 0) ∧
         (∀ i : SReg, k.regs.tget i = (decide (i ≠ 0) && (wordAt mask 0).getLsbD i.toNat && (f 0x240).getLsbD i.toNat)) ∧
         k.regs.fpctl = f 0x248 ∧ k.regs.fpflags = f 0x250 ∧ k.regs.mchk = f 0x260 ∧ k.regs.tvec = f 0x268 ∧ k.regs.tcause = f 0x270 ∧
         k.regs.tval = f 0x278 ∧ (∀ i, i < 16 → Tab.get 0 k.regs.xpc i = f (0x280 + 8 * i)) ∧ k.regs.cyc = f 0x420 ∧
         k.busy = (f 0x400).getLsbD 0 ∧
         (∀ j : Slot, (k.slot j).c0 = f (0x300 + 64 * slotIx j) ∧ (k.slot j).c1 = f (0x308 + 64 * slotIx j) ∧
           (k.slot j).c2 = f (0x310 + 64 * slotIx j) ∧ (k.slot j).halted = (f (0x318 + 64 * slotIx j)).getLsbD 2) ∧
         k.mq.recs.length = f.depth 0 ∧ k.cq0.recs.length = f.depth 1 ∧ k.cq1.recs.length = f.depth 2 ∧ k.moves.length = f.moves ∧
         (m.wf = true → (s.core c).store.wf = true → (s.core c).taskBytes % 8 = 0 → (f 0x18).toNat % 8 = 0 →
           (s.core c).repair.repinj.getLsbD 63 = false →
           ∀ a, a < (s.core c).taskBytes → k.store.byte a = if a < (f 0x18).toNat then m.byte (0x400000 + a) else 0) ∧
         ∀ d, d ≠ c → (t.core d).regs = (s.core d).regs)))

/-- R387, R388, R389, R390, R396: PAUSE and RESUME give ERR by the first check that fails. PAUSE quiesces the function and asks every
task to stop; RESUME takes rings, barriers, budgets, semaphores and the entries from the image, raises the times of its slices to PTIME, and the
partition is live. Where several errors apply the order is the model's (log 49), and so is the length at worst that ERR 11 compares
(log 71). -/
def Obligations.PauseAndResume : Prop :=
  ∀ (n : Nat) (s : State), n < 32 → (s.part n).job = none → s.bootDone = true →
    let p := s.part n
    let said (i : Instr) (e : Nat) : Prop := exec i s = .next { s with parts := Tab.set s.parts n { p with err := BitVec.ofNat 8 e } }
    let e := if p.state ≠ 1 then 1 else if p.lost then 13
      else if (match p.launch with | some l => !l.closed && l.clapper.isSome | none => false) = true ∨ p.replicas ≠ [] then 10
      else if p.imageAt.2 < s.imageWorst n then 11
      else if (List.range 32).any (fun c => s.lentOut n c) ∨ p.clusters.any (fun c => (s.cluster c).owner != some n) then 12 else 0
    (e ≠ 0 → said (.pause n) e) ∧
    (e = 0 → ∃ t, exec (.pause n) s = .next t ∧ t.mem = s.mem ∧ t.clusters = s.clusters ∧ t.holes = s.holes ∧
      t.part n = { p with job := some (.pause 2 p.vfstate), vfstate := 2 } ∧ (∀ q, q ≠ n → t.part q = s.part q) ∧
      (∀ c, (t.core c).regs = (s.core c).regs ∧ (t.core c).bind = (s.core c).bind ∧ (c ∉ p.cores → t.core c = s.core c)) ∧
      ∀ c, c ∈ p.cores → (s.core c).stoppable = true → (t.core c).stop ≠ .none) ∧
    (p.state ≠ 4 → said (.resume n) 1) ∧ (s.again = [] → s.imageRead n = s.region p.imageAt.1 p.imageAt.2) ∧
    (p.state = 4 →
      let m := s.imageRead n
      let f := m.saved
      let sealed := ∀ i, i < (f 8).toNat / 8 → m.sealAt i = sealOf (m.word i)
      let right := (f 0).extractLsb' 0 32 = 0x4D494752 ∧ (f 0).extractLsb' 32 16 = 1 ∧ 0x80000 ≤ (f 8).toNat ∧
        (f 8).toNat ≤ p.imageAt.2 ∧ (f 0x10).extractLsb' 5 27 = 0 ∧ (f 0x10).extractLsb' 44 20 = 0 ∧ (f 0x40).extractLsb' 16 48 = 0 ∧
        (f 0x48).extractLsb' 32 32 = 0 ∧ (f 0x60).extractLsb' 20 44 = 0 ∧ (∀ i, i < 498 → f (0x70 + 8 * i) = 0) ∧ sealed ∧
        f.recordsOk = true
      let caps := budgetTotals ((List.range 32).map (fun v => (v, f (0x2900 + 8 * v))))
      let fits := ((f 0).extractLsb' 48 16).toNat = p.clusters.length ∧
        (∀ h, h ∈ f.holes → (s.hole h.1).state = 0 ∨ (s.hole h.1).owner = n) ∧
        (∀ i, i ∈ f.slotsNamed → i < (p.svroot.extractLsb' 52 12).toNat) ∧ caps.1 ≤ (p.pincap.extractLsb' 0 13).toNat ∧
        caps.2.1 ≤ (p.pincap.extractLsb' 16 10).toNat ∧ caps.2.2 ≤ (p.pincap.extractLsb' 32 10).toNat
      let far := ((f 0x10).extractLsb' 32 12).toNat ≠ s.device
      (¬ right → said (.resume n) 8) ∧ (right → ¬ fits → said (.resume n) 9) ∧ (right → fits →
      ∃ u t, exec (.resume n) s = .next t ∧ exec (.dispatchStep n) u = .next t ∧ u.mem = s.mem ∧ (∀ q, q ≠ n → u.part q = s.part q) ∧
        (let q := u.part n
         q.state = 1 ∧ q.err = 0 ∧ q.vfstate = 0 ∧ q.clusters = p.clusters ∧ q.s1root = f 0x2838 ∧ q.pend = f 0x2820 ||| 4 ∧
         q.pmask = f 0x2828 ∧ q.mlend = (f 0x2830).extractLsb' 0 32 ∧ q.rgen = (f 0x40).extractLsb' 0 16 ∧ q.clapper = f 0x48 ∧
         q.phole = f 0x50 ∧ q.ecount = f 0x58 ∧ q.s2root = p.s2root ∧ q.pincap = p.pincap ∧
         (∀ b, b < 64 → Tab.get 0 q.bn b = f (0x3800 + 8 * b)) ∧ (∀ v, v < 32 → Tab.get 0 q.budget v = f (0x2900 + 8 * v)) ∧
         (∀ r, r < 16 → (q.ring r).rbase = f (0x1000 + 384 * r) ∧ (q.ring r).wi = (f (0x1010 + 384 * r)).toNat ∧
           (q.ring r).rd = (f (0x1018 + 384 * r)).toNat ∧
           ((q.ring r).enable = ((f (0x1008 + 384 * r)).getLsbD 0 && (!decide far || (f (0x1008 + 384 * r)).getLsbD 3)))) ∧
         q.compl.base = f 0x2800 ∧ q.compl.wi = (f 0x2810).toNat ∧ q.compl.ri = (f 0x2818).toNat ∧
         (far → ∀ i, i < 28 → (Tab.get ({} : ClEntry) q.cl (i + 4)).valid = true → (Tab.get ({} : ClEntry) q.cl (i + 4)).stale = true)) ∧
        (p.clusters.Nodup → ∀ v c k, v < 8 * p.clusters.length → p.physCore v = some c → k < 256 →
          Tab.get 0 (u.core c).sems k = (f (0x4000 + 1024 * v + 4 * k / 8 * 8)).extractLsb' (32 * (k % 2)) 32) ∧
        (∀ c i, c ∈ p.clusters → i < 48 → (f 0x38).toNat ≤ Tab.get 0 (u.cluster c).memts i) ∧
        (∀ c i, c < 32 → (s.cluster c).owner = some n → i < 12 → (f 0x38).toNat ≤ Tab.get 0 u.memts (12 * c + i) ∧
          (f 0x38).toNat ≤ Tab.get 0 u.bypassRts (12 * c + i)) ∧
        ∀ c, (u.core c).regs = (s.core c).regs ∧ (u.core c).store = (s.core c).store))

/-- R382, R385, R386, R392, R393, R401, R402, R403, R416, R419, R464: a channel's GO begins or refuses its copy, ABORT stops it, and its end
sets DONE; a word of another device's channel lands where a paused partition imports it; a remote access is refused by the first rule
that forbids it, or performed at the holder, and a damaged word there costs the requester its context; training sets the number and the count,
a correction moves the count by 1 at most, and a lost port is gone; the end of a period charges the device and the partition, which pays 20 pJ
for each byte over the fabric and 8 pJ for each to or from the host beside what the monitors of its sources measure: each an amount that the
spec does not state, here below 2^40 units (log 51). That training sets the number, and that it stands after the last port's loss until the
next training, is log 50; what the far end answers, log 42. -/
def Obligations.ChannelsFabricAndAccounts : Prop :=
  (∀ (c : Nat) (s : State), c < 4 →
    let x := s.channel c
    let only (t : State) (y : Channel) : Prop := t.channel c = y ∧ (∀ d, d ≠ c → t.channel d = s.channel d) ∧
      { t with channels := s.channels, pba := s.pba, sent := s.sent } = s
    let told (t : State) : Prop := if s.masked 4 = true then t.pba = s.pba ||| 16 ∧ t.sent = s.sent
      else t.pba = s.pba ∧ t.sent = s.sent ++ [.msi none 4]
    let len := (x.len.extractLsb' 0 40).toNat / 64 * 64
    let bad := x.src.toNat % 64 ≠ 0 ∨ Config.hbmEnd < x.src.toNat + len
    (x.busy = true → exec (.go c) s = .next s) ∧
    (s.bootDone = true → x.busy = false → bad → ∃ t, exec (.go c) s = .next t ∧ told t ∧ only t { x with moved := 0, pos := 0, err := 1, done := true, aborting := false }) ∧
    (s.bootDone = true → x.busy = false → ¬ bad → ∃ t, exec (.go c) s = .next t ∧ only t { x with busy := true, moved := 0, pos := 0, err := 0, aborting := false }) ∧
    (s.bootDone = true → x.busy = true → ∃ t, exec (.abort c) s = .next t ∧ only t { x with aborting := true }) ∧
    (x.busy = false → exec (.abort c) s = .next s ∧ exec (.channelCopyDone c) s = .next s) ∧
    (x.busy = true → x.aborting = true ∨ len ≤ x.pos → ∃ t, exec (.channelCopyDone c) s = .next t ∧ told t ∧
      only t { x with busy := false, done := true, aborting := false, err := 0 }) ∧
    (x.busy = true → x.aborting = false → x.pos < len → exec (.channelCopyDone c) s = .next s)) ∧
  (∀ (r : FabricRequest) (s : State),
    let p := s.part r.part
    let answers (s t : State) (e : Option (Nat × BitVec 8)) (w : Word) (sl : BitVec 8) : Prop :=
      t.sent = s.sent ++ [.fabric r.srcDev r.srcPart e w sl] ∧ (∀ q, (t.part q).tlb = (s.part q).tlb ∧ (t.part q).state = (s.part q).state) ∧
      ∀ c, (t.core c).regs = (s.core c).regs ∧ (t.core c).slots = (s.core c).slots
    let refused (why : Nat) (cause : BitVec 8) : Prop := ∃ t, exec (.fabricAccess r) s = .next t ∧ answers s t (some (why, cause)) 0 0 ∧
      t.mem = s.mem ∧ t.cores = s.cores ∧ t.parts = s.parts
    let admitted := r.part < 32 ∧ p.state ≠ 0 ∧ ∃ i, i < 16 ∧ (Tab.get 0 p.facc i).getLsbD 63 = true ∧
      ((Tab.get 0 p.facc i).extractLsb' 16 12).toNat = r.srcDev ∧ ((Tab.get 0 p.facc i).extractLsb' 0 5).toNat = r.srcPart
    let stands := p.state = 4 ∨ p.pausing = true
    let lost (t : State) (y : BitVec 8) : Prop := t.sent = s.sent ++ [.fabricLost r.srcDev r.srcPart y] ∧
      ∀ c, (t.core c).regs = (s.core c).regs ∧ (t.core c).slots = (s.core c).slots
    let lands := r.ipa < Config.hbmEnd ∧ ∃ q, (s.cluster (r.ipa / Config.clusterBytes)).owner = some q ∧ (s.part q).state = 4 ∧
      (s.part q).mimport.getLsbD 63 = true ∧ ((s.part q).mimport.extractLsb' 0 12).toNat = r.srcDev
    let gone := ∃ f, f ∈ s.retired ∧ f.1 < r.ipa + 8 ∧ r.ipa < f.1 + 4096
    (r.chan = true → lands → ¬ gone → exec (.fabricAccess r) s = .next { s with
      mem := s.mem.write (r.ipa / 8) r.operand (sealOf r.operand ^^^ r.flaw), homes := Tab.erase s.homes (r.ipa / 128)
      homeDirty := s.homeDirty.filter (· != r.ipa / 128), sent := s.sent ++ [.fabric r.srcDev r.srcPart none 0 0] }) ∧
    (r.chan = true → lands → gone → exec (.fabricAccess r) s = .next { s with sent := s.sent ++ [.fabric r.srcDev r.srcPart none 0 0] }) ∧
    (r.chan = true → ¬ lands → exec (.fabricAccess r) s = .next { s with sent := s.sent ++ [.fabric r.srcDev r.srcPart (some (2, 0)) 0 0] }) ∧
    (r.chan = false → ¬ admitted → refused 1 0x12) ∧ (r.chan = false → admitted → stands → refused 2 0x12) ∧
    (r.chan = false → admitted → ¬ stands → ∀ e, s.stage2 p.s2root r.ipa = .error e → (∀ y pa, e ≠ .lost y pa) → refused 3 0x12) ∧
    (r.chan = false → admitted → ¬ stands → ∀ y pa, s.stage2 p.s2root r.ipa = .error (.lost y pa) →
      ∃ t, exec (.fabricAccess r) s = .next t ∧ lost t y.2 ∧ t.mem = s.mem ∧ t.parts = s.parts) ∧
    ∀ l, r.chan = false → admitted → ¬ stands → s.stage2 p.s2root r.ipa = .ok l →
      (rightOk l.r l.w l.x r.kind = false → refused 4 0x13) ∧
      (rightOk l.r l.w l.x r.kind = true →
        let n := Size.bytes r.size
        let u := s.markLeaf l (isWrite r.kind)
        let pl : Place := match p.pins.find? (fun x => decide (x.pa ≤ l.pa) && decide (l.pa < x.pa + x.size)) with
          | some x => x.place l.pa
          | none => Place.of { home := if l.nc || decide (Config.hostBase ≤ l.pa) then 3 else 0, phys := 0, pa := l.pa, off := 0 } (some r.part)
        let old := (u.holderWord pl).1
        let second := u.secondWord pl
        let marked : Prop := r.kind = .write ∧ syn old (u.holderWord pl).2 = 0xFF
        let puts (t : State) (y : Word) : Prop := l.pa % n = 0 → StoredAt u t pl (pl.addr / 8 * 8 + pl.pa % 8) n y
        let sound := (u.holderWord pl).2 = sealOf old
        let whole := byteSel l.pa n = 0xFF
        let free := pl.home = 1 → ¬ (s.core pl.phys).forced pl.addr
        let result (x : Word) : Option Word := fabricAtomic r.fn n (pick x pl.pa n) (zextOf r.operand (8 * n)) r.new
        (r.kind = .read ∨ r.kind = .fetch ∨ sound ∨ (r.kind = .write ∧ whole) →
          ∃ t, exec (.fabricAccess r) s = .next t ∧ answers s t none old (u.holderWord pl).2 ∧
            (t.part r.part).fabBytes = p.fabBytes + (if r.kind = .both ∧ (result old).isSome = true then 2 * n else n) ∧
            (r.kind = .read ∨ r.kind = .fetch → BytesKept u t) ∧
            (r.kind = .write → puts t r.operand ∧ (s.MemWf → free → pl.pa < Config.hostBase →
              (t.holderWord pl).2 = sealOf (t.holderWord pl).1 ^^^ r.flaw)) ∧
            (r.kind = .both → match result old with
              | some y => puts t y
              | none => BytesKept u t)) ∧
        (¬ sound → r.kind = .both → second.2 = sealOf second.1 →
          ∃ t, exec (.fabricAccess r) s = .next t ∧ answers s t none second.1 second.2 ∧
            match result second.1 with
            | some y => l.pa % n = 0 → s.MemWf → free → pl.here = true → ∀ k, k < n →
                t.byteAt pl.home pl.phys (pl.addr / 8 * 8 + pl.pa % 8 + k) = y.extractLsb' (8 * k) 8
            | none => BytesKept u t) ∧
        (¬ sound → marked ∨ second.2 ≠ sealOf second.1 → r.kind = .both ∨ (r.kind = .write ∧ ¬ whole) →
          ∃ t, exec (.fabricAccess r) s = .next t ∧ (¬ marked → lost t (syn second.1 second.2)) ∧ (marked → lost t 0xFF) ∧
            (s.MemWf → free → second.1 = old → BytesKept u t)))) ∧
  (∀ (d : Nat) (s : State),
    let ports := if s.ports = 0 then 1 else s.ports
    exec (.linkTraining d none) s = .next { s with device := d % 4096, trained := true, ports, holdUntil := none } ∧
    ∀ m : Word, (s.timebase.toNat < m.toNat → exec (.linkTraining d (some m)) s =
        .next { s with device := d % 4096, trained := true, ports, holdUntil := none, timebase := m }) ∧
      (m.toNat ≤ s.timebase.toNat → exec (.linkTraining d (some m)) s =
        .next { s with device := d % 4096, trained := true, ports, holdUntil := some m }) ∧
      exec (.timebaseCorrection m) s = .next (if s.trained = true ∧ s.timebase.toNat < m.toNat then { s with timebase := s.timebase + 1 } else s) ∧
      ∃ t, exec (.fabricPortLoss d) s = .next t ∧ { t with ports := s.ports, trained := s.trained } = s ∧
        (∀ i, i < 32 → t.ports.getLsbD i = (s.ports.getLsbD i && decide (i ≠ d))) ∧
        (t.trained = true ↔ s.trained = true ∧ ∃ i, i < 32 ∧ t.ports.getLsbD i = true)) ∧
  ∀ (n : Nat) (s : State),
    let p := s.part n
    let fixed := (20 * p.fabBytes + 8 * p.hostBytes) * 2 ^ 84 / 10 ^ 12
    let charged (old frac : Word) (fixed sources : Nat) (new newFrac : Word) : Prop :=
      ∃ l : List (Nat × Nat), l.length = sources ∧ (∀ x, x ∈ l → x.1 < 2 ^ 40 ∧ x.2 < 2 ^ 64) ∧
        let sum := frac.toNat + (l.map (fun x => x.1 * 2 ^ 64 + x.2)).sum + fixed
        new = old + BitVec.ofNat 64 (sum / 2 ^ 64) ∧ newFrac = BitVec.ofNat 64 sum
    let number (f : Cluster → Bool) : Nat := ((List.range 32).filter (fun c => f (s.cluster c))).length
    ∃ t, exec (.energyPeriodEnd n) s = .next t ∧
      charged s.edev s.edevFrac 0 (2 * number (fun x => x.owner.isNone) + 2) t.edev t.edevFrac ∧ t.mem = s.mem ∧
      t.cores = s.cores ∧ (∀ q, q ≠ n → t.part q = s.part q) ∧
      (p.state = 1 ∨ p.state = 2 → charged p.ecount p.efrac fixed
          (number (fun x => x.holder == some n) + number (fun x => x.owner == some n) + 1) (t.part n).ecount (t.part n).efrac ∧
        (t.part n).eperiodNow = p.eperiod ∧ (t.part n).pend = p.pend ||| 32 ∧ (t.part n).fabBytes = 0 ∧ (t.part n).hostBytes = 0) ∧
      (p.state ≠ 1 → p.state ≠ 2 → t.part n = p)

/-! Power and boot, the mailbox, repair mode, attestation and the host link. -/

/-- R421 to R424, R427 to R431: a write of POINT begins a change, and its end puts the point in force; the voltage loop trims the rail
within its bounds; the cadence moves by one step; clamps and trips set and clear their states; REPEAT, heartbeats and the
controller's update enter and leave repeatable mode and the fallback. What the sensors read and the package draws is free within the
bounds that R427 and R429 give (log 4). A change of point that waits under FWSAFE and REPEAT, the rail bounded by the higher point of a
change, and the count of heartbeats are the model's reading (log 52). -/
def Obligations.PowerControl : Prop :=
  ∀ (c : Nat) (s : State),
    let k := s.cluster c
    let only (t : State) (x : Cluster) : Prop := t.cluster c = x ∧ (∀ d, d ≠ c → t.cluster d = s.cluster d) ∧ { t with clusters := s.clusters } = s
    let rail (i : BitVec 5) : Nat := 3200 + 75 * i.toNat
    let frozen := s.fwsafe = true ∨ s.repeatable = true
    let told (n : Nat) (t : State) : Prop := if s.masked n = true then t.pba = s.pba ||| (1#8 <<< n) ∧ t.sent = s.sent
      else t.pba = s.pba ∧ t.sent = s.sent ++ [.msi none n]
    (c < 32 → s.bootDone = true → s.repeatable = false → ∀ x : Word,
      let i : BitVec 5 := if 16 < (x.extractLsb' 0 5).toNat then 16 else x.extractLsb' 0 5
      (s.fwsafe = true ∨ k.changing.isSome = true ∨ i = k.pointNow → ∃ t, exec (.point c x) s = .next t ∧ only t { k with point := i }) ∧
      (s.fwsafe = false → k.changing = none → i ≠ k.pointNow → ∃ t, exec (.point c x) s = .next t ∧
        only t { k with point := i, changing := some i, volt := if k.pointNow.toNat < i.toNat then rail i else k.volt })) ∧
    (s.repeatable = true ∨ 32 ≤ c → ∀ x, exec (.point c x) s = .next s) ∧
    (∀ i, k.changing = some i → ¬ frozen → k.point = i → ∃ t, exec (.pointChangeComplete c) s = .next t ∧
      only t { k with changing := none, pointNow := i, volt := if i.toNat < k.pointNow.toNat then rail i else k.volt }) ∧
    (∀ i, k.changing = some i → ¬ frozen → k.point ≠ i → ∃ t, exec (.pointChangeComplete c) s = .next t ∧
      (t.cluster c).pointNow = i ∧ (t.cluster c).changing = some k.point ∧ { t with clusters := s.clusters } = s) ∧
    (k.changing = none ∨ frozen → exec (.pointChangeComplete c) s = .next s) ∧
    (c < 32 → s.fwsafe = false →
      let n := (Tab.get 0 s.ecrepl c - k.replSeen).toNat
      let goal := if 256 < n then k.volt + 50 else if n < 16 then k.volt - 50 else k.volt
      ∃ t v, exec (.voltageLoop c) s = .next t ∧ only t { k with volt := v, replSeen := Tab.get 0 s.ecrepl c } ∧
        rail k.railPoint - 200 ≤ v ∧ 3200 ≤ v ∧ v ≤ rail k.railPoint + 600 ∧ v ≤ 6000 ∧
        (rail k.railPoint - 200 ≤ goal → 3200 ≤ goal → goal ≤ rail k.railPoint + 600 → goal ≤ 6000 → v = goal)) ∧
    (s.fwsafe = true ∨ 32 ≤ c → exec (.voltageLoop c) s = .next s) ∧
    (∀ up : Bool,
      (c < 32 → ¬ frozen → k.cadence.toNat ≤ 16 → ∃ t n draw hot, exec (.cadenceStep c up) s = .next t ∧
        t.cluster c = { k with cadence := BitVec.ofNat 5 n, tmax := hot } ∧ (∀ d, d ≠ c → t.cluster d = s.cluster d) ∧
        { t with clusters := s.clusters, fresh := s.fresh } = s ∧ (if k.trip = true then 100 ≤ hot.toNat else hot.toNat ≤ 104) ∧
        (let asked := if up then s.pcap < draw ∨ ∃ d, d < 32 ∧ 95 < (t.cluster d).tmax.toNat
           else 20 * draw ≤ 19 * s.pcap ∧ ∀ d, d < 32 → (t.cluster d).tmax.toNat ≤ 90
         (asked → n = if up then min 16 (k.cadence.toNat + 1) else max 1 (k.cadence.toNat - 1)) ∧ (¬ asked → n = k.cadence.toNat))) ∧
      (frozen ∨ 32 ≤ c → exec (.cadenceStep c up) s = .next s)) ∧
    (c < 32 → (∃ t, exec (.currentClamp c) s = .next t ∧ only t { k with clamped := true }) ∧
      (∃ t, exec (.currentClampEnd c) s = .next t ∧ only t { k with clamped := false }) ∧
      (k.trip = true → ∃ t hot, exec (.thermalTripClear c) s = .next t ∧ hot.toNat ≤ 100 ∧
        t.cluster c = { k with trip := false, tmax := hot } ∧ (∀ d, d ≠ c → t.cluster d = s.cluster d) ∧
        { t with clusters := s.clusters, fresh := s.fresh } = s) ∧
      (k.trip = false → ∃ t hot, exec (.thermalTrip c) s = .next t ∧ 105 ≤ hot.toNat ∧ t.cluster c = { k with trip := true, tmax := hot } ∧
        (∀ d, d ≠ c → t.cluster d = s.cluster d) ∧ (s.trips < 255 → t.trips = s.trips + 1 ∧ told 1 t) ∧
        (255 ≤ s.trips → t.trips = s.trips ∧ t.pba = s.pba ∧ t.sent = s.sent) ∧
        { t with clusters := s.clusters, trips := s.trips, pba := s.pba, sent := s.sent, fresh := s.fresh } = s)) ∧
    (k.trip = true ∨ 32 ≤ c → exec (.thermalTrip c) s = .next s) ∧ (k.trip = false ∨ 32 ≤ c → exec (.thermalTripClear c) s = .next s) ∧
    (∀ x : Word, (x.getLsbD 0 = s.repeatable → exec (.repeatMode x) s = .next s) ∧
      (s.bootDone = true → x.getLsbD 0 ≠ s.repeatable → ∃ t, exec (.repeatMode x) s = .next t ∧ t.repeatable = x.getLsbD 0 ∧ t.mem = s.mem ∧ t.parts = s.parts ∧
        (∀ d, (t.core d).regs = (s.core d).regs ∧ (t.core d).slots = (s.core d).slots) ∧
        (x.getLsbD 0 = true → ∀ d, d < 32 → (t.cluster d).cadence = s.rcad ∧ (t.cluster d).line = []))) ∧
    (let safe (i : Instr) (t : State) : Prop := exec i s = .next t ∧ t.fwsafe = true ∧ t.beats = 0 ∧ told 3 t ∧ t.cores = s.cores ∧
       t.parts = s.parts ∧ t.mem = s.mem ∧ ∀ d, d < 32 → (t.cluster d).allot = 225 ∧
         (t.cluster d).cadence = (if s.repeatable then s.rcad else 4)
     (s.fwsafe = true → exec .heartbeatTimeout s = .next s ∧ exec (.powerControllerImageUpdate true) s = .next { s with fwupd := true }) ∧
     (s.fwsafe = false → (∃ t, safe .heartbeatTimeout t ∧ t.fwupd = s.fwupd) ∧ ∃ t, safe (.powerControllerImageUpdate true) t ∧ t.fwupd = true) ∧
     exec (.powerControllerImageUpdate false) s = .next { s with fwupd := false, beats := 0 } ∧
     (s.fwsafe = false ∨ s.fwupd = true → exec .firmwareHeartbeat s = .next s) ∧
     (s.fwsafe = true → s.fwupd = false → s.beats = 0 → exec .firmwareHeartbeat s = .next { s with beats := 1 }) ∧
     (s.fwsafe = true → s.fwupd = false → s.beats ≠ 0 → ∃ t, exec .firmwareHeartbeat s = .next t ∧ t.fwsafe = false ∧ t.beats = 0 ∧ told 3 t ∧
       t.cores = s.cores ∧ t.parts = s.parts ∧ t.mem = s.mem ∧ ∀ d, (t.cluster d).cadence = (s.cluster d).cadence ∧
         (t.cluster d).pointNow = (s.cluster d).pointNow ∧ (t.cluster d).allot = (s.cluster d).allot))

/-- R432, R434, R437, R442, R443 to R449, R455, R456, R460, R463: COLD_RESET rebuilds the machine and keeps the boot flash; a hot reset, and
functions that vanish, destroy partitions; the mailbox takes a piece, and writes an image that is accepted or refuses it; the
repair table, REPARM, which reads as zero, REPINJ and the time limit act on a core in repair mode alone, and a bit that REPINJ forces keeps
its value whatever is stored; LD.d and ST.d of slot A reach the windows of R443 by address, and everything else there ends repair mode; until boot has ended, no event of the host's registers changes anything. How the mailbox takes pieces is the
model's reading (log 55), and so is what a hot reset clears and a write of VF Enable names (log 57); what the steps of boot do, logs 2 and
54. -/
def Obligations.ResetsBootAndRepair : Prop :=
  (∀ s : State, ∃ t, exec .coldReset s = .next t ∧ t.parts = [] ∧ t.holes = [] ∧ t.agenda = [] ∧ t.opened = none ∧ t.flash = s.flash ∧
    t.sent = s.sent ∧ t.bootDone = false ∧ t.timebase = 0 ∧ t.repeatable = false ∧ t.fwsafe = false ∧ t.retired = [] ∧ t.pcap = 1800 ∧
    t.rcad = 8 ∧ t.idfail = identityFails ∧ t.mem = s.mem.scrub 0 (Config.hostBase / 8) ∧
    (∀ c, (t.core c).regs = {} ∧ (t.core c).store = {} ∧ (t.core c).sems = [] ∧ (t.core c).bind = none ∧ (t.core c).acc = []) ∧
    (∀ c, (t.cluster c).owner = none ∧ (t.cluster c).l2Home = {} ∧ (t.cluster c).cadence = 4 ∧ (t.cluster c).point = 16) ∧
    ((∀ k, k ∈ [1, 2, 3, 4, 5] → ∃ j, j < 2 ∧ imageAccepted k (s.flashImage k j) = true) → t.bootStopped = false ∧ t.bootStep = 5 ∧
      ∀ c, c < 32 → (t.cluster c).out = false → ∀ j k, j < 8 → (t.core (8 * c + j)).repair.active = true ∧
        ((t.core (8 * c + j)).slot k).halted = false) ∧
    ((∃ k, k ∈ [1, 2, 3, 4, 5] ∧ ∀ j, j < 2 → imageAccepted k (s.flashImage k j) = false) → t.bootStopped = true ∧
      ∀ c k, c < 256 → ((t.core c).slot k).halted = true)) ∧
  (∀ s : State,
    let dead (t : State) (n : Nat) : Prop := (t.part n).state = 0 ∧ (t.part n).clusters = [] ∧ (t.part n).launch = none ∧
      ∀ h, (s.hole h).state ≠ 0 → (s.hole h).owner = n → (t.hole h).state = 0
    let own := (∀ q c, q < 32 → c ∈ (s.part q).clusters → (s.cluster c).owner = some q) ∧
      ∀ q c b, q < 32 → c ∈ (s.part q).cores → (s.core c).bind = some b → b.part = q
    (∃ t, exec .hotReset s = .next t ∧ t.vfOn = false ∧ t.vfOn1 = false ∧ t.numVfs = 0 ∧ t.numVfs1 = 0 ∧ t.msix = [] ∧ t.pba = 0 ∧ t.faultRing = {} ∧ t.faultDue = [] ∧
      (own → t.mem = s.mem) ∧ ∀ n, n < 32 → (s.part n).state ≠ 0 → dead t n) ∧
    (s.narrow = false → ∀ on m, 64 ≤ m → exec (.vfEnableClear ⟨on, m⟩) s = .next s) ∧
    ∀ (on : Bool) (m : Nat), s.bootDone = true → (64 ≤ m → s.narrow = true) → ∃ t, exec (.vfEnableClear ⟨on, m⟩) s = .next t ∧
      (if m < 64 then t.vfOn = on ∧ t.numVfs = min m (if s.narrow then 16 else 32) ∧ t.vfOn1 = s.vfOn1 ∧ t.numVfs1 = s.numVfs1
       else t.vfOn1 = on ∧ t.numVfs1 = min (m - 64) 16 ∧ t.vfOn = s.vfOn ∧ t.numVfs = s.numVfs) ∧
      (∀ n, t.vfEnabled n = if s.narrow = true ∧ 16 ≤ n then t.vfOn1 && decide (n - 16 < t.numVfs1) else t.vfOn && decide (n < t.numVfs)) ∧
      (∀ n, n < 32 → (s.part n).state ≠ 0 → s.vfEnabled n = true → t.vfEnabled n = false → dead t n) ∧
      (own → t.mem = s.mem ∧ ∀ n, t.vfEnabled n = true → t.part n = s.part n)) ∧
  (∀ (a : Bool) (kind : BitVec 8) (s : State),
    let i : Instr := if a then .mbctlCopyA kind else .mbctlCopyB kind
    let l := s.takePiece
    let key := 2 * kind.toNat + if a then 0 else 1
    let only (t : State) : Prop :=
      { t with mbImage := s.mbImage, mbCommand := s.mbCommand, mbResult := s.mbResult, flash := s.flash, fresh := s.fresh } = s ∧ t.mbCommand = none
    let good := kind.toNat ∈ [1, 2, 3, 4, 5] ∧ imageAccepted kind.toNat l = true
    (s.linkOpen = false ∨ s.mbCommand.isSome = true → exec i s = .next s) ∧
    (s.linkOpen = true → s.mbCommand = none →
      (l.length < imageLength l → ∃ t, exec i s = .next t ∧ only t ∧ t.mbImage = l ∧ t.mbResult = 0 ∧ t.flash = s.flash) ∧
      (imageLength l ≤ l.length → ¬ good → ∃ t, exec i s = .next t ∧ only t ∧ t.mbImage = [] ∧ t.mbResult = 1 ∧ t.flash = s.flash) ∧
      (imageLength l ≤ l.length → good → ∃ t, exec i s = .next t ∧ only t ∧ t.mbImage = [] ∧
        (∀ j, j ≠ key → Tab.find? t.flash j = Tab.find? s.flash j) ∧
        ((t.mbResult = 0 ∧ Tab.find? t.flash key = some l) ∨ t.mbResult = 2)))) ∧
  ∀ (c : Nat) (s : State),
    let r := (s.core c).repair
    let only (t : State) (r' : Repair) : Prop := OnlyCore s t c ∧ t.core c = { s.core c with repair := r' }
    let stores := (s.core c).inRepair = true ∧ ((s.core c).slot .A).halted = false
    (∀ (k : Nat) (x : Word), k < 16 → stores →
      let old := Tab.get 0 r.table k
      let y := (x &&& 0xDFFFFF00) ||| (old &&& ~~~0xDFFFFF00#64)
      let counts := x.getLsbD 31 = true ∧ (x.getLsbD 30 = true → (x.extractLsb' 24 5).toNat < 20 ∧ (x.extractLsb' 8 8).toNat < 128)
      let key := 32 * (x.extractLsb' 30 1).toNat + (x.extractLsb' 24 5).toNat
      let n := Tab.get 0 r.spares key
      (¬ counts → ∃ t, exec (.repairTableWrite c k x) s = .next t ∧ only t { r with table := Tab.set r.table k y }) ∧
      (counts → n < 4 → ∃ t, exec (.repairTableWrite c k x) s = .next t ∧ only t { r with
        spares := Tab.set r.spares key (n + 1), table := Tab.set r.table k ((y &&& ~~~0x20000003#64) ||| BitVec.ofNat 64 n) }) ∧
      (counts → 4 ≤ n → ∃ t, exec (.repairTableWrite c k x) s = .next t ∧ only t { r with table := Tab.set r.table k (y ||| 0x20000000) })) ∧
    (∀ (k : Nat) (x : Word), 16 ≤ k ∨ ¬ stores → exec (.repairTableWrite c k x) s = .next s) ∧
    (stores → ∃ t r', exec (.reparm c) s = .next t ∧ only t r' ∧ { r' with force := r.force } = r ∧
      ∀ arr bank row sp, r'.spareFor arr bank row = some sp →
        ∃ k, k < 16 ∧ (let e := Tab.get 0 r.table k
          e.getLsbD 31 = true ∧ e.getLsbD 29 = false ∧ arr = (e.extractLsb' 30 1).toNat ∧ bank = (e.extractLsb' 24 5).toNat ∧
          row = (e.extractLsb' 8 8).toNat ∧ sp = (e.extractLsb' 0 2).toNat ∧
          ∀ j, k < j → j < 16 → let d := Tab.get 0 r.table j
            ¬ (d.getLsbD 31 = true ∧ d.getLsbD 29 = false ∧ arr = (d.extractLsb' 30 1).toNat ∧ bank = (d.extractLsb' 24 5).toNat ∧
              row = (d.extractLsb' 8 8).toNat))) ∧
    (¬ stores → exec (.reparm c) s = .next s) ∧
    (∀ x : Word, (Config.testRecord = true → (s.core c).inRepair = true → ∃ t, exec (.repinj c x) s = .next t ∧
        only t { r with repinj := x &&& 0xFF000000001FFFF8 }) ∧
      (Config.testRecord = false ∨ (s.core c).inRepair = false → exec (.repinj c x) s = .next s)) ∧
    (c < 256 → (s.core c).repairing = true → ∃ t, exec (.repairTimeout c) s = .next t ∧ OnlyCore s t c ∧
      (∀ j, ((t.core c).slot j).halted = true) ∧ (t.core c).repair = { r with active := false, repstat := r.repstat ||| 8 } ∧
      (t.core c).store = (s.core c).store ∧ (t.core c).regs = (s.core c).regs) ∧
    (256 ≤ c ∨ (s.core c).repairing = false → exec (.repairTimeout c) s = .next s) ∧
    (s.core c).repairLoad 0x3F0108 = some 0 ∧ (∀ x, (s.core c).repairStore 0x3F0108 x = some { s.core c with repair := r.arm }) ∧
    (∀ (p : Place) (w : Word) (sl : BitVec 8), p.home = 1 → p.phys = c →
      let bit_ : Word := 1#64 <<< (r.repinj.extractLsb' 56 6).toNat
      let here := (s.core c).forced p.off ∧ r.spareFor 0 (p.off / 64 % 32) (p.off / 8192) = none
      ((s.core c).store.wf = true → (here → ((s.putHolder p w sl).core c).store.word (p.off / 8) =
          if r.repinj.getLsbD 62 = true then w ||| bit_ else w &&& ~~~bit_) ∧
        (¬ here → ((s.putHolder p w sl).core c).store.word (p.off / 8) = w))) ∧
    (∀ (sz : Size) (un : Bool) (ord : MemOrder) (ls : ListIx) (sd sa : SReg) (off : BitVec 32), s.cc.inRepair = true →
      let va := BitVec.ofInt 64 ((s.rs sa).toInt + off.toInt)
      let a := va.toNat
      let k := s.cc
      let v := s.rs sd
      let ld := Instr.ld sz un ord ls sd sa off
      let st := Instr.st sz ord ls sd sa off
      let stops (i : Instr) : Prop := exec i s = .next (s.modCore s.cur.core Core.abortRepair)
      let gives (x : Word) : Prop := GivesScalar ld s sd x (s.rt sa)
      let leaves (k' : Core) : Prop := ∃ t, exec st s = .next t ∧ { t with cores := s.cores } = s ∧
        (∀ d, d ≠ s.cur.core → t.core d = s.core d) ∧ { t.cc with slots := k.slots } = k' ∧ Chained s t s.gbrOutcome ∧
        ∀ j, j ≠ s.cur.slot → t.cc.slot j = k.slot j
      let plain := k.repair.spareFor 0 (a / 64 % 32) (a / 8192) = none ∧ k.repair.repinj.getLsbD 63 = false
      stops (.ldc sz un sd sa off) ∧ (sz ≠ .d ∨ a % 8 ≠ 0 → stops ld ∧ stops st) ∧
      (sz = .d → a % 8 = 0 →
        (a < 0x200000 → gives (k.csWord a).1 ∧ leaves (k.putCsWord a v (sealOf v)) ∧
          (plain → (k.csWord a).1 = k.store.word (a / 8) ∧
            k.putCsWord a v (sealOf v) = { k with store := k.store.write (a / 8) v (sealOf v) })) ∧
        (0x200000 ≤ a → a < 0x240000 →
          let o := 8 * (a - 0x200000)
          (∃ x, gives x ∧ ∀ i, i < 8 → x.extractLsb' (8 * i) 8 = (k.csWord (o + 8 * i)).2) ∧
          leaves ((List.range 8).foldl (fun c i => c.putCsWord (o + 8 * i) (c.csWord (o + 8 * i)).1 (v.extractLsb' (8 * i) 8)) k)) ∧
        (0x300000 ≤ a → a < 0x3A0000 →
          let n := (a - 0x300000) / 4096
          let e := (a - 0x300000) % 4096 / 4
          gives (k.vecElem n (e + 1) ++ k.vecElem n e) ∧
            leaves ((k.putVecElem n e (v.extractLsb' 0 32)).putVecElem n (e + 1) (v.extractLsb' 32 32))) ∧
        (0x3F0000 ≤ a → a < 0x3F0080 → gives (Tab.get 0 k.repair.table ((a - 0x3F0000) / 8)) ∧
          leaves { k with repair := k.repair.writeEntry ((a - 0x3F0000) / 8) v }) ∧
        (a = 0x3F0100 → gives k.repair.repstat ∧ leaves { k with repair := { k.repair with
          repstat := (v &&& 0xFFFFFFFFFFFF0007) ||| (k.repair.repstat &&& 0xFFF8) } }) ∧
        (a = 0x3F0108 → gives 0 ∧ leaves { k with repair := k.repair.arm }) ∧
        (a = 0x3F0110 → gives k.repair.repinj ∧ stops st) ∧
        (0x400000 ≤ a → a < 0x404000 → gives (romWord ((a - 0x400000) / 8)) ∧ stops st) ∧
        ((0x240000 ≤ a ∧ a < 0x300000) ∨ (0x3A0000 ≤ a ∧ a < 0x3F0000) ∨ (0x3F0080 ≤ a ∧ a < 0x3F0100) ∨ (0x3F0118 ≤ a ∧ a < 0x400000) ∨
          0x404000 ≤ a → stops ld ∧ stops st))) ∧
    (s.bootDone = false → ∀ (n q : Nat) (b : Bool) (x : Word) (i : Instr),
      i ∈ [Instr.create n, .resize n b, .destroy n, .lend n b, .revoke n, .pause n, .resume n, .mlend n x, .budgetWord n q x, .s1inv n x,
        .s2inv n x, .vfstate n x, .functionLevelReset n, .go n, .abort n, .point n x, .repeatMode x, .vfEnableClear ⟨b, q⟩,
        .msixVectorUnmask n, .doorbell n q x, .enable n q x, .ringReset n q, .endPacket n q, .cri n x, .presume n x, .hresume x,
        .hresumeDiscard x] → exec i s = .next s)

/-- R439, R440, R441, R465: the responder answers the requests of SPDM in their order, and each with what the rules give, a device without
an identity with an error from NEGOTIATE_ALGORITHMS on; there is certificate slot 0 alone, and P-521 with SHA-512 alone. The error
codes are those of log 10, and what a requester offers is free. A key set takes effect in a session, for the link stream or one of the eight selective ones. -/
def Obligations.Attestation : Prop :=
  ∀ s : State,
    let answers (i : Instr) (x : Spdm) (a : SpdmAnswer) : Prop := exec i s = .next { s with spdm := x, sent := s.sent ++ [.spdm a] }
    let signs (i : Instr) (x : Spdm) (m : List Byte) (a : List Byte → SpdmAnswer) : Prop := exec i s = .next { s with
      spdm := x, sent := s.sent ++ [.spdm (a (Config.ecdsaSign s.aliasKey (Config.transcript s.fresh m)))], fresh := s.fresh + 1 }
    let silent := s.spdm.stage = 3 ∧ s.idfail = true
    let early (i : Instr) (n : Nat) : Prop :=
      (s.bootDone = false → exec i s = .next s) ∧
      (s.bootDone = true → silent → answers i s.spdm (.error 0x05)) ∧
      (s.bootDone = true → ¬ silent → s.spdm.stage < n → answers i s.spdm (.error 0x04))
    let slots (i : BitVec 4 → Instr) : Prop := (∀ k, early (i k) 3) ∧
      ∀ k, s.bootDone = true → ¬ silent → 3 ≤ s.spdm.stage → k ≠ 0 → answers (i k) s.spdm (.error 0x01)
    (early .spdmGetVersion 0 ∧ early .spdmGetCapabilities 1 ∧ early .spdmNegotiateAlgorithms 2 ∧ early .spdmGetDigests 3 ∧
      (∀ o n, slots (fun k => .spdmGetCertificate ⟨k, o⟩ n)) ∧ (∀ l, slots (fun k => .spdmChallenge ⟨k, l⟩)) ∧
      (∀ i, slots (fun k => .spdmGetMeasurements ⟨k, i⟩)) ∧ (∀ l, slots (fun k => .spdmKeyExchange ⟨k, l⟩)) ∧
      (∀ l, early (.spdmFinish l) 3) ∧ early .spdmEndSession 3 ∧ early .spdmOtherRequest 0) ∧
    (s.bootDone = true → ¬ silent →
      answers .spdmGetVersion { s.spdm with stage := 1, handshake := none } (.version 1 3) ∧ answers .spdmOtherRequest s.spdm (.error 0x07) ∧
      (1 ≤ s.spdm.stage → answers .spdmGetCapabilities { s.spdm with stage := 2 } .capabilities) ∧
      (2 ≤ s.spdm.stage → ∃ p521 sha512 : Bool, exec .spdmNegotiateAlgorithms s = .next (if p521 && sha512
        then { s with spdm := { s.spdm with stage := 3 }, sent := s.sent ++ [.spdm .algorithms], fresh := s.fresh + 1 }
        else { s with sent := s.sent ++ [.spdm (.error 0x01)], fresh := s.fresh + 1 })) ∧
      (3 ≤ s.spdm.stage →
        let chain := s.certChain
        answers .spdmGetDigests s.spdm (.digests (Config.sha512 chain)) ∧
        (∀ o n, answers (.spdmGetCertificate ⟨0, o⟩ n) s.spdm (.certificate ((chain.drop o).take n) (chain.length - (o + n)))) ∧
        (∀ l, signs (.spdmChallenge ⟨0, l⟩) s.spdm l .challenge) ∧
        answers (.spdmGetMeasurements ⟨0, 0⟩) s.spdm (.measurementCount s.blocks.length) ∧
        (s.blocks ≠ [] → signs (.spdmGetMeasurements ⟨0, 255⟩) s.spdm [255] (.measurements s.numberedBlocks)) ∧
        (∀ (i : BitVec 8) (b : BitVec 16 × BitVec 512), i ≠ 0 → i ≠ 255 → s.blocks[i.toNat - 1]? = some b →
          signs (.spdmGetMeasurements ⟨0, i⟩) s.spdm [i] (.measurements [(i.toNat, b)])) ∧
        (∀ i : BitVec 8, i ≠ 0 → i ≠ 255 → s.blocks.length < i.toNat → answers (.spdmGetMeasurements ⟨0, i⟩) s.spdm (.error 0x01)) ∧
        (∀ l, signs (.spdmKeyExchange ⟨0, l⟩) { s.spdm with sessions := s.spdm.sessions + 1, handshake := some (s.spdm.sessions + 1) } l
          (.keyExchange (s.spdm.sessions + 1))) ∧
        (∀ l, s.spdm.handshake = none → answers (.spdmFinish l) s.spdm (.error 0x04)) ∧
        (∀ l n, s.spdm.handshake = some n → Config.finishVerify n l = true →
          answers (.spdmFinish l) { s.spdm with handshake := none, session := some n } (.finish n)) ∧
        (∀ l n, s.spdm.handshake = some n → Config.finishVerify n l = false →
          answers (.spdmFinish l) { s.spdm with handshake := none } (.error 0x06)) ∧
        (s.spdm.session = none → answers .spdmEndSession s.spdm (.error 0x04)) ∧
        ∀ n, s.spdm.session = some n → answers .spdmEndSession { s.spdm with session := none } (.endSession n))) ∧
    ∀ x : IdeStream,
      let may := s.bootDone = true ∧ s.idfail = false ∧ s.spdm.session.isSome = true
      let same (y : IdeStream) : Bool := y.selective == x.selective && y.id == x.id
      let open_ := (s.spdm.streams.filter (fun y => y.selective == x.selective)).length
      let gives (l : List IdeStream) : Prop := exec (.kSetGo x) s = .next { s with spdm := { s.spdm with streams := l } }
      (may → s.spdm.streams.any same = true → gives (s.spdm.streams.map (fun y => if same y then x else y))) ∧
      (may → s.spdm.streams.any same = false → (if x.selective then open_ < 8 else open_ < 1) → gives (s.spdm.streams ++ [x])) ∧
      (may → s.spdm.streams.any same = false → ¬ (if x.selective then open_ < 8 else open_ < 1) → exec (.kSetGo x) s = .next s) ∧
      (¬ may → exec (.kSetGo x) s = .next s)

/-- R265, R347, R384, R457, R458, R459, R462: a read through BAR2 sends the word at the place, poisoned if its seal is broken in both readings, and a
write merges its bytes there, poisoned if its TLP is; the bytes of a virtual function count in LIMHOST; an access that no window or table
admits is latched, and a read of it completes with Completer Abort, one beyond HBM with Unsupported Request; nothing leaves for the host
while a loss holds the partition (R413). A write of 8 or 4 bytes acts on a register or a half of it, and any other on nothing; unmasking a
vector sends the message that waits. -/
def Obligations.HostAccesses : Prop :=
  (∀ (o : Nat) (x : Word) (m : BitVec 8) (z : Bool) (s : State), s.bootDone = true →
    let p := Place.plain (o / 8 * 8)
    let old := s.holderWord p
    let stays (t : State) : Prop := { t with sent := s.sent, agenda := s.agenda } = s
    let second := s.secondWord p
    let leaves := if old.2 = sealOf old.1 then old else second
    (Config.hbmEnd ≤ o → exec (.pfBar2Access true o ⟨x, z⟩ m) s = .next s ∧
      ∃ t, exec (.pfBar2Access false o ⟨x, z⟩ m) s = .next t ∧ stays t ∧ t.sent = s.sent ++ [.bar2Unsupported]) ∧
    (o < Config.hbmEnd →
      (∃ t, exec (.pfBar2Access false o ⟨x, z⟩ m) s = .next t ∧ stays { t with ecseal := s.ecseal } ∧
        t.sent = s.sent ++ [.bar2 leaves.1 (decide (leaves.2 ≠ sealOf leaves.1))] ∧
        (leaves.2 = sealOf leaves.1 → t.agenda = s.agenda) ∧ (old.2 = sealOf old.1 → t.ecseal = s.ecseal) ∧
        ∀ n, leaves.2 ≠ sealOf leaves.1 → (s.cluster (o / 8 * 8 / Config.clusterBytes)).owner = some n →
          ∃ l, t.agenda = s.agenda ++ [.contextLoss n l] ∧ l.source = .egress) ∧
      (m = 0xFF ∨ old.2 = sealOf old.1 → ∃ t, exec (.pfBar2Access true o ⟨x, z⟩ m) s = .next t ∧ t.sent = s.sent ∧ t.cores = s.cores ∧
        (∀ q, { t.part q with hostTime := (s.part q).hostTime, lims := (s.part q).lims } = s.part q) ∧
        (∀ q, (s.cluster (o / 8 * 8 / Config.clusterBytes)).owner = some q → (s.homeTs p).rts < (t.part q).hostTime) ∧
        (s.MemWf → (t.holderWord p).2 = (if z then poisonSeal (t.holderWord p).1 else sealOf (t.holderWord p).1) ∧
          (∀ k, k < 8 → (t.holderWord p).1.extractLsb' (8 * k) 8 = (if m.getLsbD k then x else old.1).extractLsb' (8 * k) 8) ∧
          ∀ b, b / 8 ≠ o / 8 → t.mem.byte b = s.mem.byte b)) ∧
      (m ≠ 0xFF → old.2 ≠ sealOf old.1 → second.2 ≠ sealOf second.1 → second.1 = old.1 → ∀ n, (s.cluster (o / 8 * 8 / Config.clusterBytes)).owner = some n →
        ∃ t l, exec (.pfBar2Access true o ⟨x, z⟩ m) s = .next t ∧ t.agenda = s.agenda ++ [.contextLoss n l] ∧ l.source = .merge ∧
          (s.MemWf → t.holderWord p = (old.1, poisonSeal old.1))))) ∧
  (∀ (n o : Nat) (x : Word) (m : BitVec 8) (z : Bool) (s : State), s.bootDone = true → s.vfEnabled n = true →
    ((s.part n).state = 0 → exec (.vfBar2Access n true o ⟨x, z⟩ m) s = .next s ∧
      exec (.vfBar2Access n false o ⟨x, z⟩ m) s = .next { s with sent := s.sent ++ [.bar2Abort] }) ∧
    ((s.part n).state ≠ 0 → (s.part n).lost = true → exec (.vfBar2Access n false o ⟨x, z⟩ m) s = .next s)) ∧
  (∀ (n o : Nat) (x : Word) (m : BitVec 8) (z : Bool) (s : State), s.bootDone = true → s.vfEnabled n = true → (s.part n).state ≠ 0 →
    (s.part n).lost = false → o < 2 ^ 36 →
    let toHost (u : State) (p : Place) (k : Nat) : Nat := if (u.part n).state = 4 then (u.part n).hostBytes
      else (u.part n).hostBytes + k + (if p.inHost && (match p.win with | some w => w.2 == n | none => true) then k else 0)
    let ipa := (s.part n).winbase.toNat + o / 8 * 8
    (∀ s1, s.bar2Place n false ipa = (none, s1) → ∃ t, exec (.vfBar2Access n false o ⟨x, z⟩ m) s = .next t ∧
      t.sent = s1.sent ++ [.bar2Abort] ∧ (t.part n).winerr =
        (if (s1.part n).winerr.getLsbD 63 then (s1.part n).winerr else 1#1 ++ 0#27 ++ BitVec.ofNat 36 o) ∧ t.mem = s1.mem) ∧
    (∀ s1, s.bar2Place n true ipa = (none, s1) → ∃ t, exec (.vfBar2Access n true o ⟨x, z⟩ m) s = .next t ∧ t.sent = s1.sent ∧ t.mem = s1.mem) ∧
    (∀ p s1, s.bar2Place n false ipa = (some p, s1) →
      let w := if (s1.holderWord p).2 = sealOf (s1.holderWord p).1 then s1.holderWord p else s1.secondWord p
      let bad := decide (w.2 ≠ sealOf w.1)
      ∃ t, exec (.vfBar2Access n false o ⟨x, z⟩ m) s = .next t ∧ t.sent = s1.sent ++ [.bar2 w.1 bad] ∧ t.mem = s1.mem ∧
        t.cores = s1.cores ∧ (t.part n).hostBytes = toHost s1 p 8 ∧ (bad = false → t.agenda = s1.agenda) ∧
        (bad = true → ∃ l, t.agenda = s1.agenda ++ [.contextLoss n l] ∧ l.source = .egress)) ∧
    (∀ p s1, s.bar2Place n true ipa = (some p, s1) → p.here = true → m = 0xFF ∨ (s1.holderWord p).2 = sealOf (s1.holderWord p).1 →
      ∃ t, exec (.vfBar2Access n true o ⟨x, z⟩ m) s = .next t ∧ t.sent = s1.sent ∧
        (t.part n).hostBytes = toHost s1 p ((List.range 8).filter (fun i => m.getLsbD i)).length ∧
        (s1.MemWf → (p.home = 1 → ¬ (s1.core p.phys).forced p.addr) →
        (t.holderWord p).2 = (if z then poisonSeal (t.holderWord p).1 else sealOf (t.holderWord p).1) ∧
        ∀ k, k < 8 → (t.holderWord p).1.extractLsb' (8 * k) 8 = (if m.getLsbD k then x else (s1.holderWord p).1).extractLsb' (8 * k) 8))) ∧
  (∀ (e : Nat) (s : State),
    let w := Tab.get (1#64 <<< 32) s.msix (2 * e + 1)
    (8 ≤ e ∨ w.getLsbD 32 = false → exec (.msixVectorUnmask e) s = .next s) ∧
    (s.bootDone = true → e < 8 → w.getLsbD 32 = true → ∃ t, exec (.msixVectorUnmask e) s = .next t ∧ { t with msix := s.msix, pba := s.pba, sent := s.sent } = s ∧
      (∀ i, Tab.get 0 t.msix i = if i = 2 * e + 1 then w &&& ~~~(1#64 <<< 32) else Tab.get 0 s.msix i) ∧
      t.pba.getLsbD e = false ∧ (∀ i, i < 8 → i ≠ e → t.pba.getLsbD i = s.pba.getLsbD i) ∧
      t.sent = s.sent ++ (if s.pba.getLsbD e = true then [.msi none e] else []))) ∧
  ∀ (f : HostFunction) (o size : Nat) (x : Word) (s : State),
    let o8 := o / 8 * 8
    let keep := s.regRead f o8 &&& ~~~(clearBits f o8)
    (size = 8 → o % 8 = 0 → exec (.registerWrite f o size x) s = .next (s.regPut f o x)) ∧
    (size = 4 → o % 8 = 0 → actionReg f o8 = false → exec (.registerWrite f o size x) s =
      .next (s.regPut f o8 (keep.extractLsb' 32 32 ++ x.extractLsb' 0 32))) ∧
    (size = 4 → o % 8 = 4 → actionReg f o8 = false → exec (.registerWrite f o size x) s =
      .next (s.regPut f o8 (x.extractLsb' 0 32 ++ keep.extractLsb' 0 32))) ∧
    ((size ≠ 4 ∧ size ≠ 8) ∨ o % size ≠ 0 ∨ (size = 4 ∧ actionReg f o8 = true) → exec (.registerWrite f o size x) s = .next s) ∧
    (s.bootDone = true → ∀ n, n < 32 →
      exec (.registerWrite .physical (0x100000 + 4096 * n + 8) 8 x) s =
        .next (s.modPart n (fun p => { p with pguar := x.extractLsb' 0 32 })) ∧
      exec (.registerWrite .physical (0x100000 + 4096 * n + 0x10) 8 x) s =
        .next (s.modPart n (fun p => { p with pmargin := x.extractLsb' 0 32 })) ∧
      exec (.registerWrite .physical (0x100000 + 4096 * n + 0x40) 8 x) s =
        .next (s.modPart n (fun p => { p with s2root := x &&& 0x000FFFFFFFFFFFFF })))
end

