-- ==== Sys2Proof/Laws/Memory.lean ====
section
/-! SUPPORT. Laws of memory: what a read gives after a write, and that every operation keeps the canonical form. -/

namespace Sys2Proof.Machine

/-! Cells. -/

/-- Cells that all lie at `lo` or above read 0 below it. -/
theorem cellGet_below {lo : Nat} {l : List Host.Cell} (h : cellsWf lo l = true) {k : Nat} (hk : k < lo) : cellGet l k = 0 := by
  induction l generalizing lo with
  | nil => rfl
  | cons x r ih =>
    obtain ⟨j, v⟩ := x
    simp only [cellsWf, Bool.and_eq_true, decide_eq_true_eq] at h
    have : j ≠ k := by omega
    simp [cellGet, this]
    exact ih h.2 (by omega)

/-- A lower bound may be lowered. -/
theorem cellsWf_mono {lo lo' : Nat} {l : List Host.Cell} (h : cellsWf lo l = true) (hl : lo' ≤ lo) : cellsWf lo' l = true := by
  cases l with
  | nil => rfl
  | cons x r =>
    obtain ⟨j, v⟩ := x
    simp only [cellsWf, Bool.and_eq_true, decide_eq_true_eq] at h ⊢
    exact ⟨⟨by omega, h.1.2⟩, h.2⟩

/-- A read after a write of one cell. -/
theorem cellGet_cellPut {l : List Host.Cell} {lo : Nat} (h : cellsWf lo l = true) (k : Nat) (v : Byte) (j : Nat) :
    cellGet (cellPut l k v) j = if j = k then v else cellGet l j := by
  induction l generalizing lo with
  | nil =>
    simp only [cellPut]
    split
    · rename_i e; simp [cellGet, e]
    · simp only [cellGet, eq_comm]
  | cons x r ih =>
    obtain ⟨i, w⟩ := x
    simp only [cellsWf, Bool.and_eq_true, decide_eq_true_eq] at h
    simp only [cellPut]
    split
    · rename_i hki
      split
      · rename_i e
        subst e
        by_cases hj : j = k
        · subst hj
          have hr := cellGet_below h.2 (k := j) (by omega)
          have : i ≠ j := by omega
          simp [cellGet, this, hr]
        · simp [hj]
      · simp only [cellGet, eq_comm]
    · split
      · rename_i h1 e
        subst e
        split
        · rename_i e
          subst e
          by_cases hj : k = j
          · subst hj; simpa using cellGet_below h.2 (Nat.lt_succ_self k)
          · simp [cellGet, hj, Ne.symm hj]
        · by_cases hj : k = j
          · simp [cellGet, hj]
          · simp [cellGet, hj, Ne.symm hj]
      · rename_i h1 h2
        simp only [cellGet, ih h.2]
        by_cases e : i = j
        · have : j ≠ k := by omega
          simp [e, this]
        · simp [e]

/-- A write of one cell keeps the canonical form. -/
theorem cellsWf_cellPut {l : List Host.Cell} {lo : Nat} (h : cellsWf lo l = true) {k : Nat} (hk : lo ≤ k) (v : Byte) :
    cellsWf lo (cellPut l k v) = true := by
  induction l generalizing lo with
  | nil =>
    simp only [cellPut]
    split
    · rfl
    · rename_i hv; simp only [cellsWf, Bool.and_true, Bool.and_eq_true, decide_eq_true_eq]; exact ⟨hk, by simpa using hv⟩
  | cons x r ih =>
    obtain ⟨i, w⟩ := x
    have h' := h
    simp only [cellsWf, Bool.and_eq_true, decide_eq_true_eq] at h
    simp only [cellPut]
    split
    · split
      · exact h'
      · rename_i hki hv
        simp only [cellsWf, Bool.and_eq_true, decide_eq_true_eq]
        exact ⟨⟨hk, by simpa using hv⟩, ⟨by omega, h.1.2⟩, h.2⟩
    · split
      · rename_i h1 e
        subst e
        split
        · exact cellsWf_mono h.2 (by omega)
        · rename_i hv
          simp only [cellsWf, Bool.and_eq_true, decide_eq_true_eq]
          exact ⟨⟨hk, by simpa using hv⟩, h.2⟩
      · simp only [cellsWf, Bool.and_eq_true, decide_eq_true_eq]
        exact ⟨h.1, ih h.2 (by omega)⟩

/-- Cells picked out of a canonical list are canonical. -/
theorem cellsWf_filter {l : List Host.Cell} {lo : Nat} (h : cellsWf lo l = true) (p : Host.Cell → Bool) :
    cellsWf lo (l.filter p) = true := by
  induction l generalizing lo with
  | nil => rfl
  | cons x r ih =>
    obtain ⟨j, v⟩ := x
    simp only [cellsWf, Bool.and_eq_true, decide_eq_true_eq] at h
    rw [List.filter_cons]
    split
    · simp only [cellsWf, Bool.and_eq_true, decide_eq_true_eq]; exact ⟨h.1, ih h.2⟩
    · exact cellsWf_mono (ih h.2) (by omega)

/-- Two canonical lists one above the other. -/
theorem cellsWf_append {a b : List Host.Cell} {lo mid : Nat} (ha : cellsWf lo a = true) (hb : cellsWf mid b = true)
    (hm : ∀ c ∈ a, c.1 < mid) (hl : lo ≤ mid) : cellsWf lo (a ++ b) = true := by
  induction a generalizing lo with
  | nil => exact cellsWf_mono hb hl
  | cons x r ih =>
    obtain ⟨j, v⟩ := x
    simp only [cellsWf, Bool.and_eq_true, decide_eq_true_eq, List.cons_append] at ha ⊢
    exact ⟨ha.1, ih ha.2 (fun c hc => hm c (List.mem_cons_of_mem _ hc)) (hm (j, v) List.mem_cons_self)⟩

/-- Every cell of a canonical list stands at its lower bound or above. -/
theorem cellsWf_mem {l : List Host.Cell} {lo : Nat} (h : cellsWf lo l = true) {c : Host.Cell} (hc : c ∈ l) : lo ≤ c.1 := by
  induction l generalizing lo with
  | nil => cases hc
  | cons x r ih =>
    obtain ⟨j, v⟩ := x
    simp only [cellsWf, Bool.and_eq_true, decide_eq_true_eq] at h
    cases hc with
    | head => exact h.1.1
    | tail _ hc => have := ih h.2 hc; omega

/-- A lower bound may be raised to one that every cell keeps. -/
theorem cellsWf_raise {l : List Host.Cell} {lo hi : Nat} (h : cellsWf lo l = true) (hc : ∀ c ∈ l, hi ≤ c.1) :
    cellsWf hi l = true := by
  cases l with
  | nil => rfl
  | cons x r =>
    obtain ⟨j, v⟩ := x
    simp only [cellsWf, Bool.and_eq_true, decide_eq_true_eq] at h ⊢
    exact ⟨⟨hc (j, v) List.mem_cons_self, h.1.2⟩, h.2⟩

/-- Cells moved to another place keep the canonical form. -/
theorem cellsWf_moved {l : List Host.Cell} {lo : Nat} (h : cellsWf lo l = true) (a n b : Nat) :
    cellsWf b (cellsMoved l a n b) = true := by
  have key : ∀ (l : List Host.Cell) (lo : Nat), a ≤ lo → cellsWf lo l = true →
      cellsWf (lo - a + b) (l.map (fun c => (c.1 - a + b, c.2))) = true := by
    intro l
    induction l with
    | nil => intros; rfl
    | cons x r ih =>
      obtain ⟨j, v⟩ := x
      intro lo hlo h
      simp only [cellsWf, Bool.and_eq_true, decide_eq_true_eq] at h
      simp only [List.map_cons, cellsWf, Bool.and_eq_true, decide_eq_true_eq]
      refine ⟨⟨by omega, h.1.2⟩, ?_⟩
      have := ih (j + 1) (by omega) h.2
      rw [show j + 1 - a + b = j - a + b + 1 by omega] at this
      exact this
  have hf := cellsWf_filter h (fun c => decide (a ≤ c.1) && decide (c.1 < a + n))
  have hr : cellsWf a (l.filter (fun c => decide (a ≤ c.1) && decide (c.1 < a + n))) = true := by
    refine cellsWf_raise hf ?_
    intro c hc
    have := (List.mem_filter.mp hc).2
    simp only [Bool.and_eq_true, decide_eq_true_eq] at this
    exact this.1
  have := key _ a (Nat.le_refl a) hr
  rw [show a - a + b = b by omega] at this
  exact this

/-- The cells of consecutive values are canonical. -/
theorem cellsWf_from (a : Nat) (l : List Byte) : cellsWf a (cellsFrom a l) = true := by
  induction l generalizing a with
  | nil => rfl
  | cons v r ih =>
    simp only [cellsFrom]
    split
    · exact cellsWf_mono (ih (a + 1)) (by omega)
    · rename_i hv
      simp only [cellsWf, Bool.and_eq_true, decide_eq_true_eq]
      exact ⟨⟨Nat.le_refl a, by simpa using hv⟩, ih (a + 1)⟩

/-- Cells replaced in a range by canonical ones that stand in it. -/
theorem cellsWf_put {l r : List Host.Cell} {lo hi : Nat} (h : cellsWf 0 l = true) (hr : cellsWf lo r = true)
    (hin : ∀ c ∈ r, c.1 < hi) (hle : lo ≤ hi) :
    cellsWf 0 (l.filter (fun c => decide (c.1 < lo)) ++ r ++ l.filter (fun c => decide (hi ≤ c.1))) = true := by
  have h1 : cellsWf 0 (l.filter (fun c => decide (c.1 < lo)) ++ r) = true := by
    refine cellsWf_append (cellsWf_filter h _) hr ?_ (Nat.zero_le lo)
    intro c hc
    simpa using (List.mem_filter.mp hc).2
  refine cellsWf_append h1 (mid := hi) (cellsWf_raise (cellsWf_filter h _) ?_) ?_ (Nat.zero_le hi)
  · intro c hc
    simpa using (List.mem_filter.mp hc).2
  · intro c hc
    rcases List.mem_append.mp hc with hc | hc
    · have := (List.mem_filter.mp hc).2
      simp only [decide_eq_true_eq] at this
      omega
    · exact hin c hc

/-- Moved cells stand inside the range they are moved to. -/
theorem cellsMoved_lt {l : List Host.Cell} {a n b : Nat} {c : Host.Cell} (h : c ∈ cellsMoved l a n b) : c.1 < b + n := by
  simp only [cellsMoved, List.mem_map, List.mem_filter, Bool.and_eq_true, decide_eq_true_eq] at h
  obtain ⟨d, ⟨_, h1, h2⟩, rfl⟩ := h
  simp only
  omega

/-! Words. -/

/-- Bit `i` of the word of some bytes is bit i mod 8 of byte i div 8. -/
theorem wordOf_bit (f : Nat → Byte) (i : Nat) (hi : i < 64) : (wordOf f).getLsbD i = (f (i / 8)).getLsbD (i % 8) := by
  have : i / 8 = 0 ∨ i / 8 = 1 ∨ i / 8 = 2 ∨ i / 8 = 3 ∨ i / 8 = 4 ∨ i / 8 = 5 ∨ i / 8 = 6 ∨ i / 8 = 7 := by omega
  unfold wordOf
  simp only [BitVec.getLsbD_append]
  rcases this with h | h | h | h | h | h | h | h <;> rw [h] <;>
    (repeat (first | rw [if_pos (by omega)] | rw [if_neg (by omega)])) <;> congr 1 <;> omega

/-- The word built of a function's bytes has those bytes. -/
theorem byteOf_wordOf (f : Nat → Byte) (k : Nat) (hk : k < 8) : byteOf (wordOf f) k = f k := by
  apply BitVec.eq_of_getLsbD_eq
  intro i hi
  unfold byteOf
  rw [BitVec.getLsbD_extractLsb', wordOf_bit f _ (by omega), show (8 * k + i) / 8 = k by omega,
    show (8 * k + i) % 8 = i by omega]
  simp [hi]

/-- A word is its eight bytes. -/
theorem wordOf_byteOf (w : Word) : wordOf (byteOf w) = w := by
  apply BitVec.eq_of_getLsbD_eq
  intro i hi
  rw [wordOf_bit _ i hi]
  unfold byteOf
  rw [BitVec.getLsbD_extractLsb', show 8 * (i / 8) + i % 8 = i by omega]
  simp [Nat.mod_lt]

/-! Memory. -/

theorem Mem.wf_bytes {m : Mem} (h : m.wf = true) : cellsWf 0 m.bytes = true := by
  simp only [Mem.wf, Bool.and_eq_true] at h; exact h.1
theorem Mem.wf_seals {m : Mem} (h : m.wf = true) : cellsWf 0 m.seals = true := by
  simp only [Mem.wf, Bool.and_eq_true] at h; exact h.2
theorem Mem.wf_mk {b l : List Host.Cell} (hb : cellsWf 0 b = true) (hl : cellsWf 0 l = true) : ({ bytes := b, seals := l } : Mem).wf = true := by
  simp [Mem.wf, hb, hl]

/-- The empty memory is canonical. -/
theorem Mem.wf_empty : ({} : Mem).wf = true := rfl

/-- Every operation keeps the canonical form. -/
theorem Mem.wf_putByte {m : Mem} (h : m.wf = true) (a : Nat) (b : Byte) : (m.putByte a b).wf = true :=
  Mem.wf_mk (cellsWf_cellPut (Mem.wf_bytes h) (Nat.zero_le a) b) (Mem.wf_seals h)
theorem Mem.wf_putSeal {m : Mem} (h : m.wf = true) (n : Nat) (x : BitVec 8) : (m.putSeal n x).wf = true :=
  Mem.wf_mk (Mem.wf_bytes h) (cellsWf_cellPut (Mem.wf_seals h) (Nat.zero_le n) x)
theorem Mem.wf_foldPut {m : Mem} (h : m.wf = true) (n : Nat) (w : Word) (l : List Nat) :
    (l.foldl (fun m k => m.putByte (8 * n + k) (byteOf w k)) m).wf = true := by
  induction l generalizing m with
  | nil => exact h
  | cons k r ih => exact ih (Mem.wf_putByte h _ _)
theorem Mem.wf_putWord {m : Mem} (h : m.wf = true) (n : Nat) (w : Word) : (m.putWord n w).wf = true := Mem.wf_foldPut h n w _
theorem Mem.wf_write {m : Mem} (h : m.wf = true) (n : Nat) (w : Word) (x : BitVec 8) : (m.write n w x).wf = true :=
  Mem.wf_putSeal (Mem.wf_putWord h n w) n x
theorem Mem.wf_store {m : Mem} (h : m.wf = true) (n : Nat) (w : Word) : (m.store n w).wf = true := Mem.wf_write h n w _
theorem Mem.wf_scrub {m : Mem} (h : m.wf = true) (w n : Nat) : (m.scrub w n).wf = true :=
  Mem.wf_mk (cellsWf_filter (Mem.wf_bytes h) _) (cellsWf_filter (Mem.wf_seals h) _)
theorem Mem.wf_blit {m src : Mem} (h : m.wf = true) (hs : src.wf = true) (w v n : Nat) : (m.blit w src v n).wf = true := by
  refine Mem.wf_mk (cellsWf_put (Mem.wf_bytes h) (cellsWf_moved (Mem.wf_bytes hs) _ _ _) ?_ (by omega))
    (cellsWf_put (Mem.wf_seals h) (cellsWf_moved (Mem.wf_seals hs) _ _ _) ?_ (by omega))
  · intro c hc; have := cellsMoved_lt hc; omega
  · intro c hc; exact cellsMoved_lt hc
theorem Mem.wf_ofWords (w : Nat) (l : List (Word × BitVec 8)) : (Mem.ofWords w l).wf = true :=
  Mem.wf_mk (cellsWf_mono (cellsWf_from _ _) (Nat.zero_le _)) (cellsWf_mono (cellsWf_from _ _) (Nat.zero_le _))
theorem Mem.wf_writeWords {m : Mem} (h : m.wf = true) (w : Nat) (l : List (Word × BitVec 8)) : (m.writeWords w l).wf = true :=
  Mem.wf_blit h (Mem.wf_ofWords w l) _ _ _

/-- A byte read after a byte is written. -/
theorem Mem.byte_putByte {m : Mem} (h : m.wf = true) (a : Nat) (b : Byte) (j : Nat) :
    (m.putByte a b).byte j = if j = a then b else m.byte j := cellGet_cellPut (Mem.wf_bytes h) a b j
/-- A byte read after a word is written. -/
theorem Mem.byte_putWord {m : Mem} (h : m.wf = true) (n : Nat) (w : Word) (j : Nat) :
    (m.putWord n w).byte j = if j / 8 = n then byteOf w (j % 8) else m.byte j := by
  have step : ∀ (l : List Nat) (m : Mem), m.wf = true → (∀ k ∈ l, k < 8) →
      (l.foldl (fun m k => m.putByte (8 * n + k) (byteOf w k)) m).byte j =
        if j / 8 = n ∧ j % 8 ∈ l then byteOf w (j % 8) else m.byte j := by
    intro l
    induction l with
    | nil => intros; simp
    | cons k r ih =>
      intro m hm hk
      rw [List.foldl_cons, ih _ (Mem.wf_putByte hm _ _) (fun i hi => hk i (List.mem_cons_of_mem _ hi)), Mem.byte_putByte hm]
      have hk8 := hk k List.mem_cons_self
      by_cases h1 : j / 8 = n
      · by_cases h2 : j % 8 = k
        · rw [if_pos (show j = 8 * n + k by omega)]
          simp [h1, h2]
        · have : j ≠ 8 * n + k := by omega
          simp [h1, h2, this]
      · have : j ≠ 8 * n + k := by omega
        simp [h1, this]
  rw [Mem.putWord, step _ m h (fun k hk => by simpa using hk)]
  by_cases h1 : j / 8 = n <;> simp [h1, Nat.mod_lt]
/-- A byte read after a word and its seal are written. -/
theorem Mem.byte_write {m : Mem} (h : m.wf = true) (n : Nat) (w : Word) (x : BitVec 8) (j : Nat) :
    (m.write n w x).byte j = if j / 8 = n then byteOf w (j % 8) else m.byte j := Mem.byte_putWord h n w j
/-- A word read after a word and its seal are written. -/
theorem Mem.word_write {m : Mem} (h : m.wf = true) (n : Nat) (w : Word) (x : BitVec 8) (k : Nat) :
    (m.write n w x).word k = if k = n then w else m.word k := by
  have e : ∀ i, i < 8 → (m.write n w x).byte (8 * k + i) = if k = n then byteOf w i else m.byte (8 * k + i) := by
    intro i hi
    rw [Mem.byte_write h, show (8 * k + i) / 8 = k by omega, show (8 * k + i) % 8 = i by omega]
  unfold Mem.word wordOf
  simp only [e 0 (by omega), e 1 (by omega), e 2 (by omega), e 3 (by omega), e 4 (by omega), e 5 (by omega), e 6 (by omega), e 7 (by omega)]
  split
  · exact wordOf_byteOf w
  · rfl
/-- A seal read after a word and its seal are written. -/
theorem Mem.sealAt_write {m : Mem} (h : m.wf = true) (n : Nat) (w : Word) (x : BitVec 8) (k : Nat) :
    (m.write n w x).sealAt k = if k = n then x else m.sealAt k := by
  have key : ∀ (l : List Nat) (m : Mem), (l.foldl (fun m k => m.putByte (8 * n + k) (byteOf w k)) m).seals = m.seals := by
    intro l
    induction l with
    | nil => intro m; rfl
    | cons i r ih => intro m; rw [List.foldl_cons, ih]; rfl
  have e : (m.putWord n w).seals = m.seals := key _ m
  have := cellGet_cellPut (Mem.wf_seals (Mem.wf_putWord h n w)) n x k
  rw [e] at this
  simpa [Mem.write, Mem.sealAt, Mem.putSeal, e] using this

/-- Canonical lists that read alike are equal. -/
theorem cells_ext {a b : List Host.Cell} {lo lo' : Nat} (ha : cellsWf lo a = true) (hb : cellsWf lo' b = true)
    (h : ∀ k, cellGet a k = cellGet b k) : a = b := by
  induction a generalizing b lo lo' with
  | nil =>
    cases b with
    | nil => rfl
    | cons y r =>
      obtain ⟨j, v⟩ := y
      simp only [cellsWf, Bool.and_eq_true, decide_eq_true_eq] at hb
      have := h j
      simp only [cellGet, if_true] at this
      simp [← this] at hb
  | cons x r ih =>
    obtain ⟨i, v⟩ := x
    simp only [cellsWf, Bool.and_eq_true, decide_eq_true_eq] at ha
    have hv : v ≠ 0 := by simpa using ha.1.2
    cases b with
    | nil =>
      have := h i
      simp only [cellGet, if_true] at this
      exact absurd this hv
    | cons y q =>
      obtain ⟨j, w⟩ := y
      simp only [cellsWf, Bool.and_eq_true, decide_eq_true_eq] at hb
      have hw : w ≠ 0 := by simpa using hb.1.2
      have hij : i = j := by
        rcases Nat.lt_trichotomy i j with hl | hl | hl
        · have := h i
          simp only [cellGet, if_true, if_neg (show ¬j = i by omega), cellGet_below hb.2 (show i < j + 1 by omega)] at this
          exact absurd this hv
        · exact hl
        · have := h j
          simp only [cellGet, if_true, if_neg (show ¬i = j by omega), cellGet_below ha.2 (show j < i + 1 by omega)] at this
          exact absurd this.symm hw
      subst hij
      have hvw : v = w := by have := h i; simpa [cellGet] using this
      subst hvw
      congr 1
      refine ih ha.2 hb.2 ?_
      intro k
      by_cases e : i = k
      · subst e; rw [cellGet_below ha.2 (by omega), cellGet_below hb.2 (by omega)]
      · have := h k; simpa [cellGet, e] using this

/-- Canonical memories that read alike, bytes and seals, are equal. -/
theorem Mem.ext_read {m n : Mem} (hm : m.wf = true) (hn : n.wf = true) (hb : ∀ a, m.byte a = n.byte a)
    (hs : ∀ k, m.sealAt k = n.sealAt k) : m = n := by
  obtain ⟨mb, ms⟩ := m
  obtain ⟨nb, ns⟩ := n
  rw [show mb = nb from cells_ext (Mem.wf_bytes hm) (Mem.wf_bytes hn) hb,
    show ms = ns from cells_ext (Mem.wf_seals hm) (Mem.wf_seals hn) hs]

/-- Cells below an address may be dropped: reads from it on are as before. -/
theorem cells_dropped {l : List Host.Cell} {lo : Nat} (h : cellsWf lo l = true) (a : Nat) :
    cellsWf a (l.dropWhile (fun c => decide (c.1 < a))) = true ∧
      ∀ i, cellGet (l.dropWhile (fun c => decide (c.1 < a))) (a + i) = cellGet l (a + i) := by
  induction l generalizing lo with
  | nil => exact ⟨rfl, fun _ => by rfl⟩
  | cons x r ih =>
    obtain ⟨j, v⟩ := x
    simp only [cellsWf, Bool.and_eq_true, decide_eq_true_eq] at h
    by_cases hj : j < a
    · simp only [List.dropWhile_cons, hj, decide_true, if_true]
      refine ⟨(ih h.2).1, fun i => ?_⟩
      rw [(ih h.2).2 i, cellGet, if_neg (by omega)]
    · simp only [List.dropWhile_cons, hj, decide_false, Bool.false_eq_true, if_false]
      refine ⟨?_, by simp⟩
      simp only [cellsWf, Bool.and_eq_true, decide_eq_true_eq]
      exact ⟨⟨by omega, h.1.2⟩, h.2⟩

/-- A run of reads in one pass is the reads one by one. -/
theorem cellsRun_eq {l : List Host.Cell} {a : Nat} (h : cellsWf a l = true) (n : Nat) :
    cellsRun a n l = (List.range n).map (fun i => cellGet l (a + i)) := by
  induction n generalizing a l with
  | zero => cases l <;> rfl
  | succ n ih =>
    rw [List.range_succ_eq_map, List.map_cons, List.map_map]
    cases l with
    | nil =>
      rw [cellsRun, ih rfl]
      rfl
    | cons x r =>
      obtain ⟨j, v⟩ := x
      simp only [cellsWf, Bool.and_eq_true, decide_eq_true_eq] at h
      rw [cellsRun]
      split
      · rename_i e
        subst e
        rw [ih h.2]
        congr 1
        · simp [cellGet]
        · refine List.map_congr_left (fun i _ => ?_)
          simp only [Function.comp_apply]
          rw [cellGet, if_neg (by omega)]
          congr 1
          omega
      · rename_i e
        rw [ih (l := (j, v) :: r) (by simp only [cellsWf, Bool.and_eq_true, decide_eq_true_eq]; exact ⟨⟨by omega, h.1.2⟩, h.2⟩)]
        congr 1
        · rw [cellGet, if_neg (by omega)]
          exact (cellGet_below h.2 (by omega)).symm
        · refine List.map_congr_left (fun i _ => ?_)
          simp only [Function.comp_apply]
          congr 1
          omega

/-- Words formed of a run. -/
theorem wordsOfRun_eq (n : Nat) (l : List Byte) :
    wordsOfRun n l = (List.range n).map (fun i => wordOf (fun k => l.getD (8 * i + k) 0)) := by
  induction n generalizing l with
  | zero => rfl
  | succ n ih =>
    rw [wordsOfRun, ih, List.range_succ_eq_map, List.map_cons, List.map_map]
    have e : ∀ i k, (l.drop 8).getD (8 * i + k) 0 = l.getD (8 * (i + 1) + k) 0 := by
      intro i k
      simp only [List.getD_eq_getElem?_getD, List.getElem?_drop]
      congr 2
      omega
    simp only [e, Nat.mul_zero, Nat.zero_add]
    rfl

/-- Words read in one pass are the words read one by one, with their seals. -/
theorem Mem.words_eq {m : Mem} (h : m.wf = true) (w n : Nat) :
    m.words w n = (List.range n).map (fun i => (m.word (w + i), m.sealAt (w + i))) := by
  obtain ⟨hb, gb⟩ := cells_dropped (Mem.wf_bytes h) (8 * w)
  obtain ⟨hs, gs⟩ := cells_dropped (Mem.wf_seals h) w
  rw [Mem.words, cellsRun_eq hb, cellsRun_eq hs, wordsOfRun_eq]
  rw [List.zip_map', List.map_congr_left]
  intro i hi
  have hi : i < n := List.mem_range.1 hi
  congr 1
  · rw [Mem.word]
    unfold wordOf
    have e : ∀ k, k < 8 → ((List.range (8 * n)).map (fun i => cellGet (m.bytes.dropWhile (fun c => decide (c.1 < 8 * w))) (8 * w + i))).getD (8 * i + k) 0 =
        m.byte (8 * (w + i) + k) := by
      intro k hk
      rw [List.getD_eq_getElem?_getD, List.getElem?_map, List.getElem?_range (by omega)]
      simp only [Option.map_some, Option.getD_some]
      rw [gb, Mem.byte]
      congr 1
      omega
    simp only [e 0 (by omega), e 1 (by omega), e 2 (by omega), e 3 (by omega), e 4 (by omega), e 5 (by omega), e 6 (by omega), e 7 (by omega)]
  · exact gs i

end Sys2Proof.Machine
end

