-- ==== Sys2Proof/Laws/Tab.lean ====
section
/-! SUPPORT. Laws of sparse tables: what a read gives after a write. -/

namespace Sys2Proof.Machine

/-- A read after a write: the value written at its key, what was there at any other. -/
theorem Tab.get_set {α : Type} (d : α) (t : Tab α) (k : Nat) (v : α) (j : Nat) :
    Tab.get d (Tab.set t k v) j = if j = k then v else Tab.get d t j := by
  induction t with
  | nil => simp only [Tab.set, Tab.get, eq_comm]
  | cons x r ih =>
    obtain ⟨i, w⟩ := x
    simp only [Tab.set]
    split
    · simp only [Tab.get, eq_comm]
    · split
      · rename_i h
        subst h
        by_cases h : k = j
        · simp [Tab.get, h]
        · simp [Tab.get, h, Ne.symm h]
      · rename_i h
        simp only [Tab.get, ih]
        by_cases e : i = j
        · have : j ≠ k := fun f => h (by rw [← f, e])
          simp [e, this]
        · simp [e]

@[simp] theorem Tab.get_set_self {α : Type} (d : α) (t : Tab α) (k : Nat) (v : α) :
    Tab.get d (Tab.set t k v) k = v := by simp [Tab.get_set]

theorem Tab.get_set_ne {α : Type} (d : α) (t : Tab α) {k j : Nat} (v : α) (h : j ≠ k) :
    Tab.get d (Tab.set t k v) j = Tab.get d t j := by simp [Tab.get_set, h]

/-- A lookup after a write. -/
theorem Tab.find?_set {α : Type} (t : Tab α) (k : Nat) (v : α) (j : Nat) :
    Tab.find? (Tab.set t k v) j = if j = k then some v else Tab.find? t j := by
  induction t with
  | nil => simp only [Tab.set, Tab.find?, eq_comm]
  | cons x r ih =>
    obtain ⟨i, w⟩ := x
    simp only [Tab.set]
    split
    · simp only [Tab.find?, eq_comm]
    · split
      · rename_i h
        subst h
        by_cases h : k = j
        · simp [Tab.find?, h]
        · simp [Tab.find?, h, Ne.symm h]
      · rename_i h
        simp only [Tab.find?, ih]
        by_cases e : i = j
        · have : j ≠ k := fun f => h (by rw [← f, e])
          simp [e, this]
        · simp [e]

@[simp] theorem Tab.find?_set_self {α : Type} (t : Tab α) (k : Nat) (v : α) :
    Tab.find? (Tab.set t k v) k = some v := by simp [Tab.find?_set]

/-- The read of a table is the lookup with the default. -/
theorem Tab.get_eq {α : Type} (d : α) (t : Tab α) (k : Nat) : Tab.get d t k = (Tab.find? t k).getD d := by
  induction t with
  | nil => rfl
  | cons x r ih =>
    obtain ⟨i, w⟩ := x
    by_cases h : i = k <;> simp [Tab.get, Tab.find?, h, ih]

/-- A table that a map of the four slots' columns makes reads as the map does. -/
theorem Tab.get_modify {α : Type} (d : α) (t : Tab α) (k : Nat) (f : α → α) (j : Nat) :
    Tab.get d (Tab.modify d t k f) j = if j = k then f (Tab.get d t k) else Tab.get d t j := by
  simp [Tab.modify, Tab.get_set]

/-- Keys above `lo` stay above it in a table that rises. -/
theorem Tab.sortedFrom_set {α : Type} (t : Tab α) (lo : Option Nat) (k : Nat) (v : α)
    (h : Tab.sortedFrom lo t = true) (hk : ∀ l, lo = some l → l < k) : Tab.sortedFrom lo (Tab.set t k v) = true := by
  induction t generalizing lo with
  | nil => cases lo <;> simp_all [Tab.set, Tab.sortedFrom]
  | cons x r ih =>
    obtain ⟨i, w⟩ := x
    have hr : Tab.sortedFrom (some i) r = true := by cases lo <;> simp_all [Tab.sortedFrom]
    have hi : ∀ l, lo = some l → l < i := by
      intro l e; subst e; simp [Tab.sortedFrom] at h; exact h.1
    simp only [Tab.set]
    split
    · rename_i hki
      cases lo <;> simp_all [Tab.sortedFrom]
    · split
      · rename_i e; subst e
        cases lo <;> simp_all [Tab.sortedFrom]
      · rename_i h1 h2
        have := ih (some i) hr (fun l e => by cases e; omega)
        cases lo <;> simp_all [Tab.sortedFrom]

/-- A write keeps the keys rising. -/
theorem Tab.sorted_set {α : Type} (t : Tab α) (k : Nat) (v : α) (h : t.sorted = true) : (Tab.set t k v).sorted = true :=
  Tab.sortedFrom_set t none k v h (fun _ e => nomatch e)

end Sys2Proof.Machine
end

