-- ==== Sys2Proof/Laws/State.lean ====
section
/-! SUPPORT. What each update of the state leaves in each field, and what reads of cores, slots and registers give after
it. -/

namespace Sys2Proof.Machine

/-! `State.setCore` writes `cores` alone. -/

@[simp] theorem State.setCore_agenda (s : State) (c : Nat) (k : Core) : (s.setCore c k).agenda = s.agenda := rfl
@[simp] theorem State.setCore_opened (s : State) (c : Nat) (k : Core) : (s.setCore c k).opened = s.opened := rfl
@[simp] theorem State.setCore_cur (s : State) (c : Nat) (k : Core) : (s.setCore c k).cur = s.cur := rfl
@[simp] theorem State.setCore_turn (s : State) (c : Nat) (k : Core) : (s.setCore c k).turn = s.turn := rfl
@[simp] theorem State.setCore_fresh (s : State) (c : Nat) (k : Core) : (s.setCore c k).fresh = s.fresh := rfl
@[simp] theorem State.setCore_mem (s : State) (c : Nat) (k : Core) : (s.setCore c k).mem = s.mem := rfl
@[simp] theorem State.setCore_again (s : State) (c : Nat) (k : Core) : (s.setCore c k).again = s.again := rfl
@[simp] theorem State.setCore_homes (s : State) (c : Nat) (k : Core) : (s.setCore c k).homes = s.homes := rfl
@[simp] theorem State.setCore_homeDirty (s : State) (c : Nat) (k : Core) : (s.setCore c k).homeDirty = s.homeDirty := rfl
@[simp] theorem State.setCore_memts (s : State) (c : Nat) (k : Core) : (s.setCore c k).memts = s.memts := rfl
@[simp] theorem State.setCore_bypassRts (s : State) (c : Nat) (k : Core) : (s.setCore c k).bypassRts = s.bypassRts := rfl
@[simp] theorem State.setCore_bankRts (s : State) (c : Nat) (k : Core) : (s.setCore c k).bankRts = s.bankRts := rfl
@[simp] theorem State.setCore_bypassRels (s : State) (c : Nat) (k : Core) : (s.setCore c k).bypassRels = s.bypassRels := rfl
@[simp] theorem State.setCore_bankRels (s : State) (c : Nat) (k : Core) : (s.setCore c k).bankRels = s.bankRels := rfl
@[simp] theorem State.setCore_clusters (s : State) (c : Nat) (k : Core) : (s.setCore c k).clusters = s.clusters := rfl
@[simp] theorem State.setCore_parts (s : State) (c : Nat) (k : Core) : (s.setCore c k).parts = s.parts := rfl
@[simp] theorem State.setCore_repeatable (s : State) (c : Nat) (k : Core) : (s.setCore c k).repeatable = s.repeatable := rfl
@[simp] theorem State.setCore_timebase (s : State) (c : Nat) (k : Core) : (s.setCore c k).timebase = s.timebase := rfl
@[simp] theorem State.setCore_device (s : State) (c : Nat) (k : Core) : (s.setCore c k).device = s.device := rfl
@[simp] theorem State.setCore_ecseal (s : State) (c : Nat) (k : Core) : (s.setCore c k).ecseal = s.ecseal := rfl
@[simp] theorem State.setCore_ecmrep (s : State) (c : Nat) (k : Core) : (s.setCore c k).ecmrep = s.ecmrep := rfl
@[simp] theorem State.setCore_ecrepl (s : State) (c : Nat) (k : Core) : (s.setCore c k).ecrepl = s.ecrepl := rfl
@[simp] theorem State.setCore_launches (s : State) (c : Nat) (k : Core) : (s.setCore c k).launches = s.launches := rfl
@[simp] theorem State.setCore_holes (s : State) (c : Nat) (k : Core) : (s.setCore c k).holes = s.holes := rfl
@[simp] theorem State.setCore_peers (s : State) (c : Nat) (k : Core) : (s.setCore c k).peers = s.peers := rfl
@[simp] theorem State.setCore_faultDue (s : State) (c : Nat) (k : Core) : (s.setCore c k).faultDue = s.faultDue := rfl
@[simp] theorem State.setCore_faultRing (s : State) (c : Nat) (k : Core) : (s.setCore c k).faultRing = s.faultRing := rfl
@[simp] theorem State.setCore_sent (s : State) (c : Nat) (k : Core) : (s.setCore c k).sent = s.sent := rfl
@[simp] theorem State.setCore_msix (s : State) (c : Nat) (k : Core) : (s.setCore c k).msix = s.msix := rfl
@[simp] theorem State.setCore_pba (s : State) (c : Nat) (k : Core) : (s.setCore c k).pba = s.pba := rfl
@[simp] theorem State.setCore_echbm (s : State) (c : Nat) (k : Core) : (s.setCore c k).echbm = s.echbm := rfl
@[simp] theorem State.setCore_eclink (s : State) (c : Nat) (k : Core) : (s.setCore c k).eclink = s.eclink := rfl
@[simp] theorem State.setCore_ecloss (s : State) (c : Nat) (k : Core) : (s.setCore c k).ecloss = s.ecloss := rfl
@[simp] theorem State.setCore_retired (s : State) (c : Nat) (k : Core) : (s.setCore c k).retired = s.retired := rfl
@[simp] theorem State.setCore_retovf (s : State) (c : Nat) (k : Core) : (s.setCore c k).retovf = s.retovf := rfl
@[simp] theorem State.setCore_edev (s : State) (c : Nat) (k : Core) : (s.setCore c k).edev = s.edev := rfl
@[simp] theorem State.setCore_edevFrac (s : State) (c : Nat) (k : Core) : (s.setCore c k).edevFrac = s.edevFrac := rfl
@[simp] theorem State.setCore_channels (s : State) (c : Nat) (k : Core) : (s.setCore c k).channels = s.channels := rfl
@[simp] theorem State.setCore_pcap (s : State) (c : Nat) (k : Core) : (s.setCore c k).pcap = s.pcap := rfl
@[simp] theorem State.setCore_trips (s : State) (c : Nat) (k : Core) : (s.setCore c k).trips = s.trips := rfl
@[simp] theorem State.setCore_fwsafe (s : State) (c : Nat) (k : Core) : (s.setCore c k).fwsafe = s.fwsafe := rfl
@[simp] theorem State.setCore_fwupd (s : State) (c : Nat) (k : Core) : (s.setCore c k).fwupd = s.fwupd := rfl
@[simp] theorem State.setCore_rcad (s : State) (c : Nat) (k : Core) : (s.setCore c k).rcad = s.rcad := rfl
@[simp] theorem State.setCore_beats (s : State) (c : Nat) (k : Core) : (s.setCore c k).beats = s.beats := rfl
@[simp] theorem State.setCore_bootStep (s : State) (c : Nat) (k : Core) : (s.setCore c k).bootStep = s.bootStep := rfl
@[simp] theorem State.setCore_bootDone (s : State) (c : Nat) (k : Core) : (s.setCore c k).bootDone = s.bootDone := rfl
@[simp] theorem State.setCore_idfail (s : State) (c : Nat) (k : Core) : (s.setCore c k).idfail = s.idfail := rfl
@[simp] theorem State.setCore_bootStopped (s : State) (c : Nat) (k : Core) : (s.setCore c k).bootStopped = s.bootStopped := rfl
@[simp] theorem State.setCore_copyB (s : State) (c : Nat) (k : Core) : (s.setCore c k).copyB = s.copyB := rfl
@[simp] theorem State.setCore_narrow (s : State) (c : Nat) (k : Core) : (s.setCore c k).narrow = s.narrow := rfl
@[simp] theorem State.setCore_aliasKey (s : State) (c : Nat) (k : Core) : (s.setCore c k).aliasKey = s.aliasKey := rfl
@[simp] theorem State.setCore_blocks (s : State) (c : Nat) (k : Core) : (s.setCore c k).blocks = s.blocks := rfl
@[simp] theorem State.setCore_flash (s : State) (c : Nat) (k : Core) : (s.setCore c k).flash = s.flash := rfl
@[simp] theorem State.setCore_mbCommand (s : State) (c : Nat) (k : Core) : (s.setCore c k).mbCommand = s.mbCommand := rfl
@[simp] theorem State.setCore_mbResult (s : State) (c : Nat) (k : Core) : (s.setCore c k).mbResult = s.mbResult := rfl
@[simp] theorem State.setCore_mbWords (s : State) (c : Nat) (k : Core) : (s.setCore c k).mbWords = s.mbWords := rfl
@[simp] theorem State.setCore_mbImage (s : State) (c : Nat) (k : Core) : (s.setCore c k).mbImage = s.mbImage := rfl
@[simp] theorem State.setCore_repsum (s : State) (c : Nat) (k : Core) : (s.setCore c k).repsum = s.repsum := rfl
@[simp] theorem State.setCore_capGen (s : State) (c : Nat) (k : Core) : (s.setCore c k).capGen = s.capGen := rfl
@[simp] theorem State.setCore_vfOn (s : State) (c : Nat) (k : Core) : (s.setCore c k).vfOn = s.vfOn := rfl
@[simp] theorem State.setCore_numVfs (s : State) (c : Nat) (k : Core) : (s.setCore c k).numVfs = s.numVfs := rfl
@[simp] theorem State.setCore_vfOn1 (s : State) (c : Nat) (k : Core) : (s.setCore c k).vfOn1 = s.vfOn1 := rfl
@[simp] theorem State.setCore_numVfs1 (s : State) (c : Nat) (k : Core) : (s.setCore c k).numVfs1 = s.numVfs1 := rfl
@[simp] theorem State.setCore_ports (s : State) (c : Nat) (k : Core) : (s.setCore c k).ports = s.ports := rfl
@[simp] theorem State.setCore_trained (s : State) (c : Nat) (k : Core) : (s.setCore c k).trained = s.trained := rfl
@[simp] theorem State.setCore_holdUntil (s : State) (c : Nat) (k : Core) : (s.setCore c k).holdUntil = s.holdUntil := rfl
@[simp] theorem State.setCore_spdm (s : State) (c : Nat) (k : Core) : (s.setCore c k).spdm = s.spdm := rfl

/-! `State.modCore` writes `cores` alone. -/

@[simp] theorem State.modCore_agenda (s : State) (c : Nat) (f : Core → Core) : (s.modCore c f).agenda = s.agenda := rfl
@[simp] theorem State.modCore_opened (s : State) (c : Nat) (f : Core → Core) : (s.modCore c f).opened = s.opened := rfl
@[simp] theorem State.modCore_cur (s : State) (c : Nat) (f : Core → Core) : (s.modCore c f).cur = s.cur := rfl
@[simp] theorem State.modCore_turn (s : State) (c : Nat) (f : Core → Core) : (s.modCore c f).turn = s.turn := rfl
@[simp] theorem State.modCore_fresh (s : State) (c : Nat) (f : Core → Core) : (s.modCore c f).fresh = s.fresh := rfl
@[simp] theorem State.modCore_mem (s : State) (c : Nat) (f : Core → Core) : (s.modCore c f).mem = s.mem := rfl
@[simp] theorem State.modCore_again (s : State) (c : Nat) (f : Core → Core) : (s.modCore c f).again = s.again := rfl
@[simp] theorem State.modCore_homes (s : State) (c : Nat) (f : Core → Core) : (s.modCore c f).homes = s.homes := rfl
@[simp] theorem State.modCore_homeDirty (s : State) (c : Nat) (f : Core → Core) : (s.modCore c f).homeDirty = s.homeDirty := rfl
@[simp] theorem State.modCore_memts (s : State) (c : Nat) (f : Core → Core) : (s.modCore c f).memts = s.memts := rfl
@[simp] theorem State.modCore_bypassRts (s : State) (c : Nat) (f : Core → Core) : (s.modCore c f).bypassRts = s.bypassRts := rfl
@[simp] theorem State.modCore_bankRts (s : State) (c : Nat) (f : Core → Core) : (s.modCore c f).bankRts = s.bankRts := rfl
@[simp] theorem State.modCore_bypassRels (s : State) (c : Nat) (f : Core → Core) : (s.modCore c f).bypassRels = s.bypassRels := rfl
@[simp] theorem State.modCore_bankRels (s : State) (c : Nat) (f : Core → Core) : (s.modCore c f).bankRels = s.bankRels := rfl
@[simp] theorem State.modCore_clusters (s : State) (c : Nat) (f : Core → Core) : (s.modCore c f).clusters = s.clusters := rfl
@[simp] theorem State.modCore_parts (s : State) (c : Nat) (f : Core → Core) : (s.modCore c f).parts = s.parts := rfl
@[simp] theorem State.modCore_repeatable (s : State) (c : Nat) (f : Core → Core) : (s.modCore c f).repeatable = s.repeatable := rfl
@[simp] theorem State.modCore_timebase (s : State) (c : Nat) (f : Core → Core) : (s.modCore c f).timebase = s.timebase := rfl
@[simp] theorem State.modCore_device (s : State) (c : Nat) (f : Core → Core) : (s.modCore c f).device = s.device := rfl
@[simp] theorem State.modCore_ecseal (s : State) (c : Nat) (f : Core → Core) : (s.modCore c f).ecseal = s.ecseal := rfl
@[simp] theorem State.modCore_ecmrep (s : State) (c : Nat) (f : Core → Core) : (s.modCore c f).ecmrep = s.ecmrep := rfl
@[simp] theorem State.modCore_ecrepl (s : State) (c : Nat) (f : Core → Core) : (s.modCore c f).ecrepl = s.ecrepl := rfl
@[simp] theorem State.modCore_launches (s : State) (c : Nat) (f : Core → Core) : (s.modCore c f).launches = s.launches := rfl
@[simp] theorem State.modCore_holes (s : State) (c : Nat) (f : Core → Core) : (s.modCore c f).holes = s.holes := rfl
@[simp] theorem State.modCore_peers (s : State) (c : Nat) (f : Core → Core) : (s.modCore c f).peers = s.peers := rfl
@[simp] theorem State.modCore_faultDue (s : State) (c : Nat) (f : Core → Core) : (s.modCore c f).faultDue = s.faultDue := rfl
@[simp] theorem State.modCore_faultRing (s : State) (c : Nat) (f : Core → Core) : (s.modCore c f).faultRing = s.faultRing := rfl
@[simp] theorem State.modCore_sent (s : State) (c : Nat) (f : Core → Core) : (s.modCore c f).sent = s.sent := rfl
@[simp] theorem State.modCore_msix (s : State) (c : Nat) (f : Core → Core) : (s.modCore c f).msix = s.msix := rfl
@[simp] theorem State.modCore_pba (s : State) (c : Nat) (f : Core → Core) : (s.modCore c f).pba = s.pba := rfl
@[simp] theorem State.modCore_echbm (s : State) (c : Nat) (f : Core → Core) : (s.modCore c f).echbm = s.echbm := rfl
@[simp] theorem State.modCore_eclink (s : State) (c : Nat) (f : Core → Core) : (s.modCore c f).eclink = s.eclink := rfl
@[simp] theorem State.modCore_ecloss (s : State) (c : Nat) (f : Core → Core) : (s.modCore c f).ecloss = s.ecloss := rfl
@[simp] theorem State.modCore_retired (s : State) (c : Nat) (f : Core → Core) : (s.modCore c f).retired = s.retired := rfl
@[simp] theorem State.modCore_retovf (s : State) (c : Nat) (f : Core → Core) : (s.modCore c f).retovf = s.retovf := rfl
@[simp] theorem State.modCore_edev (s : State) (c : Nat) (f : Core → Core) : (s.modCore c f).edev = s.edev := rfl
@[simp] theorem State.modCore_edevFrac (s : State) (c : Nat) (f : Core → Core) : (s.modCore c f).edevFrac = s.edevFrac := rfl
@[simp] theorem State.modCore_channels (s : State) (c : Nat) (f : Core → Core) : (s.modCore c f).channels = s.channels := rfl
@[simp] theorem State.modCore_pcap (s : State) (c : Nat) (f : Core → Core) : (s.modCore c f).pcap = s.pcap := rfl
@[simp] theorem State.modCore_trips (s : State) (c : Nat) (f : Core → Core) : (s.modCore c f).trips = s.trips := rfl
@[simp] theorem State.modCore_fwsafe (s : State) (c : Nat) (f : Core → Core) : (s.modCore c f).fwsafe = s.fwsafe := rfl
@[simp] theorem State.modCore_fwupd (s : State) (c : Nat) (f : Core → Core) : (s.modCore c f).fwupd = s.fwupd := rfl
@[simp] theorem State.modCore_rcad (s : State) (c : Nat) (f : Core → Core) : (s.modCore c f).rcad = s.rcad := rfl
@[simp] theorem State.modCore_beats (s : State) (c : Nat) (f : Core → Core) : (s.modCore c f).beats = s.beats := rfl
@[simp] theorem State.modCore_bootStep (s : State) (c : Nat) (f : Core → Core) : (s.modCore c f).bootStep = s.bootStep := rfl
@[simp] theorem State.modCore_bootDone (s : State) (c : Nat) (f : Core → Core) : (s.modCore c f).bootDone = s.bootDone := rfl
@[simp] theorem State.modCore_idfail (s : State) (c : Nat) (f : Core → Core) : (s.modCore c f).idfail = s.idfail := rfl
@[simp] theorem State.modCore_bootStopped (s : State) (c : Nat) (f : Core → Core) : (s.modCore c f).bootStopped = s.bootStopped := rfl
@[simp] theorem State.modCore_copyB (s : State) (c : Nat) (f : Core → Core) : (s.modCore c f).copyB = s.copyB := rfl
@[simp] theorem State.modCore_narrow (s : State) (c : Nat) (f : Core → Core) : (s.modCore c f).narrow = s.narrow := rfl
@[simp] theorem State.modCore_aliasKey (s : State) (c : Nat) (f : Core → Core) : (s.modCore c f).aliasKey = s.aliasKey := rfl
@[simp] theorem State.modCore_blocks (s : State) (c : Nat) (f : Core → Core) : (s.modCore c f).blocks = s.blocks := rfl
@[simp] theorem State.modCore_flash (s : State) (c : Nat) (f : Core → Core) : (s.modCore c f).flash = s.flash := rfl
@[simp] theorem State.modCore_mbCommand (s : State) (c : Nat) (f : Core → Core) : (s.modCore c f).mbCommand = s.mbCommand := rfl
@[simp] theorem State.modCore_mbResult (s : State) (c : Nat) (f : Core → Core) : (s.modCore c f).mbResult = s.mbResult := rfl
@[simp] theorem State.modCore_mbWords (s : State) (c : Nat) (f : Core → Core) : (s.modCore c f).mbWords = s.mbWords := rfl
@[simp] theorem State.modCore_mbImage (s : State) (c : Nat) (f : Core → Core) : (s.modCore c f).mbImage = s.mbImage := rfl
@[simp] theorem State.modCore_repsum (s : State) (c : Nat) (f : Core → Core) : (s.modCore c f).repsum = s.repsum := rfl
@[simp] theorem State.modCore_capGen (s : State) (c : Nat) (f : Core → Core) : (s.modCore c f).capGen = s.capGen := rfl
@[simp] theorem State.modCore_vfOn (s : State) (c : Nat) (f : Core → Core) : (s.modCore c f).vfOn = s.vfOn := rfl
@[simp] theorem State.modCore_numVfs (s : State) (c : Nat) (f : Core → Core) : (s.modCore c f).numVfs = s.numVfs := rfl
@[simp] theorem State.modCore_vfOn1 (s : State) (c : Nat) (f : Core → Core) : (s.modCore c f).vfOn1 = s.vfOn1 := rfl
@[simp] theorem State.modCore_numVfs1 (s : State) (c : Nat) (f : Core → Core) : (s.modCore c f).numVfs1 = s.numVfs1 := rfl
@[simp] theorem State.modCore_ports (s : State) (c : Nat) (f : Core → Core) : (s.modCore c f).ports = s.ports := rfl
@[simp] theorem State.modCore_trained (s : State) (c : Nat) (f : Core → Core) : (s.modCore c f).trained = s.trained := rfl
@[simp] theorem State.modCore_holdUntil (s : State) (c : Nat) (f : Core → Core) : (s.modCore c f).holdUntil = s.holdUntil := rfl
@[simp] theorem State.modCore_spdm (s : State) (c : Nat) (f : Core → Core) : (s.modCore c f).spdm = s.spdm := rfl

/-! `State.modCluster` writes `clusters` alone. -/

@[simp] theorem State.modCluster_agenda (s : State) (c : Nat) (f : Cluster → Cluster) : (s.modCluster c f).agenda = s.agenda := rfl
@[simp] theorem State.modCluster_opened (s : State) (c : Nat) (f : Cluster → Cluster) : (s.modCluster c f).opened = s.opened := rfl
@[simp] theorem State.modCluster_cur (s : State) (c : Nat) (f : Cluster → Cluster) : (s.modCluster c f).cur = s.cur := rfl
@[simp] theorem State.modCluster_turn (s : State) (c : Nat) (f : Cluster → Cluster) : (s.modCluster c f).turn = s.turn := rfl
@[simp] theorem State.modCluster_fresh (s : State) (c : Nat) (f : Cluster → Cluster) : (s.modCluster c f).fresh = s.fresh := rfl
@[simp] theorem State.modCluster_mem (s : State) (c : Nat) (f : Cluster → Cluster) : (s.modCluster c f).mem = s.mem := rfl
@[simp] theorem State.modCluster_again (s : State) (c : Nat) (f : Cluster → Cluster) : (s.modCluster c f).again = s.again := rfl
@[simp] theorem State.modCluster_homes (s : State) (c : Nat) (f : Cluster → Cluster) : (s.modCluster c f).homes = s.homes := rfl
@[simp] theorem State.modCluster_homeDirty (s : State) (c : Nat) (f : Cluster → Cluster) : (s.modCluster c f).homeDirty = s.homeDirty := rfl
@[simp] theorem State.modCluster_memts (s : State) (c : Nat) (f : Cluster → Cluster) : (s.modCluster c f).memts = s.memts := rfl
@[simp] theorem State.modCluster_bypassRts (s : State) (c : Nat) (f : Cluster → Cluster) : (s.modCluster c f).bypassRts = s.bypassRts := rfl
@[simp] theorem State.modCluster_bankRts (s : State) (c : Nat) (f : Cluster → Cluster) : (s.modCluster c f).bankRts = s.bankRts := rfl
@[simp] theorem State.modCluster_bypassRels (s : State) (c : Nat) (f : Cluster → Cluster) : (s.modCluster c f).bypassRels = s.bypassRels := rfl
@[simp] theorem State.modCluster_bankRels (s : State) (c : Nat) (f : Cluster → Cluster) : (s.modCluster c f).bankRels = s.bankRels := rfl
@[simp] theorem State.modCluster_cores (s : State) (c : Nat) (f : Cluster → Cluster) : (s.modCluster c f).cores = s.cores := rfl
@[simp] theorem State.modCluster_parts (s : State) (c : Nat) (f : Cluster → Cluster) : (s.modCluster c f).parts = s.parts := rfl
@[simp] theorem State.modCluster_repeatable (s : State) (c : Nat) (f : Cluster → Cluster) : (s.modCluster c f).repeatable = s.repeatable := rfl
@[simp] theorem State.modCluster_timebase (s : State) (c : Nat) (f : Cluster → Cluster) : (s.modCluster c f).timebase = s.timebase := rfl
@[simp] theorem State.modCluster_device (s : State) (c : Nat) (f : Cluster → Cluster) : (s.modCluster c f).device = s.device := rfl
@[simp] theorem State.modCluster_ecseal (s : State) (c : Nat) (f : Cluster → Cluster) : (s.modCluster c f).ecseal = s.ecseal := rfl
@[simp] theorem State.modCluster_ecmrep (s : State) (c : Nat) (f : Cluster → Cluster) : (s.modCluster c f).ecmrep = s.ecmrep := rfl
@[simp] theorem State.modCluster_ecrepl (s : State) (c : Nat) (f : Cluster → Cluster) : (s.modCluster c f).ecrepl = s.ecrepl := rfl
@[simp] theorem State.modCluster_launches (s : State) (c : Nat) (f : Cluster → Cluster) : (s.modCluster c f).launches = s.launches := rfl
@[simp] theorem State.modCluster_holes (s : State) (c : Nat) (f : Cluster → Cluster) : (s.modCluster c f).holes = s.holes := rfl
@[simp] theorem State.modCluster_peers (s : State) (c : Nat) (f : Cluster → Cluster) : (s.modCluster c f).peers = s.peers := rfl
@[simp] theorem State.modCluster_faultDue (s : State) (c : Nat) (f : Cluster → Cluster) : (s.modCluster c f).faultDue = s.faultDue := rfl
@[simp] theorem State.modCluster_faultRing (s : State) (c : Nat) (f : Cluster → Cluster) : (s.modCluster c f).faultRing = s.faultRing := rfl
@[simp] theorem State.modCluster_sent (s : State) (c : Nat) (f : Cluster → Cluster) : (s.modCluster c f).sent = s.sent := rfl
@[simp] theorem State.modCluster_msix (s : State) (c : Nat) (f : Cluster → Cluster) : (s.modCluster c f).msix = s.msix := rfl
@[simp] theorem State.modCluster_pba (s : State) (c : Nat) (f : Cluster → Cluster) : (s.modCluster c f).pba = s.pba := rfl
@[simp] theorem State.modCluster_echbm (s : State) (c : Nat) (f : Cluster → Cluster) : (s.modCluster c f).echbm = s.echbm := rfl
@[simp] theorem State.modCluster_eclink (s : State) (c : Nat) (f : Cluster → Cluster) : (s.modCluster c f).eclink = s.eclink := rfl
@[simp] theorem State.modCluster_ecloss (s : State) (c : Nat) (f : Cluster → Cluster) : (s.modCluster c f).ecloss = s.ecloss := rfl
@[simp] theorem State.modCluster_retired (s : State) (c : Nat) (f : Cluster → Cluster) : (s.modCluster c f).retired = s.retired := rfl
@[simp] theorem State.modCluster_retovf (s : State) (c : Nat) (f : Cluster → Cluster) : (s.modCluster c f).retovf = s.retovf := rfl
@[simp] theorem State.modCluster_edev (s : State) (c : Nat) (f : Cluster → Cluster) : (s.modCluster c f).edev = s.edev := rfl
@[simp] theorem State.modCluster_edevFrac (s : State) (c : Nat) (f : Cluster → Cluster) : (s.modCluster c f).edevFrac = s.edevFrac := rfl
@[simp] theorem State.modCluster_channels (s : State) (c : Nat) (f : Cluster → Cluster) : (s.modCluster c f).channels = s.channels := rfl
@[simp] theorem State.modCluster_pcap (s : State) (c : Nat) (f : Cluster → Cluster) : (s.modCluster c f).pcap = s.pcap := rfl
@[simp] theorem State.modCluster_trips (s : State) (c : Nat) (f : Cluster → Cluster) : (s.modCluster c f).trips = s.trips := rfl
@[simp] theorem State.modCluster_fwsafe (s : State) (c : Nat) (f : Cluster → Cluster) : (s.modCluster c f).fwsafe = s.fwsafe := rfl
@[simp] theorem State.modCluster_fwupd (s : State) (c : Nat) (f : Cluster → Cluster) : (s.modCluster c f).fwupd = s.fwupd := rfl
@[simp] theorem State.modCluster_rcad (s : State) (c : Nat) (f : Cluster → Cluster) : (s.modCluster c f).rcad = s.rcad := rfl
@[simp] theorem State.modCluster_beats (s : State) (c : Nat) (f : Cluster → Cluster) : (s.modCluster c f).beats = s.beats := rfl
@[simp] theorem State.modCluster_bootStep (s : State) (c : Nat) (f : Cluster → Cluster) : (s.modCluster c f).bootStep = s.bootStep := rfl
@[simp] theorem State.modCluster_bootDone (s : State) (c : Nat) (f : Cluster → Cluster) : (s.modCluster c f).bootDone = s.bootDone := rfl
@[simp] theorem State.modCluster_idfail (s : State) (c : Nat) (f : Cluster → Cluster) : (s.modCluster c f).idfail = s.idfail := rfl
@[simp] theorem State.modCluster_bootStopped (s : State) (c : Nat) (f : Cluster → Cluster) : (s.modCluster c f).bootStopped = s.bootStopped := rfl
@[simp] theorem State.modCluster_copyB (s : State) (c : Nat) (f : Cluster → Cluster) : (s.modCluster c f).copyB = s.copyB := rfl
@[simp] theorem State.modCluster_narrow (s : State) (c : Nat) (f : Cluster → Cluster) : (s.modCluster c f).narrow = s.narrow := rfl
@[simp] theorem State.modCluster_aliasKey (s : State) (c : Nat) (f : Cluster → Cluster) : (s.modCluster c f).aliasKey = s.aliasKey := rfl
@[simp] theorem State.modCluster_blocks (s : State) (c : Nat) (f : Cluster → Cluster) : (s.modCluster c f).blocks = s.blocks := rfl
@[simp] theorem State.modCluster_flash (s : State) (c : Nat) (f : Cluster → Cluster) : (s.modCluster c f).flash = s.flash := rfl
@[simp] theorem State.modCluster_mbCommand (s : State) (c : Nat) (f : Cluster → Cluster) : (s.modCluster c f).mbCommand = s.mbCommand := rfl
@[simp] theorem State.modCluster_mbResult (s : State) (c : Nat) (f : Cluster → Cluster) : (s.modCluster c f).mbResult = s.mbResult := rfl
@[simp] theorem State.modCluster_mbWords (s : State) (c : Nat) (f : Cluster → Cluster) : (s.modCluster c f).mbWords = s.mbWords := rfl
@[simp] theorem State.modCluster_mbImage (s : State) (c : Nat) (f : Cluster → Cluster) : (s.modCluster c f).mbImage = s.mbImage := rfl
@[simp] theorem State.modCluster_repsum (s : State) (c : Nat) (f : Cluster → Cluster) : (s.modCluster c f).repsum = s.repsum := rfl
@[simp] theorem State.modCluster_capGen (s : State) (c : Nat) (f : Cluster → Cluster) : (s.modCluster c f).capGen = s.capGen := rfl
@[simp] theorem State.modCluster_vfOn (s : State) (c : Nat) (f : Cluster → Cluster) : (s.modCluster c f).vfOn = s.vfOn := rfl
@[simp] theorem State.modCluster_numVfs (s : State) (c : Nat) (f : Cluster → Cluster) : (s.modCluster c f).numVfs = s.numVfs := rfl
@[simp] theorem State.modCluster_vfOn1 (s : State) (c : Nat) (f : Cluster → Cluster) : (s.modCluster c f).vfOn1 = s.vfOn1 := rfl
@[simp] theorem State.modCluster_numVfs1 (s : State) (c : Nat) (f : Cluster → Cluster) : (s.modCluster c f).numVfs1 = s.numVfs1 := rfl
@[simp] theorem State.modCluster_ports (s : State) (c : Nat) (f : Cluster → Cluster) : (s.modCluster c f).ports = s.ports := rfl
@[simp] theorem State.modCluster_trained (s : State) (c : Nat) (f : Cluster → Cluster) : (s.modCluster c f).trained = s.trained := rfl
@[simp] theorem State.modCluster_holdUntil (s : State) (c : Nat) (f : Cluster → Cluster) : (s.modCluster c f).holdUntil = s.holdUntil := rfl
@[simp] theorem State.modCluster_spdm (s : State) (c : Nat) (f : Cluster → Cluster) : (s.modCluster c f).spdm = s.spdm := rfl

/-! `State.setPart` writes `parts` alone. -/

@[simp] theorem State.setPart_agenda (s : State) (p : Nat) (q : Partition) : (s.setPart p q).agenda = s.agenda := rfl
@[simp] theorem State.setPart_opened (s : State) (p : Nat) (q : Partition) : (s.setPart p q).opened = s.opened := rfl
@[simp] theorem State.setPart_cur (s : State) (p : Nat) (q : Partition) : (s.setPart p q).cur = s.cur := rfl
@[simp] theorem State.setPart_turn (s : State) (p : Nat) (q : Partition) : (s.setPart p q).turn = s.turn := rfl
@[simp] theorem State.setPart_fresh (s : State) (p : Nat) (q : Partition) : (s.setPart p q).fresh = s.fresh := rfl
@[simp] theorem State.setPart_mem (s : State) (p : Nat) (q : Partition) : (s.setPart p q).mem = s.mem := rfl
@[simp] theorem State.setPart_again (s : State) (p : Nat) (q : Partition) : (s.setPart p q).again = s.again := rfl
@[simp] theorem State.setPart_homes (s : State) (p : Nat) (q : Partition) : (s.setPart p q).homes = s.homes := rfl
@[simp] theorem State.setPart_homeDirty (s : State) (p : Nat) (q : Partition) : (s.setPart p q).homeDirty = s.homeDirty := rfl
@[simp] theorem State.setPart_memts (s : State) (p : Nat) (q : Partition) : (s.setPart p q).memts = s.memts := rfl
@[simp] theorem State.setPart_bypassRts (s : State) (p : Nat) (q : Partition) : (s.setPart p q).bypassRts = s.bypassRts := rfl
@[simp] theorem State.setPart_bankRts (s : State) (p : Nat) (q : Partition) : (s.setPart p q).bankRts = s.bankRts := rfl
@[simp] theorem State.setPart_bypassRels (s : State) (p : Nat) (q : Partition) : (s.setPart p q).bypassRels = s.bypassRels := rfl
@[simp] theorem State.setPart_bankRels (s : State) (p : Nat) (q : Partition) : (s.setPart p q).bankRels = s.bankRels := rfl
@[simp] theorem State.setPart_cores (s : State) (p : Nat) (q : Partition) : (s.setPart p q).cores = s.cores := rfl
@[simp] theorem State.setPart_clusters (s : State) (p : Nat) (q : Partition) : (s.setPart p q).clusters = s.clusters := rfl
@[simp] theorem State.setPart_repeatable (s : State) (p : Nat) (q : Partition) : (s.setPart p q).repeatable = s.repeatable := rfl
@[simp] theorem State.setPart_timebase (s : State) (p : Nat) (q : Partition) : (s.setPart p q).timebase = s.timebase := rfl
@[simp] theorem State.setPart_device (s : State) (p : Nat) (q : Partition) : (s.setPart p q).device = s.device := rfl
@[simp] theorem State.setPart_ecseal (s : State) (p : Nat) (q : Partition) : (s.setPart p q).ecseal = s.ecseal := rfl
@[simp] theorem State.setPart_ecmrep (s : State) (p : Nat) (q : Partition) : (s.setPart p q).ecmrep = s.ecmrep := rfl
@[simp] theorem State.setPart_ecrepl (s : State) (p : Nat) (q : Partition) : (s.setPart p q).ecrepl = s.ecrepl := rfl
@[simp] theorem State.setPart_launches (s : State) (p : Nat) (q : Partition) : (s.setPart p q).launches = s.launches := rfl
@[simp] theorem State.setPart_holes (s : State) (p : Nat) (q : Partition) : (s.setPart p q).holes = s.holes := rfl
@[simp] theorem State.setPart_peers (s : State) (p : Nat) (q : Partition) : (s.setPart p q).peers = s.peers := rfl
@[simp] theorem State.setPart_faultDue (s : State) (p : Nat) (q : Partition) : (s.setPart p q).faultDue = s.faultDue := rfl
@[simp] theorem State.setPart_faultRing (s : State) (p : Nat) (q : Partition) : (s.setPart p q).faultRing = s.faultRing := rfl
@[simp] theorem State.setPart_sent (s : State) (p : Nat) (q : Partition) : (s.setPart p q).sent = s.sent := rfl
@[simp] theorem State.setPart_msix (s : State) (p : Nat) (q : Partition) : (s.setPart p q).msix = s.msix := rfl
@[simp] theorem State.setPart_pba (s : State) (p : Nat) (q : Partition) : (s.setPart p q).pba = s.pba := rfl
@[simp] theorem State.setPart_echbm (s : State) (p : Nat) (q : Partition) : (s.setPart p q).echbm = s.echbm := rfl
@[simp] theorem State.setPart_eclink (s : State) (p : Nat) (q : Partition) : (s.setPart p q).eclink = s.eclink := rfl
@[simp] theorem State.setPart_ecloss (s : State) (p : Nat) (q : Partition) : (s.setPart p q).ecloss = s.ecloss := rfl
@[simp] theorem State.setPart_retired (s : State) (p : Nat) (q : Partition) : (s.setPart p q).retired = s.retired := rfl
@[simp] theorem State.setPart_retovf (s : State) (p : Nat) (q : Partition) : (s.setPart p q).retovf = s.retovf := rfl
@[simp] theorem State.setPart_edev (s : State) (p : Nat) (q : Partition) : (s.setPart p q).edev = s.edev := rfl
@[simp] theorem State.setPart_edevFrac (s : State) (p : Nat) (q : Partition) : (s.setPart p q).edevFrac = s.edevFrac := rfl
@[simp] theorem State.setPart_channels (s : State) (p : Nat) (q : Partition) : (s.setPart p q).channels = s.channels := rfl
@[simp] theorem State.setPart_pcap (s : State) (p : Nat) (q : Partition) : (s.setPart p q).pcap = s.pcap := rfl
@[simp] theorem State.setPart_trips (s : State) (p : Nat) (q : Partition) : (s.setPart p q).trips = s.trips := rfl
@[simp] theorem State.setPart_fwsafe (s : State) (p : Nat) (q : Partition) : (s.setPart p q).fwsafe = s.fwsafe := rfl
@[simp] theorem State.setPart_fwupd (s : State) (p : Nat) (q : Partition) : (s.setPart p q).fwupd = s.fwupd := rfl
@[simp] theorem State.setPart_rcad (s : State) (p : Nat) (q : Partition) : (s.setPart p q).rcad = s.rcad := rfl
@[simp] theorem State.setPart_beats (s : State) (p : Nat) (q : Partition) : (s.setPart p q).beats = s.beats := rfl
@[simp] theorem State.setPart_bootStep (s : State) (p : Nat) (q : Partition) : (s.setPart p q).bootStep = s.bootStep := rfl
@[simp] theorem State.setPart_bootDone (s : State) (p : Nat) (q : Partition) : (s.setPart p q).bootDone = s.bootDone := rfl
@[simp] theorem State.setPart_idfail (s : State) (p : Nat) (q : Partition) : (s.setPart p q).idfail = s.idfail := rfl
@[simp] theorem State.setPart_bootStopped (s : State) (p : Nat) (q : Partition) : (s.setPart p q).bootStopped = s.bootStopped := rfl
@[simp] theorem State.setPart_copyB (s : State) (p : Nat) (q : Partition) : (s.setPart p q).copyB = s.copyB := rfl
@[simp] theorem State.setPart_narrow (s : State) (p : Nat) (q : Partition) : (s.setPart p q).narrow = s.narrow := rfl
@[simp] theorem State.setPart_aliasKey (s : State) (p : Nat) (q : Partition) : (s.setPart p q).aliasKey = s.aliasKey := rfl
@[simp] theorem State.setPart_blocks (s : State) (p : Nat) (q : Partition) : (s.setPart p q).blocks = s.blocks := rfl
@[simp] theorem State.setPart_flash (s : State) (p : Nat) (q : Partition) : (s.setPart p q).flash = s.flash := rfl
@[simp] theorem State.setPart_mbCommand (s : State) (p : Nat) (q : Partition) : (s.setPart p q).mbCommand = s.mbCommand := rfl
@[simp] theorem State.setPart_mbResult (s : State) (p : Nat) (q : Partition) : (s.setPart p q).mbResult = s.mbResult := rfl
@[simp] theorem State.setPart_mbWords (s : State) (p : Nat) (q : Partition) : (s.setPart p q).mbWords = s.mbWords := rfl
@[simp] theorem State.setPart_mbImage (s : State) (p : Nat) (q : Partition) : (s.setPart p q).mbImage = s.mbImage := rfl
@[simp] theorem State.setPart_repsum (s : State) (p : Nat) (q : Partition) : (s.setPart p q).repsum = s.repsum := rfl
@[simp] theorem State.setPart_capGen (s : State) (p : Nat) (q : Partition) : (s.setPart p q).capGen = s.capGen := rfl
@[simp] theorem State.setPart_vfOn (s : State) (p : Nat) (q : Partition) : (s.setPart p q).vfOn = s.vfOn := rfl
@[simp] theorem State.setPart_numVfs (s : State) (p : Nat) (q : Partition) : (s.setPart p q).numVfs = s.numVfs := rfl
@[simp] theorem State.setPart_vfOn1 (s : State) (p : Nat) (q : Partition) : (s.setPart p q).vfOn1 = s.vfOn1 := rfl
@[simp] theorem State.setPart_numVfs1 (s : State) (p : Nat) (q : Partition) : (s.setPart p q).numVfs1 = s.numVfs1 := rfl
@[simp] theorem State.setPart_ports (s : State) (p : Nat) (q : Partition) : (s.setPart p q).ports = s.ports := rfl
@[simp] theorem State.setPart_trained (s : State) (p : Nat) (q : Partition) : (s.setPart p q).trained = s.trained := rfl
@[simp] theorem State.setPart_holdUntil (s : State) (p : Nat) (q : Partition) : (s.setPart p q).holdUntil = s.holdUntil := rfl
@[simp] theorem State.setPart_spdm (s : State) (p : Nat) (q : Partition) : (s.setPart p q).spdm = s.spdm := rfl

/-! `State.modPart` writes `parts` alone. -/

@[simp] theorem State.modPart_agenda (s : State) (p : Nat) (f : Partition → Partition) : (s.modPart p f).agenda = s.agenda := rfl
@[simp] theorem State.modPart_opened (s : State) (p : Nat) (f : Partition → Partition) : (s.modPart p f).opened = s.opened := rfl
@[simp] theorem State.modPart_cur (s : State) (p : Nat) (f : Partition → Partition) : (s.modPart p f).cur = s.cur := rfl
@[simp] theorem State.modPart_turn (s : State) (p : Nat) (f : Partition → Partition) : (s.modPart p f).turn = s.turn := rfl
@[simp] theorem State.modPart_fresh (s : State) (p : Nat) (f : Partition → Partition) : (s.modPart p f).fresh = s.fresh := rfl
@[simp] theorem State.modPart_mem (s : State) (p : Nat) (f : Partition → Partition) : (s.modPart p f).mem = s.mem := rfl
@[simp] theorem State.modPart_again (s : State) (p : Nat) (f : Partition → Partition) : (s.modPart p f).again = s.again := rfl
@[simp] theorem State.modPart_homes (s : State) (p : Nat) (f : Partition → Partition) : (s.modPart p f).homes = s.homes := rfl
@[simp] theorem State.modPart_homeDirty (s : State) (p : Nat) (f : Partition → Partition) : (s.modPart p f).homeDirty = s.homeDirty := rfl
@[simp] theorem State.modPart_memts (s : State) (p : Nat) (f : Partition → Partition) : (s.modPart p f).memts = s.memts := rfl
@[simp] theorem State.modPart_bypassRts (s : State) (p : Nat) (f : Partition → Partition) : (s.modPart p f).bypassRts = s.bypassRts := rfl
@[simp] theorem State.modPart_bankRts (s : State) (p : Nat) (f : Partition → Partition) : (s.modPart p f).bankRts = s.bankRts := rfl
@[simp] theorem State.modPart_bypassRels (s : State) (p : Nat) (f : Partition → Partition) : (s.modPart p f).bypassRels = s.bypassRels := rfl
@[simp] theorem State.modPart_bankRels (s : State) (p : Nat) (f : Partition → Partition) : (s.modPart p f).bankRels = s.bankRels := rfl
@[simp] theorem State.modPart_cores (s : State) (p : Nat) (f : Partition → Partition) : (s.modPart p f).cores = s.cores := rfl
@[simp] theorem State.modPart_clusters (s : State) (p : Nat) (f : Partition → Partition) : (s.modPart p f).clusters = s.clusters := rfl
@[simp] theorem State.modPart_repeatable (s : State) (p : Nat) (f : Partition → Partition) : (s.modPart p f).repeatable = s.repeatable := rfl
@[simp] theorem State.modPart_timebase (s : State) (p : Nat) (f : Partition → Partition) : (s.modPart p f).timebase = s.timebase := rfl
@[simp] theorem State.modPart_device (s : State) (p : Nat) (f : Partition → Partition) : (s.modPart p f).device = s.device := rfl
@[simp] theorem State.modPart_ecseal (s : State) (p : Nat) (f : Partition → Partition) : (s.modPart p f).ecseal = s.ecseal := rfl
@[simp] theorem State.modPart_ecmrep (s : State) (p : Nat) (f : Partition → Partition) : (s.modPart p f).ecmrep = s.ecmrep := rfl
@[simp] theorem State.modPart_ecrepl (s : State) (p : Nat) (f : Partition → Partition) : (s.modPart p f).ecrepl = s.ecrepl := rfl
@[simp] theorem State.modPart_launches (s : State) (p : Nat) (f : Partition → Partition) : (s.modPart p f).launches = s.launches := rfl
@[simp] theorem State.modPart_holes (s : State) (p : Nat) (f : Partition → Partition) : (s.modPart p f).holes = s.holes := rfl
@[simp] theorem State.modPart_peers (s : State) (p : Nat) (f : Partition → Partition) : (s.modPart p f).peers = s.peers := rfl
@[simp] theorem State.modPart_faultDue (s : State) (p : Nat) (f : Partition → Partition) : (s.modPart p f).faultDue = s.faultDue := rfl
@[simp] theorem State.modPart_faultRing (s : State) (p : Nat) (f : Partition → Partition) : (s.modPart p f).faultRing = s.faultRing := rfl
@[simp] theorem State.modPart_sent (s : State) (p : Nat) (f : Partition → Partition) : (s.modPart p f).sent = s.sent := rfl
@[simp] theorem State.modPart_msix (s : State) (p : Nat) (f : Partition → Partition) : (s.modPart p f).msix = s.msix := rfl
@[simp] theorem State.modPart_pba (s : State) (p : Nat) (f : Partition → Partition) : (s.modPart p f).pba = s.pba := rfl
@[simp] theorem State.modPart_echbm (s : State) (p : Nat) (f : Partition → Partition) : (s.modPart p f).echbm = s.echbm := rfl
@[simp] theorem State.modPart_eclink (s : State) (p : Nat) (f : Partition → Partition) : (s.modPart p f).eclink = s.eclink := rfl
@[simp] theorem State.modPart_ecloss (s : State) (p : Nat) (f : Partition → Partition) : (s.modPart p f).ecloss = s.ecloss := rfl
@[simp] theorem State.modPart_retired (s : State) (p : Nat) (f : Partition → Partition) : (s.modPart p f).retired = s.retired := rfl
@[simp] theorem State.modPart_retovf (s : State) (p : Nat) (f : Partition → Partition) : (s.modPart p f).retovf = s.retovf := rfl
@[simp] theorem State.modPart_edev (s : State) (p : Nat) (f : Partition → Partition) : (s.modPart p f).edev = s.edev := rfl
@[simp] theorem State.modPart_edevFrac (s : State) (p : Nat) (f : Partition → Partition) : (s.modPart p f).edevFrac = s.edevFrac := rfl
@[simp] theorem State.modPart_channels (s : State) (p : Nat) (f : Partition → Partition) : (s.modPart p f).channels = s.channels := rfl
@[simp] theorem State.modPart_pcap (s : State) (p : Nat) (f : Partition → Partition) : (s.modPart p f).pcap = s.pcap := rfl
@[simp] theorem State.modPart_trips (s : State) (p : Nat) (f : Partition → Partition) : (s.modPart p f).trips = s.trips := rfl
@[simp] theorem State.modPart_fwsafe (s : State) (p : Nat) (f : Partition → Partition) : (s.modPart p f).fwsafe = s.fwsafe := rfl
@[simp] theorem State.modPart_fwupd (s : State) (p : Nat) (f : Partition → Partition) : (s.modPart p f).fwupd = s.fwupd := rfl
@[simp] theorem State.modPart_rcad (s : State) (p : Nat) (f : Partition → Partition) : (s.modPart p f).rcad = s.rcad := rfl
@[simp] theorem State.modPart_beats (s : State) (p : Nat) (f : Partition → Partition) : (s.modPart p f).beats = s.beats := rfl
@[simp] theorem State.modPart_bootStep (s : State) (p : Nat) (f : Partition → Partition) : (s.modPart p f).bootStep = s.bootStep := rfl
@[simp] theorem State.modPart_bootDone (s : State) (p : Nat) (f : Partition → Partition) : (s.modPart p f).bootDone = s.bootDone := rfl
@[simp] theorem State.modPart_idfail (s : State) (p : Nat) (f : Partition → Partition) : (s.modPart p f).idfail = s.idfail := rfl
@[simp] theorem State.modPart_bootStopped (s : State) (p : Nat) (f : Partition → Partition) : (s.modPart p f).bootStopped = s.bootStopped := rfl
@[simp] theorem State.modPart_copyB (s : State) (p : Nat) (f : Partition → Partition) : (s.modPart p f).copyB = s.copyB := rfl
@[simp] theorem State.modPart_narrow (s : State) (p : Nat) (f : Partition → Partition) : (s.modPart p f).narrow = s.narrow := rfl
@[simp] theorem State.modPart_aliasKey (s : State) (p : Nat) (f : Partition → Partition) : (s.modPart p f).aliasKey = s.aliasKey := rfl
@[simp] theorem State.modPart_blocks (s : State) (p : Nat) (f : Partition → Partition) : (s.modPart p f).blocks = s.blocks := rfl
@[simp] theorem State.modPart_flash (s : State) (p : Nat) (f : Partition → Partition) : (s.modPart p f).flash = s.flash := rfl
@[simp] theorem State.modPart_mbCommand (s : State) (p : Nat) (f : Partition → Partition) : (s.modPart p f).mbCommand = s.mbCommand := rfl
@[simp] theorem State.modPart_mbResult (s : State) (p : Nat) (f : Partition → Partition) : (s.modPart p f).mbResult = s.mbResult := rfl
@[simp] theorem State.modPart_mbWords (s : State) (p : Nat) (f : Partition → Partition) : (s.modPart p f).mbWords = s.mbWords := rfl
@[simp] theorem State.modPart_mbImage (s : State) (p : Nat) (f : Partition → Partition) : (s.modPart p f).mbImage = s.mbImage := rfl
@[simp] theorem State.modPart_repsum (s : State) (p : Nat) (f : Partition → Partition) : (s.modPart p f).repsum = s.repsum := rfl
@[simp] theorem State.modPart_capGen (s : State) (p : Nat) (f : Partition → Partition) : (s.modPart p f).capGen = s.capGen := rfl
@[simp] theorem State.modPart_vfOn (s : State) (p : Nat) (f : Partition → Partition) : (s.modPart p f).vfOn = s.vfOn := rfl
@[simp] theorem State.modPart_numVfs (s : State) (p : Nat) (f : Partition → Partition) : (s.modPart p f).numVfs = s.numVfs := rfl
@[simp] theorem State.modPart_vfOn1 (s : State) (p : Nat) (f : Partition → Partition) : (s.modPart p f).vfOn1 = s.vfOn1 := rfl
@[simp] theorem State.modPart_numVfs1 (s : State) (p : Nat) (f : Partition → Partition) : (s.modPart p f).numVfs1 = s.numVfs1 := rfl
@[simp] theorem State.modPart_ports (s : State) (p : Nat) (f : Partition → Partition) : (s.modPart p f).ports = s.ports := rfl
@[simp] theorem State.modPart_trained (s : State) (p : Nat) (f : Partition → Partition) : (s.modPart p f).trained = s.trained := rfl
@[simp] theorem State.modPart_holdUntil (s : State) (p : Nat) (f : Partition → Partition) : (s.modPart p f).holdUntil = s.holdUntil := rfl
@[simp] theorem State.modPart_spdm (s : State) (p : Nat) (f : Partition → Partition) : (s.modPart p f).spdm = s.spdm := rfl

/-! `State.post` writes `agenda` alone. -/

@[simp] theorem State.post_opened (s : State) (i : Instr) : (s.post i).opened = s.opened := rfl
@[simp] theorem State.post_cur (s : State) (i : Instr) : (s.post i).cur = s.cur := rfl
@[simp] theorem State.post_turn (s : State) (i : Instr) : (s.post i).turn = s.turn := rfl
@[simp] theorem State.post_fresh (s : State) (i : Instr) : (s.post i).fresh = s.fresh := rfl
@[simp] theorem State.post_mem (s : State) (i : Instr) : (s.post i).mem = s.mem := rfl
@[simp] theorem State.post_again (s : State) (i : Instr) : (s.post i).again = s.again := rfl
@[simp] theorem State.post_homes (s : State) (i : Instr) : (s.post i).homes = s.homes := rfl
@[simp] theorem State.post_homeDirty (s : State) (i : Instr) : (s.post i).homeDirty = s.homeDirty := rfl
@[simp] theorem State.post_memts (s : State) (i : Instr) : (s.post i).memts = s.memts := rfl
@[simp] theorem State.post_bypassRts (s : State) (i : Instr) : (s.post i).bypassRts = s.bypassRts := rfl
@[simp] theorem State.post_bankRts (s : State) (i : Instr) : (s.post i).bankRts = s.bankRts := rfl
@[simp] theorem State.post_bypassRels (s : State) (i : Instr) : (s.post i).bypassRels = s.bypassRels := rfl
@[simp] theorem State.post_bankRels (s : State) (i : Instr) : (s.post i).bankRels = s.bankRels := rfl
@[simp] theorem State.post_cores (s : State) (i : Instr) : (s.post i).cores = s.cores := rfl
@[simp] theorem State.post_clusters (s : State) (i : Instr) : (s.post i).clusters = s.clusters := rfl
@[simp] theorem State.post_parts (s : State) (i : Instr) : (s.post i).parts = s.parts := rfl
@[simp] theorem State.post_repeatable (s : State) (i : Instr) : (s.post i).repeatable = s.repeatable := rfl
@[simp] theorem State.post_timebase (s : State) (i : Instr) : (s.post i).timebase = s.timebase := rfl
@[simp] theorem State.post_device (s : State) (i : Instr) : (s.post i).device = s.device := rfl
@[simp] theorem State.post_ecseal (s : State) (i : Instr) : (s.post i).ecseal = s.ecseal := rfl
@[simp] theorem State.post_ecmrep (s : State) (i : Instr) : (s.post i).ecmrep = s.ecmrep := rfl
@[simp] theorem State.post_ecrepl (s : State) (i : Instr) : (s.post i).ecrepl = s.ecrepl := rfl
@[simp] theorem State.post_launches (s : State) (i : Instr) : (s.post i).launches = s.launches := rfl
@[simp] theorem State.post_holes (s : State) (i : Instr) : (s.post i).holes = s.holes := rfl
@[simp] theorem State.post_peers (s : State) (i : Instr) : (s.post i).peers = s.peers := rfl
@[simp] theorem State.post_faultDue (s : State) (i : Instr) : (s.post i).faultDue = s.faultDue := rfl
@[simp] theorem State.post_faultRing (s : State) (i : Instr) : (s.post i).faultRing = s.faultRing := rfl
@[simp] theorem State.post_sent (s : State) (i : Instr) : (s.post i).sent = s.sent := rfl
@[simp] theorem State.post_msix (s : State) (i : Instr) : (s.post i).msix = s.msix := rfl
@[simp] theorem State.post_pba (s : State) (i : Instr) : (s.post i).pba = s.pba := rfl
@[simp] theorem State.post_echbm (s : State) (i : Instr) : (s.post i).echbm = s.echbm := rfl
@[simp] theorem State.post_eclink (s : State) (i : Instr) : (s.post i).eclink = s.eclink := rfl
@[simp] theorem State.post_ecloss (s : State) (i : Instr) : (s.post i).ecloss = s.ecloss := rfl
@[simp] theorem State.post_retired (s : State) (i : Instr) : (s.post i).retired = s.retired := rfl
@[simp] theorem State.post_retovf (s : State) (i : Instr) : (s.post i).retovf = s.retovf := rfl
@[simp] theorem State.post_edev (s : State) (i : Instr) : (s.post i).edev = s.edev := rfl
@[simp] theorem State.post_edevFrac (s : State) (i : Instr) : (s.post i).edevFrac = s.edevFrac := rfl
@[simp] theorem State.post_channels (s : State) (i : Instr) : (s.post i).channels = s.channels := rfl
@[simp] theorem State.post_pcap (s : State) (i : Instr) : (s.post i).pcap = s.pcap := rfl
@[simp] theorem State.post_trips (s : State) (i : Instr) : (s.post i).trips = s.trips := rfl
@[simp] theorem State.post_fwsafe (s : State) (i : Instr) : (s.post i).fwsafe = s.fwsafe := rfl
@[simp] theorem State.post_fwupd (s : State) (i : Instr) : (s.post i).fwupd = s.fwupd := rfl
@[simp] theorem State.post_rcad (s : State) (i : Instr) : (s.post i).rcad = s.rcad := rfl
@[simp] theorem State.post_beats (s : State) (i : Instr) : (s.post i).beats = s.beats := rfl
@[simp] theorem State.post_bootStep (s : State) (i : Instr) : (s.post i).bootStep = s.bootStep := rfl
@[simp] theorem State.post_bootDone (s : State) (i : Instr) : (s.post i).bootDone = s.bootDone := rfl
@[simp] theorem State.post_idfail (s : State) (i : Instr) : (s.post i).idfail = s.idfail := rfl
@[simp] theorem State.post_bootStopped (s : State) (i : Instr) : (s.post i).bootStopped = s.bootStopped := rfl
@[simp] theorem State.post_copyB (s : State) (i : Instr) : (s.post i).copyB = s.copyB := rfl
@[simp] theorem State.post_narrow (s : State) (i : Instr) : (s.post i).narrow = s.narrow := rfl
@[simp] theorem State.post_aliasKey (s : State) (i : Instr) : (s.post i).aliasKey = s.aliasKey := rfl
@[simp] theorem State.post_blocks (s : State) (i : Instr) : (s.post i).blocks = s.blocks := rfl
@[simp] theorem State.post_flash (s : State) (i : Instr) : (s.post i).flash = s.flash := rfl
@[simp] theorem State.post_mbCommand (s : State) (i : Instr) : (s.post i).mbCommand = s.mbCommand := rfl
@[simp] theorem State.post_mbResult (s : State) (i : Instr) : (s.post i).mbResult = s.mbResult := rfl
@[simp] theorem State.post_mbWords (s : State) (i : Instr) : (s.post i).mbWords = s.mbWords := rfl
@[simp] theorem State.post_mbImage (s : State) (i : Instr) : (s.post i).mbImage = s.mbImage := rfl
@[simp] theorem State.post_repsum (s : State) (i : Instr) : (s.post i).repsum = s.repsum := rfl
@[simp] theorem State.post_capGen (s : State) (i : Instr) : (s.post i).capGen = s.capGen := rfl
@[simp] theorem State.post_vfOn (s : State) (i : Instr) : (s.post i).vfOn = s.vfOn := rfl
@[simp] theorem State.post_numVfs (s : State) (i : Instr) : (s.post i).numVfs = s.numVfs := rfl
@[simp] theorem State.post_vfOn1 (s : State) (i : Instr) : (s.post i).vfOn1 = s.vfOn1 := rfl
@[simp] theorem State.post_numVfs1 (s : State) (i : Instr) : (s.post i).numVfs1 = s.numVfs1 := rfl
@[simp] theorem State.post_ports (s : State) (i : Instr) : (s.post i).ports = s.ports := rfl
@[simp] theorem State.post_trained (s : State) (i : Instr) : (s.post i).trained = s.trained := rfl
@[simp] theorem State.post_holdUntil (s : State) (i : Instr) : (s.post i).holdUntil = s.holdUntil := rfl
@[simp] theorem State.post_spdm (s : State) (i : Instr) : (s.post i).spdm = s.spdm := rfl

/-! `State.modCc` writes `cores` alone. -/

@[simp] theorem State.modCc_agenda (s : State) (f : Core → Core) : (s.modCc f).agenda = s.agenda := rfl
@[simp] theorem State.modCc_opened (s : State) (f : Core → Core) : (s.modCc f).opened = s.opened := rfl
@[simp] theorem State.modCc_cur (s : State) (f : Core → Core) : (s.modCc f).cur = s.cur := rfl
@[simp] theorem State.modCc_turn (s : State) (f : Core → Core) : (s.modCc f).turn = s.turn := rfl
@[simp] theorem State.modCc_fresh (s : State) (f : Core → Core) : (s.modCc f).fresh = s.fresh := rfl
@[simp] theorem State.modCc_mem (s : State) (f : Core → Core) : (s.modCc f).mem = s.mem := rfl
@[simp] theorem State.modCc_again (s : State) (f : Core → Core) : (s.modCc f).again = s.again := rfl
@[simp] theorem State.modCc_homes (s : State) (f : Core → Core) : (s.modCc f).homes = s.homes := rfl
@[simp] theorem State.modCc_homeDirty (s : State) (f : Core → Core) : (s.modCc f).homeDirty = s.homeDirty := rfl
@[simp] theorem State.modCc_memts (s : State) (f : Core → Core) : (s.modCc f).memts = s.memts := rfl
@[simp] theorem State.modCc_bypassRts (s : State) (f : Core → Core) : (s.modCc f).bypassRts = s.bypassRts := rfl
@[simp] theorem State.modCc_bankRts (s : State) (f : Core → Core) : (s.modCc f).bankRts = s.bankRts := rfl
@[simp] theorem State.modCc_bypassRels (s : State) (f : Core → Core) : (s.modCc f).bypassRels = s.bypassRels := rfl
@[simp] theorem State.modCc_bankRels (s : State) (f : Core → Core) : (s.modCc f).bankRels = s.bankRels := rfl
@[simp] theorem State.modCc_clusters (s : State) (f : Core → Core) : (s.modCc f).clusters = s.clusters := rfl
@[simp] theorem State.modCc_parts (s : State) (f : Core → Core) : (s.modCc f).parts = s.parts := rfl
@[simp] theorem State.modCc_repeatable (s : State) (f : Core → Core) : (s.modCc f).repeatable = s.repeatable := rfl
@[simp] theorem State.modCc_timebase (s : State) (f : Core → Core) : (s.modCc f).timebase = s.timebase := rfl
@[simp] theorem State.modCc_device (s : State) (f : Core → Core) : (s.modCc f).device = s.device := rfl
@[simp] theorem State.modCc_ecseal (s : State) (f : Core → Core) : (s.modCc f).ecseal = s.ecseal := rfl
@[simp] theorem State.modCc_ecmrep (s : State) (f : Core → Core) : (s.modCc f).ecmrep = s.ecmrep := rfl
@[simp] theorem State.modCc_ecrepl (s : State) (f : Core → Core) : (s.modCc f).ecrepl = s.ecrepl := rfl
@[simp] theorem State.modCc_launches (s : State) (f : Core → Core) : (s.modCc f).launches = s.launches := rfl
@[simp] theorem State.modCc_holes (s : State) (f : Core → Core) : (s.modCc f).holes = s.holes := rfl
@[simp] theorem State.modCc_peers (s : State) (f : Core → Core) : (s.modCc f).peers = s.peers := rfl
@[simp] theorem State.modCc_faultDue (s : State) (f : Core → Core) : (s.modCc f).faultDue = s.faultDue := rfl
@[simp] theorem State.modCc_faultRing (s : State) (f : Core → Core) : (s.modCc f).faultRing = s.faultRing := rfl
@[simp] theorem State.modCc_sent (s : State) (f : Core → Core) : (s.modCc f).sent = s.sent := rfl
@[simp] theorem State.modCc_msix (s : State) (f : Core → Core) : (s.modCc f).msix = s.msix := rfl
@[simp] theorem State.modCc_pba (s : State) (f : Core → Core) : (s.modCc f).pba = s.pba := rfl
@[simp] theorem State.modCc_echbm (s : State) (f : Core → Core) : (s.modCc f).echbm = s.echbm := rfl
@[simp] theorem State.modCc_eclink (s : State) (f : Core → Core) : (s.modCc f).eclink = s.eclink := rfl
@[simp] theorem State.modCc_ecloss (s : State) (f : Core → Core) : (s.modCc f).ecloss = s.ecloss := rfl
@[simp] theorem State.modCc_retired (s : State) (f : Core → Core) : (s.modCc f).retired = s.retired := rfl
@[simp] theorem State.modCc_retovf (s : State) (f : Core → Core) : (s.modCc f).retovf = s.retovf := rfl
@[simp] theorem State.modCc_edev (s : State) (f : Core → Core) : (s.modCc f).edev = s.edev := rfl
@[simp] theorem State.modCc_edevFrac (s : State) (f : Core → Core) : (s.modCc f).edevFrac = s.edevFrac := rfl
@[simp] theorem State.modCc_channels (s : State) (f : Core → Core) : (s.modCc f).channels = s.channels := rfl
@[simp] theorem State.modCc_pcap (s : State) (f : Core → Core) : (s.modCc f).pcap = s.pcap := rfl
@[simp] theorem State.modCc_trips (s : State) (f : Core → Core) : (s.modCc f).trips = s.trips := rfl
@[simp] theorem State.modCc_fwsafe (s : State) (f : Core → Core) : (s.modCc f).fwsafe = s.fwsafe := rfl
@[simp] theorem State.modCc_fwupd (s : State) (f : Core → Core) : (s.modCc f).fwupd = s.fwupd := rfl
@[simp] theorem State.modCc_rcad (s : State) (f : Core → Core) : (s.modCc f).rcad = s.rcad := rfl
@[simp] theorem State.modCc_beats (s : State) (f : Core → Core) : (s.modCc f).beats = s.beats := rfl
@[simp] theorem State.modCc_bootStep (s : State) (f : Core → Core) : (s.modCc f).bootStep = s.bootStep := rfl
@[simp] theorem State.modCc_bootDone (s : State) (f : Core → Core) : (s.modCc f).bootDone = s.bootDone := rfl
@[simp] theorem State.modCc_idfail (s : State) (f : Core → Core) : (s.modCc f).idfail = s.idfail := rfl
@[simp] theorem State.modCc_bootStopped (s : State) (f : Core → Core) : (s.modCc f).bootStopped = s.bootStopped := rfl
@[simp] theorem State.modCc_copyB (s : State) (f : Core → Core) : (s.modCc f).copyB = s.copyB := rfl
@[simp] theorem State.modCc_narrow (s : State) (f : Core → Core) : (s.modCc f).narrow = s.narrow := rfl
@[simp] theorem State.modCc_aliasKey (s : State) (f : Core → Core) : (s.modCc f).aliasKey = s.aliasKey := rfl
@[simp] theorem State.modCc_blocks (s : State) (f : Core → Core) : (s.modCc f).blocks = s.blocks := rfl
@[simp] theorem State.modCc_flash (s : State) (f : Core → Core) : (s.modCc f).flash = s.flash := rfl
@[simp] theorem State.modCc_mbCommand (s : State) (f : Core → Core) : (s.modCc f).mbCommand = s.mbCommand := rfl
@[simp] theorem State.modCc_mbResult (s : State) (f : Core → Core) : (s.modCc f).mbResult = s.mbResult := rfl
@[simp] theorem State.modCc_mbWords (s : State) (f : Core → Core) : (s.modCc f).mbWords = s.mbWords := rfl
@[simp] theorem State.modCc_mbImage (s : State) (f : Core → Core) : (s.modCc f).mbImage = s.mbImage := rfl
@[simp] theorem State.modCc_repsum (s : State) (f : Core → Core) : (s.modCc f).repsum = s.repsum := rfl
@[simp] theorem State.modCc_capGen (s : State) (f : Core → Core) : (s.modCc f).capGen = s.capGen := rfl
@[simp] theorem State.modCc_vfOn (s : State) (f : Core → Core) : (s.modCc f).vfOn = s.vfOn := rfl
@[simp] theorem State.modCc_numVfs (s : State) (f : Core → Core) : (s.modCc f).numVfs = s.numVfs := rfl
@[simp] theorem State.modCc_vfOn1 (s : State) (f : Core → Core) : (s.modCc f).vfOn1 = s.vfOn1 := rfl
@[simp] theorem State.modCc_numVfs1 (s : State) (f : Core → Core) : (s.modCc f).numVfs1 = s.numVfs1 := rfl
@[simp] theorem State.modCc_ports (s : State) (f : Core → Core) : (s.modCc f).ports = s.ports := rfl
@[simp] theorem State.modCc_trained (s : State) (f : Core → Core) : (s.modCc f).trained = s.trained := rfl
@[simp] theorem State.modCc_holdUntil (s : State) (f : Core → Core) : (s.modCc f).holdUntil = s.holdUntil := rfl
@[simp] theorem State.modCc_spdm (s : State) (f : Core → Core) : (s.modCc f).spdm = s.spdm := rfl

/-! `State.modCs` writes `cores` alone. -/

@[simp] theorem State.modCs_agenda (s : State) (f : SlotState → SlotState) : (s.modCs f).agenda = s.agenda := rfl
@[simp] theorem State.modCs_opened (s : State) (f : SlotState → SlotState) : (s.modCs f).opened = s.opened := rfl
@[simp] theorem State.modCs_cur (s : State) (f : SlotState → SlotState) : (s.modCs f).cur = s.cur := rfl
@[simp] theorem State.modCs_turn (s : State) (f : SlotState → SlotState) : (s.modCs f).turn = s.turn := rfl
@[simp] theorem State.modCs_fresh (s : State) (f : SlotState → SlotState) : (s.modCs f).fresh = s.fresh := rfl
@[simp] theorem State.modCs_mem (s : State) (f : SlotState → SlotState) : (s.modCs f).mem = s.mem := rfl
@[simp] theorem State.modCs_again (s : State) (f : SlotState → SlotState) : (s.modCs f).again = s.again := rfl
@[simp] theorem State.modCs_homes (s : State) (f : SlotState → SlotState) : (s.modCs f).homes = s.homes := rfl
@[simp] theorem State.modCs_homeDirty (s : State) (f : SlotState → SlotState) : (s.modCs f).homeDirty = s.homeDirty := rfl
@[simp] theorem State.modCs_memts (s : State) (f : SlotState → SlotState) : (s.modCs f).memts = s.memts := rfl
@[simp] theorem State.modCs_bypassRts (s : State) (f : SlotState → SlotState) : (s.modCs f).bypassRts = s.bypassRts := rfl
@[simp] theorem State.modCs_bankRts (s : State) (f : SlotState → SlotState) : (s.modCs f).bankRts = s.bankRts := rfl
@[simp] theorem State.modCs_bypassRels (s : State) (f : SlotState → SlotState) : (s.modCs f).bypassRels = s.bypassRels := rfl
@[simp] theorem State.modCs_bankRels (s : State) (f : SlotState → SlotState) : (s.modCs f).bankRels = s.bankRels := rfl
@[simp] theorem State.modCs_clusters (s : State) (f : SlotState → SlotState) : (s.modCs f).clusters = s.clusters := rfl
@[simp] theorem State.modCs_parts (s : State) (f : SlotState → SlotState) : (s.modCs f).parts = s.parts := rfl
@[simp] theorem State.modCs_repeatable (s : State) (f : SlotState → SlotState) : (s.modCs f).repeatable = s.repeatable := rfl
@[simp] theorem State.modCs_timebase (s : State) (f : SlotState → SlotState) : (s.modCs f).timebase = s.timebase := rfl
@[simp] theorem State.modCs_device (s : State) (f : SlotState → SlotState) : (s.modCs f).device = s.device := rfl
@[simp] theorem State.modCs_ecseal (s : State) (f : SlotState → SlotState) : (s.modCs f).ecseal = s.ecseal := rfl
@[simp] theorem State.modCs_ecmrep (s : State) (f : SlotState → SlotState) : (s.modCs f).ecmrep = s.ecmrep := rfl
@[simp] theorem State.modCs_ecrepl (s : State) (f : SlotState → SlotState) : (s.modCs f).ecrepl = s.ecrepl := rfl
@[simp] theorem State.modCs_launches (s : State) (f : SlotState → SlotState) : (s.modCs f).launches = s.launches := rfl
@[simp] theorem State.modCs_holes (s : State) (f : SlotState → SlotState) : (s.modCs f).holes = s.holes := rfl
@[simp] theorem State.modCs_peers (s : State) (f : SlotState → SlotState) : (s.modCs f).peers = s.peers := rfl
@[simp] theorem State.modCs_faultDue (s : State) (f : SlotState → SlotState) : (s.modCs f).faultDue = s.faultDue := rfl
@[simp] theorem State.modCs_faultRing (s : State) (f : SlotState → SlotState) : (s.modCs f).faultRing = s.faultRing := rfl
@[simp] theorem State.modCs_sent (s : State) (f : SlotState → SlotState) : (s.modCs f).sent = s.sent := rfl
@[simp] theorem State.modCs_msix (s : State) (f : SlotState → SlotState) : (s.modCs f).msix = s.msix := rfl
@[simp] theorem State.modCs_pba (s : State) (f : SlotState → SlotState) : (s.modCs f).pba = s.pba := rfl
@[simp] theorem State.modCs_echbm (s : State) (f : SlotState → SlotState) : (s.modCs f).echbm = s.echbm := rfl
@[simp] theorem State.modCs_eclink (s : State) (f : SlotState → SlotState) : (s.modCs f).eclink = s.eclink := rfl
@[simp] theorem State.modCs_ecloss (s : State) (f : SlotState → SlotState) : (s.modCs f).ecloss = s.ecloss := rfl
@[simp] theorem State.modCs_retired (s : State) (f : SlotState → SlotState) : (s.modCs f).retired = s.retired := rfl
@[simp] theorem State.modCs_retovf (s : State) (f : SlotState → SlotState) : (s.modCs f).retovf = s.retovf := rfl
@[simp] theorem State.modCs_edev (s : State) (f : SlotState → SlotState) : (s.modCs f).edev = s.edev := rfl
@[simp] theorem State.modCs_edevFrac (s : State) (f : SlotState → SlotState) : (s.modCs f).edevFrac = s.edevFrac := rfl
@[simp] theorem State.modCs_channels (s : State) (f : SlotState → SlotState) : (s.modCs f).channels = s.channels := rfl
@[simp] theorem State.modCs_pcap (s : State) (f : SlotState → SlotState) : (s.modCs f).pcap = s.pcap := rfl
@[simp] theorem State.modCs_trips (s : State) (f : SlotState → SlotState) : (s.modCs f).trips = s.trips := rfl
@[simp] theorem State.modCs_fwsafe (s : State) (f : SlotState → SlotState) : (s.modCs f).fwsafe = s.fwsafe := rfl
@[simp] theorem State.modCs_fwupd (s : State) (f : SlotState → SlotState) : (s.modCs f).fwupd = s.fwupd := rfl
@[simp] theorem State.modCs_rcad (s : State) (f : SlotState → SlotState) : (s.modCs f).rcad = s.rcad := rfl
@[simp] theorem State.modCs_beats (s : State) (f : SlotState → SlotState) : (s.modCs f).beats = s.beats := rfl
@[simp] theorem State.modCs_bootStep (s : State) (f : SlotState → SlotState) : (s.modCs f).bootStep = s.bootStep := rfl
@[simp] theorem State.modCs_bootDone (s : State) (f : SlotState → SlotState) : (s.modCs f).bootDone = s.bootDone := rfl
@[simp] theorem State.modCs_idfail (s : State) (f : SlotState → SlotState) : (s.modCs f).idfail = s.idfail := rfl
@[simp] theorem State.modCs_bootStopped (s : State) (f : SlotState → SlotState) : (s.modCs f).bootStopped = s.bootStopped := rfl
@[simp] theorem State.modCs_copyB (s : State) (f : SlotState → SlotState) : (s.modCs f).copyB = s.copyB := rfl
@[simp] theorem State.modCs_narrow (s : State) (f : SlotState → SlotState) : (s.modCs f).narrow = s.narrow := rfl
@[simp] theorem State.modCs_aliasKey (s : State) (f : SlotState → SlotState) : (s.modCs f).aliasKey = s.aliasKey := rfl
@[simp] theorem State.modCs_blocks (s : State) (f : SlotState → SlotState) : (s.modCs f).blocks = s.blocks := rfl
@[simp] theorem State.modCs_flash (s : State) (f : SlotState → SlotState) : (s.modCs f).flash = s.flash := rfl
@[simp] theorem State.modCs_mbCommand (s : State) (f : SlotState → SlotState) : (s.modCs f).mbCommand = s.mbCommand := rfl
@[simp] theorem State.modCs_mbResult (s : State) (f : SlotState → SlotState) : (s.modCs f).mbResult = s.mbResult := rfl
@[simp] theorem State.modCs_mbWords (s : State) (f : SlotState → SlotState) : (s.modCs f).mbWords = s.mbWords := rfl
@[simp] theorem State.modCs_mbImage (s : State) (f : SlotState → SlotState) : (s.modCs f).mbImage = s.mbImage := rfl
@[simp] theorem State.modCs_repsum (s : State) (f : SlotState → SlotState) : (s.modCs f).repsum = s.repsum := rfl
@[simp] theorem State.modCs_capGen (s : State) (f : SlotState → SlotState) : (s.modCs f).capGen = s.capGen := rfl
@[simp] theorem State.modCs_vfOn (s : State) (f : SlotState → SlotState) : (s.modCs f).vfOn = s.vfOn := rfl
@[simp] theorem State.modCs_numVfs (s : State) (f : SlotState → SlotState) : (s.modCs f).numVfs = s.numVfs := rfl
@[simp] theorem State.modCs_vfOn1 (s : State) (f : SlotState → SlotState) : (s.modCs f).vfOn1 = s.vfOn1 := rfl
@[simp] theorem State.modCs_numVfs1 (s : State) (f : SlotState → SlotState) : (s.modCs f).numVfs1 = s.numVfs1 := rfl
@[simp] theorem State.modCs_ports (s : State) (f : SlotState → SlotState) : (s.modCs f).ports = s.ports := rfl
@[simp] theorem State.modCs_trained (s : State) (f : SlotState → SlotState) : (s.modCs f).trained = s.trained := rfl
@[simp] theorem State.modCs_holdUntil (s : State) (f : SlotState → SlotState) : (s.modCs f).holdUntil = s.holdUntil := rfl
@[simp] theorem State.modCs_spdm (s : State) (f : SlotState → SlotState) : (s.modCs f).spdm = s.spdm := rfl

/-! `State.modRegs` writes `cores` alone. -/

@[simp] theorem State.modRegs_agenda (s : State) (f : Regs → Regs) : (s.modRegs f).agenda = s.agenda := rfl
@[simp] theorem State.modRegs_opened (s : State) (f : Regs → Regs) : (s.modRegs f).opened = s.opened := rfl
@[simp] theorem State.modRegs_cur (s : State) (f : Regs → Regs) : (s.modRegs f).cur = s.cur := rfl
@[simp] theorem State.modRegs_turn (s : State) (f : Regs → Regs) : (s.modRegs f).turn = s.turn := rfl
@[simp] theorem State.modRegs_fresh (s : State) (f : Regs → Regs) : (s.modRegs f).fresh = s.fresh := rfl
@[simp] theorem State.modRegs_mem (s : State) (f : Regs → Regs) : (s.modRegs f).mem = s.mem := rfl
@[simp] theorem State.modRegs_again (s : State) (f : Regs → Regs) : (s.modRegs f).again = s.again := rfl
@[simp] theorem State.modRegs_homes (s : State) (f : Regs → Regs) : (s.modRegs f).homes = s.homes := rfl
@[simp] theorem State.modRegs_homeDirty (s : State) (f : Regs → Regs) : (s.modRegs f).homeDirty = s.homeDirty := rfl
@[simp] theorem State.modRegs_memts (s : State) (f : Regs → Regs) : (s.modRegs f).memts = s.memts := rfl
@[simp] theorem State.modRegs_bypassRts (s : State) (f : Regs → Regs) : (s.modRegs f).bypassRts = s.bypassRts := rfl
@[simp] theorem State.modRegs_bankRts (s : State) (f : Regs → Regs) : (s.modRegs f).bankRts = s.bankRts := rfl
@[simp] theorem State.modRegs_bypassRels (s : State) (f : Regs → Regs) : (s.modRegs f).bypassRels = s.bypassRels := rfl
@[simp] theorem State.modRegs_bankRels (s : State) (f : Regs → Regs) : (s.modRegs f).bankRels = s.bankRels := rfl
@[simp] theorem State.modRegs_clusters (s : State) (f : Regs → Regs) : (s.modRegs f).clusters = s.clusters := rfl
@[simp] theorem State.modRegs_parts (s : State) (f : Regs → Regs) : (s.modRegs f).parts = s.parts := rfl
@[simp] theorem State.modRegs_repeatable (s : State) (f : Regs → Regs) : (s.modRegs f).repeatable = s.repeatable := rfl
@[simp] theorem State.modRegs_timebase (s : State) (f : Regs → Regs) : (s.modRegs f).timebase = s.timebase := rfl
@[simp] theorem State.modRegs_device (s : State) (f : Regs → Regs) : (s.modRegs f).device = s.device := rfl
@[simp] theorem State.modRegs_ecseal (s : State) (f : Regs → Regs) : (s.modRegs f).ecseal = s.ecseal := rfl
@[simp] theorem State.modRegs_ecmrep (s : State) (f : Regs → Regs) : (s.modRegs f).ecmrep = s.ecmrep := rfl
@[simp] theorem State.modRegs_ecrepl (s : State) (f : Regs → Regs) : (s.modRegs f).ecrepl = s.ecrepl := rfl
@[simp] theorem State.modRegs_launches (s : State) (f : Regs → Regs) : (s.modRegs f).launches = s.launches := rfl
@[simp] theorem State.modRegs_holes (s : State) (f : Regs → Regs) : (s.modRegs f).holes = s.holes := rfl
@[simp] theorem State.modRegs_peers (s : State) (f : Regs → Regs) : (s.modRegs f).peers = s.peers := rfl
@[simp] theorem State.modRegs_faultDue (s : State) (f : Regs → Regs) : (s.modRegs f).faultDue = s.faultDue := rfl
@[simp] theorem State.modRegs_faultRing (s : State) (f : Regs → Regs) : (s.modRegs f).faultRing = s.faultRing := rfl
@[simp] theorem State.modRegs_sent (s : State) (f : Regs → Regs) : (s.modRegs f).sent = s.sent := rfl
@[simp] theorem State.modRegs_msix (s : State) (f : Regs → Regs) : (s.modRegs f).msix = s.msix := rfl
@[simp] theorem State.modRegs_pba (s : State) (f : Regs → Regs) : (s.modRegs f).pba = s.pba := rfl
@[simp] theorem State.modRegs_echbm (s : State) (f : Regs → Regs) : (s.modRegs f).echbm = s.echbm := rfl
@[simp] theorem State.modRegs_eclink (s : State) (f : Regs → Regs) : (s.modRegs f).eclink = s.eclink := rfl
@[simp] theorem State.modRegs_ecloss (s : State) (f : Regs → Regs) : (s.modRegs f).ecloss = s.ecloss := rfl
@[simp] theorem State.modRegs_retired (s : State) (f : Regs → Regs) : (s.modRegs f).retired = s.retired := rfl
@[simp] theorem State.modRegs_retovf (s : State) (f : Regs → Regs) : (s.modRegs f).retovf = s.retovf := rfl
@[simp] theorem State.modRegs_edev (s : State) (f : Regs → Regs) : (s.modRegs f).edev = s.edev := rfl
@[simp] theorem State.modRegs_edevFrac (s : State) (f : Regs → Regs) : (s.modRegs f).edevFrac = s.edevFrac := rfl
@[simp] theorem State.modRegs_channels (s : State) (f : Regs → Regs) : (s.modRegs f).channels = s.channels := rfl
@[simp] theorem State.modRegs_pcap (s : State) (f : Regs → Regs) : (s.modRegs f).pcap = s.pcap := rfl
@[simp] theorem State.modRegs_trips (s : State) (f : Regs → Regs) : (s.modRegs f).trips = s.trips := rfl
@[simp] theorem State.modRegs_fwsafe (s : State) (f : Regs → Regs) : (s.modRegs f).fwsafe = s.fwsafe := rfl
@[simp] theorem State.modRegs_fwupd (s : State) (f : Regs → Regs) : (s.modRegs f).fwupd = s.fwupd := rfl
@[simp] theorem State.modRegs_rcad (s : State) (f : Regs → Regs) : (s.modRegs f).rcad = s.rcad := rfl
@[simp] theorem State.modRegs_beats (s : State) (f : Regs → Regs) : (s.modRegs f).beats = s.beats := rfl
@[simp] theorem State.modRegs_bootStep (s : State) (f : Regs → Regs) : (s.modRegs f).bootStep = s.bootStep := rfl
@[simp] theorem State.modRegs_bootDone (s : State) (f : Regs → Regs) : (s.modRegs f).bootDone = s.bootDone := rfl
@[simp] theorem State.modRegs_idfail (s : State) (f : Regs → Regs) : (s.modRegs f).idfail = s.idfail := rfl
@[simp] theorem State.modRegs_bootStopped (s : State) (f : Regs → Regs) : (s.modRegs f).bootStopped = s.bootStopped := rfl
@[simp] theorem State.modRegs_copyB (s : State) (f : Regs → Regs) : (s.modRegs f).copyB = s.copyB := rfl
@[simp] theorem State.modRegs_narrow (s : State) (f : Regs → Regs) : (s.modRegs f).narrow = s.narrow := rfl
@[simp] theorem State.modRegs_aliasKey (s : State) (f : Regs → Regs) : (s.modRegs f).aliasKey = s.aliasKey := rfl
@[simp] theorem State.modRegs_blocks (s : State) (f : Regs → Regs) : (s.modRegs f).blocks = s.blocks := rfl
@[simp] theorem State.modRegs_flash (s : State) (f : Regs → Regs) : (s.modRegs f).flash = s.flash := rfl
@[simp] theorem State.modRegs_mbCommand (s : State) (f : Regs → Regs) : (s.modRegs f).mbCommand = s.mbCommand := rfl
@[simp] theorem State.modRegs_mbResult (s : State) (f : Regs → Regs) : (s.modRegs f).mbResult = s.mbResult := rfl
@[simp] theorem State.modRegs_mbWords (s : State) (f : Regs → Regs) : (s.modRegs f).mbWords = s.mbWords := rfl
@[simp] theorem State.modRegs_mbImage (s : State) (f : Regs → Regs) : (s.modRegs f).mbImage = s.mbImage := rfl
@[simp] theorem State.modRegs_repsum (s : State) (f : Regs → Regs) : (s.modRegs f).repsum = s.repsum := rfl
@[simp] theorem State.modRegs_capGen (s : State) (f : Regs → Regs) : (s.modRegs f).capGen = s.capGen := rfl
@[simp] theorem State.modRegs_vfOn (s : State) (f : Regs → Regs) : (s.modRegs f).vfOn = s.vfOn := rfl
@[simp] theorem State.modRegs_numVfs (s : State) (f : Regs → Regs) : (s.modRegs f).numVfs = s.numVfs := rfl
@[simp] theorem State.modRegs_vfOn1 (s : State) (f : Regs → Regs) : (s.modRegs f).vfOn1 = s.vfOn1 := rfl
@[simp] theorem State.modRegs_numVfs1 (s : State) (f : Regs → Regs) : (s.modRegs f).numVfs1 = s.numVfs1 := rfl
@[simp] theorem State.modRegs_ports (s : State) (f : Regs → Regs) : (s.modRegs f).ports = s.ports := rfl
@[simp] theorem State.modRegs_trained (s : State) (f : Regs → Regs) : (s.modRegs f).trained = s.trained := rfl
@[simp] theorem State.modRegs_holdUntil (s : State) (f : Regs → Regs) : (s.modRegs f).holdUntil = s.holdUntil := rfl
@[simp] theorem State.modRegs_spdm (s : State) (f : Regs → Regs) : (s.modRegs f).spdm = s.spdm := rfl

/-! `State.branch` writes `cores` alone. -/

@[simp] theorem State.branch_agenda (s : State) (b : Branch) : (s.branch b).agenda = s.agenda := rfl
@[simp] theorem State.branch_opened (s : State) (b : Branch) : (s.branch b).opened = s.opened := rfl
@[simp] theorem State.branch_cur (s : State) (b : Branch) : (s.branch b).cur = s.cur := rfl
@[simp] theorem State.branch_turn (s : State) (b : Branch) : (s.branch b).turn = s.turn := rfl
@[simp] theorem State.branch_fresh (s : State) (b : Branch) : (s.branch b).fresh = s.fresh := rfl
@[simp] theorem State.branch_mem (s : State) (b : Branch) : (s.branch b).mem = s.mem := rfl
@[simp] theorem State.branch_again (s : State) (b : Branch) : (s.branch b).again = s.again := rfl
@[simp] theorem State.branch_homes (s : State) (b : Branch) : (s.branch b).homes = s.homes := rfl
@[simp] theorem State.branch_homeDirty (s : State) (b : Branch) : (s.branch b).homeDirty = s.homeDirty := rfl
@[simp] theorem State.branch_memts (s : State) (b : Branch) : (s.branch b).memts = s.memts := rfl
@[simp] theorem State.branch_bypassRts (s : State) (b : Branch) : (s.branch b).bypassRts = s.bypassRts := rfl
@[simp] theorem State.branch_bankRts (s : State) (b : Branch) : (s.branch b).bankRts = s.bankRts := rfl
@[simp] theorem State.branch_bypassRels (s : State) (b : Branch) : (s.branch b).bypassRels = s.bypassRels := rfl
@[simp] theorem State.branch_bankRels (s : State) (b : Branch) : (s.branch b).bankRels = s.bankRels := rfl
@[simp] theorem State.branch_clusters (s : State) (b : Branch) : (s.branch b).clusters = s.clusters := rfl
@[simp] theorem State.branch_parts (s : State) (b : Branch) : (s.branch b).parts = s.parts := rfl
@[simp] theorem State.branch_repeatable (s : State) (b : Branch) : (s.branch b).repeatable = s.repeatable := rfl
@[simp] theorem State.branch_timebase (s : State) (b : Branch) : (s.branch b).timebase = s.timebase := rfl
@[simp] theorem State.branch_device (s : State) (b : Branch) : (s.branch b).device = s.device := rfl
@[simp] theorem State.branch_ecseal (s : State) (b : Branch) : (s.branch b).ecseal = s.ecseal := rfl
@[simp] theorem State.branch_ecmrep (s : State) (b : Branch) : (s.branch b).ecmrep = s.ecmrep := rfl
@[simp] theorem State.branch_ecrepl (s : State) (b : Branch) : (s.branch b).ecrepl = s.ecrepl := rfl
@[simp] theorem State.branch_launches (s : State) (b : Branch) : (s.branch b).launches = s.launches := rfl
@[simp] theorem State.branch_holes (s : State) (b : Branch) : (s.branch b).holes = s.holes := rfl
@[simp] theorem State.branch_peers (s : State) (b : Branch) : (s.branch b).peers = s.peers := rfl
@[simp] theorem State.branch_faultDue (s : State) (b : Branch) : (s.branch b).faultDue = s.faultDue := rfl
@[simp] theorem State.branch_faultRing (s : State) (b : Branch) : (s.branch b).faultRing = s.faultRing := rfl
@[simp] theorem State.branch_sent (s : State) (b : Branch) : (s.branch b).sent = s.sent := rfl
@[simp] theorem State.branch_msix (s : State) (b : Branch) : (s.branch b).msix = s.msix := rfl
@[simp] theorem State.branch_pba (s : State) (b : Branch) : (s.branch b).pba = s.pba := rfl
@[simp] theorem State.branch_echbm (s : State) (b : Branch) : (s.branch b).echbm = s.echbm := rfl
@[simp] theorem State.branch_eclink (s : State) (b : Branch) : (s.branch b).eclink = s.eclink := rfl
@[simp] theorem State.branch_ecloss (s : State) (b : Branch) : (s.branch b).ecloss = s.ecloss := rfl
@[simp] theorem State.branch_retired (s : State) (b : Branch) : (s.branch b).retired = s.retired := rfl
@[simp] theorem State.branch_retovf (s : State) (b : Branch) : (s.branch b).retovf = s.retovf := rfl
@[simp] theorem State.branch_edev (s : State) (b : Branch) : (s.branch b).edev = s.edev := rfl
@[simp] theorem State.branch_edevFrac (s : State) (b : Branch) : (s.branch b).edevFrac = s.edevFrac := rfl
@[simp] theorem State.branch_channels (s : State) (b : Branch) : (s.branch b).channels = s.channels := rfl
@[simp] theorem State.branch_pcap (s : State) (b : Branch) : (s.branch b).pcap = s.pcap := rfl
@[simp] theorem State.branch_trips (s : State) (b : Branch) : (s.branch b).trips = s.trips := rfl
@[simp] theorem State.branch_fwsafe (s : State) (b : Branch) : (s.branch b).fwsafe = s.fwsafe := rfl
@[simp] theorem State.branch_fwupd (s : State) (b : Branch) : (s.branch b).fwupd = s.fwupd := rfl
@[simp] theorem State.branch_rcad (s : State) (b : Branch) : (s.branch b).rcad = s.rcad := rfl
@[simp] theorem State.branch_beats (s : State) (b : Branch) : (s.branch b).beats = s.beats := rfl
@[simp] theorem State.branch_bootStep (s : State) (b : Branch) : (s.branch b).bootStep = s.bootStep := rfl
@[simp] theorem State.branch_bootDone (s : State) (b : Branch) : (s.branch b).bootDone = s.bootDone := rfl
@[simp] theorem State.branch_idfail (s : State) (b : Branch) : (s.branch b).idfail = s.idfail := rfl
@[simp] theorem State.branch_bootStopped (s : State) (b : Branch) : (s.branch b).bootStopped = s.bootStopped := rfl
@[simp] theorem State.branch_copyB (s : State) (b : Branch) : (s.branch b).copyB = s.copyB := rfl
@[simp] theorem State.branch_narrow (s : State) (b : Branch) : (s.branch b).narrow = s.narrow := rfl
@[simp] theorem State.branch_aliasKey (s : State) (b : Branch) : (s.branch b).aliasKey = s.aliasKey := rfl
@[simp] theorem State.branch_blocks (s : State) (b : Branch) : (s.branch b).blocks = s.blocks := rfl
@[simp] theorem State.branch_flash (s : State) (b : Branch) : (s.branch b).flash = s.flash := rfl
@[simp] theorem State.branch_mbCommand (s : State) (b : Branch) : (s.branch b).mbCommand = s.mbCommand := rfl
@[simp] theorem State.branch_mbResult (s : State) (b : Branch) : (s.branch b).mbResult = s.mbResult := rfl
@[simp] theorem State.branch_mbWords (s : State) (b : Branch) : (s.branch b).mbWords = s.mbWords := rfl
@[simp] theorem State.branch_mbImage (s : State) (b : Branch) : (s.branch b).mbImage = s.mbImage := rfl
@[simp] theorem State.branch_repsum (s : State) (b : Branch) : (s.branch b).repsum = s.repsum := rfl
@[simp] theorem State.branch_capGen (s : State) (b : Branch) : (s.branch b).capGen = s.capGen := rfl
@[simp] theorem State.branch_vfOn (s : State) (b : Branch) : (s.branch b).vfOn = s.vfOn := rfl
@[simp] theorem State.branch_numVfs (s : State) (b : Branch) : (s.branch b).numVfs = s.numVfs := rfl
@[simp] theorem State.branch_vfOn1 (s : State) (b : Branch) : (s.branch b).vfOn1 = s.vfOn1 := rfl
@[simp] theorem State.branch_numVfs1 (s : State) (b : Branch) : (s.branch b).numVfs1 = s.numVfs1 := rfl
@[simp] theorem State.branch_ports (s : State) (b : Branch) : (s.branch b).ports = s.ports := rfl
@[simp] theorem State.branch_trained (s : State) (b : Branch) : (s.branch b).trained = s.trained := rfl
@[simp] theorem State.branch_holdUntil (s : State) (b : Branch) : (s.branch b).holdUntil = s.holdUntil := rfl
@[simp] theorem State.branch_spdm (s : State) (b : Branch) : (s.branch b).spdm = s.spdm := rfl

/-! `Core.setSlot` writes `slots` alone. -/

@[simp] theorem Core.setSlot_regs (c : Core) (k : Slot) (t : SlotState) : (c.setSlot k t).regs = c.regs := rfl
@[simp] theorem Core.setSlot_src (c : Core) (k : Slot) (t : SlotState) : (c.setSlot k t).src = c.src := rfl
@[simp] theorem Core.setSlot_busy (c : Core) (k : Slot) (t : SlotState) : (c.setSlot k t).busy = c.busy := rfl
@[simp] theorem Core.setSlot_entry70 (c : Core) (k : Slot) (t : SlotState) : (c.setSlot k t).entry70 = c.entry70 := rfl
@[simp] theorem Core.setSlot_notice (c : Core) (k : Slot) (t : SlotState) : (c.setSlot k t).notice = c.notice := rfl
@[simp] theorem Core.setSlot_frozen (c : Core) (k : Slot) (t : SlotState) : (c.setSlot k t).frozen = c.frozen := rfl
@[simp] theorem Core.setSlot_bind (c : Core) (k : Slot) (t : SlotState) : (c.setSlot k t).bind = c.bind := rfl
@[simp] theorem Core.setSlot_code (c : Core) (k : Slot) (t : SlotState) : (c.setSlot k t).code = c.code := rfl
@[simp] theorem Core.setSlot_codeAt (c : Core) (k : Slot) (t : SlotState) : (c.setSlot k t).codeAt = c.codeAt := rfl
@[simp] theorem Core.setSlot_store (c : Core) (k : Slot) (t : SlotState) : (c.setSlot k t).store = c.store := rfl
@[simp] theorem Core.setSlot_served (c : Core) (k : Slot) (t : SlotState) : (c.setSlot k t).served = c.served := rfl
@[simp] theorem Core.setSlot_again (c : Core) (k : Slot) (t : SlotState) : (c.setSlot k t).again = c.again := rfl
@[simp] theorem Core.setSlot_csPin (c : Core) (k : Slot) (t : SlotState) : (c.setSlot k t).csPin = c.csPin := rfl
@[simp] theorem Core.setSlot_sems (c : Core) (k : Slot) (t : SlotState) : (c.setSlot k t).sems = c.sems := rfl
@[simp] theorem Core.setSlot_semRts (c : Core) (k : Slot) (t : SlotState) : (c.setSlot k t).semRts = c.semRts := rfl
@[simp] theorem Core.setSlot_semRels (c : Core) (k : Slot) (t : SlotState) : (c.setSlot k t).semRels = c.semRels := rfl
@[simp] theorem Core.setSlot_joinTs (c : Core) (k : Slot) (t : SlotState) : (c.setSlot k t).joinTs = c.joinTs := rfl
@[simp] theorem Core.setSlot_tokens (c : Core) (k : Slot) (t : SlotState) : (c.setSlot k t).tokens = c.tokens := rfl
@[simp] theorem Core.setSlot_cl (c : Core) (k : Slot) (t : SlotState) : (c.setSlot k t).cl = c.cl := rfl
@[simp] theorem Core.setSlot_updating (c : Core) (k : Slot) (t : SlotState) : (c.setSlot k t).updating = c.updating := rfl
@[simp] theorem Core.setSlot_cl0Time (c : Core) (k : Slot) (t : SlotState) : (c.setSlot k t).cl0Time = c.cl0Time := rfl
@[simp] theorem Core.setSlot_lease (c : Core) (k : Slot) (t : SlotState) : (c.setSlot k t).lease = c.lease := rfl
@[simp] theorem Core.setSlot_loads (c : Core) (k : Slot) (t : SlotState) : (c.setSlot k t).loads = c.loads := rfl
@[simp] theorem Core.setSlot_vloads (c : Core) (k : Slot) (t : SlotState) : (c.setSlot k t).vloads = c.vloads := rfl
@[simp] theorem Core.setSlot_mq (c : Core) (k : Slot) (t : SlotState) : (c.setSlot k t).mq = c.mq := rfl
@[simp] theorem Core.setSlot_cq0 (c : Core) (k : Slot) (t : SlotState) : (c.setSlot k t).cq0 = c.cq0 := rfl
@[simp] theorem Core.setSlot_cq1 (c : Core) (k : Slot) (t : SlotState) : (c.setSlot k t).cq1 = c.cq1 := rfl
@[simp] theorem Core.setSlot_acc (c : Core) (k : Slot) (t : SlotState) : (c.setSlot k t).acc = c.acc := rfl
@[simp] theorem Core.setSlot_accZero (c : Core) (k : Slot) (t : SlotState) : (c.setSlot k t).accZero = c.accZero := rfl
@[simp] theorem Core.setSlot_moves (c : Core) (k : Slot) (t : SlotState) : (c.setSlot k t).moves = c.moves := rfl
@[simp] theorem Core.setSlot_moveSeq (c : Core) (k : Slot) (t : SlotState) : (c.setSlot k t).moveSeq = c.moveSeq := rfl
@[simp] theorem Core.setSlot_conds (c : Core) (k : Slot) (t : SlotState) : (c.setSlot k t).conds = c.conds := rfl
@[simp] theorem Core.setSlot_wbuf (c : Core) (k : Slot) (t : SlotState) : (c.setSlot k t).wbuf = c.wbuf := rfl
@[simp] theorem Core.setSlot_active (c : Core) (k : Slot) (t : SlotState) : (c.setSlot k t).active = c.active := rfl
@[simp] theorem Core.setSlot_shadow (c : Core) (k : Slot) (t : SlotState) : (c.setSlot k t).shadow = c.shadow := rfl
@[simp] theorem Core.setSlot_activeFor (c : Core) (k : Slot) (t : SlotState) : (c.setSlot k t).activeFor = c.activeFor := rfl
@[simp] theorem Core.setSlot_shadowFor (c : Core) (k : Slot) (t : SlotState) : (c.setSlot k t).shadowFor = c.shadowFor := rfl
@[simp] theorem Core.setSlot_markDone (c : Core) (k : Slot) (t : SlotState) : (c.setSlot k t).markDone = c.markDone := rfl
@[simp] theorem Core.setSlot_fifo (c : Core) (k : Slot) (t : SlotState) : (c.setSlot k t).fifo = c.fifo := rfl
@[simp] theorem Core.setSlot_chainLen (c : Core) (k : Slot) (t : SlotState) : (c.setSlot k t).chainLen = c.chainLen := rfl
@[simp] theorem Core.setSlot_chainPos (c : Core) (k : Slot) (t : SlotState) : (c.setSlot k t).chainPos = c.chainPos := rfl
@[simp] theorem Core.setSlot_west (c : Core) (k : Slot) (t : SlotState) : (c.setSlot k t).west = c.west := rfl
@[simp] theorem Core.setSlot_chainMet (c : Core) (k : Slot) (t : SlotState) : (c.setSlot k t).chainMet = c.chainMet := rfl
@[simp] theorem Core.setSlot_staged (c : Core) (k : Slot) (t : SlotState) : (c.setSlot k t).staged = c.staged := rfl
@[simp] theorem Core.setSlot_ahead (c : Core) (k : Slot) (t : SlotState) : (c.setSlot k t).ahead = c.ahead := rfl
@[simp] theorem Core.setSlot_late (c : Core) (k : Slot) (t : SlotState) : (c.setSlot k t).late = c.late := rfl
@[simp] theorem Core.setSlot_stage (c : Core) (k : Slot) (t : SlotState) : (c.setSlot k t).stage = c.stage := rfl
@[simp] theorem Core.setSlot_shots (c : Core) (k : Slot) (t : SlotState) : (c.setSlot k t).shots = c.shots := rfl
@[simp] theorem Core.setSlot_shotsDone (c : Core) (k : Slot) (t : SlotState) : (c.setSlot k t).shotsDone = c.shotsDone := rfl
@[simp] theorem Core.setSlot_stop (c : Core) (k : Slot) (t : SlotState) : (c.setSlot k t).stop = c.stop := rfl
@[simp] theorem Core.setSlot_loading (c : Core) (k : Slot) (t : SlotState) : (c.setSlot k t).loading = c.loading := rfl
@[simp] theorem Core.setSlot_restored (c : Core) (k : Slot) (t : SlotState) : (c.setSlot k t).restored = c.restored := rfl
@[simp] theorem Core.setSlot_overrun (c : Core) (k : Slot) (t : SlotState) : (c.setSlot k t).overrun = c.overrun := rfl
@[simp] theorem Core.setSlot_detected (c : Core) (k : Slot) (t : SlotState) : (c.setSlot k t).detected = c.detected := rfl
@[simp] theorem Core.setSlot_repair (c : Core) (k : Slot) (t : SlotState) : (c.setSlot k t).repair = c.repair := rfl

/-! `Core.modSlot` writes `slots` alone. -/

@[simp] theorem Core.modSlot_regs (c : Core) (k : Slot) (f : SlotState → SlotState) : (c.modSlot k f).regs = c.regs := rfl
@[simp] theorem Core.modSlot_src (c : Core) (k : Slot) (f : SlotState → SlotState) : (c.modSlot k f).src = c.src := rfl
@[simp] theorem Core.modSlot_busy (c : Core) (k : Slot) (f : SlotState → SlotState) : (c.modSlot k f).busy = c.busy := rfl
@[simp] theorem Core.modSlot_entry70 (c : Core) (k : Slot) (f : SlotState → SlotState) : (c.modSlot k f).entry70 = c.entry70 := rfl
@[simp] theorem Core.modSlot_notice (c : Core) (k : Slot) (f : SlotState → SlotState) : (c.modSlot k f).notice = c.notice := rfl
@[simp] theorem Core.modSlot_frozen (c : Core) (k : Slot) (f : SlotState → SlotState) : (c.modSlot k f).frozen = c.frozen := rfl
@[simp] theorem Core.modSlot_bind (c : Core) (k : Slot) (f : SlotState → SlotState) : (c.modSlot k f).bind = c.bind := rfl
@[simp] theorem Core.modSlot_code (c : Core) (k : Slot) (f : SlotState → SlotState) : (c.modSlot k f).code = c.code := rfl
@[simp] theorem Core.modSlot_codeAt (c : Core) (k : Slot) (f : SlotState → SlotState) : (c.modSlot k f).codeAt = c.codeAt := rfl
@[simp] theorem Core.modSlot_store (c : Core) (k : Slot) (f : SlotState → SlotState) : (c.modSlot k f).store = c.store := rfl
@[simp] theorem Core.modSlot_served (c : Core) (k : Slot) (f : SlotState → SlotState) : (c.modSlot k f).served = c.served := rfl
@[simp] theorem Core.modSlot_again (c : Core) (k : Slot) (f : SlotState → SlotState) : (c.modSlot k f).again = c.again := rfl
@[simp] theorem Core.modSlot_csPin (c : Core) (k : Slot) (f : SlotState → SlotState) : (c.modSlot k f).csPin = c.csPin := rfl
@[simp] theorem Core.modSlot_sems (c : Core) (k : Slot) (f : SlotState → SlotState) : (c.modSlot k f).sems = c.sems := rfl
@[simp] theorem Core.modSlot_semRts (c : Core) (k : Slot) (f : SlotState → SlotState) : (c.modSlot k f).semRts = c.semRts := rfl
@[simp] theorem Core.modSlot_semRels (c : Core) (k : Slot) (f : SlotState → SlotState) : (c.modSlot k f).semRels = c.semRels := rfl
@[simp] theorem Core.modSlot_joinTs (c : Core) (k : Slot) (f : SlotState → SlotState) : (c.modSlot k f).joinTs = c.joinTs := rfl
@[simp] theorem Core.modSlot_tokens (c : Core) (k : Slot) (f : SlotState → SlotState) : (c.modSlot k f).tokens = c.tokens := rfl
@[simp] theorem Core.modSlot_cl (c : Core) (k : Slot) (f : SlotState → SlotState) : (c.modSlot k f).cl = c.cl := rfl
@[simp] theorem Core.modSlot_updating (c : Core) (k : Slot) (f : SlotState → SlotState) : (c.modSlot k f).updating = c.updating := rfl
@[simp] theorem Core.modSlot_cl0Time (c : Core) (k : Slot) (f : SlotState → SlotState) : (c.modSlot k f).cl0Time = c.cl0Time := rfl
@[simp] theorem Core.modSlot_lease (c : Core) (k : Slot) (f : SlotState → SlotState) : (c.modSlot k f).lease = c.lease := rfl
@[simp] theorem Core.modSlot_loads (c : Core) (k : Slot) (f : SlotState → SlotState) : (c.modSlot k f).loads = c.loads := rfl
@[simp] theorem Core.modSlot_vloads (c : Core) (k : Slot) (f : SlotState → SlotState) : (c.modSlot k f).vloads = c.vloads := rfl
@[simp] theorem Core.modSlot_mq (c : Core) (k : Slot) (f : SlotState → SlotState) : (c.modSlot k f).mq = c.mq := rfl
@[simp] theorem Core.modSlot_cq0 (c : Core) (k : Slot) (f : SlotState → SlotState) : (c.modSlot k f).cq0 = c.cq0 := rfl
@[simp] theorem Core.modSlot_cq1 (c : Core) (k : Slot) (f : SlotState → SlotState) : (c.modSlot k f).cq1 = c.cq1 := rfl
@[simp] theorem Core.modSlot_acc (c : Core) (k : Slot) (f : SlotState → SlotState) : (c.modSlot k f).acc = c.acc := rfl
@[simp] theorem Core.modSlot_accZero (c : Core) (k : Slot) (f : SlotState → SlotState) : (c.modSlot k f).accZero = c.accZero := rfl
@[simp] theorem Core.modSlot_moves (c : Core) (k : Slot) (f : SlotState → SlotState) : (c.modSlot k f).moves = c.moves := rfl
@[simp] theorem Core.modSlot_moveSeq (c : Core) (k : Slot) (f : SlotState → SlotState) : (c.modSlot k f).moveSeq = c.moveSeq := rfl
@[simp] theorem Core.modSlot_conds (c : Core) (k : Slot) (f : SlotState → SlotState) : (c.modSlot k f).conds = c.conds := rfl
@[simp] theorem Core.modSlot_wbuf (c : Core) (k : Slot) (f : SlotState → SlotState) : (c.modSlot k f).wbuf = c.wbuf := rfl
@[simp] theorem Core.modSlot_active (c : Core) (k : Slot) (f : SlotState → SlotState) : (c.modSlot k f).active = c.active := rfl
@[simp] theorem Core.modSlot_shadow (c : Core) (k : Slot) (f : SlotState → SlotState) : (c.modSlot k f).shadow = c.shadow := rfl
@[simp] theorem Core.modSlot_activeFor (c : Core) (k : Slot) (f : SlotState → SlotState) : (c.modSlot k f).activeFor = c.activeFor := rfl
@[simp] theorem Core.modSlot_shadowFor (c : Core) (k : Slot) (f : SlotState → SlotState) : (c.modSlot k f).shadowFor = c.shadowFor := rfl
@[simp] theorem Core.modSlot_markDone (c : Core) (k : Slot) (f : SlotState → SlotState) : (c.modSlot k f).markDone = c.markDone := rfl
@[simp] theorem Core.modSlot_fifo (c : Core) (k : Slot) (f : SlotState → SlotState) : (c.modSlot k f).fifo = c.fifo := rfl
@[simp] theorem Core.modSlot_chainLen (c : Core) (k : Slot) (f : SlotState → SlotState) : (c.modSlot k f).chainLen = c.chainLen := rfl
@[simp] theorem Core.modSlot_chainPos (c : Core) (k : Slot) (f : SlotState → SlotState) : (c.modSlot k f).chainPos = c.chainPos := rfl
@[simp] theorem Core.modSlot_west (c : Core) (k : Slot) (f : SlotState → SlotState) : (c.modSlot k f).west = c.west := rfl
@[simp] theorem Core.modSlot_chainMet (c : Core) (k : Slot) (f : SlotState → SlotState) : (c.modSlot k f).chainMet = c.chainMet := rfl
@[simp] theorem Core.modSlot_staged (c : Core) (k : Slot) (f : SlotState → SlotState) : (c.modSlot k f).staged = c.staged := rfl
@[simp] theorem Core.modSlot_ahead (c : Core) (k : Slot) (f : SlotState → SlotState) : (c.modSlot k f).ahead = c.ahead := rfl
@[simp] theorem Core.modSlot_late (c : Core) (k : Slot) (f : SlotState → SlotState) : (c.modSlot k f).late = c.late := rfl
@[simp] theorem Core.modSlot_stage (c : Core) (k : Slot) (f : SlotState → SlotState) : (c.modSlot k f).stage = c.stage := rfl
@[simp] theorem Core.modSlot_shots (c : Core) (k : Slot) (f : SlotState → SlotState) : (c.modSlot k f).shots = c.shots := rfl
@[simp] theorem Core.modSlot_shotsDone (c : Core) (k : Slot) (f : SlotState → SlotState) : (c.modSlot k f).shotsDone = c.shotsDone := rfl
@[simp] theorem Core.modSlot_stop (c : Core) (k : Slot) (f : SlotState → SlotState) : (c.modSlot k f).stop = c.stop := rfl
@[simp] theorem Core.modSlot_loading (c : Core) (k : Slot) (f : SlotState → SlotState) : (c.modSlot k f).loading = c.loading := rfl
@[simp] theorem Core.modSlot_restored (c : Core) (k : Slot) (f : SlotState → SlotState) : (c.modSlot k f).restored = c.restored := rfl
@[simp] theorem Core.modSlot_overrun (c : Core) (k : Slot) (f : SlotState → SlotState) : (c.modSlot k f).overrun = c.overrun := rfl
@[simp] theorem Core.modSlot_detected (c : Core) (k : Slot) (f : SlotState → SlotState) : (c.modSlot k f).detected = c.detected := rfl
@[simp] theorem Core.modSlot_repair (c : Core) (k : Slot) (f : SlotState → SlotState) : (c.modSlot k f).repair = c.repair := rfl

/-! Reads after updates. -/

theorem State.core_setCore (s : State) (c : Nat) (k : Core) (d : Nat) :
    (s.setCore c k).core d = if d = c then k else s.core d := Tab.get_set _ _ _ _ _
@[simp] theorem State.core_setCore_self (s : State) (c : Nat) (k : Core) : (s.setCore c k).core c = k := by
  simp [State.core_setCore]
theorem State.core_modCore (s : State) (c : Nat) (f : Core → Core) (d : Nat) :
    (s.modCore c f).core d = if d = c then f (s.core c) else s.core d := State.core_setCore _ _ _ _
@[simp] theorem State.core_modCore_self (s : State) (c : Nat) (f : Core → Core) : (s.modCore c f).core c = f (s.core c) := by
  simp [State.core_modCore]
theorem State.cluster_modCluster (s : State) (c : Nat) (f : Cluster → Cluster) (d : Nat) :
    (s.modCluster c f).cluster d = if d = c then f (s.cluster c) else s.cluster d := Tab.get_set _ _ _ _ _
theorem State.part_setPart (s : State) (p : Nat) (q : Partition) (d : Nat) :
    (s.setPart p q).part d = if d = p then q else s.part d := Tab.get_set _ _ _ _ _
theorem State.part_modPart (s : State) (p : Nat) (f : Partition → Partition) (d : Nat) :
    (s.modPart p f).part d = if d = p then f (s.part p) else s.part d := State.part_setPart _ _ _ _
@[simp] theorem State.part_modPart_self (s : State) (p : Nat) (f : Partition → Partition) :
    (s.modPart p f).part p = f (s.part p) := by simp [State.part_modPart]
@[simp] theorem State.part_setCore (s : State) (c : Nat) (k : Core) (p : Nat) : (s.setCore c k).part p = s.part p := rfl
@[simp] theorem State.part_modCore (s : State) (c : Nat) (f : Core → Core) (p : Nat) : (s.modCore c f).part p = s.part p := rfl
@[simp] theorem State.cluster_setCore (s : State) (c : Nat) (k : Core) (d : Nat) : (s.setCore c k).cluster d = s.cluster d := rfl
@[simp] theorem State.cluster_modCore (s : State) (c : Nat) (f : Core → Core) (d : Nat) :
    (s.modCore c f).cluster d = s.cluster d := rfl
@[simp] theorem State.cluster_modPart (s : State) (p : Nat) (f : Partition → Partition) (d : Nat) :
    (s.modPart p f).cluster d = s.cluster d := rfl
@[simp] theorem State.core_modPart (s : State) (p : Nat) (f : Partition → Partition) (c : Nat) :
    (s.modPart p f).core c = s.core c := rfl
@[simp] theorem State.core_modCluster (s : State) (d : Nat) (f : Cluster → Cluster) (c : Nat) :
    (s.modCluster d f).core c = s.core c := rfl
@[simp] theorem State.part_modCluster (s : State) (d : Nat) (f : Cluster → Cluster) (p : Nat) :
    (s.modCluster d f).part p = s.part p := rfl
@[simp] theorem State.core_post (s : State) (i : Instr) (c : Nat) : (s.post i).core c = s.core c := rfl
@[simp] theorem State.part_post (s : State) (i : Instr) (p : Nat) : (s.post i).part p = s.part p := rfl
@[simp] theorem State.cluster_post (s : State) (i : Instr) (c : Nat) : (s.post i).cluster c = s.cluster c := rfl

theorem slotIx_inj {a b : Slot} (h : slotIx a = slotIx b) : a = b := by cases a <;> cases b <;> first | rfl | cases h
theorem Core.slot_setSlot (c : Core) (k : Slot) (t : SlotState) (j : Slot) :
    (c.setSlot k t).slot j = if j = k then t else c.slot j := by
  unfold Core.slot Core.setSlot
  simp only [Tab.get_set]
  by_cases h : j = k
  · simp [h]
  · rw [if_neg h, if_neg (fun e => h (slotIx_inj e))]
@[simp] theorem Core.slot_setSlot_self (c : Core) (k : Slot) (t : SlotState) : (c.setSlot k t).slot k = t := by
  simp [Core.slot_setSlot]
theorem Core.slot_modSlot (c : Core) (k : Slot) (f : SlotState → SlotState) (j : Slot) :
    (c.modSlot k f).slot j = if j = k then f (c.slot k) else c.slot j := Core.slot_setSlot _ _ _ _
@[simp] theorem Core.slot_modSlot_self (c : Core) (k : Slot) (f : SlotState → SlotState) :
    (c.modSlot k f).slot k = f (c.slot k) := by simp [Core.slot_modSlot]

/-! Registers (R19, R20). -/

@[simp] theorem Regs.sget_zero (r : Regs) : r.sget 0 = 0 := rfl
@[simp] theorem Regs.tget_zero (r : Regs) : r.tget 0 = false := rfl
@[simp] theorem Regs.mget_zero (r : Regs) : r.mget 0 = BitVec.allOnes 1024 := rfl
@[simp] theorem Regs.sset_zero (r : Regs) (v : Word) (t : Bool) : r.sset 0 v t = r := rfl
@[simp] theorem Regs.mset_zero (r : Regs) (v : BitVec 1024) : r.mset 0 v = r := rfl
theorem Regs.sget_sset (r : Regs) (n : SReg) (v : Word) (t : Bool) (k : SReg) :
    (r.sset n v t).sget k = if k = n ∧ n ≠ 0 then v else r.sget k := by
  by_cases hn : n = 0
  · rw [hn, Regs.sset_zero, if_neg (fun h => h.2 rfl)]
  · have e : r.sset n v t = { r with s := Tab.set r.s n.toNat v, taint := Tab.set r.taint n.toNat t } := if_neg hn
    rw [e]
    by_cases hk : k = 0
    · subst hk; rw [if_neg (fun h => hn h.1.symm)]; rfl
    · simp only [Regs.sget, if_neg hk, Tab.get_set]
      by_cases h : k = n
      · rw [if_pos (by rw [h]), if_pos ⟨h, hn⟩]
      · rw [if_neg (fun g => h (BitVec.eq_of_toNat_eq g)), if_neg (fun g => h g.1)]
theorem Regs.tget_sset (r : Regs) (n : SReg) (v : Word) (t : Bool) (k : SReg) :
    (r.sset n v t).tget k = if k = n ∧ n ≠ 0 then t else r.tget k := by
  by_cases hn : n = 0
  · rw [hn, Regs.sset_zero, if_neg (fun h => h.2 rfl)]
  · have e : r.sset n v t = { r with s := Tab.set r.s n.toNat v, taint := Tab.set r.taint n.toNat t } := if_neg hn
    rw [e]
    by_cases hk : k = 0
    · subst hk; rw [if_neg (fun h => hn h.1.symm)]; rfl
    · simp only [Regs.tget, if_neg hk, Tab.get_set]
      by_cases h : k = n
      · rw [if_pos (by rw [h]), if_pos ⟨h, hn⟩]
      · rw [if_neg (fun g => h (BitVec.eq_of_toNat_eq g)), if_neg (fun g => h g.1)]
/-- A scalar write leaves everything but the scalar registers and their taint bits. -/
theorem Regs.sset_frame (r : Regs) (n : SReg) (v : Word) (t : Bool) :
    { r.sset n v t with s := r.s, taint := r.taint } = r := by unfold Regs.sset; split <;> rfl
theorem Regs.mget_mset (r : Regs) (n : MReg) (v : BitVec 1024) (k : MReg) :
    (r.mset n v).mget k = if k = n ∧ n ≠ 0 then v else r.mget k := by
  by_cases hn : n = 0
  · rw [hn, Regs.mset_zero, if_neg (fun h => h.2 rfl)]
  · have e : r.mset n v = { r with m := Tab.set r.m n.toNat v } := if_neg hn
    rw [e]
    by_cases hk : k = 0
    · subst hk; rw [if_neg (fun h => hn h.1.symm)]; rfl
    · simp only [Regs.mget, if_neg hk, Tab.get_set]
      by_cases h : k = n
      · rw [if_pos (by rw [h]), if_pos ⟨h, hn⟩]
      · rw [if_neg (fun g => h (BitVec.eq_of_toNat_eq g)), if_neg (fun g => h g.1)]
/-- A mask write leaves everything but the mask registers. -/
theorem Regs.mset_frame (r : Regs) (n : MReg) (v : BitVec 1024) : { r.mset n v with m := r.m } = r := by
  unfold Regs.mset; split <;> rfl
theorem Regs.vget_vset (r : Regs) (n : Nat) (v : VVal) (k : Nat) :
    (r.vset n v).vget k = if k = n then v else r.vget k := Tab.get_set _ _ _ _ _
/-- A vector write leaves everything but the vector registers. -/
theorem Regs.vset_frame (r : Regs) (n : Nat) (v : VVal) : { r.vset n v with v := r.v } = r := rfl
theorem VVal.get_ofFn (f : Nat → Elem) (e : Nat) : (VVal.ofFn f).get e = if e < 1024 then f e else 0 := by
  unfold VVal.get VVal.ofFn
  by_cases h : e < 1024
  · simp [List.getD, h]
  · simp [List.getD, h]

/-! The acting slot. -/

@[simp] theorem State.cc_modCc (s : State) (f : Core → Core) : (s.modCc f).cc = f s.cc := State.core_modCore_self _ _ _
@[simp] theorem State.cs_modCs (s : State) (f : SlotState → SlotState) : (s.modCs f).cs = f s.cs := by
  unfold State.cs State.modCs
  rw [State.cc_modCc]; exact Core.slot_modSlot_self _ _ _
@[simp] theorem State.cc_modRegs (s : State) (f : Regs → Regs) : (s.modRegs f).cc = { s.cc with regs := f s.cc.regs } :=
  State.cc_modCc _ _
@[simp] theorem State.cs_modRegs (s : State) (f : Regs → Regs) : (s.modRegs f).cs = s.cs := by
  unfold State.cs; rw [State.cc_modRegs]; rfl
theorem State.cc_branch (s : State) (b : Branch) : (s.branch b).cc = s.cc.modSlot s.cur.slot (fun t => t.issued.step b) :=
  State.cc_modCc _ _
@[simp] theorem State.cs_branch (s : State) (b : Branch) : (s.branch b).cs = s.cs.issued.step b := State.cs_modCs _ _
theorem State.core_modCc (s : State) (f : Core → Core) (c : Nat) :
    (s.modCc f).core c = if c = s.cur.core then f s.cc else s.core c := State.core_modCore _ _ _ _

end Sys2Proof.Machine
end

