-- ==== Sys2Proof/Laws/Kept.lean ====
section
/-! SUPPORT. Which of the shared operations leave every memory of the device as it is, and what the others do to it: the canonical form is
kept by all of them. -/

namespace Sys2Proof.Machine

/-- No memory of the device differs: HBM and host space, core stores with their code bytes and spare rows, words held by an L2. -/
def MemSame (s t : State) : Prop :=
  t.mem = s.mem ∧
  (∀ c, (t.core c).store = (s.core c).store ∧ (t.core c).code = (s.core c).code ∧
    (t.core c).repair.spareCs = (s.core c).repair.spareCs) ∧
  ∀ c, (t.cluster c).l2Home = (s.cluster c).l2Home

/-- The memories of one core are in canonical form. -/
def Core.MemWf (c : Core) : Prop := c.store.wf = true ∧ c.code.wf = true ∧ c.repair.spareCs.wf = true

theorem MemSame.refl (s : State) : MemSame s s := ⟨rfl, fun _ => ⟨rfl, rfl, rfl⟩, fun _ => rfl⟩

theorem MemSame.trans {s t u : State} (h : MemSame s t) (g : MemSame t u) : MemSame s u :=
  ⟨g.1.trans h.1, fun c => ⟨(g.2.1 c).1.trans (h.2.1 c).1, (g.2.1 c).2.1.trans (h.2.1 c).2.1, (g.2.1 c).2.2.trans (h.2.1 c).2.2⟩,
    fun c => (g.2.2 c).trans (h.2.2 c)⟩

theorem MemSame.wf {s t : State} (h : MemSame s t) (w : s.MemWf) : t.MemWf := by
  refine ⟨h.1 ▸ w.1, fun c => (h.2.2 c).symm ▸ w.2.1 c, fun c => ?_⟩
  obtain ⟨e1, e2, e3⟩ := h.2.1 c
  exact ⟨e1.symm ▸ (w.2.2 c).1, e2.symm ▸ (w.2.2 c).2.1, e3.symm ▸ (w.2.2 c).2.2⟩

theorem MemSame.bytes {s t : State} (h : MemSame s t) : BytesKept s t := by
  intro home phys a
  simp only [State.byteAt, h.1, (h.2.1 phys).1, h.2.2 phys]

/-- States with the same memory, cores and clusters. -/
theorem MemSame.of_eq {s t : State} (h : t.mem = s.mem) (hc : t.cores = s.cores) (hk : t.clusters = s.clusters) : MemSame s t := by
  refine ⟨h, fun c => ?_, fun c => ?_⟩
  · have : t.core c = s.core c := by simp only [State.core, hc]
    rw [this]; exact ⟨rfl, rfl, rfl⟩
  · simp only [State.cluster, hk]

/-- A core is replaced by one with the same memories. -/
theorem MemSame.setCore {s : State} {c : Nat} {k : Core} (hs : k.store = (s.core c).store) (hc : k.code = (s.core c).code)
    (hr : k.repair.spareCs = (s.core c).repair.spareCs) : MemSame s (s.setCore c k) := by
  refine ⟨rfl, fun d => ?_, fun _ => rfl⟩
  simp only [State.setCore, State.core, Tab.get_set]
  split
  · rename_i e; subst e; exact ⟨hs, hc, hr⟩
  · exact ⟨rfl, rfl, rfl⟩

theorem MemSame.modCore {s : State} {c : Nat} {f : Core → Core} (hs : ∀ k, (f k).store = k.store) (hc : ∀ k, (f k).code = k.code)
    (hr : ∀ k, (f k).repair.spareCs = k.repair.spareCs) : MemSame s (s.modCore c f) := .setCore (hs _) (hc _) (hr _)

theorem MemSame.modCluster {s : State} {c : Nat} {f : Cluster → Cluster} (h : ∀ k, (f k).l2Home = k.l2Home) : MemSame s (s.modCluster c f) := by
  refine ⟨rfl, fun _ => ⟨rfl, rfl, rfl⟩, fun d => ?_⟩
  simp only [State.modCluster, State.cluster, Tab.get_set]
  split
  · rename_i e; subst e; exact h _
  · rfl

theorem MemSame.setPart (s : State) (p : Nat) (q : Partition) : MemSame s (s.setPart p q) := .of_eq rfl rfl rfl
theorem MemSame.modPart (s : State) (p : Nat) (f : Partition → Partition) : MemSame s (s.modPart p f) := .of_eq rfl rfl rfl
theorem MemSame.post (s : State) (i : Instr) : MemSame s (s.post i) := .of_eq rfl rfl rfl
theorem MemSame.free (s : State) : MemSame s s.free.2 := .of_eq rfl rfl rfl
theorem MemSame.send (s : State) (x : Sent) : MemSame s (s.send x) := .of_eq rfl rfl rfl

theorem MemSame.foldl {α : Type} {f : State → α → State} (h : ∀ s x, MemSame s (f s x)) (l : List α) (s : State) : MemSame s (l.foldl f s) := by
  induction l generalizing s with
  | nil => exact .refl s
  | cons x r ih => exact (h s x).trans (ih _)

/-! Memories that change and keep their form. -/

theorem State.MemWf.setMem {s : State} (h : s.MemWf) {m : Mem} (hm : m.wf = true) : ({ s with mem := m } : State).MemWf := ⟨hm, h.2.1, h.2.2⟩

theorem State.MemWf.setCore {s : State} (h : s.MemWf) {c : Nat} {k : Core} (hk : k.MemWf) : (s.setCore c k).MemWf := by
  refine ⟨h.1, h.2.1, fun d => ?_⟩
  simp only [State.setCore, State.core, Tab.get_set]
  split
  · exact hk
  · exact h.2.2 d

theorem State.MemWf.modCore {s : State} (h : s.MemWf) {c : Nat} {f : Core → Core} (hf : ∀ k : Core, k.MemWf → (f k).MemWf) :
    (s.modCore c f).MemWf := h.setCore (hf _ (h.2.2 c))

theorem State.MemWf.modCluster {s : State} (h : s.MemWf) {c : Nat} {f : Cluster → Cluster}
    (hf : ∀ k : Cluster, k.l2Home.wf = true → (f k).l2Home.wf = true) : (s.modCluster c f).MemWf := by
  refine ⟨h.1, fun d => ?_, h.2.2⟩
  simp only [State.modCluster, State.cluster, Tab.get_set]
  split
  · exact hf _ (h.2.1 c)
  · exact h.2.1 d

theorem State.MemWf.foldl {α : Type} {f : State → α → State} (hf : ∀ s x, s.MemWf → (f s x).MemWf) (l : List α) {s : State} (h : s.MemWf) :
    (l.foldl f s).MemWf := by
  induction l generalizing s with
  | nil => exact h
  | cons x r ih => exact ih (hf _ _ h)

/-- The state after reset has every memory in canonical form. -/
theorem State.reset_memWf : State.reset.MemWf := ⟨rfl, fun _ => rfl, fun _ => ⟨rfl, rfl, rfl⟩⟩

/-! Registers, slots and queues. -/

theorem MemSame.modCs (s : State) (f : SlotState → SlotState) : MemSame s (s.modCs f) := .modCore (fun _ => rfl) (fun _ => rfl) (fun _ => rfl)
theorem MemSame.modRegs (s : State) (f : Regs → Regs) : MemSame s (s.modRegs f) := .modCore (fun _ => rfl) (fun _ => rfl) (fun _ => rfl)
theorem MemSame.branch (s : State) (b : Branch) : MemSame s (s.branch b) := .modCs s _
theorem MemSame.advance (s : State) : MemSame s s.advance := .modCs s _
theorem MemSame.retS (s : State) (sd : SReg) (v : Word) (t : Bool) : MemSame s (s.retS sd v t) := (MemSame.modRegs s _).trans (.advance _)
theorem MemSame.raise (s : State) (code : BitVec 8) (d : BitVec 32) (v : Word) : MemSame s (s.raise code d v) := .modCs s _
theorem MemSame.illegal (s : State) (d : BitVec 32) : MemSame s (s.illegal d) := .modCs s _
theorem MemSame.misaligned (s : State) (va : Word) : MemSame s (s.misaligned va) := .modCs s _

/-- So do the marks of the moves outstanding (R14, R63). -/
theorem Core.relink_memories (c : Core) : c.relink.store = c.store ∧ c.relink.code = c.code ∧ c.relink.repair = c.repair := by
  unfold Core.relink; split <;> exact ⟨rfl, rfl, rfl⟩

theorem Core.met_memories (c : Core) (l : List Slot) :
    (c.met l).store = c.store ∧ (c.met l).code = c.code ∧ (c.met l).repair = c.repair := Core.relink_memories _

/-- Taking a trap, and returning from one, leave the core's memories. -/
theorem Core.takeTrap_memories (c : Core) (k : Slot) (t : Trap) :
    (c.takeTrap k t).store = c.store ∧ (c.takeTrap k t).code = c.code ∧ (c.takeTrap k t).repair = c.repair := Core.met_memories _ _

theorem Core.testReturn_memories (c : Core) :
    c.testReturn.store = c.store ∧ c.testReturn.code = c.code ∧ c.testReturn.repair = c.repair := by
  unfold Core.testReturn; split <;> exact ⟨rfl, rfl, rfl⟩

theorem Core.returnFrom_memories (c : Core) (k : Slot) :
    (c.returnFrom k).store = c.store ∧ (c.returnFrom k).code = c.code ∧ (c.returnFrom k).repair = c.repair := Core.testReturn_memories _

@[simp] theorem Core.setQueue_store (c : Core) (q : Queue) (x : QState) : (c.setQueue q x).store = c.store := by cases q <;> rfl
@[simp] theorem Core.setQueue_code (c : Core) (q : Queue) (x : QState) : (c.setQueue q x).code = c.code := by cases q <;> rfl
@[simp] theorem Core.setQueue_repair (c : Core) (q : Queue) (x : QState) : (c.setQueue q x).repair = c.repair := by cases q <;> rfl

theorem MemSame.modQueue (s : State) (c : Nat) (q : Queue) (f : QState → QState) : MemSame s (s.modCore c (fun x => x.modQueue q f)) :=
  .modCore (fun _ => Core.setQueue_store ..) (fun _ => Core.setQueue_code ..)
    (fun k => by show ((k.setQueue q _).repair).spareCs = _; rw [Core.setQueue_repair])

/-! Time, reports, parks and losses. -/

theorem MemSame.elapse (s : State) (d : Word) : MemSame s (s.elapse d) := by
  unfold State.elapse; split
  · exact .of_eq rfl rfl rfl
  · dsimp only; split <;> exact .of_eq rfl rfl rfl

theorem MemSame.now (s : State) : MemSame s s.now.2 := (MemSame.free s).trans (.elapse _ _)

theorem MemSame.report (s : State) (part : Nat) (who : Parked) (k : Park) : MemSame s (s.report part who k).2 := by
  unfold State.report
  have h := (MemSame.free s).trans (.now s.free.2)
  dsimp only
  split
  · exact h.trans (.of_eq rfl rfl rfl)
  · exact h.trans (.of_eq rfl rfl rfl)

theorem MemSame.abortRepair (s : State) (c : Nat) : MemSame s (s.modCore c Core.abortRepair) := .modCore (fun _ => rfl) (fun _ => rfl) (fun _ => rfl)

theorem MemSame.parkSlot (s : State) (c : Nat) (k : Slot) (p : Park) (b : Bool) : MemSame s (s.parkSlot c k p b) := by
  unfold State.parkSlot; split
  · exact .abortRepair s c
  · exact (MemSame.report s ..).trans (.modCore (fun _ => rfl) (fun _ => rfl) (fun _ => rfl))

theorem MemSame.parkCs (s : State) (p : Park) : MemSame s (s.parkCs p) := .parkSlot ..

theorem MemSame.parkRing (s : State) (part r : Nat) (k : Park) : MemSame s (s.parkRing part r k) := (MemSame.report s ..).trans (.modPart ..)

theorem MemSame.modNode (s : State) (part n : Nat) (f : Node → Node) : MemSame s (s.modNode part n f) := .modPart ..

theorem MemSame.parkDispatcher (s : State) (part n : Nat) (k : Park) : MemSame s (s.parkDispatcher part n k) :=
  (MemSame.report s ..).trans (.modNode ..)

theorem MemSame.parkCompletion (s : State) (part : Nat) (k : Park) : MemSame s (s.parkCompletion part k) := (MemSame.report s ..).trans (.modPart ..)

theorem MemSame.releaseLeave (s : State) (c : Nat) (q : Queue) : MemSame s (s.releaseLeave c q) := by
  refine MemSame.trans ?_ (.modQueue ..)
  exact .modCluster (fun _ => rfl)

theorem MemSame.parkQueue (s : State) (c : Nat) (q : Queue) (p : Park) : MemSame s (s.parkQueue c q p) := by
  unfold State.parkQueue; split
  · exact .abortRepair s c
  · exact ((MemSame.releaseLeave s c q).trans (.report ..)).trans (.modQueue ..)

theorem MemSame.endLaunch (s : State) (part : Nat) (x : BitVec 8) (d : Word) : MemSame s (s.endLaunch part x d) := .modPart ..

theorem MemSame.unhandled (s : State) (c : Nat) (k : Slot) (code : BitVec 8) : MemSame s (s.unhandled c k code) := by
  unfold State.unhandled; split
  · exact .abortRepair s c
  · refine MemSame.trans ?_ (.endLaunch ..)
    exact .modCore (fun _ => rfl) (fun _ => rfl) (fun _ => rfl)

theorem MemSame.unpark (s : State) (part h : Nat) (who : Parked) : MemSame s (s.unpark part h who) := by
  have hf : MemSame s (s.freeHandle part h) := .modPart ..
  refine hf.trans ?_
  unfold State.unpark
  cases who
  · exact .modCore (fun _ => rfl) (fun _ => rfl) (fun _ => rfl)
  · exact .modQueue ..
  · exact .modCore (fun _ => rfl) (fun _ => rfl) (fun _ => rfl)
  · exact .modPart ..
  · exact .modNode ..
  · exact .modPart ..

theorem MemSame.parkParty (s : State) (who : Party) (k : Park) : MemSame s (s.parkParty who k) := by
  cases who
  · exact .parkSlot ..
  · exact .parkQueue ..
  · exact .parkRing ..
  · exact .refl s
  · exact .parkCompletion ..

theorem MemSame.lose (s : State) (l : Loss) : MemSame s (s.lose l) := by
  unfold State.lose
  split
  · exact .refl s
  · split
    · exact .post ..
    · split
      · exact .abortRepair ..
      · exact .abortRepair ..
      · exact .refl s

/-! Events of the functions. -/

theorem MemSame.changePend (s : State) (part : Nat) (f : Partition → Partition) : MemSame s (s.changePend part f) := by
  unfold State.changePend
  dsimp only
  split
  · exact (MemSame.setPart s part _).trans (.foldl (fun s _ => .send s _) _ _)
  · exact .setPart s part _

theorem MemSame.raiseEvent (s : State) (part n : Nat) : MemSame s (s.raiseEvent part n) := .changePend ..

theorem MemSame.pfEvent (s : State) (n : Nat) : MemSame s (s.pfEvent n) := by
  unfold State.pfEvent; split
  · exact .of_eq rfl rfl rfl
  · exact .send ..

theorem MemSame.capChanged (s : State) : MemSame s s.capChanged :=
  (MemSame.of_eq (t := { s with capGen := s.capGen + 2 }) rfl rfl rfl).trans (.pfEvent ..)

theorem State.MemWf.putHost {s : State} (h : s.MemWf) (a : Word) (l : List Word) : (s.putHost a l).MemWf := by
  refine h.setMem ?_
  have : ∀ (l : List (Word × Nat)) (m : Mem), m.wf = true →
      (l.foldl (fun m x => m.store (hostPa (a + BitVec.ofNat 64 (8 * x.2)) / 8) x.1) m).wf = true := by
    intro l
    induction l with
    | nil => exact fun _ h => h
    | cons x r ih => exact fun m hm => ih _ (Mem.wf_store hm ..)
  exact this _ _ h.1

/-! What passes the limiters (R347, R348). -/

theorem MemSame.transfer (s : State) (part : Nat) (w : Limiter) (n : Nat) : MemSame s (s.transfer part w n) :=
  (MemSame.elapse s _).trans (.modPart ..)

theorem MemSame.transferFabric (s : State) (part n : Nat) (b : Bool) : MemSame s (s.transferFabric part n b) := by
  unfold State.transferFabric; dsimp only; split
  · exact (MemSame.transfer ..).trans (.transfer ..)
  · exact .transfer ..

theorem MemSame.hbmMoves (s : State) (pa n : Nat) : MemSame s (s.hbmMoves pa n) := by
  unfold State.hbmMoves; split
  · exact .transfer ..
  · exact .refl s

theorem MemSame.meter (s : State) (who : Party) (p : Place) (n : Nat) : MemSame s (s.meter who p n) := by
  have h : ∀ (t : State) (x : Option Nat), MemSame t (match x with | some m => t.transfer m .host n | Option.none => t) := by
    intro t x; cases x
    · exact .refl t
    · exact .transfer ..
  have g : ∀ t : State, MemSame t (if p.inHost then
      match (match p.win with | some x => some x.2 | Option.none => s.partyPart who) with
      | some m => t.transfer m .host n
      | Option.none => t
    else if p.home = 3 ∧ p.pa < Config.hbmEnd then t.hbmMoves p.pa n else t) := by
    intro t; split
    · exact h t _
    · split
      · exact .hbmMoves ..
      · exact .refl t
  unfold State.meter
  dsimp only
  refine MemSame.trans ?_ (g _)
  split
  · split
    · exact (MemSame.transferFabric ..).trans (.transferFabric ..)
    · exact .transferFabric ..
  · exact .refl s

/-! Words at their holders. -/

theorem MemSame.countSeal (s : State) (n : Nat) : MemSame s (s.countSeal n) := by
  unfold State.countSeal; split
  · exact .refl s
  · exact .of_eq rfl rfl rfl

/-- Nothing to count (R418). -/
@[simp] theorem State.countSeal_zero (s : State) : s.countSeal 0 = s := rfl

theorem MemSame.dirty (s : State) (p : Place) : MemSame s (s.dirty p) := by
  unfold State.dirty; dsimp only; split
  · exact .modCluster (fun _ => rfl)
  · exact .of_eq rfl rfl rfl

theorem MemSame.raisePts (s : State) (who : Party) (t : Nat) : MemSame s (s.raisePts who t) := by
  cases who
  · exact .modCore (fun _ => rfl) (fun _ => rfl) (fun _ => rfl)
  · exact .modQueue ..
  · exact .modPart ..
  · exact .modPart ..
  · exact .refl s

theorem MemSame.evict (s : State) (line : Nat) : MemSame s (s.evict line) := by
  unfold State.evict; split
  · exact .refl s
  · dsimp only
    split
    · exact (MemSame.hbmMoves s _ _).trans (.of_eq rfl rfl rfl)
    · exact .of_eq rfl rfl rfl

theorem MemSame.llcRoom (s : State) (line : Nat) : MemSame s (s.llcRoom line) := by
  unfold State.llcRoom
  dsimp only
  split
  · exact .refl s
  · split
    · exact (MemSame.free s).trans (.evict ..)
    · exact .free s

theorem MemSame.setHomeTs (s : State) (p : Place) (h : HomeLine) : MemSame s (s.setHomeTs p h) := by
  unfold State.setHomeTs; split
  · exact .modCluster (fun _ => rfl)
  · dsimp only
    split
    · exact (MemSame.llcRoom s _).trans (.of_eq rfl rfl rfl)
    · exact ((MemSame.llcRoom s _).trans (.hbmMoves _ _ _)).trans (.of_eq rfl rfl rfl)

theorem MemSame.setRts (s : State) (p : Place) (t : Nat) : MemSame s (s.setRts p t) := by
  unfold State.setRts; split <;> exact .of_eq rfl rfl rfl

theorem MemSame.addRel (s : State) (p : Place) (r : Release) : MemSame s (s.addRel p r) := by
  unfold State.addRel; dsimp only; split <;> exact .of_eq rfl rfl rfl

/-- A change of the lease cache of a core and of the L2 of a cluster. -/
theorem MemSame.caches (s : State) (c d : Nat) (f : Tab CacheLine → Tab CacheLine) (g : Tab CacheLine → Tab CacheLine) :
    MemSame s ((s.modCore c (fun x => { x with lease := f x.lease })).modCluster d (fun x => { x with l2 := g x.l2 })) :=
  (MemSame.modCore (f := fun x : Core => { x with lease := f x.lease }) (fun _ => rfl) (fun _ => rfl) (fun _ => rfl)).trans (.modCluster (fun _ => rfl))

theorem MemSame.lease (s : State) (c : Nat) (f : Tab CacheLine → Tab CacheLine) : MemSame s (s.modCore c (fun x => { x with lease := f x.lease })) :=
  .modCore (fun _ => rfl) (fun _ => rfl) (fun _ => rfl)

theorem MemSame.keepLease (s : State) (c line : Nat) (l : CacheLine) : MemSame s (s.keepLease c line l) := by
  unfold State.keepLease
  dsimp only
  split
  · exact .modCore (fun _ => rfl) (fun _ => rfl) (fun _ => rfl)
  · exact (MemSame.free s).trans (.modCore (fun _ => rfl) (fun _ => rfl) (fun _ => rfl))

theorem MemSame.keepL2 (s : State) (c line : Nat) (l : CacheLine) : MemSame s (s.keepL2 c line l) := by
  unfold State.keepL2
  dsimp only
  split
  · exact .modCluster (fun _ => rfl)
  · refine (MemSame.free s).trans ?_
    exact .modCluster (fun _ => rfl)

theorem MemSame.keepCopy (s : State) (who : Party) (p : Place) (l : CacheLine) : MemSame s (s.keepCopy who p l) := by
  unfold State.keepCopy
  split
  · exact .refl s
  · dsimp only
    split <;> split
    · exact (MemSame.keepLease ..).trans (.keepL2 ..)
    · exact .keepL2 ..
    · exact .keepLease ..
    · exact .refl s

theorem MemSame.updateCopies (s : State) (who : Party) (p : Place) (t : Nat) : MemSame s (s.updateCopies who p t) := by
  unfold State.updateCopies
  split
  · exact .refl s
  · dsimp only
    split <;> split
    · refine MemSame.trans (t := State.modCore s _ _) (.modCore ?_ ?_ ?_) (.modCluster ?_) <;> exact fun _ => rfl
    · exact .modCluster (fun _ => rfl)
    · exact .modCore (fun _ => rfl) (fun _ => rfl) (fun _ => rfl)
    · exact .refl s

theorem MemSame.dropCopies (s : State) (who : Party) (p : Place) : MemSame s (s.dropCopies who p) := by
  unfold State.dropCopies
  split
  · exact .refl s
  · exact .caches s _ _ (fun t => Tab.erase t _) (fun t => Tab.erase t _)

/-- A read at the home gives the holder's word, and changes no memory (R253). -/
theorem MemSame.readHome (s : State) (who : Party) (p : Place) (acq : Bool) :
    (s.readHome who p acq).1 = s.holderWord p ∨
      (s.readHome who p acq).1 = (s.setHomeTs p ((s.homeTs p).grant (s.pts who))).holderWord p := by
  unfold State.readHome
  split
  · exact .inr rfl
  · exact .inl rfl

theorem MemSame.readHome_state (s : State) (who : Party) (p : Place) (acq : Bool) : MemSame s (s.readHome who p acq).2 := by
  unfold State.readHome
  split
  · exact ((MemSame.setHomeTs s p _).trans (.keepCopy _ who p _)).trans (.raisePts _ who _)
  · dsimp only
    split
    · exact .raisePts ..
    · exact .refl s

/-- So does a second reading (R264, R406). -/
theorem MemSame.readAgain (s : State) (who : Party) (p : Place) (acq : Bool) : MemSame s (s.readAgain who p acq).2 := by
  unfold State.readAgain
  have h : MemSame s (if remoteBase ≤ p.pa then (s.meter who p 8).free.2 else s.meter who p 8) := by
    split
    · exact (MemSame.meter ..).trans (.free _)
    · exact .meter ..
  dsimp only
  generalize (if remoteBase ≤ p.pa then (s.meter who p 8).free.2 else s.meter who p 8) = t at h ⊢
  split
  · exact (h.trans (.dropCopies ..)).trans (.readHome_state ..)
  · exact ((h.trans (.dropCopies ..)).trans (.readHome_state ..)).trans (.dropCopies ..)

/-- A read changes no memory (R253). -/
theorem MemSame.readWord (s : State) (who : Party) (p : Place) (acq : Bool) : MemSame s (s.readWord who p acq).2 := by
  unfold State.readWord
  split
  · exact .readHome_state ..
  · dsimp only
    split
    · exact .raisePts ..
    · split
      · exact (MemSame.keepLease ..).trans (.raisePts ..)
      · exact .raisePts ..
    · exact .readHome_state ..

theorem MemSame.stamp (s : State) (who : Party) (p : Place) (rel : Bool) : MemSame s (s.stamp who p rel) := by
  unfold State.stamp
  split
  · exact (((MemSame.setHomeTs s p _).trans (.raisePts _ who _)).trans (.updateCopies _ who p _)).trans (.dirty ..)
  · have h : ∀ t : State, MemSame t (if p.lent then
        (t.setHomeTs p { wts := (t.homeTs p).rts + 1, rts := (t.homeTs p).rts + 1 }).dirty p else t) := by
      intro t; split
      · exact (MemSame.setHomeTs t p _).trans (.dirty ..)
      · exact .refl t
    have g := fun n => (MemSame.raisePts s who n).trans (h _)
    dsimp only
    split
    · split
      · exact ((g _).trans (.setRts ..)).trans (.addRel ..)
      · exact (g _).trans (.setRts ..)
    · exact g _

/-- Whatever the lane finds, consuming a word changes no memory (R406). -/
theorem MemSame.consume (s : State) (who : Party) (p : Place) (acq : Bool) :
    (∀ w t, s.consume who p acq = .good w t → MemSame s t) ∧ ∀ y1 y2 t, s.consume who p acq = .lost y1 y2 t → MemSame s t := by
  have h1 := (MemSame.meter s who p 8).trans (.readWord _ who p acq)
  have h2 := h1.trans (.readAgain _ who p acq)
  unfold State.consume
  dsimp only
  split
  · constructor
    · intro w t e; cases e; exact h1
    · intro _ _ _ e; cases e
  · split
    · constructor
      · intro w t e; cases e; exact h2.trans (.countSeal ..)
      · intro _ _ _ e; cases e
    · constructor
      · intro _ _ e; cases e
      · intro _ _ t e; cases e; exact h2

/-- A whole word and its seal written at the holder keep the canonical form (R172). -/
theorem State.MemWf.putHolder {s : State} (h : s.MemWf) (p : Place) (w : Word) (sl : BitVec 8) : (s.putHolder p w sl).MemWf := by
  unfold State.putHolder
  split
  · exact h.modCore (fun k hk => ⟨Mem.wf_write hk.1 .., hk.2.1, hk.2.2⟩)
  · split
    · exact h.modCluster (fun k hk => Mem.wf_write hk ..)
    · split
      · exact h
      · exact h.setMem (Mem.wf_write h.1 ..)

/-- So does a store, merged or whole (R172, R173). -/
theorem State.MemWf.mergeOver {s : State} (h : s.MemWf) (old : Word × BitVec 8) (who : Party) (p : Place) (n : Word) (m pc : BitVec 8)
    (poison rel : Bool) :
    (∀ t, s.mergeOver old who p n m pc poison rel = .done t → t.MemWf) ∧
      ∀ y t, s.mergeOver old who p n m pc poison rel = .lost y t → t.MemWf := by
  unfold State.mergeOver
  replace h := (MemSame.meter s who p ((List.range 8).filter (bit m)).length).wf h
  dsimp only
  split
  · exact ⟨fun t e => (by cases e; exact (MemSame.stamp ..).wf (h.putHolder ..)), fun _ _ e => (by cases e)⟩
  · split
    · exact ⟨fun _ e => (by cases e), fun _ t e => (by cases e; exact h)⟩
    · split
      · exact ⟨fun _ e => (by cases e), fun _ t e => (by cases e; exact h.putHolder ..)⟩
      · exact ⟨fun t e => (by cases e; exact (MemSame.stamp ..).wf (h.putHolder ..)), fun _ _ e => (by cases e)⟩

theorem State.MemWf.mergeHolder {s : State} (h : s.MemWf) (who : Party) (p : Place) (n : Word) (m pc : BitVec 8) (poison rel : Bool) :
    (∀ t, s.mergeHolder who p n m pc poison rel = .done t → t.MemWf) ∧
      ∀ y t, s.mergeHolder who p n m pc poison rel = .lost y t → t.MemWf := h.mergeOver ..

theorem State.MemWf.writeHolder {s : State} (h : s.MemWf) (who : Party) (p : Place) (n : Word) (m : BitVec 8) (rel : Bool) :
    (∀ t, s.writeHolder who p n m rel = .done t → t.MemWf) ∧ ∀ y t, s.writeHolder who p n m rel = .lost y t → t.MemWf :=
  h.mergeHolder ..

/-! Forced bits, and bursts that HBM reports (R407, R448). -/

theorem Core.MemWf.force {c : Core} (h : c.MemWf) : c.force.MemWf := by
  unfold Core.force; split
  · exact ⟨Mem.wf_write h.1 .., h.2.1, h.2.2⟩
  · exact h

theorem State.MemWf.poisonBurst {s : State} (h : s.MemWf) (w n : Nat) : (s.poisonBurst w n).MemWf := by
  unfold State.poisonBurst; split
  · exact h
  · refine h.setMem ?_
    have : ∀ (l : List Nat) (m : Mem), m.wf = true →
        (l.foldl (fun m i => m.putSeal (w + i) (poisonSeal (m.word (w + i)))) m).wf = true := by
      intro l
      induction l with
      | nil => exact fun _ h => h
      | cons x r ih => exact fun m hm => ih _ (Mem.wf_putSeal hm ..)
    exact this _ _ h.1

theorem State.MemWf.mediaEvent {s t : State} (h : s.MemWf) (e : s.mediaEvent = some t) : t.MemWf := by
  unfold State.mediaEvent at e
  dsimp only at e
  split at e
  · cases e
  · cases e; exact (MemSame.of_eq rfl rfl rfl).wf h
  · split at e
    · cases e; exact (MemSame.of_eq rfl rfl rfl).wf h
    · cases e
  · cases e; exact State.MemWf.poisonBurst ((MemSame.of_eq (t := { s with fresh := s.fresh + 1 }) rfl rfl rfl).wf h) ..

end Sys2Proof.Machine
end

