-- ==== Sys2Proof/Laws/Slot.lean ====
section
/-! SUPPORT. What the operations of one slot leave alone and what they write: results, the chain, conditions and traps. -/

namespace Sys2Proof.Machine

/-! Frames of a slot's own updates. -/

theorem OnlyCore.refl (s : State) (c : Nat) : OnlyCore s s c := ⟨rfl, fun _ _ => rfl⟩

theorem SlotActs.refl (s : State) : SlotActs s s := ⟨.refl _ _, rfl, fun _ _ => rfl⟩

/-- A change of one core is a change of that core alone. -/
theorem OnlyCore.modCore {s t : State} {c : Nat} (h : OnlyCore s t c) (f : Core → Core) : OnlyCore s (t.modCore c f) c :=
  ⟨h.1, fun k hk => by rw [State.core_modCore, if_neg hk]; exact h.2 k hk⟩

theorem OnlyCore.cur {s t : State} {c : Nat} (h : OnlyCore s t c) : t.cur = s.cur := by have e := congrArg State.cur h.1; exact e

/-- What holds the same place in every field but `cores` is the same. -/
theorem OnlyCore.opened {s t : State} {c : Nat} (h : OnlyCore s t c) : t.opened = s.opened := by have e := congrArg State.opened h.1; exact e

theorem SlotActs.cur {s t : State} (h : SlotActs s t) : t.cur = s.cur := h.1.cur

/-- A change of the acting core's registers and acting slot. -/
theorem SlotActs.modCc {s t : State} (h : SlotActs s t) (f : Core → Core)
    (hf : { f t.cc with regs := t.cc.regs, slots := t.cc.slots } = t.cc)
    (hs : ∀ k, k ≠ s.cur.slot → (f t.cc).slot k = t.cc.slot k) : SlotActs s (t.modCc f) := by
  refine ⟨?_, ?_, fun k hk => ?_⟩
  · unfold State.modCc; rw [h.cur]; exact h.1.modCore f
  · rw [State.cc_modCc]
    have e := h.2.1
    have e' := congrArg (fun c : Core => { c with regs := s.cc.regs, slots := s.cc.slots }) hf
    exact e'.trans e
  · rw [State.cc_modCc, hs k hk]; exact h.2.2 k hk

theorem SlotActs.modRegs {s t : State} (h : SlotActs s t) (f : Regs → Regs) : SlotActs s (t.modRegs f) :=
  h.modCc _ rfl (fun _ _ => rfl)

theorem SlotActs.modCs {s t : State} (h : SlotActs s t) (f : SlotState → SlotState) : SlotActs s (t.modCs f) := by
  refine h.modCc _ rfl (fun k hk => ?_)
  rw [Core.slot_modSlot, if_neg (by rw [h.cur]; exact hk)]

theorem SlotActs.branch {s t : State} (h : SlotActs s t) (b : Branch) : SlotActs s (t.branch b) := h.modCs _
theorem SlotActs.raise {s t : State} (h : SlotActs s t) (code : BitVec 8) (d : BitVec 32) (v : Word) :
    SlotActs s (t.raise code d v) := h.modCs _

@[simp] theorem State.cc_regs_modCs (s : State) (f : SlotState → SlotState) : (s.modCs f).cc.regs = s.cc.regs := by
  unfold State.modCs; rw [State.cc_modCc]; rfl
@[simp] theorem State.cc_src_modCs (s : State) (f : SlotState → SlotState) : (s.modCs f).cc.src = s.cc.src := by
  unfold State.modCs; rw [State.cc_modCc]; rfl
@[simp] theorem State.cc_regs_branch (s : State) (b : Branch) : (s.branch b).cc.regs = s.cc.regs := State.cc_regs_modCs _ _
@[simp] theorem State.cc_src_branch (s : State) (b : Branch) : (s.branch b).cc.src = s.cc.src := State.cc_src_modCs _ _
@[simp] theorem State.cc_src_modRegs (s : State) (f : Regs → Regs) : (s.modRegs f).cc.src = s.cc.src := by
  rw [State.cc_modRegs]
@[simp] theorem State.cc_regs_raise (s : State) (c : BitVec 8) (d : BitVec 32) (v : Word) :
    (s.raise c d v).cc.regs = s.cc.regs := State.cc_regs_modCs _ _
@[simp] theorem State.cs_raise (s : State) (c : BitVec 8) (d : BitVec 32) (v : Word) :
    (s.raise c d v).cs = { s.cs with pend := some { code := c, detail := d, tval := v } } := State.cs_modCs _ _

/-- The chain after a branch outcome (R110). -/
theorem Chained.of_cs {s t : State} (h : t.cs = s.cs) (b : Branch) : Chained s (t.branch b) b := by
  unfold Chained; rw [State.cs_branch, h]; rfl

/-- The chain is untouched by a write of registers. -/
theorem Chained.modRegs {s t : State} {b : Branch} (h : Chained s t b) (f : Regs → Regs) : Chained s (t.modRegs f) b := by
  unfold Chained at *; rw [State.cs_modRegs]; exact h

@[simp] theorem State.gbrOutcome_modRegs (s : State) (f : Regs → Regs) : (s.modRegs f).gbrOutcome = s.gbrOutcome := by
  unfold State.gbrOutcome; rw [State.cs_modRegs]

/-- An instruction that writes registers and advances its chain. -/
theorem State.writes (s : State) (f : Regs → Regs) :
    SlotActs s (s.modRegs f).advance ∧ Chained s (s.modRegs f).advance s.gbrOutcome ∧
      (s.modRegs f).advance.cc.regs = f s.cc.regs := by
  refine ⟨((SlotActs.refl s).modRegs f).branch _, ?_, ?_⟩
  · rw [State.advance, State.gbrOutcome_modRegs]; exact Chained.of_cs (State.cs_modRegs _ _) _
  · rw [State.advance, State.cc_regs_branch, State.cc_modRegs]

/-- An instruction that only takes a branch outcome. -/
theorem State.branches (s : State) (b : Branch) :
    SlotActs s (s.branch b) ∧ Chained s (s.branch b) b ∧ (s.branch b).cc.regs = s.cc.regs :=
  ⟨(SlotActs.refl s).branch b, Chained.of_cs rfl b, State.cc_regs_branch s b⟩

theorem ScalarWritten.sset (r : Regs) (sd : SReg) (v : Word) (t : Bool) : ScalarWritten r (r.sset sd v t) sd v t :=
  ⟨Regs.sset_frame _ _ _ _, fun n => by rw [Regs.sget_sset]; by_cases h : n = sd <;> simp [h],
    fun n => by rw [Regs.tget_sset]; by_cases h : n = sd <;> simp [h]⟩

theorem VectorWritten.vset (r : Regs) (vd : VReg) (f : Nat → Elem) :
    VectorWritten r (r.vset vd.toNat (VVal.ofFn f)) vd f :=
  ⟨rfl, fun e he => by rw [Regs.vget_vset, if_pos rfl, VVal.get_ofFn, if_pos he],
    fun n hn => by rw [Regs.vget_vset, if_neg hn]⟩

theorem MaskWritten.mset (r : Regs) (md : MReg) (v : BitVec 1024) :
    MaskWritten r (r.mset md v) md (fun e => v.getLsbD e) := by
  refine ⟨Regs.mset_frame _ _ _, fun e he => ?_, fun n hn => by rw [Regs.mget_mset, if_neg (fun h => hn h.1)]⟩
  by_cases h : md = 0
  · rw [h, Regs.mset_zero, if_pos rfl, Regs.mget, if_pos rfl, BitVec.getLsbD_allOnes, decide_eq_true he]
  · rw [Regs.mget_mset, if_pos ⟨rfl, h⟩, if_neg h]

/-! One lemma for each shape of scalar instruction. -/

/-- A scalar result completes (R102). -/
theorem State.retS_gives {i : Instr} {s : State} {sd : SReg} {v : Word} {tt : Bool} (h : exec i s = .next (s.retS sd v tt)) :
    GivesScalar i s sd v tt := by
  have w := s.writes (fun r => r.sset sd v tt)
  exact ⟨_, h, w.1, w.2.1, by rw [State.retS, State.ws, w.2.2]; exact ScalarWritten.sset _ _ _ _⟩

/-- A branch outcome completes (R110). -/
theorem State.branch_gives {i : Instr} {s : State} {b : Branch} (h : exec i s = .next (s.branch b)) : GivesBranch i s b :=
  ⟨_, h, s.branches b⟩

/-- A fault-class trap leaves the chain at its bundle (R117). -/
theorem State.raise_traps {i : Instr} {s : State} {code : BitVec 8} {d : BitVec 32} {v : Word}
    (h : exec i s = .next (s.raise code d v)) : Traps i s code d v := by
  refine ⟨_, h, OnlyCore.modCore (.refl _ _) _, ?_, fun k hk => ?_, State.cs_raise _ _ _ _⟩
  · rw [State.raise, State.modCs, State.cc_modCc]; rfl
  · rw [State.raise, State.modCs, State.cc_modCc, Core.slot_modSlot, if_neg hk]

end Sys2Proof.Machine
end

