-- ==== Sys2Proof/Tests/Slice0.lean ====
section
/-! SUPPORT. Tests of single steps, and witnesses: states and operands that meet the hypotheses of the statements. -/

set_option Elab.async false

namespace Sys2Proof.Tests

open Sys2Proof Sys2Proof.Machine

/-! Ill-formed terms: one for each check. -/

/-- Field combinations that R75, R79, R80, R130, R141 and R151 reserve. -/
theorem test_reserved_fields_refused :
    [Instr.jmp .notTaken 0, .call 1 .notTaken 0, .callr 1 2 .notTaken, .ret 2 .notTaken, .ld .d false .release 1 1 2 0,
     .ld .d false .plain 1 1 2 0, .st .d .acquire 1 1 2 0, .st .d .plain 1 1 2 0, .amoAdd true .plain 1 1 2 3 0, .amoSwap true .plain 1 1 2 3 0,
     .cas true .plain 1 1 2 3 4 0, .clset 3 1, .semsig 0 1 0 false 3].all (fun i => i.check == .reserved) = true := by decide

theorem test_reserved_vector_fields_refused :
    [Instr.vadd .i32 0 1 2 0, .vfma .ui8x4 0 1 2 3 0, .vabs .i16x2 0 1 0, .vrcp .e4m3x4 0 1 0, .vtanh .i32 0 1 0, .viadd .f32 0 1 2 0,
     .vfshl .bf16x2 0 1 2 3 0, .vpopc .f16x2 0 1 0, .vcvt .f32 .bf16x2 0 1 0, .vpack .f32 .bf16x2 0 1 2 0, .vunpack .bf16x2 .f32 0 1 0,
     .vmxq .e4m3 .i32 0 1 2 0, .vmxd .e4m3 .e5m2x4 0 1 2 0, .vredr .and .f32 0 1 0, .vscanr .xor .f32 0 1 0, .vredc .or .bf16x2 0 1 0,
     .vld .release 1 0 1 0 0, .vst .acquire 1 0 1 0 0, .vldb .plain 1 0 1 0 0, .vsts .plain 1 0 1 2 0 0, .vgath .release 0 0 1 2 0,
     .vscat .acquire 0 0 1 2 0].all (fun i => i.check == .reserved) = true := by decide

/-- Operands past a limit of R79, R80, R125, R154 or R19. -/
theorem test_operands_refused :
    [Instr.bfx 1 2 0 0, .bfxu 1 2 0 65, .bfi 1 2 60 5, .sext 1 2 0, .zext 1 2 65, .lea 1 2 3 64, .jset 32, .jclr 32, .jwait 255,
     .clset 32 1, .clget 1 32 0, .semsig 0 0 0 false 0, .barset 64 1, .bararr 64 0, .barwait 64 0, .bararw 64 0, .slate 0,
     .cenq .mq 1 0].all (fun i => i.check == .operand) = true := by decide

theorem test_vector_operands_refused :
    [Instr.vadd .f32 160 1 2 0, .vadd .f32 0 160 2 0, .vadd .f32 0 1 160 0, .vfma .f32 0 1 2 160 0, .vabs .f32 255 1 0,
     .vcmp .eq .f32 0 160 1 0, .viadd .i32 0 1 200 0, .vlop3 .i32 0 1 2 160 0 0, .vcvt .f32 .i32 160 1 0, .vpack .bf16x2 .f32 0 160 1 0,
     .vunpack .f32 .bf16x2 159 1 0, .vmxq .e4m3 .f32 160 1 2 0, .vsel 0 1 160 0, .vmov 0 160 0, .vmovs 160 1 2 0,
     .vext 1 2 1024 0, .vins 1 2 3 1024 0, .vmovi .i16x2 0 0x10000 0, .vmovi .i32 160 0 0, .vrotr .f32 1 2 64 0, .vbcr .f32 1 2 64 0,
     .vrotc .f32 1 2 16 0, .vbcc .f32 1 2 16 0, .vredr .add .f32 160 1 0, .vtrn 1 160 0, .vperm 1 2 160 0, .vcompress 160 1 2 0,
     .vexpand 1 160 0, .vld .plain 0 160 1 0 0, .vgath .plain 0 1 160 2 0, .accld false 160 0 0, .accst 160 0 0].all
      (fun i => i.check == .operand) = true := by decide

/-- Steps of a party that does not exist, R2, R4, R318 and R392. -/
theorem test_absent_parties_refused :
    [Instr.rendezvous 256 0, .mma 256, .copyRecord 0 .mq, .fill 256 .cq0, .join 256 .mq].all (fun i => !i.wellFormed) = true ∧
    (Instr.dispatchStep 32).wellFormed = false ∧ (Instr.doorbell 0 16 0).wellFormed = false ∧ (Instr.launch 32 ⟨0, none⟩).wellFormed = false ∧
    (Instr.revokeSaveTimeout 0 256).wellFormed = false ∧ (Instr.go 4).wellFormed = false ∧ (Instr.point 32 0).wellFormed = false ∧
    (Instr.vfBar2Access 32 false 0 ⟨0, false⟩ 0).wellFormed = false := by decide

/-! Words of the spec's tables (R90 to R93, R109, R128, R148, R168 and the listings of the programs), and words written out by field. -/

theorem test_decode_scalar :
    decode .A 0x010C108000000000 = .ok (.add 3 1 2) ∧ decode .A 0x08104000FFFFFFFF = .ok (.addi 4 4 0xFFFFFFFF) ∧
    decode .A 0x020C1084E8000000 = .ok (.lop3 3 1 2 4 0xE8) ∧ decode .A 0x0314108000040000 = .ok (.cmp .ltu 5 1 2) ∧
    decode .A 0x040C10000000080C = .ok (.bfx 3 1 8 12) ∧ decode .A 0x0A24000000000001 = .ok (.movhi 9 1) ∧
    decode .B 0x05BEF60020000000 = .ok (.lea 47 47 24 32) ∧ decode .B 0x88082000FFFFFFFF = .ok (.addi 2 2 0xFFFFFFFF) := by decide

theorem test_decode_control :
    decode .A 0x20042480FFFFFFFD = .ok (.br .lt .notTaken 1 2 0xFFFFFFFD) ∧ decode .A 0x23FC000000000010 = .ok (.call 63 .none 16) ∧
    decode .A 0x2503F00000000000 = .ok (.ret 63 .none) ∧ decode .A 0x2600108300000000 = .ok (.jt 1 2 3) ∧
    decode .V 0x2700000000000007 = .ok (.trap 7) ∧ decode .E 0x2800000000000000 = .ok .eret ∧ decode .B 0x2900000000000000 = .ok .halt ∧
    decode .A 0xA1080200FFFFFFEE = .ok (.gbr .ne .none 2 0 0xFFFFFFEE) ∧ decode .A 0x2200000000000003 = .ok (.jmp .none 3) ∧
    decode .A 0x20055B0000000004 = .ok (.br .geu .taken 1 21 4) ∧
    decode .B (0#1 ++ 0x24#7 ++ 40#6 ++ 9#6 ++ 0#12 ++ 2#2 ++ 0#30) = .ok (.callr 40 9 .taken) := by decide

theorem test_decode_memory :
    decode .A 0x311C600000000003 = .ok (.st .b .plain 0 7 6 3) ∧ decode .A 0x311C6C8400000000 = .ok (.st .d .release 2 7 6 0) ∧
    decode .A 0x32209C0000000008 = .ok (.ldc .d false 8 9 8) ∧ decode .A 0x3500600000000000 = .ok (.pref 6 0) ∧
    decode .A 0x331461C0C5000000 = .ok (.amoAdd true .acqRel 2 5 6 7 0) ∧ decode .A 0x341461C844000008 = .ok (.cas false .acquire 2 5 6 7 8 8) ∧
    decode .A (0#1 ++ 0x30#7 ++ 8#6 ++ 9#6 ++ 2#2 ++ 1#1 ++ 0#1 ++ 1#2 ++ 4#5 ++ 0#1 ++ 0xFFFFFFFC#32) =
      .ok (.ld .w true .acquire 4 8 9 0xFFFFFFFC) := by decide

theorem test_decode_sync :
    decode .B 0x4000000100000000 = .ok (.jset 4) ∧ decode .B 0x4000000100200000 = .ok (.jwait 4) ∧
    decode .B 0x410C000000000020 = .ok (.crd 3 0x020) ∧ decode .B 0x4100300000100020 = .ok (.cwr 0x020 3) ∧
    decode .B 0x4500000000100001 = .ok (.semwait 0 0 1 0) ∧ decode .B 0xC500900042200000 = .ok (.semacq 1 9 0 1) ∧
    decode .B 0xC500300043000001 = .ok (.semsig 1 1 1 true 3) := by decide

theorem test_decode_vector :
    decode .V 0xD004050600000000 = .ok (.vadd .f32 4 5 6 0) ∧ decode .V 0x5104050607310000 = .ok (.vfma .bf16x2 4 5 6 7 3) ∧
    decode .V 0x5304050000003000 = .ok (.vexp2 .f32 4 5 0) ∧ decode .V 0x5402050600000200 = .ok (.vcmp .lt .f32 2 5 6 0) ∧
    decode .V 0x5803040500770000 = .ok (.viadd .i16x2 3 4 5 7) ∧ decode .V 0x5904050607053096 = .ok (.vlop3 .i32 4 5 6 7 0x96 0) ∧
    decode .V 0x5C08090000000500 = .ok (.vcvt .f32 .i32 8 9 0) ∧ decode .V 0x5C1E0C0000002100 = .ok (.vunpack .f32 .bf16x2 30 12 0) ∧
    decode .V 0x5D14150900000100 = .ok (.vmxq .e4m3 .f32 20 21 9 0) ∧ decode .V 0x5D16140900001100 = .ok (.vmxd .e4m3 .f32 22 20 9 0) := by
  decide

theorem test_decode_axes :
    decode .V 0x6404050000000003 = .ok (.vrotr .f32 4 5 3 0) ∧ decode .V 0x6406070000253000 = .ok (.vscanr .add .i32 6 7 2) ∧
    decode .V 0x650809000000100F = .ok (.vbcc .f32 8 9 15 0) ∧ decode .V 0x650A0B0000052200 = .ok (.vredc .max .i32 10 11 0) ∧
    decode .V 0x660C0D0000000000 = .ok (.vtrn 12 13 0) ∧ decode .V 0x6611120005302000 = .ok (.vcompress 17 18 5 3) ∧
    decode .V 0x6004050600700000 = .ok (.vsel 4 5 6 7) ∧ decode .V 0x6101020300000000 = .ok (.mand 1 2 3 0) ∧
    decode .V 0x6103020000004000 = .ok (.mpopc 3 2 0) ∧ decode .V 0x62050900000022BC = .ok (.vext 5 9 700 0) ∧
    decode .V 0x62090905000032BC = .ok (.vins 9 9 5 700 0) ∧ decode .V 0x6304050000010002 = .ok (.vmovi .i32 4 0x00010002 0) := by decide

theorem test_decode_engine :
    decode .E 0x7004001802000002 = .ok (.vld .plain 0 4 6 2 2) ∧ decode .E 0x7004001800844000 = .ok (.vst .release 2 4 6 0 0) ∧
    decode .E 0x7104001870000000 = .ok (.vlds .plain 0 4 6 7 0 0) ∧ decode .E 0x7204091800000000 = .ok (.vgath .plain 0 4 9 6 0) ∧
    decode .E 0x7818000000000000 = .ok (.menq 6 0) ∧ decode .E 0x7918080000000040 = .ok (.cenq .cq1 6 64) ∧
    decode .E 0x7A18000000000080 = .ok (.qjoin .mq 6 128) ∧ decode .E 0x7B00000000000001 = .ok (.slate 1) ∧
    decode .E 0x7B00340000100000 = .ok (.qstat 3 .cq0) ∧ decode .E 0x74040A8000000000 = .ok (.accld true 4 0 10) := by decide

/-- A reserved bit, a column without the opcode, a register that does not exist, and an opcode that the map leaves out. -/
theorem test_decode_refusals :
    decode .A 0x010C108000000001 = .trap 0x01 ∧ decode .V 0x010C108000000000 = .trap 0x02 ∧ decode .V 0xD0A0050600000000 = .trap 0x03 ∧
    decode .A 0x7F00000000000000 = .trap 0x01 := by decide

theorem test_encode_words :
    encode 0 (.add 3 1 2) = some 0x010C108000000000 ∧ encode 1 (.gbr .ne .none 2 0 0xFFFFFFEE) = some 0xA1080200FFFFFFEE ∧
    encode 0 (.vlop3 .i32 4 5 6 7 0x96 0) = some 0x5904050607053096 ∧ encode 0 (.cas false .acquire 2 5 6 7 8 8) = some 0x341461C844000008 := by
  decide

theorem test_table_word : decodeTableWord 64 0x2900000000000000 = some .halt := by decide

/-! A small device: core 0 runs node 0 of partition 0, which has cluster 0. -/

def bound : Bind := { part := 0, node := 0, gpos := 0, glast := 0, vcore := 0 }

/-- A cached translation of a page of 4 KiB for a slot of core 0, at the same physical address. -/
def page (k : Slot) (va : Nat) : Cached :=
  { party := .slot 0 k, va, size := 4096, ipa := va, pa := va, r := true, w := true, x := true, home := 3, tgt := 0, keep := false,
    dirty := true, leaf := 0 }

def running : Launch := { ring := 0, words := [], pos := 0, gen := 0, nnode := 1 }

def part0 : Partition :=
  { state := 1, clusters := [0], launch := some running, vfstate := 1
    tlb := [page .A 0x100000, page .B 0x100000, page .E 0x100000] }

/-- Core 0 with registers `r` as a bundle opens. -/
def core0 (r : Regs) : Core := { regs := r, src := r, bind := some bound, repair := { active := false } }

/-- The device with slot `k` of core `c` acting, and a partition. -/
def devWith (p : Partition) (c : Core) (k : Slot) : State :=
  { State.reset with
    cores := [(0, c)], parts := [(0, p)], clusters := [(0, { owner := some 0, holder := some 0 })]
    cur := { core := 0, slot := k, word := 0x77 }, bootDone := true }

def dev (c : Core) (k : Slot) : State := devWith part0 c k

/-- Scalar registers by number. -/
def sregs (l : List (Nat × Word)) : Regs := { s := l }

/-- What the instruction answers, looked at by `f`; false where it gives no next state. -/
def after (i : Instr) (s : State) (f : State → Bool) : Bool :=
  match exec i s with
  | .next t => f t
  | .fault _ | .refused _ => false

/-- A translation that gives a place, looked at with the state after it. -/
def placed (w : Walked) (f : Place → State → Bool) : Bool :=
  match w with
  | .ok p s => f p s
  | .fault .. | .lost .. => false

/-! Scalar instructions and branches (values of R103 to R107, R112 to R116). -/

/-- R104: DIV of -7 by 2 gives -3 and REM gives -1; division by 0 gives all ones, and the remainder a. -/
theorem test_div_rounds_towards_zero :
    after (.div 3 1 2) (dev (core0 (sregs [(1, BitVec.ofInt 64 (-7)), (2, 2)])) .A)
      (fun t => t.cc.regs.sget 3 == BitVec.ofInt 64 (-3) && t.cs.c0 == 0x400060) = true ∧
    after (.rem 3 1 2) (dev (core0 (sregs [(1, BitVec.ofInt 64 (-7)), (2, 2)])) .A) (fun t => t.cc.regs.sget 3 == BitVec.ofInt 64 (-1)) = true ∧
    after (.divu 3 1 2) (dev (core0 (sregs [(1, 9)])) .A) (fun t => t.cc.regs.sget 3 == 0xFFFFFFFFFFFFFFFF) = true ∧
    after (.rem 3 1 2) (dev (core0 (sregs [(1, 9)])) .A) (fun t => t.cc.regs.sget 3 == 9) = true := by decide +kernel

theorem test_div_corner :
    after (.div 3 1 2) (dev (core0 (sregs [(1, 0x8000000000000000), (2, 0xFFFFFFFFFFFFFFFF)])) .A)
      (fun t => t.cc.regs.sget 3 == 0x8000000000000000) = true ∧
    after (.rem 3 1 2) (dev (core0 (sregs [(1, 0x8000000000000000), (2, 0xFFFFFFFFFFFFFFFF)])) .A) (fun t => t.cc.regs.sget 3 == 0) = true := by
  decide +kernel

/-- R19, R20: s0 stays zero, and a result takes the taint of its sources. -/
theorem test_s0_and_taint :
    after (.addi 0 1 5) (dev (core0 { sregs [(1, 1)] with taint := [(1, true)] }) .A)
      (fun t => t.cc.regs.sget 0 == 0 && !t.cc.regs.tget 0 && t.cs.c0 == 0x400060) = true ∧
    after (.add 3 2 1) (dev (core0 { sregs [(1, 1)] with taint := [(1, true)] }) .A) (fun t => t.cc.regs.tget 3) = true ∧
    after (.movi 1 0xFFFFFFFF) (dev (core0 { sregs [(1, 1)] with taint := [(1, true)] }) .A)
      (fun t => !t.cc.regs.tget 1 && t.cc.regs.sget 1 == 0xFFFFFFFFFFFFFFFF) = true := by decide +kernel

/-- R103, R105: a high product, a rotation by 0, the majority of three and a funnel shift. -/
theorem test_scalar_forms :
    after (.mulh 3 1 2) (dev (core0 (sregs [(1, 0xFFFFFFFFFFFFFFFF), (2, 2)])) .A) (fun t => t.cc.regs.sget 3 == 0xFFFFFFFFFFFFFFFF) = true ∧
    after (.rotl 3 1 2) (dev (core0 (sregs [(1, 0x8000000000000001), (2, 64)])) .A) (fun t => t.cc.regs.sget 3 == 0x8000000000000001) = true ∧
    after (.lop3 3 1 2 4 0xE8) (dev (core0 (sregs [(1, 0b1100), (2, 0b1010), (4, 0b1001)])) .B) (fun t => t.cc.regs.sget 3 == 0b1000) = true ∧
    after (.fshl 3 1 2 4) (dev (core0 (sregs [(1, 1), (2, 0x8000000000000000), (4, 1)])) .A) (fun t => t.cc.regs.sget 3 == 3) = true := by
  decide +kernel

/-- R107: fields at both ends of their range. -/
theorem test_bit_fields :
    after (.bfx 3 1 63 1) (dev (core0 (sregs [(1, 0x8000000000000000)])) .A) (fun t => t.cc.regs.sget 3 == 0xFFFFFFFFFFFFFFFF) = true ∧
    after (.bfxu 3 1 0 64) (dev (core0 (sregs [(1, 0x8000000000000005)])) .A) (fun t => t.cc.regs.sget 3 == 0x8000000000000005) = true ∧
    after (.bfi 3 1 4 4) (dev (core0 (sregs [(1, 0xAB), (3, 0xFFFF)])) .A) (fun t => t.cc.regs.sget 3 == 0xFFBF) = true ∧
    after (.sext 3 1 8) (dev (core0 (sregs [(1, 0x180)])) .A) (fun t => t.cc.regs.sget 3 == 0xFFFFFFFFFFFFFF80) = true := by decide +kernel

/-- R110 to R113: a taken branch lands after its two delay slots; the link is X + 96; NUL 01 annuls when not taken. -/
theorem test_branches :
    after (.br .lt .notTaken 1 2 0xFFFFFFFD) (dev (core0 (sregs [(1, BitVec.ofInt 64 (-1))])) .A)
      (fun t => t.cs.c0 == 0x400060 && t.cs.c1 == 0x400080 && t.cs.c2 == 0x3FFFE0 && !t.cs.ann0 && !t.cs.ann1) = true ∧
    after (.br .lt .notTaken 2 1 0xFFFFFFFD) (dev (core0 (sregs [(1, BitVec.ofInt 64 (-1))])) .A)
      (fun t => t.cs.c2 == 0x4000A0 && t.cs.ann0 && t.cs.ann1) = true ∧
    after (.callr 5 5 .none) (dev (core0 { sregs [(5, 0x2000)] with taint := [(5, true)] }) .A)
      (fun t => t.cs.c2 == 0x2000 && t.cc.regs.sget 5 == 0x4000A0 && !t.cc.regs.tget 5) = true ∧
    after (.ret 5 .none) (dev (core0 (sregs [(5, 0x2010)])) .A)
      (fun t => t.cs.c0 == 0x400040 && t.cs.pend == some { code := 0x04, detail := 0, tval := 0x2010 }) = true := by decide +kernel

/-- Core 0 with a trap of slot V waiting and a handler at 0x8000. -/
def trapped : Core :=
  let c := core0 { sregs [] with tvec := 0x8000 }
  c.setSlot .V { c0 := 0x2040, c1 := 0x2060, c2 := 0x2080, ann1 := true, pend := some { code := 0x50, detail := 9, tval := 0 } }

/-- R118: entry saves every chain and vectors all four slots. -/
theorem test_trap_entry :
    after (.trapEntry 0) (dev trapped .A) (fun t =>
      t.cc.regs.xget .V 0 == 0x2040 && t.cc.regs.xget .V 3 == 2 && t.cc.regs.tcause == 0x0000000900000250 && t.cc.busy &&
      (t.cc.slot .V).c0 == 0x8000 && (t.cc.slot .E).c2 == 0x8040 && (t.cc.slot .V).pend == none) = true := by decide +kernel

/-- R120: ERET of the last slot restores its chain and clears the handler-busy state. -/
theorem test_eret :
    after .eret (dev { core0 { sregs [] with xpc := [(0, 0x2040), (1, 0x2060), (2, 0x3000), (3, 1)] } with
        busy := true, slots := [(1, { returned := true }), (2, { halted := true }), (3, { returned := true })] } .A)
      (fun t => t.cs.c0 == 0x2040 && t.cs.c2 == 0x3000 && t.cs.ann0 && !t.cs.ann1 && !t.cc.busy) = true := by decide +kernel

/-! Witnesses. -/

theorem witness_ScalarCompareAndBitFields :
    (6 ≤ ((0x03#8 ++ 0#30 ++ 2#2 ++ 6#8 ++ 0#16 : Word).extractLsb' 16 8).toNat ∧
      (0x03#8 ++ 0#30 ++ 2#2 ++ 6#8 ++ 0#16 : Word).extractLsb' 56 7 = 0x03) ∧
    (1 ≤ (1 : BitVec 7).toNat ∧ (63 : BitVec 6).toNat + (1 : BitVec 7).toNat ≤ 64) ∧
    (1 ≤ (64 : BitVec 7).toNat ∧ (64 : BitVec 7).toNat ≤ 64) ∧
    ((2 : BitVec 8).toNat < 3 ∧ 64 < (63 : BitVec 6).toNat + (2 : BitVec 7).toNat) ∧
    ((4 : BitVec 8).toNat < 5 ∧ (0 : BitVec 6) = 0 ∧ 64 < (65 : BitVec 7).toNat) ∧ (0 : BitVec 7).toNat = 0 := by decide

theorem witness_ScalarAddressAndImmediateForms : (63 : BitVec 8).toNat < 64 := by decide

theorem witness_RelativeBranches :
    (0x2200008000000000 : Word).extractLsb' 56 7 = 0x22 ∧ (0x2200008000000000 : Word).extractLsb' 39 2 = 1 ∧
    (0x23FC018000000000 : Word).extractLsb' 56 7 = 0x23 ∧ (0x23FC018000000000 : Word).extractLsb' 39 2 = 3 := by decide

/-- A table of one entry, -3, at 0x100000. -/
def tableDev : State :=
  { dev (core0 (sregs [(2, 1), (3, 0x100000)])) .A with mem := Mem.store {} 0x20000 0xFFFFFFFD }

theorem witness_RegisterGroupAndTableBranches :
    ((dev (core0 (sregs [(5, 0x2000)])) .A).rs 5).extractLsb' 0 5 = 0 ∧
    ((dev (core0 (sregs [(5, 0x2010)])) .A).rs 5).extractLsb' 0 5 ≠ 0 ∧
    (let o : Opened := { core := 0, members := [.A, .V], todo := [] }
     let s := { dev (core0 {}) .A with opened := some o }
     s.opened = some o ∧ o.core = s.cur.core ∧ s.cur.slot ∈ o.members) ∧
    (let b : Branch := { taken := true, target := 0x2000, annul := false }
     let s := dev ((core0 {}).setSlot .V { redirect := some b, ann0 := true }) .V
     s.cs.redirect = some b) ∧
    ((dev (core0 {}) .A).rs 2).toNat ≤ ((dev (core0 {}) .A).rs 1).toNat ∧
    (let s := dev (core0 (sregs [(2, 1), (3, 0x100010)])) .A
     (s.rs 1).toNat < (s.rs 2).toNat ∧ (s.rs 3).extractLsb' 0 5 ≠ 0) ∧
    (let s := tableDev
     (s.rs 1).toNat < (s.rs 2).toNat ∧ (s.rs 3).extractLsb' 0 5 = 0 ∧ s.cc.bind = some bound ∧
     placed (s.translate 0 s.me (s.rs 3 + s.rs 1 * 4) .read) (fun p u =>
       let w := (u.readWord s.me p false).1
       w.2 == sealOf w.1 && w.1 == 0xFFFFFFFD) = true ∧
     after (.jt 1 2 3) s (fun t => t.cs.c2 == 0x0FFFA0) = true) := by decide +kernel

theorem witness_TrapsAndTheirEntry :
    (let x := (dev trapped .A).core 0
     let tr : Trap := { code := 0x50, detail := 9, tval := 0 }
     x.bind = some bound ∧ x.frozen = false ∧ x.busy = false ∧ x.regs.tvec ≠ 0 ∧ (x.slot .B).await = none ∧ (x.slot .V).pend = some tr ∧
     (x.slot .A).pend = none ∧ (x.slot .B).pend = none ∧ (x.slot .V).halted = false) ∧
    (let s := dev { trapped with regs := {} } .A
     let x := s.core 0
     x.frozen = false ∧ x.regs.tvec = 0 ∧ (x.slot .B).await = none ∧ (∃ tr, (x.slot .V).pend = some tr ∧ tr.kept = false) ∧
     (s.part 0).launch = some running ∧ running.ending = none) ∧
    ({ trapped with busy := true }).busy = true := by
  refine ⟨by decide +kernel, ⟨by decide +kernel, by decide +kernel, by decide +kernel, ⟨_, rfl, rfl⟩, rfl, rfl⟩, rfl⟩

/-! Memory. -/

/-- The doubleword 0x1122334455667788 at 0x100000, with its seal. -/
def memDev (c : Core) (k : Slot) : State := { dev c k with mem := Mem.store {} 0x20000 0x1122334455667788 }

/-- R8, R263: the seal of zero is zero, and seals are linear. -/
theorem test_seal_linear :
    sealOf 0 = 0 ∧ sealOf (0x1122334455667788 ^^^ 0x00000000ABCD0000) = sealOf 0x1122334455667788 ^^^ sealOf 0x00000000ABCD0000 := by
  decide +kernel

/-- R178: the store of the spec's example, and the load that follows it. -/
theorem test_store_half :
    after (.st .h .plain 0 7 6 2) (memDev (core0 (sregs [(6, 0x100000), (7, 0xFFFFFFFFFFFFABCD)])) .A) (fun t =>
      t.mem.word 0x20000 == 0x11223344ABCD7788 && t.mem.sealAt 0x20000 == sealOf 0x11223344ABCD7788 && t.cs.c0 == 0x400060) = true := by
  decide +kernel

theorem test_load_half :
    after (.ld .h false .plain 0 8 6 2) { dev (core0 { sregs [(6, 0x100000)] with taint := [(6, true)] }) .A with
        mem := Mem.store {} 0x20000 0x11223344ABCD7788 } (fun t =>
      after (.loadReturn 0) t (fun u => u.cc.regs.sget 8 == 0xFFFFFFFFFFFFABCD && u.cc.regs.tget 8 && u.cc.loads == [])) = true := by
  decide +kernel

/-- R169: a misaligned doubleword traps before anything else. -/
theorem test_misaligned :
    after (.ld .d false .plain 0 8 6 4) (memDev (core0 (sregs [(6, 0x100000)])) .A)
      (fun t => t.cs.pend == some { code := 0x04, detail := 0, tval := 0x100004 } && t.cs.c0 == 0x400040) = true := by decide +kernel

/-- R187, R188: AMO.add on a word's low half, and a CAS that fails. -/
theorem test_atomics :
    after (.amoAdd false .plain 0 5 6 7 0) (memDev (core0 (sregs [(6, 0x100000), (7, 0xFFFFFFFF)])) .A) (fun t =>
      t.mem.word 0x20000 == 0x1122334455667787 && t.cc.loads.map (·.word) == [0x1122334455667788]) = true ∧
    after (.cas true .plain 0 5 6 7 8 0) (memDev (core0 (sregs [(6, 0x100000), (7, 1), (8, 2)])) .A) (fun t =>
      t.mem.word 0x20000 == 0x1122334455667788 && t.cc.loads.length == 1) = true := by decide +kernel

/-- R179: VST of elements 0 and 2 alone. -/
theorem test_vector_store :
    after (.vst .plain 0 4 6 0 1) (memDev (core0 { sregs [(6, 0x100000)] with v := [(4, [0xAAAAAAAA, 0xBBBBBBBB, 0xCCCCCCCC])], m := [(1, 5)] }) .E)
      (fun t => t.mem.word 0x20000 == 0x11223344AAAAAAAA && t.mem.word 0x20001 == 0x00000000CCCCCCCC &&
        t.mem.sealAt 0x20001 == sealOf 0xCCCCCCCC) = true := by decide +kernel

/-- R179, R183: VLD writes its active elements and keeps the others. -/
theorem test_vector_load :
    after (.vld .plain 0 4 6 0 1) (memDev (core0 { sregs [(6, 0x100000)] with v := [(4, [1, 2, 3])], m := [(1, 6)] }) .E)
      (fun t => after (.vectorLoadReturn 0) t (fun u => (u.cc.regs.vget 4).take 4 == [1, 0x11223344, 0, 0])) = true := by decide +kernel

/-! Witnesses. -/

theorem witness_MergeKeepsSealValid :
    (0x00000000ABCD0000 : Word) &&& ~~~(byteMask 0x0C) = 0 ∧ (0 : Word) &&& ~~~(byteMask 0) = 0 ∧
    (0x8000000000000001 : Word) &&& ~~~(byteMask 0x81) = 0 := by decide

theorem witness_LoadsIssue :
    (let s := memDev (core0 (sregs [(6, 0x100000)])) .A
     s.cc.inRepair = false ∧ s.cc.bind = some bound ∧ (0x100006 : Word).toNat % Size.bytes .h = 0 ∧
     (ListGood s .plain 0 ∧ ListGood s .acquire 2 ∧ ListGood s .acqRel 0)) ∧
    (let s := memDev (core0 (sregs [(6, 0x100000)])) .A
     placed (s.translate 0 s.me 0x100006 .read) (fun p u =>
       (u.readWord s.me p true).1 == (0x1122334455667788, sealOf 0x1122334455667788) &&
       (u.readWord s.me p false).1 == (0x1122334455667788, sealOf 0x1122334455667788)) = true) := by
  refine ⟨⟨rfl, rfl, by decide, .inl rfl, .inr (by decide +kernel), .inr (by decide +kernel)⟩, by decide +kernel⟩

def aLoad : PendLoad :=
  { slot := .A, sd := 5, va := 0x100007, place := Place.plain 0x100007, bytes := 1, un := false, taint := false, word := 0x80 <<< 56,
    sl := sealOf (0x80 <<< 56), again := false }

theorem witness_LoadReturnsWriteRegisters :
    (aLoad.sl = sealOf aLoad.word ∧ 1 ≤ aLoad.bytes ∧ 8 * (aLoad.va.toNat % 8) + 8 * aLoad.bytes ≤ 64) ∧
    (let l := { aLoad with va := 0x100000, bytes := 8 }
     1 ≤ l.bytes ∧ 8 * (l.va.toNat % 8) + 8 * l.bytes ≤ 64) ∧
    (let l := { aLoad with sl := 0 }
     l.sl ≠ sealOf l.word ∧ l.again = false) ∧
    (let l := { aLoad with sl := 0, again := true }
     l.sl ≠ sealOf l.word ∧ l.again = true ∧ (core0 {}).bind = some bound) ∧
    (let x : VWord := { n := 0x20000, place := Place.plain 0x100000, word := 7, sl := sealOf 7 }
     let v : PendVec := { vd := 4, elems := [(0, 0x100000)], words := [x], again := false }
     (∀ y, y ∈ v.words → y.sl = sealOf y.word) ∧ v.elems.find? (fun y => y.1 == 0) = some (0, 0x100000) ∧
     v.words.find? (fun y => y.n == (0x100000 : Word).toNat / 8) = some x ∧ (0x100000 : Word).toNat % 4 = 0) ∧
    (let x : VWord := { n := 0x20000, place := Place.plain 0x100000, word := 7, sl := 0 }
     let v : PendVec := { vd := 4, elems := [(0, 0x100000)], words := [x], again := false }
     x ∈ v.words ∧ x.sl ≠ sealOf x.word ∧ v.again = false) := by decide +kernel

theorem witness_StoreWritesItsBytesAlone :
    (let s := memDev (core0 (sregs [(6, 0x100000)])) .A
     s.cc.inRepair = false ∧ s.cc.bind = some bound ∧ (0x100007 : Word).toNat % Size.bytes .b = 0 ∧
     (0x100000 : Word).toNat % Size.bytes .d = 0 ∧ ListGood s .release 2) ∧
    (let s := memDev (core0 (sregs [(6, 0x100000)])) .A
     placed (s.translate 0 s.me 0x100007 .write) (fun p u => (u.holderWord p).2 == sealOf (u.holderWord p).1 && p.here) = true) := by
  refine ⟨⟨rfl, rfl, by decide, by decide, .inr (by decide +kernel)⟩, by decide +kernel⟩

theorem witness_AtomicsAtTheHolder :
    (let s := memDev (core0 (sregs [(6, 0x100000)])) .A
     s.cc.bind = some bound ∧ (0x100004 : Word).toNat % 4 = 0 ∧ ListGood s .acqRel 2) ∧
    (let s := memDev (core0 (sregs [(6, 0x100000)])) .A
     placed (s.translate 0 s.me 0x100004 .both) (fun p u => u.holderWord p == (0x1122334455667788, sealOf 0x1122334455667788)) = true) := by
  refine ⟨⟨rfl, by decide, .inr (by decide +kernel)⟩, by decide +kernel⟩

theorem witness_MisalignedAccessesTrap :
    (dev (core0 {}) .A).cc.inRepair = false ∧ (1 : Word).toNat % Size.bytes .h ≠ 0 ∧ (0x100004 : Word).toNat % Size.bytes .d ≠ 0 ∧
    (0x100004 : Word).toNat % 8 ≠ 0 ∧ (0x100020 : Word).toNat % 64 ≠ 0 ∧
    (let row (i : Nat) : Word := 0x100000 + BitVec.ofNat 64 i * 0x20
     (row 1).toNat % 64 ≠ 0 ∧ ∀ j, j < 1 → (row j).toNat % 64 = 0) ∧
    (let row (i : Nat) : Word := BitVec.ofNat 64 i * 0x0888888888888890
     row 0 = 0 ∧ (row 1).toNat % 64 ≠ 0) ∧
    (let s := dev (core0 { sregs [(6, 2)] with m := [(1, BitVec.ofNat 1024 (2 ^ 1023))] }) .E
     (s.rm 1).getLsbD 1023 = true ∧ (s.rs 6 + ((s.rv 4).get 1023).setWidth 64).toNat % 4 ≠ 0 ∧
     (∀ j, j < 1023 → (s.rm 1).getLsbD j = false) ∧ (s.rm 0).getLsbD 0 = true) := by
  refine ⟨rfl, by decide, by decide, by decide, by decide, by decide, by decide, by decide +kernel⟩

theorem witness_PrefetchAndFences :
    (dev { core0 {} with bind := none } .A).cc.bind = none ∧
    (dev (core0 {}) .A).cc.bind.isSome = true ∧ ListGood (dev (core0 {}) .A) .acquire 0 ∧ ListGood (dev (core0 {}) .A) .acquire 3 := by
  refine ⟨rfl, rfl, .inr (by decide +kernel), .inr (by decide +kernel)⟩

/-- Elements 0 and 1,023 of the rows at 0x100000. -/
def vecDev (v : Core → Core) : State :=
  memDev (v (core0 { sregs [(6, 0x100000), (7, 0)] with v := [(9, [8])], m := [(1, BitVec.ofNat 1024 (2 ^ 1023 + 1)), (2, 1)] })) .E

theorem witness_VectorLoadsIssue :
    (let s := vecDev id
     s.cc.bind = some bound ∧ ListGood s .acquire 2 ∧ (0x100000 : Word).toNat % 64 = 0 ∧
     (∀ i, i < 16 → ((0x100000 : Word).toNat + i * (s.rs 7).toNat) % 64 = 0) ∧
     ∀ e, e ∈ (List.range 1024).filter (fun e => (s.rm 1).getLsbD e) → (s.rs 6 + ((s.rv 9).get e).setWidth 64).toNat % 4 = 0) ∧
    (let s := vecDev id
     let active := (List.range 1024).filter (fun e => (s.rm 1).getLsbD e)
     active = [0, 1023] ∧
     (pagesFound 0 s.me .read (pagesOf (active.map (fun e => 0x100000 + BitVec.ofNat 64 (4 * e)))) [] s).isSome = true ∧
     (pagesFound 0 s.me .read (pagesOf (active.map (fun e => s.rs 6 + ((s.rv 9).get e).setWidth 64))) [] s).isSome = true) := by
  refine ⟨⟨rfl, .inr (by decide +kernel), by decide, by decide +kernel, by decide +kernel⟩, by decide +kernel⟩

theorem witness_VectorStoresWriteActiveElementsAlone :
    (let s := vecDev id
     s.cc.bind = some bound ∧ ListGood s .release 2) ∧
    (let s := vecDev id
     let active := (List.range 1024).filter (fun e => (s.rm 1).getLsbD e)
     (match pagesFound 0 s.me .write (pagesOf (active.map (fun e => 0x100000 + BitVec.ofNat 64 (4 * e)))) [] s with
     | some (pages, u) => pages.all (fun x => x.2.pa % 8 == 0 && x.2.off % 8 == 0) && u == s &&
         active.all (fun e => (u.holderWord (placeIn pages (0x100000 + BitVec.ofNat 64 (4 * e)))).2 ==
           sealOf (u.holderWord (placeIn pages (0x100000 + BitVec.ofNat 64 (4 * e)))).1)
     | none => false) = true) ∧ (vecDev id).mem.wf = true := by
  refine ⟨⟨rfl, .inr (by decide +kernel)⟩, by decide +kernel, by decide +kernel⟩

/-! Join bits, control registers, entries, semaphores and barriers. -/

/-- R125: JWAIT of a clear bit traps with the bit's number. -/
theorem test_jwait_clear :
    after (.jwait 31) (dev (core0 {}) .B) (fun t => t.cs.pend == some { code := 0x03, detail := 31, tval := 0x77 }) = true ∧
    after (.jset 31) (dev (core0 {}) .B) (fun t => t.cc.regs.j == 0x80000000 && t.cs.c0 == 0x400060) = true := by decide +kernel

/-- R25, R35, R37: writes keep a register's reserved bits clear; CWR of a read-only register traps. -/
theorem test_control_writes :
    after (.cwr 0x020 3) (dev (core0 (sregs [(3, 0xFFFFFFFFFFFFFFFF)])) .B) (fun t => t.cc.regs.fpctl == 0xFFFFFFFF00001F3F) = true ∧
    after (.cwr 0x022 3) (dev (core0 (sregs [(3, 2)])) .B) (fun t => t.cc.regs.mchk == 4) = true ∧
    after (.cwr 0x030 3) (dev (core0 (sregs [(3, 2)])) .B) (fun t => t.cs.pend.isSome && t.cc.regs.cyc == 0) = true := by decide +kernel

/-- R199: word 0 of cl2 names every core of the partition's one cluster. -/
theorem test_clget_fixed : after (.clget 3 2 0) (dev (core0 {}) .B) (fun t => t.cc.regs.sget 3 == 0xFF) = true := by decide +kernel

/-- R191: an add that passes the largest count saturates and raises semaphore overflow. -/
theorem test_semaphore_overflow :
    after (.semsig 5 2 0 false 0) (dev { core0 {} with sems := [(5, 0xFFFFFFFE)] } .B) (fun t =>
      match t.agenda with
      | [i] => after i { t with agenda := [] } (fun u => Tab.get 0 (u.core 0).sems 5 == 0xFFFFFFFF &&
          ((u.core 0).slot .B).pend == some { code := 0x30, detail := 5, tval := 0 })
      | _ => false) = true := by decide +kernel

/-- R192: SEMACQ at its threshold takes it away; below it nothing happens. -/
theorem test_semacq :
    after (.semacq 1 0 3 0) (dev { core0 {} with sems := [(1, 3)] } .B) (fun t => Tab.get 9 t.cc.sems 1 == 0 && t.cs.c0 == 0x400060) = true ∧
    after (.semacq 1 0 4 0) (dev { core0 {} with sems := [(1, 3)] } .B) (fun t => t == dev { core0 {} with sems := [(1, 3)] } .B) = true := by
  decide +kernel

/-- R197: the barrier of the example, EXPECT 2, ARRIVED 0 and PHASE 7: a core's first and second arrival, and another's. -/
def barPart : Partition := { part0 with bn := [(2, 0x0000000700000002)] }

theorem test_barrier_arrival :
    after (.barrierAnswer 0) (devWith barPart ((core0 {}).setSlot .B { await := some (.bararr 2) }) .B) (fun t =>
      (t.part 0).barrier 2 == { phase := 7, arrived := 1, expect := 2 } && Tab.find? t.cc.tokens 2 == some 7) = true ∧
    after (.barrierAnswer 0) (devWith { barPart with bn := [(2, 0x0000000700010002)] }
        ({ core0 {} with tokens := [(2, 7)] }.setSlot .B { await := some (.bararr 2) }) .B) (fun t =>
      (t.part 0).barrier 2 == { phase := 7, arrived := 1, expect := 2 } &&
        t.cs.pend == some { code := 0x31, detail := 2, tval := 0 }) = true := by decide +kernel

theorem test_barrier_completes :
    after (.barrierAnswer 0) (devWith { barPart with bn := [(2, 0x0000000700010002)] }
        ((core0 {}).setSlot .B { await := some (.bararw 2) }) .B) (fun t =>
      (t.part 0).barrier 2 == { phase := 8, arrived := 0, expect := 2 } && Tab.find? t.cc.tokens 2 == some 7 && t.cs.waitHalf) = true := by
  decide +kernel

/-! Witnesses. -/

theorem witness_JoinBitsAndControlReads :
    (31 : BitVec 8).toNat < 32 ∧ (0 : BitVec 8).toNat < 32 ∧
    (dev (core0 { j := 0x80000000 }) .B).cc.regs.j.getLsbD 31 = true ∧ (dev (core0 {}) .B).cc.regs.j.getLsbD 31 = false ∧
    ({ dev (core0 {}) .B with repeatable := true }).repeatable = true ∧ (dev (core0 {}) .B).repeatable = false ∧
    (0x003 : BitVec 12).toNat ∈ [0x003, 0x006, 0x007, 0x023, 0x02F, 0x033, 0x03F] ∧ 0x00B ≤ (0x00F : BitVec 12).toNat ∧
    (0x00F : BitVec 12).toNat < 0x010 ∧ 0x050 ≤ (0x050 : BitVec 12).toNat ∧ 0x050 ≤ (0xFFF : BitVec 12).toNat := by decide

theorem witness_ControlRegisterWrites :
    (0x032 : BitVec 12).toNat ∈ [0x000, 0x001, 0x002, 0x003, 0x004, 0x005, 0x030, 0x031, 0x032] ∧ 0x040 ≤ (0x040 : BitVec 12).toNat := by
  decide

/-- An entry image at offset 0x40 of the core store: the core itself, valid. -/
def imageDev : State :=
  let st := Mem.store (Mem.store {} 8 1) 12 0x8000000000000000
  dev { core0 (sregs [(1, 0x40), (2, 0x200000), (3, 0x20)]) with store := st } .B

def aSet : ClSet := { entry := 9, image := { valid := true, cores := 1 }, origin := .slotB 0, accepted := false }

/-- A CLSET of cl9 that has been accepted, and whose new version every core holds when `r`. -/
def clDev (x : ClSet) : State :=
  devWith { part0 with clsets := [x] } ((core0 {}).setSlot .B { await := some (.clset 9 0) }) .B

theorem witness_CirculationEntries :
    (let s := dev (core0 {}) .B
     s.cc.bind = some bound ∧ (31 : BitVec 8).toNat < 32 ∧ 4 ≤ (4 : BitVec 8).toNat ∧ (3 : BitVec 8).toNat < 32) ∧
    (let s := imageDev
     (s.rs 3).toNat % 64 ≠ 0 ∧ (s.rs 2).toNat % 64 = 0 ∧ 0x200000 ≤ (s.rs 2).toNat ∧ (s.rs 1).toNat % 64 = 0 ∧
     (s.rs 1).toNat < s.cc.taskBytes ∧
     (match s.cc.taskWords (s.rs 1).toNat 8 with | .ok w => imageReason w 1 == none | .error _ => false) = true) ∧
    ((clDev aSet).part 0).clsets.find? (fun y => y.entry == (9 : ListIx).toNat) = some aSet ∧
    ({ aSet with accepted := true }).accepted = true ∧ ({ aSet with accepted := true }).replaced = false ∧
    (let s := clDev { aSet with accepted := true, replaced := true }
     s.oldSnapshot 0 9 (Tab.get {} (s.part 0).cl 9).ver = false ∧ (s.part 0).handles = [] ∧
     ((s.core 0).slot .B).await = some (.clset (9 : ListIx).toNat aSet.num) ∧ (s.core 0).trapDue = false) := by decide +kernel

/-- Slot B waits for the add of a SEMSIG to its own core. -/
def aSignal : Signal := { from_ := .slot 0 .B, part := 0, target := 0, sem := 5, inc := 1, remote := false, pts := 0 }

theorem witness_SemaphoresAndBarriers :
    (let s := dev (core0 (sregs [(1, 7), (2, 8)])) .B
     s.cc.bind = some bound ∧ 8 * (s.part 0).clusters.length ≤ (s.rs 2).toNat ∧ (s.rs 1).toNat < 8 * (s.part 0).clusters.length ∧
     (s.rs 1).toNat < 256) ∧
    (let s := dev ((core0 {}).setSlot .B { await := some (.signal 5 0 false) }) .B
     s.signalCore aSignal = some 0 ∧ ((s.core 0).slot .B).await = some (.signal aSignal.sem aSignal.target aSignal.remote) ∧
     (∀ i ∈ allSlots, ((s.core 0).slot i).pend = none) ∧ (s.core 0).notice = false) ∧
    (let s := dev { core0 {} with sems := [(1, 3)] } .B
     (Tab.get 0 s.cc.sems 1).toNat < ((s.rs 0 + (4 : BitVec 20).setWidth 64).extractLsb' 0 32).toNat ∧
     ((s.rs 0 + (3 : BitVec 20).setWidth 64).extractLsb' 0 32).toNat ≤ (Tab.get 0 s.cc.sems 1).toNat) ∧
    ((dev (core0 (sregs [(1, 65535)])) .B).rs 1).toNat < 65536 ∧ 65536 ≤ ((dev (core0 (sregs [(1, 65536)])) .B).rs 1).toNat ∧
    (let s := devWith barPart ({ core0 {} with tokens := [(2, 7), (3, 4)] }.setSlot .B { waitHalf := true }) .B
     Tab.find? s.cc.tokens (1 : BitVec 8).toNat = none ∧ Tab.find? s.cc.tokens 2 = some 7 ∧ ((s.part 0).barrier 2).phase = 7 ∧
     Tab.find? s.cc.tokens 3 = some 4 ∧ ((s.part 0).barrier 3).phase ≠ 4 ∧ s.cs.waitHalf = true) ∧
    (let s := devWith barPart ((core0 {}).setSlot .B { await := some (.barset 2 1) }) .B
     (s.core 0).bind = some bound ∧ (∀ k ∈ allSlots, ((s.core 0).slot k).pend = none) ∧ (s.core 0).notice = false ∧
     ((s.core 0).slot .B).await = some (.barset 2 1) ∧ ((s.part 0).barrier 2).expect ≠ 0 ∧ ((s.part 0).barrier 3).expect = 0 ∧
     Tab.find? (s.core 0).tokens 2 ≠ some ((s.part 0).barrier 2).phase) := by decide +kernel

theorem witness_lists_good : ListGood (dev (core0 {}) .B) .release 0 ∧ ListGood (dev (core0 {}) .B) .acquire 3 :=
  ⟨.inr (by decide +kernel), .inr (by decide +kernel)⟩

/-! Vector forms. -/

/-- R133, R131: VABS of a signalling NaN, and VNEG of an FP8 NaN (the examples of those rules). -/
theorem test_vabs_vneg :
    after (.vabs .f32 4 5 1) (dev (core0 { sregs [] with v := [(5, [0xFF800001])], m := [(1, 1)] }) .V)
      (fun t => (t.cc.regs.vget 4).get 0 == 0x7FC00001 && t.cc.regs.fpflags == 0x10) = true ∧
    after (.vneg .e4m3x4 4 5 1) (dev (core0 { sregs [] with v := [(5, [0x7F])], m := [(1, 1)] }) .V)
      (fun t => (t.cc.regs.vget 4).get 0 == 0x808080FF && t.cc.regs.fpflags == 0) = true := by decide +kernel

/-- R134: the classes of the example. -/
theorem test_vclass :
    after (.vclass .e4m3x4 4 5 1) (dev (core0 { sregs [] with v := [(5, [0x7F800178])], m := [(1, 1)] }) .V)
      (fun t => (t.cc.regs.vget 4).get 0 == 0x01050708) = true := by decide +kernel

/-- R145, R146: the block of the example, 600.0 with 31 ones. -/
def mxRegs : Regs := { m := [(1, 1)], v := [(21, 0x44160000 :: List.replicate 31 0x3F800000)] }

theorem test_vmxq :
    after (.vmxq .e4m3 .f32 20 21 9 1) (dev (core0 mxRegs) .V) (fun t =>
      t.cc.regs.sget 9 == 0x80 && (t.cc.regs.vget 20).get 0 == 0x30303079 && t.cc.regs.fpflags == 1) = true := by decide +kernel

theorem test_vmxd :
    after (.vmxd .e4m3 .f32 22 20 9 1) (dev (core0 { sregs [(9, 0x80)] with m := [(1, 3)], v := [(20, [0x30303079])] }) .V) (fun t =>
      (t.cc.regs.vget 22).get 0 == 0x44100000 && (t.cc.regs.vget 22).get 1 == 0x3F800000) = true := by decide +kernel

/-- R138: VIADD clamps when SAT is set, and wraps when it is not. -/
theorem test_viadd_sat :
    after (.viadd .i16x2 4 5 6 1) (dev (core0 { sregs [] with fpctl := 4, m := [(1, 1)], v := [(5, [0x7FFF8000]), (6, [0x0001FFFF])] }) .V)
      (fun t => (t.cc.regs.vget 4).get 0 == 0x7FFF8000) = true ∧
    after (.viadd .i16x2 4 5 6 1) (dev (core0 { sregs [] with m := [(1, 1)], v := [(5, [0x7FFF8000]), (6, [0x0001FFFF])] }) .V)
      (fun t => (t.cc.regs.vget 4).get 0 == 0x80007FFF) = true := by decide +kernel

/-- R156, R161: a rotation along the row and the transpose of element 1. -/
theorem test_axes :
    after (.vext 3 5 700 0) (dev (core0 { sregs [] with v := [(5, List.replicate 700 0 ++ [9])] }) .V)
      (fun t => t.cc.regs.sget 3 == 9) = true ∧
    after (.vmovi .i16x2 4 0xFFFF 1) (dev (core0 { sregs [] with m := [(1, 4)], v := [(4, [7])] }) .V)
      (fun t => (t.cc.regs.vget 4).take 3 == [7, 0, 0xFFFFFFFF]) = true := by decide +kernel

/-! Witnesses of the vector statements. -/

theorem witness_RoundingIsByMode :
    (fp32, 2 ^ 24 - 1, 104) ∈ formats ∧ (e2m1, 3, 1) ∈ formats ∧ fp32.ieee = true ∧ e4m3.ieee = false ∧ 0 < 1 := by decide +kernel

theorem witness_VectorFloatForms_exact :
    (FVal.num false 1 0).isNan = false ∧ FVal.inf true ≠ .inf (!true) ∧ (FVal.zero true).isNan = false ∧
    FVal.zero true = .zero (FVal.zero true).neg ∧ 3 ≤ 4096 ∧ 3 * 2 ^ (0 : Int).toNat = 3 * 2 ^ (-(0 : Int)).toNat := by decide +kernel

theorem witness_VectorCompareAndMasks : (dev (core0 {}) .V).rm 0 ≠ 0 ∧ (dev (core0 {}) .V).rm 1 = 0 := by decide +kernel

theorem witness_ConversionsAndMxBlocks : (158 : VReg) ≠ 255 := by decide

theorem witness_VectorMovesAndAxes :
    (1023 : BitVec 12).toNat < 1024 ∧ ((dev (core0 {}) .V).rm 0).getLsbD 1023 = true ∧ ((dev (core0 {}) .V).rm 1).getLsbD 1023 = false ∧
    (63 : BitVec 8).toNat < 64 ∧ (15 : BitVec 8).toNat < 16 := by decide +kernel

theorem witness_ReductionsAndScansWhole :
    ([{ v := some 1 }, { v := none }] : List TNode).length = 2 ^ 1 ∧ ([{ v := some 1 }] : List TNode).length = 2 ^ 0 := by decide

/-! Engines. -/

/-- A core store with a WSWAP at 0, a JOIN on mq at 64, a FILL of one doubleword at 0x1000 at 128, and its block at 192. -/
def recStore : Mem :=
  [(0, (0x10#8 ++ 0#24 ++ 1#16 ++ 7#16 : Word)), (8, 0x80#8 ++ 0#24 ++ 1#16 ++ 8#16), (10, 1),
   (16, 0x44#8 ++ 0#24 ++ 1#16 ++ 9#16), (19, 1), (21, 0x00000000AABBCCDD), (23, 3#32 <<< 16 |>.setWidth 64),
   (24, 1#2 ++ 1#3 ++ 3#2 ++ 0x1000#57), (25, 1#8 ++ 8#56), (26, 1#8 ++ 0#56), (27, 1#8 ++ 0#56)].foldl (fun m x => m.store x.1 x.2) {}

def engineDev : State := dev { core0 (sregs [(6, 0)]) with store := recStore } .E

/-- Whether the check of an enqueue passes, looked at by `f`. -/
def checkedOk (r : Checked) (f : Rec → Bool) : Bool :=
  match r with
  | .ok r => f r
  | .park _ | .lost _ => false

/-- R208, R226: a FILL enters cq0, starts, and writes its pattern at its one place. -/
theorem test_fill :
    after (.cenq .cq0 6 128) engineDev (fun t => t.cc.cq0.recs.length == 1 && t.cs.c0 == 0x400060 &&
      after (.fill 0 .cq0) t (fun t => t.cc.cq0.phase == .run &&
        after (.fill 0 .cq0) t (fun t => t.cc.store.word 0x200 == 0xAABBCCDDAABBCCDD && t.cc.cq0.phase == .signal &&
          after (.recordPerformed 0 .cq0) t (fun t => t.cc.cq0.recs == [] && t.cc.cq0.done == 1)))) = true := by decide +kernel

/-- R209: a record off its granule is refused with reason 1. -/
theorem test_enqueue_misaligned :
    after (.menq 6 8) engineDev (fun t => (t.cs.park.map (fun p => (p.cause, p.reason))) == some (0x42, 1)) = true := by decide +kernel

/-- R222: WSWAP exchanges the planes. -/
theorem test_wswap :
    after (.menq 6 0) { engineDev with cores := [(0, { engineDev.cc with shadow := { mode := 5 } })] } (fun t =>
      after (.wswap 0) t (fun t => after (.wswap 0) t (fun t => t.cc.active.mode == 5 && t.cc.shadow.mode == 0))) = true := by decide +kernel

/-- R204: ACCZ sets a tile's zero flag, and an ACCLD of the tile then reads zeros. -/
theorem test_accz :
    after (.accMovePerformed 0 0) (dev { core0 { sregs [] with v := [(4, [5])] } with
        moves := [{ seq := 0, kind := .zero, tile := 3, slice := 0, fpctl := 0, mqBefore := 0 }], accZero := 0, acc := [(51, [9])] } .E)
      (fun t => t.cc.moves == [] && (t.cc.slice 3 3).get 0 == 0 && t.cc.accZero == 8) = true := by decide +kernel

def aMove : Move := { seq := 0, kind := .zero, tile := 15, slice := 15, fpctl := 0, mqBefore := 0 }

theorem witness_AccumulatorMoves :
    (core0 {}).moves.length < 32 ∧ 32 ≤ ({ core0 {} with moves := List.replicate 32 aMove }).moves.length ∧
    (1 : BitVec 6).toNat < ({ core0 {} with moves := [aMove, aMove] }).moves.length ∧ (core0 {}).moves.length ≤ (0 : BitVec 6).toNat ∧
    (core0 {}).conds = [] ∧ ({ core0 {} with conds := [{ seq := 0, raised := 1, enabled := 1, elem := 5 }] }).conds ≠ [] ∧
    (let k := { core0 {} with moves := [{ aMove with tile := 0 }, aMove] }
     k.moves[1]? = some aMove ∧ aMove.tile < 16 ∧ aMove.slice < 16 ∧ (∀ x, x ∈ k.moves.take 1 → x.tile ≠ aMove.tile) ∧
     k.moveHeld aMove = false) := by decide +kernel

theorem witness_EngineEnqueues :
    (let s := engineDev
     s.cc.bind.isSome = true ∧ (s.rs 6 + (8 : BitVec 20).setWidth 64).toNat % 64 ≠ 0 ∧
     checkedOk (s.checkEnqueue .menq 0) (fun r => r.kind == 4) = true ∧
     checkedOk (s.checkEnqueue (.qjoin .cq0) 64) (fun r => r.kind == 0x20) = true ∧
     checkedOk (s.checkEnqueue (.cenq .cq0) 128) (fun r => r.kind == 0x11) = true ∧ (s.cc.queue .cq0).recs.length < 32) ∧
    0x200000 ≤ (0x200000 : Word).toNat ∧ 32 ≤ (List.replicate 32 aMove).length ∧ (1 : BitVec 8) ≠ 0 ∧
    (let x : Shot := { stage := 0, q := .cq0, rcd := { w := [] } }
     let k : Core := { core0 {} with shots := [x] }
     k.shots[k.shotsDone]? = some x ∧ x.stage ≤ k.stage.toNat ∧ (k.queue x.q).recs.length < 32) := by decide +kernel

/-- A record of a kind, with WAIT and words 2 to 7. -/
def recOf (kind wait : Nat) (w2 w3 : Word) : Rec :=
  { w := [BitVec.ofNat 6 kind ++ 0#7 ++ BitVec.ofNat 3 wait ++ 1#32 ++ 5#16, 0x0100000100000000, w2, w3, 0, 0, 0, 0] }

/-- Core 0 with a record at the head of a queue in a phase. -/
def headed (q : Queue) (r : Rec) (p : Phase) : Core := (core0 {}).modQueue q (fun x => { x with recs := [r], phase := p })

theorem witness_RecordLife :
    (∀ kw ∈ [(1, Queue.mq), (2, .mq), (3, .mq), (4, .mq), (5, .mq), (0x10, .cq0), (0x11, .cq1), (0x12, .cq0), (0x13, .cq1), (0x20, .mq)],
      let r := recOf kw.1 1 0 0
      let k := headed kw.2 r .idle
      r.kind = kw.1 ∧ k.running = true ∧ k.headIn kw.2 .idle = some r ∧ k.joinReady r = true ∧ r.wait ≠ 0 ∧ (k.queue kw.2).waitMet = false ∧
        (match (dev k .E).useList 0 r.ls with | .go => true | _ => false) = true) ∧
    (let r := recOf 4 1 0 0
     let k := headed .mq r .waiting
     k.headIn .mq .waiting = some r ∧ (Tab.get 0 k.sems r.semA).toNat < r.thrA ∧ r.needsLeave = false) ∧
    (let r := recOf 1 1 0 0
     let k := { headed .mq r .waiting with sems := [(1, 1)] }
     k.headIn .mq .waiting = some r ∧ r.thrA ≤ (Tab.get 0 k.sems r.semA).toNat ∧ r.needsLeave = true) ∧
    (let r := recOf 1 1 0 0
     let s := { dev (headed .mq r .leave) .E with clusters := [(0, { line := [(0, .mq)], allot := 1 })] }
     (s.cluster 0).line = (0, .mq) :: [] ∧ (s.core 0).headIn .mq .leave = some r ∧ (s.cluster 0).granted + (r.cls + 1) ≤ (s.cluster 0).allot) ∧
    (let r := recOf 0x20 0 0 0
     r.kind = 0x20 ∧ (headed .cq1 r .run).headIn .cq1 .run = some r) ∧
    (let r := recOf 0x20 0 (1#8 ++ 1#8 ++ 0#48) 0
     (headed .cq1 r .signal).headIn .cq1 .signal = some r ∧ r.inc ≠ 0 ∧ r.rmt = false) ∧
    (recOf 0x20 0 0 0).inc = 0 ∧
    (let r := recOf 0x20 0 0 0
     let k := headed .cq1 r .idle
     k.running = true ∧ (k.queue .cq1).recs.head? = some r ∧ (k.queue .cq1).park = none ∧ (k.queue .cq1).phase ≠ .signal ∧
       k.bind.isSome = true) ∧
    (let k := { headed .mq (recOf 1 0 0 0) .run with staged := some { k := 0 } }
     k.mq.phase = .run ∧ k.staged.isSome = true) := by decide +kernel

/-- An MMA of one row and one K-step, with AT 0, BT 0. -/
def aMma : Rec := recOf 1 0 0 0x00010001

/-- A row of it whose sums have settled, with the check column at `x`. -/
def settled (x : Elem) : InRow :=
  { a := { row := 0, words := [], scales := 0 }, plane := {}, frame := some { d := 259, sums := [], x, r := 0 } }

theorem witness_MatrixRecords :
    (∀ kind ∈ [1, 2],
      let r := { recOf kind 0 0 0x00010001 with segs := [0] }
      let k := { headed .mq r .run with activeFor := some (0, 0) }
      r.kind = kind ∧ k.finishing = true ∧ k.headIn .mq .run = some r ∧ k.running = true ∧ k.mq.cut = none ∧ k.startFault r = false ∧
        k.recordHeld r = false ∧ (k.front r).rows.length < r.rows ∧ k.chainLen ≤ 1 ∧ k.needsSwap r 0 0 = none ∧ r.fwd = false ∧ r.scaled = false ∧
        (match k.aWords r 0 0 with | .ok w => w.length == 16 | .error _ => false) = true) ∧
    (let r := { recOf 2 0 0 0x00010001 with segs := [0] }
     let k := { headed .mq r .run with shadowFor := some (0, 0) }
     k.needsSwap r 0 0 = some 0 ∧ k.shadowFor = some (0, 0)) ∧
    (let r := recOf 1 0 0x0000000040000000 0x00010001
     let k := { headed .mq r .run with chainPos := 1, west := [.row { row := 0, words := [], scales := 0 }] }
     r.fwd = true ∧ k.startFault r = false ∧ k.west ≠ []) ∧
    (let r := recOf 1 0 0x0000000100000000 0x00010002
     let k := { headed .mq r .run with fifo := [.scale 0 0 5] }
     r.scaled = true ∧ k.startFault r = false ∧ r.tag = 5 ∧ sealOf 0 = 0 ∧ k.fifo = [.scale 0 (sealOf 0) r.tag]) ∧
    (let r := recOf 4 0 0 0
     r.kind = 4 ∧ (headed .mq r .run).headIn .mq .run = some r) ∧
    (let r := recOf 5 0 0 0
     let s := dev (headed .mq r .run) .E
     r.kind = 5 ∧ r.chainPos ≤ 0 ∧ r.chainPos < r.len ∧ ∀ p, p < r.len → (s.core (0 - r.chainPos + p)).chainAt r.len p = true) := by
  decide +kernel

theorem witness_MatrixRecords_commit :
    (let k := { headed .mq aMma .run with staged := some { k := 0, rows := [settled 0] } }
     k.chainLen = 1 ∧ k.kstepReady = some (aMma, { k := 0, rows := [settled 0] }) ∧
     failingRow 0 k.mq.tol (Staged.results { k := 0, rows := [settled 0] } 0) = none) ∧
    (let g : Staged := { k := 0, rows := [settled 0x3F800000], replay := true }
     let k := { headed .mq aMma .run with staged := some g }
     k.kstepReady = some (aMma, g) ∧ failingRow 0 k.mq.tol (g.results 0) = some 0 ∧ k.bind = some bound) := by decide +kernel

theorem witness_MatrixRecords_preload :
    (let r := recOf 3 0 0 0
     let k := headed .mq r .run
     r.kind = 3 ∧ k.headIn .mq .run = some r ∧ k.running = true ∧ k.finishing = true ∧ (k.granule 0).toOption = some (List.replicate 8 0)) := by
  decide +kernel

/-- A copy record with the block of one doubleword at 0x1000 on both sides. -/
def copyOf (kind : Nat) : Rec :=
  let g : List Word := [1#2 ++ 1#3 ++ 3#2 ++ 0x1000#57, 1#8 ++ 8#56, 1#8 ++ 0#56, 1#8 ++ 0#56, 0, 0, 0, 0]
  { recOf kind 0 0 1 with src := g, dst := g }

/-- Whether an address is reached, looked at by `f`. -/
def reachedAt (x : Reached) (f : Place → State → Bool) : Bool :=
  match x with
  | .ok p s => f p s
  | .stop _ => false

theorem witness_CopyRecords :
    (∀ kind ∈ [0x10, 0x11, 0x12, 0x13],
      let r := copyOf kind
      let s := dev (headed .cq0 r .run) .E
      (s.core 0).running = true ∧ (s.core 0).headIn .cq0 .run = some r ∧ r.kind = kind ∧ geoEs r.shape = 8 ∧
      (r.address r.src 0).toNat % 8 = 0 ∧ (r.address r.dst 0).toNat % 8 = 0 ∧ (s.core 0).fifo.length < 64 ∧ r.volume = 1 ∧
      (s.core 0).bind.isSome = true ∧
      reachedAt (s.reach 0 .cq0 r.src (r.address r.src 0) .read) (fun p u => u == s &&
        (u.copyWord 0 .cq0 r.src p 8).1 == (0, sealOf 0) &&
        reachedAt (u.reach 0 .cq0 r.dst (r.address r.dst 0) .write) (fun _ u => ((u.core 0).queue .cq0).phase == .run)) = true) ∧
    (let k := (headed .cq0 (copyOf 0x12) .run).modQueue .cq0 (fun x => { x with pos := 1 })
     (k.queue .cq0).pos = (copyOf 0x12).volume ∧ k.headIn .cq0 .run = some (copyOf 0x12)) := by decide +kernel

/-! The dispatcher and the rings. -/

/-- A page for a party that is no slot. -/
def pageFor (who : Party) : Cached := { page .A 0x100000 with party := who }

def words (l : List (Nat × Word)) : Mem := l.foldl (fun m x => m.store x.1 x.2) {}

/-- At 0x100000 a launch record of one node, whose descriptor stands at 0x100040 and whose reel at 0x100200 (R282, R284, R97); a
circulation entry image at 0x100080. -/
def graphMem : Mem :=
  words [(0x20000, 0x0000000148505247), (0x20001, 0x0000000400000001), (0x20002, 0x40), (0x20008, 0x100400), (0x2000D, 0x100200),
    (0x20010, 1), (0x20014, 0x8000000000000000), (0x20040, 0x000000014C454552), (0x20042, 1)]

/-- A partition of cluster 0 that runs a launch of one node, with room for 4 more. -/
def taskPart (l : Launch) : Partition :=
  { part0 with launch := some l, tlb := [pageFor (.dispatcher 0), pageFor (.ring 0 0), pageFor (.completion 0)] }

def taskLaunch (n : Node) : Launch := { running with nspawn := 4, nodes := [(0, n)] }

def aNode : Node := { desc := [0x100400, 0x8000, 0, 0, 0, 0x100200, 0, 0] }

/-- A TSPAWN of the descriptor at `va` that waits for its answer. -/
def spawnDev (va : Word) : State :=
  { devWith (taskPart (taskLaunch { aNode with st := .dispatched })) ((core0 {}).setSlot .B { await := some (.tspawn va) }) .B with mem := graphMem }

/-- A read that succeeds, looked at by `f`. -/
def gotOk {α : Type} (g : Got α) (f : α → State → Bool) : Bool :=
  match g with
  | .ok x s => f x s
  | .fault .. | .lost .. => false

/-- R294: the node joins the graph, ready, and slot B goes on. -/
theorem test_tspawn_accept :
    after (.tspawnAccept 0) (spawnDev 0x100040) (fun t =>
      ((t.part 0).launch.bind (fun l => Tab.find? l.nodes 1)).any (fun n => n.st == .ready && n.spawner == some 0) &&
      (t.cc.slot .B).await == none && (t.cc.slot .B).c0 == 0x400060) = true := by decide +kernel

/-- R296: a descriptor whose PRED is not 0 is refused with reason 1. -/
theorem test_tspawn_refused :
    after (.tspawnAccept 0) { spawnDev 0x100040 with mem := graphMem.store 0x2000E 0x10000 } (fun t =>
      (t.cc.slot .B).pend == some { code := 0x03, detail := 1, tval := 0x100040 } && (t.cc.slot .B).c0 == 0x400040) = true := by
  decide +kernel

theorem witness_TaskSpawns :
    ((dev (core0 (sregs [(1, 0x100041), (2, 0x100040)])) .B).rs 1).toNat % 64 ≠ 0 ∧
    ((dev (core0 (sregs [(1, 0x100041), (2, 0x100040)])) .B).rs 2).toNat % 64 = 0 ∧
    (let s := spawnDev 0x100040
     (s.core 0).bind = some bound ∧ ((s.core 0).slot .B).await = some (.tspawn 0x100040) ∧
     gotOk (s.getNode 0 (.dispatcher 0) 0x100040 1 true) (fun r u => r.ok && r.node.pred == 0 && r.node.succ == [] &&
       gotOk (u.checkReel 0 (.dispatcher 0) r.node.reel) (fun b v => b && (v.part 0).launch == (s.part 0).launch)) = true) ∧
    (let l := taskLaunch aNode
     ¬ l.nnode + l.nspawn ≤ l.nodes.length ∧ (∀ x ∈ l.nodes, x.1 < l.nodes.length) ∧ bound.node < l.nodes.length) ∧
    gotOk ({ spawnDev 0x100040 with mem := graphMem.store 0x2000E 0x10000 }.getNode 0 (.dispatcher 0) 0x100040 1 true)
      (fun r _ => r.node.pred != 0) = true := by decide +kernel

/-- Core 0 empty, and one ready node. -/
def readyDev : State :=
  devWith (taskPart (taskLaunch { aNode with st := .ready, ts := 3 })) { core0 {} with bind := none } .A

/-- R292: the node goes to core 0 with its entry and reset registers. -/
theorem test_dispatch :
    after (.dispatchStep 0) readyDev (fun t =>
      t.cc.bind == some bound && (t.cc.slot .E).c2 == 0x100440 && t.cc.regs.tvec == 0x8000 &&
      ((t.part 0).launch.bind (fun l => Tab.find? l.nodes 0)).any (fun n => n.st == .dispatched)) = true := by decide +kernel

/-- A node of one member on core 0 that has met R13, followed by node 1. -/
def doneDev : State :=
  devWith (taskPart { running with nodes := [(0, { aNode with st := .dispatched, succ := [1], seats := [{ vcore := 0 }] }), (1, { aNode with left := 1 })] })
    { core0 {} with slots := [(0, { halted := true }), (1, { halted := true }), (2, { halted := true }), (3, { halted := true })] } .A

theorem test_node_complete :
    after (.nodeComplete 0 0) doneDev (fun t =>
      t.cc.bind == none && ((t.part 0).launch.bind (fun l => Tab.find? l.nodes 1)).any (fun n => n.st == .ready && n.left == 0)) = true := by
  decide +kernel

theorem witness_DispatchAndCompletion :
    (let s := readyDev
     (s.part 0).reserve = none ∧ (s.part 0).job = none ∧ (s.part 0).state = 1 ∧ aNode.requeued = false ∧ aNode.nshot = 0 ∧
     (s.part 0).launch.any (fun l => !l.closed && l.clapper == none &&
       choose (s.candidates 0 l) == some (0, { aNode with st := .ready, ts := 3 }, [0])) = true) ∧
    (let s := doneDev
     (s.core 0).bind = some bound ∧ (s.core 0).frozen = false ∧
     (s.part 0).launch.any (fun l => (Tab.find? l.nodes 0).any (fun n => n.st == .dispatched && s.membersDone 0 l n &&
       n.seats.filterMap (s.part 0).seatCore == [0] && n.succ == [1] && (Tab.find? l.nodes 1).isSome)) = true) ∧
    (let s := devWith (taskPart (taskLaunch { aNode with st := .dispatched, desc := [0x100400, 0, 0, 0, 0, 0x100200, 0, 0x100000000] })) (core0 {}) .A
     (s.nodeOf 0).any (fun n => n.limit != 0) = true ∧ (s.core 0).overrun = none ∧ (s.core 0).finished = false ∧ (s.core 0).running = true) ∧
    aNode.limit = 0 := by decide +kernel

/-- A launch that waits for device 5. -/
def clapDev (x : Clapper) : State :=
  devWith { taskPart { taskLaunch aNode with clapper := some x } with rings := [(0, { run := some { words := [0x1000000000000007], pos := 0, gen := 0 } })] } (core0 {}) .A

/-- R301: the last report sets Ts. -/
theorem test_clapper_report :
    after (.clapperReport 0 5 true) (clapDev { missing := [5], limit := 9 }) (fun t =>
      ((t.part 0).launch.bind (fun l => l.clapper)).any (fun x => x.missing == [] && x.start.isSome)) = true := by
  decide +kernel

theorem witness_ClapperLaunches :
    (let x : Clapper := { missing := [5], limit := 9 }
     ∃ l, ((clapDev x).part 0).launch = some l ∧ l.closed = false ∧ l.clapper = some x ∧ l.ending = none ∧ 5 ∈ x.missing ∧
       (((clapDev x).part 0).ring l.ring).run.isSome = true) ∧
    (let x : Clapper := { missing := [], limit := 9, start := some 7 }
     ∃ l, ((clapDev x).part 0).launch = some l ∧ l.clapper = some x ∧ x.start = some 7) :=
  ⟨⟨_, rfl, rfl, rfl, rfl, by decide, rfl⟩, ⟨_, rfl, rfl, rfl⟩⟩

/-! Rings. -/

/-- Ring 0 of partition 0 in some state, with the page of the records. -/
def ringDev (y : Ring) : State := { devWith { taskPart running with launch := none, rings := [(0, y)] } (core0 {}) .A with mem := graphMem }

/-- A packet that runs on it. -/
def packet (w : List Word) : Packet := { words := w ++ List.replicate (8 - w.length) 0, pos := 3, gen := 0, started := true }

def runs (w : List Word) : State := ringDev { enable := true, log2sz := 4, rd := 4, wi := 4, run := some (packet w) }

/-- Word 0 of a packet of a kind with ACQ and REL cl2, and tag 7. -/
def head (kind : Nat) : Word := BitVec.ofNat 4 kind ++ 0#3 ++ 2#5 ++ 2#5 ++ 0#15 ++ 7#32

/-- R320: a doorbell that passes the ring's size stops it, and its record is made. -/
theorem test_doorbell_overrun :
    after (.doorbell 0 0 17) (ringDev { enable := true, log2sz := 4 }) (fun t =>
      ((t.part 0).ring 0).overrun && ((t.part 0).ring 0).wi == 17 && (t.part 0).due.length == 1) = true := by decide +kernel

/-- R323: SIGNAL adds to its doubleword; WAIT below its threshold stays. -/
theorem test_signal_and_wait :
    after (.signalPacket 0 0) (runs [head 5, 0x100080, 9, 1]) (fun t => t.mem.word 0x20010 == 10 && (t.part 0).due.length == 1) = true ∧
    after (.waitPacket 0 0) (runs [head 4, 0x100080, 2]) (fun t => ((t.part 0).ring 0).run == some (packet [head 4, 0x100080, 2])) = true ∧
    after (.waitPacket 0 0) (runs [head 4, 0x100080, 1]) (fun t => ((t.part 0).ring 0).run.any (·.done)) = true := by decide +kernel

/-- R332: CLAIM of a free hole. -/
theorem test_claim :
    after (.pholeClaim 0 0) (runs [head 7, 0x0003000000000000]) (fun t => (t.hole 3).state == 1 && (t.hole 3).gen == 1 && t.capGen == 2) = true := by
  decide +kernel

/-- R283: a LAUNCH of the record takes the slot, and its node is ready. -/
theorem test_launch_granted :
    after (.launchSlotGrant 0) { runs [head 1, 0x100000, 0] with
        parts := [(0, { (runs [head 1, 0x100000, 0]).part 0 with wants := [0] })] } (fun t =>
      (t.part 0).launch.any (fun l => l.nnode == 1 && l.nspawn == 4 && (Tab.find? l.nodes 0).any (fun n => n.st == .ready))) = true := by
  decide +kernel

theorem witness_RingRegisters :
    (let y : Ring := { log2sz := 4, wi := 1, run := some (packet [head 0]) }
     (0 : Word).toNat < y.wi ∧ y.run.isSome = true ∧ 2 ^ y.log2sz.toNat < (17 : Word).toNat - y.rd ∧ y.overrun = false) ∧
    (let y : Ring := {}
     y.run = none ∧ y.overrunDue = none ∧ y.resetDue = false) ∧ (17 : Word).getLsbD 0 = true ∧ (3 : BitVec 5).toNat < 4 ∧ 16 < (17 : BitVec 5).toNat ∧
    (∀ k ∈ [3, 4, 8], pkind (packet [head k]).words = k ∧ (packet [head k]).done = false) ∧
    (∀ k ∈ [0, 5, 6, 7], pkind (packet [head k]).words = k) ∧ (∀ k ∈ [1, 2], pkind (packet [head k]).words = k) ∧
    (running.ring = 0 ∧ running.closed = false) ∧ ((ringDev {}).part 0).launch = none ∧
    (5 : Word).toNat ≤ ({ wi := 5 } : RecordRing).wi ∧ ({ wi := 5 } : RecordRing).wi < (6 : Word).toNat := by decide +kernel

/-- A ring in virtual space whose packet at 0x100100 is fetched next. -/
def fetchDev (w : List (Nat × Word)) (wi : Nat) : State :=
  { ringDev { enable := true, loc := true, log2sz := 4, rbase := 0x100100, wi := wi } with mem := words w }

theorem witness_RingFetchAndStart :
    (∀ x ∈ [(head 0, none), (head 9, some 1)],
      let s := fetchDev [(0x20020, x.1)] 1
      let y := (s.part 0).ring 0
      (s.part 0).works = true ∧ (s.part 0).job = none ∧ y.enable = true ∧ y.overrun = false ∧ y.resetDue = false ∧ y.run = none ∧ y.park = none ∧
      y.rd < y.wi ∧ gotOk (State.getSlots 0 0 1 y.rd [] (s.modRing 0 0 (fun x => { x with head := [] }))) (fun w0 u =>
        slotsOf (wordAt w0 0) == 1 && packetReason w0 == x.2 && gotOk (State.getSlots 0 0 0 1 w0 u) (fun w _ => w == w0)) = true) ∧
    (let w := words [(0x20020, 0x0400000000000000)]
     slotsOf (w.word 0x20020) = 2 ∧ 1 < 0 + 2) ∧
    (∀ kind ∈ [0, 1, 2, 3, 4, 5, 6, 8],
      let k := { packet [head kind] with started := false }
      let s := ringDev { run := some k }
      (s.part 0).acting 0 = some k ∧ k.started = false ∧ pkind k.words = kind ∧
      (match (s.part 0).listUse (pacq k.words), (s.part 0).listUse (prel k.words) with | .go, .go => true | _, _ => false) = true) ∧
    (∀ op ∈ [0, 1, 2, 3], phop (packet [head 7, BitVec.ofNat 64 (op * 2 ^ 60)]).words = op) := by decide +kernel

theorem witness_RingPackets :
    (∀ kind ∈ [0, 3, 4, 5, 6, 8],
      let k := packet [head kind, 0x100080, 0x100088, 1]
      ((runs [head kind, 0x100080, 0x100088, 1]).part 0).acting 0 = some k) ∧ pkind (packet [head 3]).words = 3 ∧
    (let s := runs [head 3, 0x100080, 0x100088, 8]
     let who : Party := .ring 0 0
     placed (s.translate 0 who 0x100080 .read) (fun pa u => placed (u.translate 0 who 0x100088 .write) (fun pb v =>
       let x := v.readWord who pa false
       x.1 == (1, sealOf 1) && ((x.2.part 0).ring 0).run == some (packet [head 3, 0x100080, 0x100088, 8]) && decide (pb.pa < Config.hostBase) &&
         u.mem == s.mem)) = true) ∧
    (let s := runs [head 4, 0x100080, 1]
     placed (s.translate 0 (.ring 0 0) 0x100080 .read) (fun pl u =>
       match u.consume (.ring 0 0) pl true with
       | .good w v => w == 1 && ((v.part 0).ring 0).run == some (packet [head 4, 0x100080, 1])
       | .lost .. => false) = true) ∧
    (let s := runs [head 5, 0x100080, 1, 1]
     placed (s.translate 0 (.ring 0 0) 0x100080 .both) (fun pl u => u.holderWord pl == (1, sealOf 1)) = true) ∧
    (∀ x ∈ [((0x100080 : Word), none), (0x100000, none), (0x1000C0, none)],
      let s := runs [head 6, 4, x.1]
      gotOk (State.getWords 0 (.ring 0 0) 8 x.1 [] s) (fun w v => imageReason w 1 == x.2 && ((v.part 0).ring 0).run.isSome) = true) ∧
    (let w := [0x100, 0, 0, 0, 0x8000000000000000]
     imageReason w 1 = some 1) ∧
    (let x : ClSet := { entry := 4, image := {}, origin := .ring 0, accepted := true }
     x.origin = .ring 0) := by decide +kernel

/-- The hole `h` as number 3. -/
def holeDev (w : List Word) (h : Hole) : State := { runs w with holes := [(3, h)] }

/-- A PHOLE LOAD of the hole 3, which is claimed. -/
def loadDev : State := holeDev [head 7, 0x1003000000000001, 0x100000] { state := 1 }

/-- The graph at 0x100000 is accepted, and the one at 0x100040 is not; the hole and the packet stay as they are. -/
theorem witness_PigeonholePackets_graph :
    gotOk (loadDev.acceptFor 0 0 0x100000) (fun g u => (match g with | .ok _ => true | .error _ => false) && u.holes == loadDev.holes &&
      ((u.part 0).ring 0).run == ((loadDev.part 0).ring 0).run) = true := by decide +kernel

theorem witness_PigeonholePackets_refused :
    gotOk (loadDev.acceptFor 0 0 0x100040) (fun g u => (match g with | .ok _ => false | .error _ => true) && u.holes == loadDev.holes &&
      ((u.part 0).ring 0).run == ((loadDev.part 0).ring 0).run) = true := by decide +kernel

theorem witness_PigeonholePackets :
    (let w := [head 7, 0x1003000000000001, 0x100000]
     let s := loadDev
     (s.part 0).acting 0 = some (packet w) ∧ phop (packet w).words = 1 ∧ (s.hole 3).state = 1 ∧ (s.hole 3).owner = 0 ∧ (s.hole 3).gen = 1) ∧
    (let h : Hole := { state := 1, owner := 4 }
     h.state ≠ 0 ∧ h.owner ≠ 0) ∧ ({} : Hole).state = 0 ∧
    (let h : Hole := { state := 2, gen := 5 }
     h.state ≠ 0 ∧ h.owner = 0 ∧ h.gen ≠ 1 ∧ h.state = 2 ∧ h.kind = 0) ∧
    (let w := [head 7, 0x0403000000000000]
     phop (packet w).words = 0 ∧ (wordAt (packet w).words 1).extractLsb' 58 2 ≠ 0 ∧ ((holeDev w {}).hole 0).state ≠ 2) ∧
    ((holeDev [] { state := 2 }).hole 3).owner = 0 ∧
    (let l : Launch := { running with hole := some 3 }
     l.hole = some 3) := by decide +kernel

/-- Ring 0 first in the line for the free slot. -/
def slotDev (w : List Word) (h : Hole) : State :=
  let s := holeDev w h
  { s with parts := [(0, { s.part 0 with wants := [0] })] }

theorem witness_LaunchSlot :
    (let w := [head 1, 0x100000, 0]
     let s := slotDev w {}
     (s.part 0).wants = [0] ∧ (s.part 0).launch = none ∧ (s.part 0).job = none ∧ (s.part 0).works = true ∧ (s.part 0).acting 0 = some (packet w) ∧
     (wordAt (packet w).words 2).extractLsb' 52 12 = 0 ∧
     let u := s.modPart 0 (fun x => { x with wants := [] })
     gotOk (u.acceptFor 0 0 0x100000) (fun g _ => match g with | .ok _ => true | .error _ => false) = true ∧
     gotOk (u.acceptFor 0 0 0x100040) (fun g u => match g with
       | .ok _ => false | .error _ => ((u.part 0).ring 0).run.isSome && (u.part 0).launch == none) = true) ∧
    (let w := [head 2, 0x0300000000000009, 0]
     let s := slotDev w { state := 2 }
     pkind (packet w).words = 2 ∧ (s.hole 3).state = 2 ∧ (s.hole 3).owner = 0 ∧ (9 : BitVec 32) ≠ 0 ∧ (9 : BitVec 32) ≠ (s.hole 3).gen) ∧
    (let g : Graph := { nodes := [aNode], nspawn := 4 }
     let s := slotDev [head 2, 0x0300000000000000, 0] { state := 2, copy := some g }
     s.holeReady 0 3 0 = none ∧ (s.hole 3).copy = some g ∧ s.badEntry 0 3 [] = none ∧
     gotOk (State.getWords 0 (.ring 0 0) 0 0 [] (s.modPart 0 (fun x => { x with wants := [] }))) (fun l u => l == [] &&
       gotOk (State.checkReels 0 (.dispatcher 0) (reelsOf g.nodes) (u.dispatcherAfter 0 0)) (fun b v =>
         b == none && v.hole 3 == s.hole 3)) = true) := by
  decide +kernel

/-- A LAUNCH of peer group 1, whose key is 5. -/
def groupHead : List Word := [head 1, 0x100000, 0x0010000000000005]

/-- A ring whose packet is such a LAUNCH, on a device with number 2 of a group of 2 and 6. -/
def groupDev (origin : Option (Nat × Nat)) (trained : Bool) : State :=
  let s := ringDev { run := some { packet groupHead with origin } }
  { s with parts := [(0, { s.part 0 with wants := [0] })], trained, device := 2, peers := [(1, [2, 6])] }

theorem witness_LaunchSlot_groups :
    (∀ o ∈ [none, some (6, 0)],
      let s := groupDev o true
      let k : Packet := { packet groupHead with origin := o }
      (s.part 0).wants = [0] ∧ (s.part 0).launch = none ∧ (s.part 0).job = none ∧ (s.part 0).works = true ∧ (s.part 0).acting 0 = some k ∧
      pkind k.words = 1 ∧ (wordAt k.words 2).extractLsb' 52 12 ≠ 0 ∧ (wordAt k.words 2).extractLsb' 0 32 ≠ 0 ∧ s.groupOf k.words = [6] ∧
      (let u := { s.modPart 0 (fun x => { x with wants := [] }) with
         sent := s.sent ++ (s.groupOf k.words).map (fun d => Sent.clapper d 0 (.replica k.words 0 k.pos)) }
       gotOk (u.acceptFor 0 0 0x100000) (fun g v => (match g with | .ok _ => true | .error _ => false) && v.device == 2 && v.peers == s.peers) = true) ∧
      gotOk ((s.modPart 0 (fun x => { x with wants := [] })).acceptFor 0 0 0x100000) (fun _ _ => true) = true) ∧
    (groupDev none false).trained = false := by decide +kernel

/-- Records that wait. -/
def dueDev (y : RecordRing) (gen : BitVec 16) : State :=
  let s := ringDev {}
  { s with parts := [(0, { s.part 0 with due := [{ words := [1, 2, 3, 4], pend := some 0, gen }], compl := y })] }

/-- R327: a record goes to its place, and sets its bit of PEND. -/
theorem test_completion_record :
    after (.completionRecord 0) (dueDev { enable := true, loc := true, log2sz := 4, base := 0x100800, wi := 17, ri := 16 } 0) (fun t =>
      t.mem.word 0x20107 == 4 && (t.part 0).compl.wi == 18 && (t.part 0).pend == 1 && (t.part 0).due == []) = true := by decide +kernel

/-- A slot of core 0 that is parked with handle 9. -/
def parkedDev (cause : BitVec 8) : State :=
  devWith { part0 with handles := [(9, .slot 0 .A)] } ((core0 {}).setSlot .A { park := some { cause, handle := 9 } }) .A

theorem witness_RecordsAndResumes :
    (let s := dueDev { enable := true, log2sz := 4 } 1
     ∃ d rest, (s.part 0).due = d :: rest ∧ (s.part 0).lost = false ∧ d.gen ≠ (s.part 0).rgen ∧ d.ring = none) ∧
    (let s := dueDev { enable := true, loc := true, log2sz := 4, base := 0x100800 } 0
     (s.part 0).complPark = none ∧ (s.part 0).state ≠ 4 ∧ (s.part 0).compl.wi - (s.part 0).compl.ri < 2 ^ 4 ∧
     placed (s.translate 0 (.completion 0) 0x100800 .write) (fun pl u => (u.part 0).due == (s.part 0).due && (pl.plus 24).here) = true) ∧
    (let x : RecordRing := { log2sz := 4, wi := 16, enable := true }
     2 ^ x.log2sz.toNat ≤ x.wi - x.ri ∧ ({} : RecordRing).enable = false ∧ x.loc = false) ∧
    (∀ cause ∈ [0x12, 0x10],
      let s := parkedDev cause
      (s.part 0).handles.find? (fun x => x.1 == 9) = some (9, .slot 0 .A) ∧ (s.parkOf 0 (.slot 0 .A)).map (·.cause) = some cause) ∧
    running.ending = none ∧
    (let s := ringDev { park := some { cause := 0x13, handle := 8191 }, run := some (packet [head 3]) }
     (s.parkOf 0 (.ring 0)).map (·.cause) = some 0x13 ∧ ((s.part 0).ring 0).run.isSome = true) := by
  refine ⟨⟨_, _, rfl, rfl, by decide, rfl⟩, by decide +kernel⟩

/-! The machine. -/

/-- One member of slot A stands open on core 0. -/
def openA (w : Word) (annulled : Bool) : State :=
  { dev (core0 (sregs [(4, 6), (5, 7)])) .A with opened := some { core := 0, members := [.A], todo := [{ slot := .A, word := w, annulled }] } }

def addWord : Word := 0#1 ++ 0x01#7 ++ 3#6 ++ 4#6 ++ 5#6 ++ 0#6 ++ 0#8 ++ 0x00#8 ++ 0#16

/-- A step that gives a next state, looked at by `f`. -/
def stepped (s : State) (f : State → Bool) : Bool :=
  match step s with
  | .next t => f t
  | .fault _ | .refused _ => false

/-- R11, R103: the step runs the addition and moves the chain. -/
theorem test_step_add : stepped (openA addWord false) (fun t => (t.core 0).regs.sget 3 == 13 && t.opened == none) = true := by decide +kernel

/-- R83: an annulled member writes nothing. -/
theorem test_step_annulled : stepped (openA addWord true) (fun t => (t.core 0).regs.sget 3 == 0 && t.opened == none) = true := by decide +kernel

/-- R82: a reserved field is to trap with illegal operand; the bundle has closed, and the trap is next. -/
theorem test_step_trap : stepped (openA (addWord ||| 0x40000000) false) (fun t => ((t.core 0).slot .A).pend.isSome && t.agenda == [.trapEntry 0]) = true := by
  decide +kernel

/-- R443: the bundle of the march reel at reset is fetched from the mask ROM, and opens with all four slots. -/
def firstIssue : Bool :=
  match State.reset.fetch 0 .A 0x400040 with
  | .ok ws u =>
    let ms := (State.reset.core 0).membersOf ws [.A, .B, .V, .E]
    u == State.reset && (State.reset.core 0).meetAt ws 0x400040 [.A, .B, .V, .E] == .issue && clash ms == none &&
      (match u.ready 0 ms with | .go => true | _ => false)
  | .park .. | .lost .. => false

theorem witness_StepRunsDecodedInstruction :
    (decode .A addWord = .ok (.add 3 4 5) ∧
      ∃ o m, (openA addWord false).opened = some o ∧ o.todo = [m] ∧ m.annulled = false ∧
        after (.add 3 4 5) ((openA addWord false).begin o m []) (fun _ => true) = true) ∧
    (∃ o m, (openA addWord true).opened = some o ∧ o.todo = [m] ∧ m.annulled = true) ∧
    decode .A (addWord ||| 0x40000000) = .trap 0x01 ∧
    (∃ o, ({ State.reset with opened := some { core := 0, members := [.A], todo := [] } } : State).opened = some o ∧ o.todo = []) ∧
    (let s : State := { State.reset with agenda := [.trapEntry 0] }
     s.opened = none ∧ s.agenda = [.trapEntry 0]) ∧
    (State.reset.opened = none ∧ State.reset.agenda = [] ∧
      ({ State.reset with turn := (State.reset.turn + 1) % numUnits }.tryUnit State.reset.turn).isSome = true) ∧
    ((State.reset.core 0).issuers 0 = [.A, .B, .V, .E] ∧ (State.reset.core 0).issues = true ∧ ((State.reset.core 0).slot .A).c0 = 0x400040 ∧
      firstIssue = true) := by
  refine ⟨⟨by decide +kernel, _, _, rfl, rfl, rfl, by decide +kernel⟩, ⟨_, _, rfl, rfl, rfl⟩, by decide +kernel, ⟨_, rfl, rfl⟩, by decide +kernel,
    by decide +kernel, by decide +kernel⟩

theorem witness_DecodeEncodeAgree :
    (Instr.semsig 17 5 2 true 6).wellFormed = true ∧ (encode 1 (.semsig 17 5 2 true 6)).isSome = true ∧
    opSlots 0x45 = some [.B] ∧ decode .A addWord = .ok (.add 3 4 5) := by decide +kernel

/-- The state after reset has its memories in canonical form, and a step from it gives a next state. -/
theorem witness_StepKeepsMemoryCanonical : State.reset.MemWf ∧ stepped State.reset (fun _ => true) = true :=
  ⟨⟨rfl, fun _ => rfl, fun _ => ⟨rfl, rfl, rfl⟩⟩, by decide +kernel⟩

/-! Memory at its holders, and walks. -/

/-- Two words of HBM: one intact, and one whose seal is broken. -/
def holdDev : State :=
  { dev (core0 {}) .A with mem := (words [(0x20000, 0x1122334455667788)]).write 0x20001 7 0x5A, homes := [(0x2000, { wts := 5, rts := 9 })] }

/-- R253: the read takes a lease of 32 beyond the line's wts. -/
theorem test_holder_read : after (.holderRead (.slot 0 .A) 0x100000) holdDev (fun t =>
    t.homeTs (.plain 0x100000) == { wts := 5, rts := 37 } && t.pts (.slot 0 .A) == 5) = true := by decide +kernel

/-- R173: two bytes merge into an intact word. -/
theorem test_merge : after (.partialStoreMerge (.slot 0 .A) 0x100000 0xAABB 3 false) holdDev (fun t =>
    t.mem.word 0x20000 == 0x112233445566AABB && t.mem.sealAt 0x20000 == sealOf 0x112233445566AABB &&
      t.homeTs (.plain 0x100000) == { wts := 10, rts := 10 }) = true := by decide +kernel

/-- R173: a broken word is marked poisoned, and the store is lost. -/
theorem test_merge_broken : after (.partialStoreMerge (.slot 0 .A) 0x100008 0xAABB 3 false) holdDev (fun t =>
    t.mem.word 0x20001 == 7 && poisoned 7 (t.mem.sealAt 0x20001) && t.agenda.length == 1) = true := by decide +kernel

theorem witness_HolderAccesses :
    (0x100000 : BitVec 52).toNat < Config.hbmEnd ∧ (∀ n, Party.slot 0 .A ≠ .completion n) ∧ Config.hostBase ≤ (0xFFF0000000000 : BitVec 52).toNat ∧
    hasTarget (BitVec.ofNat 52 Config.hbmEnd).toNat = false ∧
    (holdDev.holderWord (.plain 0x100000)).2 = sealOf (holdDev.holderWord (.plain 0x100000)).1 ∧
    (holdDev.holderWord (.plain 0x100008)).2 ≠ sealOf (holdDev.holderWord (.plain 0x100008)).1 ∧ holdDev.partyPart (.slot 0 .A) = some 0 ∧
    (Tab.find? holdDev.homes 0x2000).isSome = true ∧ holdDev.keptLine 0x2000 = false ∧ Tab.find? holdDev.homes 1 = none := by
  refine ⟨by decide, fun n h => (by cases h), by decide, by decide, by decide +kernel⟩

/-- Tables of both stages: 0x5000 leads to 0x100000, a page whose home is core 1 of the partition's list (R350, R351). -/
def tableMem : Mem :=
  words [(0x2000, 0x20001), (0x4000, 0x7F), (0x4200, 0x22001), (0x4400, 0x23001), (0x4600, 0x24001), (0x4800, 0x25001),
    (0x4A05, 0x10009F), (0x20000, 0x1122334455667788)]

/-- Core 0 has 64 KiB to pin, and no translation is cached. -/
def walkDev : State :=
  { devWith { part0 with tlb := [], s1root := 0x21001, s2root := 0x10001, budget := [(0, 1)] } { core0 {} with csPin := 1 } .A with mem := tableMem }

/-- R261, R262, R352: the walk pins the page in the store of core 0, whose last 64 KiB it may use. -/
theorem test_walk_pins :
    after (.translationWalk (.slot 0 .A) 0x5000 .read) walkDev (fun t =>
      ((t.part 0).pins.map (fun x => (x.va, x.pa, x.home, x.phys, x.frame))) == [(0x5000, 0x100000, 1, 0, 0x1F0000)] &&
      t.cc.store.word 0x3E000 == 0x1122334455667788 && ((t.part 0).cached (.slot 0 .A) 0x5008 .write).isSome) = true := by decide +kernel

/-- R352: a page without an entry faults with cause 0x10. -/
theorem test_walk_faults :
    after (.translationWalk (.slot 0 .A) 0x6000 .read) walkDev (fun t => (t.cc.slot .A).park.any (fun p => p.cause == 0x10 && p.addr == 0x6000)) = true := by
  decide +kernel

/-- A walk that ends in a fault. -/
def faulted (w : Walked) (f : Park → State → Bool) : Bool :=
  match w with
  | .fault p s => f p s
  | .ok .. | .lost .. => false

theorem witness_WalksAndPins :
    walkDev.partyPart (.slot 0 .A) = some 0 ∧ walkDev.mem.wf = true ∧
    placed (walkDev.translate 0 (.slot 0 .A) 0x5000 .read) (fun p _ => p.home == 1) = true ∧
    placed (walkDev.walk 0 (.slot 0 .A) 0x5000 .read) (fun p t => decide (p.pa < remoteBase) && (t.part 0).pins.any (fun x =>
      x.home == 1 && decide (x.pa / 8 ≤ 0x20000) && decide (0x20000 < (x.pa + x.size) / 8) && x.leaf / 8 != 0x20000)) = true ∧
    faulted (walkDev.walk 0 (.slot 0 .A) 0x6000 .read) (fun p t =>
      p.cause == 0x10 && (t.core 0).bind.isSome && ((t.core 0).slot .A).park.isNone) = true := by decide +kernel

/-- Slots A and B that issue apart; both must meet at the bundle 0x100000, and B stands at `b`. -/
def apartDev (b : Word) : State :=
  dev { ((core0 {}).setSlot .A { group := 0, c0 := 0x100000 }).setSlot .B { group := 1, c0 := b } with
    code := words [(0x20000, 0x8000000000000000), (0x20001, 0x8000000000000000)] } .A

/-- R12: A waits for B; then they are one group. -/
theorem test_rendezvous :
    after (.rendezvous 0 0x100000) (apartDev 0x100020) (fun t => (t.cc.slot .B).group == 1) = true ∧
    after (.rendezvous 0 0x100000) (apartDev 0x100000) (fun t => (t.cc.slot .A).group == (t.cc.slot .B).group) = true := by decide +kernel

/-- R409, R410: the second detection of one stage loses the context. -/
theorem test_timing_detection :
    after (.timingDetection 0 2 7) (dev (core0 {}) .A) (fun t => t.cc.detected == [(2, false)] && Tab.get 0 t.ecrepl 0 == 1 && t.agenda == []) = true ∧
    after (.timingDetection 0 2 7) (dev { core0 {} with detected := [(2, true)] } .A) (fun t => t.agenda.length == 1 && t.cc.detected == []) = true := by
  decide +kernel

/-- What a fetch of the bundle 0x100000 by slot A finds, looked at by `f`. -/
def fetched (s : State) (f : List Word → State → Bool) : Bool :=
  match s.fetch 0 .A 0x100000 with
  | .ok ws u => f ws u
  | .park .. | .lost .. => false

theorem witness_RendezvousAndDetectors :
    fetched (apartDev 0x100020) (fun ws u => (u.core 0).party ws == [.A, .B] && ((u.core 0).slot .B).c0 != 0x100000) = true ∧
    fetched (apartDev 0x100000) (fun ws u => ((u.core 0).party ws).all (fun k => (u.core 0).arrived 0x100000 k)) = true ∧
    ((dev (core0 {}) .A).core 0).bind = some bound ∧ (∀ x ∈ ((dev (core0 {}) .A).core 0).detected, x.1 ≠ 5) ∧
    (5, true) ∈ ((dev { core0 {} with detected := [(5, true)] } .A).core 0).detected := by decide +kernel

/-! Partitions. -/

/-- The device after boot without a partition; partition 3 may be created of cluster 2 with cluster 4 as its margin. -/
def hostDev : State :=
  { State.reset with
    numVfs := 8, vfOn := true, bootDone := true
    parts := [(3, { pguar := 4, pmargin := 16, s2root := 0x10001, pincap := 0x5 })] }

/-- R335, R337: the cluster list is the guaranteed clusters and then the margin. -/
theorem test_create : after (.create 3) hostDev (fun t =>
    (t.part 3).state == 1 && (t.part 3).clusters == [2, 4] && (t.cluster 2).owner == some 3 && (t.part 3).rgen == 1) = true := by decide +kernel

/-- R335: without guaranteed clusters ERR is 2. -/
theorem test_create_refused : after (.create 3) { hostDev with parts := [(3, { s2root := 0x10001 })] } (fun t =>
    (t.part 3).err == 2 && (t.part 3).state == 0) = true := by decide +kernel

/-- A live partition of clusters 2 and 4, a second one of cluster 5. -/
def twoParts : State :=
  { hostDev with
    parts := [(0, { state := 1, clusters := [5] }), (3, { (hostDev.part 3) with state := 1, clusters := [2, 4], margin := 16, mlend := 16, plend := 0x10 })]
    clusters := [(2, { owner := some 3, holder := some 3 }), (4, { owner := some 3, holder := some 3 }), (5, { owner := some 0, holder := some 0 })]
    holes := [(9, { state := 2, owner := 3, gen := 4 })] }

/-- Partition 3 with some fields changed. -/
def twoWith (f : Partition → Partition) : State := twoParts.modPart 3 f

/-- R337, R344: the clusters are scrubbing, and the hole is free with its next generation. -/
theorem test_destroy : after (.destroy 3) twoParts (fun t =>
    (t.part 3).state == 0 && (t.cluster 2).scrubbing && (t.cluster 4).owner == none && t.hole 9 == { gen := 5 }) = true := by decide +kernel

/-- R344: the end of a scrub leaves zeros in the channels of the cluster, but not in a retired frame. -/
theorem test_scrub_end :
    let a := 2 * Config.clusterBytes / 8
    after (.scrubEnd 4) { twoParts with
        clusters := [(2, { scrubbing := true })], mem := words [(a, 5), (a + 512, 6)], retired := [(8 * a + 4096, 0)] } (fun t =>
      t.mem.word a == 0 && t.mem.word (a + 512) == 6 && !(t.cluster 2).scrubbing) = true := by decide +kernel

theorem witness_PartitionsComeAndGo :
    (let p := hostDev.part 3
     p.job = none ∧ p.state = 0 ∧ hostDev.vfEnabled 3 = true ∧ p.pguar ≠ 0 ∧ p.pguar &&& p.pmargin = 0 ∧
     (∀ c ∈ [2, 4], hostDev.clusterFree c = true) ∧ p.s2root.getLsbD 0 = true ∧ p.s2root.extractLsb' 1 15 = 0) ∧
    ((twoParts.part 3).state = 1 ∧ (twoParts.part 3).job = none ∧ (∀ c ∈ List.range 32, twoParts.lentOut 3 c = false) ∧
      (∀ c ∈ (twoParts.part 3).clusters, (twoParts.cluster c).owner = some 3) ∧
      (∀ k ∈ (twoParts.part 3).cores, (twoParts.core k).bind = none) ∧ (twoParts.hole 9).state ≠ 0 ∧ (twoParts.hole 9).owner = 3) ∧
    (let s : State := { twoParts with clusters := [(31, { scrubbing := true })] }
     s.MemWf ∧ (0x80000000 : BitVec 32).getLsbD 31 = true ∧ (s.cluster 31).scrubbing = true ∧ ∀ f ∈ [(4096, 0)], f.1 % 4096 = 0) := by
  exact ⟨by decide +kernel, by decide +kernel, ⟨rfl, fun _ => by
    simp only [State.cluster, Tab.get]
    split <;> rfl, fun _ => ⟨rfl, rfl, rfl⟩⟩, by decide +kernel⟩

/-- R338: a resize that takes cluster 4 out. -/
theorem test_resize : after (.resize 3 true) (twoWith (fun p => { p with pmargin := 0 })) (fun t =>
    (t.part 3).state == 2 && (t.part 3).job == some (.remove [4] false none)) = true := by decide +kernel

/-- R336, R342: a lend to an absent partition is refused with ERR 6, and one to partition 0 begins. -/
theorem test_lend :
    after (.lend 3 false) (twoWith (fun p => { p with plend := 0x0000000700000010 })) (fun t => (t.part 3).err == 6) = true ∧
    after (.lend 3 false) twoParts (fun t => (t.part 3).job == some (.remove [4] true (some 0))) = true := by decide +kernel

/-- Cluster 4 is lent to partition 0. -/
def lentDev : State :=
  { twoParts with
    parts := [(0, { state := 1, clusters := [5, 4] }), (3, { (twoParts.part 3) with clusters := [2] })]
    clusters := [(2, { owner := some 3, holder := some 3 }), (4, { owner := some 3, holder := some 0 }), (5, { owner := some 0, holder := some 0 })] }

/-- R343: REVOKE recalls it. -/
theorem test_revoke : after (.revoke 3) lentDev (fun t => (t.cluster 4).recalled && (t.part 3).job == some (.await 4)) = true := by decide +kernel

/-- R339: the last cluster takes the place of the one that leaves. -/
theorem test_cluster_removal : after (.clusterRemoval 3) (twoWith (fun p => { p with job := some (.remove [2] false none), departing := [0, 1] })) (fun t =>
    (t.part 3).clusters == [4] && (t.part 3).job == some (.remove [] false none) && (t.cluster 2).scrubbing) = true := by decide +kernel

theorem witness_ResizesAndLending :
    (let p := (twoWith (fun p => { p with pguar := 0x24 })).part 3
     p.job = none ∧ p.state = 1 ∧ twoParts.clusterFree 6 = true ∧ twoParts.clusterFree 5 = false) ∧
    ((twoParts.part 3).margin.getLsbD 4 = true ∧ twoParts.lentOut 3 4 = false ∧ (twoParts.cluster 4).owner = some 3 ∧ (twoParts.part 0).state = 1 ∧
      (twoParts.part 3).clusters ≠ [4] ∧ (twoParts.part 3).mlend.getLsbD 4 = true) ∧
    ((lentDev.part 3).job = none ∧ (lentDev.part 3).state = 1 ∧ lentDev.lentOut 3 4 = true ∧ (lentDev.part 3).margin.getLsbD 4 = true) ∧
    (let s : State := { lentDev with clusters := [(4, { owner := some 3, holder := some 0, recalled := true }), (5, { owner := some 0, holder := some 0 })] }
     (s.part 0).job = none ∧ (s.part 0).state = 1 ∧
     (s.part 0).clusters.find? (fun c => (s.cluster c).owner != some 0 && (s.cluster c).recalled) = some 4) ∧
    (∀ d ∈ [[], [0, 1]],
      let s := twoWith (fun p => { p with job := some (.remove [2] false (some 0)), departing := d })
      let p := s.part 3
      2 ∈ p.clusters ∧ p.clusters.Nodup ∧ p.launch = none ∧ (∀ k ∈ List.range 256, (s.core k).bind = none) ∧ (s.part 0).launch = none ∧
      (s.part 0).state ≠ 0 ∧ (∀ q ∈ [0], q ≠ 3)) ∧
    (let l := running
     let q : Partition := { (lentDev.part 0) with
       job := some (.remove [4] false (some 3)), departing := [1, 1], launch := some l, rings := [(0, { run := some (packet [head 1]) })] }
     let s : State := { lentDev with
       cores := [(32, { bind := some { part := 0, node := 0, gpos := 0, glast := 0, vcore := 8 } })], parts := [(0, q), (3, lentDev.part 3)] }
     (s.core 32).bind.isSome = true ∧ 8 / 8 ∈ (s.part 0).departing ∧ (s.cluster 4).owner ≠ some 0 ∧ (s.part 0).launch = some l ∧ l.closed = false ∧
     ((s.part 0).ring l.ring).run = some (packet [head 1]) ∧ (packet [head 1]).done = false) := by decide +kernel

/-- R259: fields above their bounds are clamped. -/
theorem test_budget_word : after (.budgetWord 3 1 0x1F) (twoWith (fun p => { p with pincap := 0x40 })) (fun t =>
    Tab.get 0 (t.part 3).budget 1 == 0x10) = true := by decide +kernel

/-- R355: the oldest range loses its translations. -/
theorem test_invalidation : after (.invalidationComplete 0 .s1)
    (devWith { part0 with inv1 := { req := 1, waiting := [(0x100000, 0x1000, 0)] } } (core0 {}) .A) (fun t =>
      (t.part 0).tlb == [] && (t.part 0).inv1.done == 1 && (t.part 0).pend == 8) = true := by decide +kernel

theorem witness_BudgetsInvalidationsAndResets :
    (let s := twoWith (fun p => { p with pincap := 0x40 })
     (s.part 3).clusters[1]? = some 4 ∧ (s.part 3).clusters[2]? = none ∧ s.budgetRefused 3 1 (budgetStored 0x1F) = false ∧
     twoParts.budgetRefused 3 1 (budgetStored 0x1F) = true) ∧
    ((0x8000000000000000 : Word).getLsbD 63 = true ∧ ((0x1800000000001000 : Word).extractLsb' 57 6).toNat = 12 ∧
      ((0x7200000000000000 : Word).extractLsb' 57 6).toNat = 57 ∧ ((0x1600000000001000 : Word).extractLsb' 57 6).toNat = 11) ∧
    (let v : Inval := { req := 16, waiting := [(0, 4096, 1)] }
     ¬ v.req - v.done < 16 ∧ v.waiting = [(0, 4096, 1)]) ∧ (twoParts.part 3).inv2.waiting = [] ∧
    ((twoParts.part 3).state ≠ 0 ∧ (twoParts.part 7).state = 0 ∧ (twoParts.part 3).cores.all (fun c => (twoParts.core c).bind.isNone) = true ∧
      twoParts.holdUntil = none) ∧ ((twoWith (fun p => { p with lost := true })).part 3).lost = true := by decide +kernel

theorem witness_limiter : -(2 ^ 60 : Int) < (Tab.get ({} : Bucket) (twoParts.part 3).lims 3).bytes := by
  show -(2 ^ 60 : Int) < 0
  omega

/-! Stops, saves and resumes. -/

/-- Core 0 runs a member of node 0 with its slots in the state `k`; its save slot is at 8 MiB when `sv` says so. -/
def memberDev (k : Core) (sv : Option Nat) : State :=
  let p : Partition := { taskPart { running with nodes := [(0, { aNode with st := .dispatched, seats := [{ vcore := 0, save := sv }] })] } with svroot := 0x0030000000000000 }
  { devWith p { k with bind := some bound, repair := { active := false } } .A with mem := graphMem }

/-- R361, R363: a second request keeps the earlier deadline; a request of 0 is a hard stop. -/
theorem test_stop_request :
    after (.stopRequest 0 100) { memberDev { stop := .soft 7 } none with repeatable := true } (fun t => t.cc.stop == .soft 7) = true ∧
    after (.stopRequest 0 0) { memberDev {} none with repeatable := true } (fun t => match t.cc.stop with | .slots true none _ => true | _ => false) = true := by
  decide +kernel

/-- R363: the deadline passes. -/
theorem test_hard_stop : after (.hardStop 0) (memberDev { stop := .soft 90 } none) (fun t =>
    t.cc.stop == .slots true none 90 && t.timebase == 90) = true := by decide +kernel

/-- R371: without a save slot the launch ends. -/
theorem test_stop_save_ends : after (.stopSave 0) (memberDev { stop := .slots true none 9 } none) (fun t =>
    (t.part 0).launch.any (fun l => l.ending.map (·.1) == some 0x0D)) = true := by decide +kernel

/-- Slots of core 0 that stand together at a bundle of the reel, whose bundle 0 is a safe point with live mask 0 (R97, R98). -/
def together (x : Word) : State :=
  { memberDev { stop := .soft 9, slots := allSlots.map (fun k => (slotIx k, ({ c0 := x, c1 := x + 32, c2 := x + 64, group := 0 } : SlotState))) } none with
    mem := (graphMem.store 0x20042 0x100000001).store 0x20043 0x40 }

/-- R363: the slots stop at the safe point, and not at the bundle after it. -/
theorem test_soft_stop :
    after (.softStop 0) (together 0x100200) (fun t => t.cc.stop == .slots false (some 0) 9) = true ∧
    after (.softStop 0) (together 0x100220) (fun t => t.cc.stop == .soft 9) = true := by decide +kernel

theorem witness_StopsAndSaves :
    (((memberDev {} none).core 0).stoppable = true ∧ (State.reset.core 0).stoppable = false ∧ ((memberDev {} none).core 0).stop = .none) ∧
    (let s := together 0x100200
     (s.core 0).stop = .soft 9 ∧ (s.core 0).safeAddr = some 0x100200 ∧ (s.core 0).bind = some bound ∧
     gotOk (s.safePoint 0 0x100200 0x100200) (fun x _ => x == some 0) = true ∧
     gotOk (s.safePoint 0 0x100200 0x100220) (fun x _ => x == none) = true) ∧
    ((memberDev { stop := .soft 9 } none).atRest 0 = false) ∧
    (∀ sv ∈ [none, some 0x800000],
      let s := memberDev { stop := .slots true none 9 } sv
      s.atRest 0 = true ∧ s.saveSlot bound = sv ∧ (s.part 0).launch.any (fun l => !l.closed && (Tab.find? l.nodes 0).any (fun n =>
        n.seats[0]?.isSome && n.st == .dispatched)) = true) ∧
    fullMask.length = 4 := by decide +kernel

/-- A member that is loading from its save slot at 8 MiB, of which word 0 is `w`, and every other one zero. -/
def resumeDev (w : Word) (sl : BitVec 8) : State :=
  { memberDev { loading := true } (some 0x800000) with mem := ({} : Mem).write 0x100000 w sl }

/-- MAGIC and VERSION (R372). -/
def slotHead : Word := 0x0000000145564153

/-- A memory whose every word is intact has no broken range. -/
theorem savedBad_none {m : Mem} (h : m.wf = true) (ok : ∀ n, sealOk (m.word n) (m.sealAt n) = true) (l : List (Nat × Nat)) :
    m.savedBad l = none := by
  induction l with
  | nil => rfl
  | cons x r ih =>
    obtain ⟨off, n⟩ := x
    have e : (m.words (off / 8) (n / 8)).findIdx? (fun x => !sealOk x.1 x.2) = none := by
      rw [Mem.words_eq h, List.findIdx?_eq_none_iff]
      intro x hx
      obtain ⟨i, _, rfl⟩ := List.mem_map.1 hx
      rw [ok]
      rfl
    rw [Mem.savedBad, e]
    exact ih

/-- What the resume reads of the slot. -/
def slotMem (w : Word) (sl : BitVec 8) : Mem := (resumeDev w sl).region 0x800000 0x800000

theorem slot_mem (w : Word) (h : w = slotHead ∨ w = 0) : slotMem w (sealOf w) = ({} : Mem).write 0 w (sealOf w) := by
  rcases h with rfl | rfl <;> decide +kernel

theorem empty_sound (n : Nat) : sealOk (({} : Mem).word n) (({} : Mem).sealAt n) = true := by
  have e : ({} : Mem).word n = wordOf (fun _ => 0) := rfl
  have f : ({} : Mem).sealAt n = 0 := rfl
  rw [e, f]
  decide +kernel

theorem slot_sound (w : Word) (h : w = slotHead ∨ w = 0) (l : List (Nat × Nat)) : (slotMem w (sealOf w)).savedBad l = none := by
  rw [slot_mem w h]
  refine savedBad_none (Mem.wf_write Mem.wf_empty ..) (fun n => ?_) l
  rw [Mem.word_write Mem.wf_empty, Mem.sealAt_write Mem.wf_empty]
  split
  · simp [sealOk]
  · exact empty_sound n

theorem slot_saved (w : Word) (h : w = slotHead ∨ w = 0) : (slotMem w (sealOf w)).saved = fun off => if off / 8 = 0 then w else 0 := by
  rw [slot_mem w h]
  funext off
  show (({} : Mem).write 0 w _).word _ = _
  rw [Mem.word_write Mem.wf_empty]
  have z : wordOf (fun _ => 0) = 0 := by decide +kernel
  have e : ({} : Mem).word (off / 8) = 0 := (rfl : ({} : Mem).word (off / 8) = wordOf (fun _ => 0)).trans z
  rw [e]

/-- R379: a good slot; one without MAGIC; one whose word 0 is broken. -/
theorem witness_MemberResumes :
    (let s := resumeDev slotHead (sealOf slotHead)
     (s.core 0).bind = some bound ∧ (s.core 0).loading = true ∧ (s.core 0).restored = false ∧ (s.core 0).staged = none ∧
     s.saveSlot bound = some 0x800000 ∧ (s.part 0).launch.any (fun l => !l.closed) = true) ∧
    ((slotMem slotHead (sealOf slotHead)).savedBad (slotMem slotHead (sealOf slotHead)).saved.head = none ∧
      (slotMem slotHead (sealOf slotHead)).savedBad (slotMem slotHead (sealOf slotHead)).saved.formed = none ∧
      (slotMem slotHead (sealOf slotHead)).saved.good bound = true ∧ ((slotMem slotHead (sealOf slotHead)).saved 8).getLsbD 0 = false) ∧
    ((slotMem 0 (sealOf 0)).savedBad (slotMem 0 (sealOf 0)).saved.head = none ∧ (slotMem 0 (sealOf 0)).saved.good bound = false) ∧
    (slotMem slotHead 0).savedBad (slotMem slotHead 0).saved.head = some 0 ∧
    (slotMem slotHead 0).wf = true ∧ ((resumeDev slotHead 0).core 0).store.wf = true ∧
    ((resumeDev slotHead 0).core 0).taskBytes % 8 = 0 :=
  ⟨by decide +kernel, ⟨slot_sound _ (.inl rfl) _, slot_sound _ (.inl rfl) _, by rw [slot_saved _ (.inl rfl)]; decide +kernel, by decide +kernel⟩,
    ⟨slot_sound _ (.inr rfl) _, by rw [slot_saved _ (.inr rfl)]; decide +kernel⟩,
    by decide +kernel, by decide +kernel, by decide +kernel, by decide +kernel⟩

/-- A paused partition whose image, at 8 MiB, holds nothing. -/
def pausedDev : State :=
  { hostDev with
    parts := [(3, { state := 4, clusters := [2], migimg := 0x0010000000800000 })]
    clusters := [(2, { owner := some 3, holder := some 3 })]
    mem := words [(0x100000, 0x000100014D494752), (0x100001, 0x80000)] }

/-- R387: a pause of an absent partition has ERR 1, and one without room for its image ERR 11. -/
theorem test_pause :
    after (.pause 7) hostDev (fun t => (t.part 7).err == 1) = true ∧
    after (.pause 3) twoParts (fun t => (t.part 3).err == 11) = true ∧
    after (.pause 3) (twoWith (fun p => { p with migimg := 0x0010000000800000 })) (fun t =>
      (t.part 3).job == some (.pause 2 0) && (t.part 3).vfstate == 2) = true := by decide +kernel

/-- R387: without MAGIC ERR is 8. -/
theorem test_resume : after (.resume 3) { pausedDev with mem := {} } (fun t => (t.part 3).err == 8 && (t.part 3).state == 4) = true := by decide +kernel

def pausedMem : Mem := (({} : Mem).store 0 0x000100014D494752).store 1 0x80000

theorem paused_mem : pausedDev.region 0x800000 0x100000 = pausedMem := by decide +kernel

theorem paused_sound : pausedMem.imageSealed 0x80000 = true := by
  refine List.all_eq_true.2 (fun n _ => ?_)
  have h := Mem.wf_store Mem.wf_empty 0 (0x000100014D494752 : Word)
  unfold pausedMem
  rw [Mem.store, Mem.word_write h, Mem.sealAt_write h]
  split
  · simp [sealOk]
  · rw [Mem.store, Mem.word_write Mem.wf_empty, Mem.sealAt_write Mem.wf_empty]
    split
    · simp [sealOk]
    · exact empty_sound n

theorem paused_read : pausedDev.imageRead 3 = pausedMem := by
  have e : (pausedDev.part 3).imageAt = (0x800000, 0x100000) := by decide +kernel
  have r : pausedDev.imageRead 3 = pausedDev.region 0x800000 0x100000 := by
    unfold State.imageRead
    rw [e]
    rfl
  rw [r, paused_mem]

theorem witness_PauseAndResume :
    ((twoWith (fun p => { p with migimg := 0x0010000000800000 })).part 3).job = none ∧
    (twoWith (fun p => { p with migimg := 0x0010000000800000 })).pauseErr 3 = none ∧
    hostDev.bootDone = true ∧ (pausedDev.part 3).state = 4 ∧ pausedDev.resumeErr 3 = none ∧ ({ pausedDev with mem := {} } : State).resumeErr 3 = some 8 ∧
    (pausedDev.part 3).clusters.Nodup ∧ (pausedDev.part 3).physCore 7 = some 23 := by
  refine ⟨by decide +kernel, by decide +kernel, rfl, by decide +kernel, ?_, by decide +kernel, by decide +kernel, by decide +kernel⟩
  have e : (pausedDev.part 3).imageAt = (0x800000, 0x100000) := by decide +kernel
  have l : (pausedMem.saved 8).toNat = 0x80000 := by decide +kernel
  unfold State.resumeErr
  simp only [e, paused_read, l, paused_sound]
  decide +kernel

/-- The image of `pausedDev` keeps to R396, and it fits. -/
theorem witness_PauseAndResume_image :
    let m := pausedDev.imageRead 3
    let f := m.saved
    let p := pausedDev.part 3
    let caps := budgetTotals ((List.range 32).map (fun v => (v, f (0x2900 + 8 * v))))
    ((f 0).extractLsb' 0 32 = 0x4D494752 ∧ (f 0).extractLsb' 32 16 = 1 ∧ 0x80000 ≤ (f 8).toNat ∧
      (f 8).toNat ≤ p.imageAt.2 ∧ (f 0x10).extractLsb' 5 27 = 0 ∧ (f 0x10).extractLsb' 44 20 = 0 ∧ (f 0x40).extractLsb' 16 48 = 0 ∧
      (f 0x48).extractLsb' 32 32 = 0 ∧ (f 0x60).extractLsb' 20 44 = 0 ∧ (∀ i, i < 498 → f (0x70 + 8 * i) = 0) ∧ f.recordsOk = true) ∧
    (∀ i, i < (f 8).toNat / 8 → m.sealAt i = sealOf (m.word i)) ∧
    ((f 0).extractLsb' 48 16).toNat = p.clusters.length ∧ f.holes = [] ∧ f.slotsNamed = [] ∧ caps.1 ≤ (p.pincap.extractLsb' 0 13).toNat ∧
    caps.2.1 ≤ (p.pincap.extractLsb' 16 10).toNat ∧ caps.2.2 ≤ (p.pincap.extractLsb' 32 10).toNat := by
  have l : (pausedMem.saved 8).toNat = 0x80000 := by decide +kernel
  simp only [paused_read, l]
  refine ⟨by decide +kernel, fun i hi => ?_, by decide +kernel, by decide +kernel, by decide +kernel, by decide +kernel, by decide +kernel,
    by decide +kernel⟩
  have := List.all_eq_true.1 paused_sound i (List.mem_range.2 hi)
  simpa [sealOk] using this

/-- What a save slot has no place for. -/
def someKept : Kept :=
  { slots := (List.range 4).map (fun i => { pts := 7, solo := i == 2, clset := 5 })
    queues := (List.range 3).map (fun i => { enq := 10 + i, done := 8, pts := 7, recs := [([1, 2, 3], 4 + i, 7, [])] })
    moveSeq := 12, moves := [(10, 0x123, 9, 0xF, true), (11, 0x456, 10, 3, false)]
    conds := [{ seq := 4, raised := 3, enabled := 1, elem := 1023 }], stages := [1, 2, 3], joinTs := (List.range 32).map (fun j => (j, 7))
    scales := [0x7F7F7F7F, 5], scalesAhead := [9], chainMet := true }

/-- R1, R5: the context image gives it back; where the image has no such words, there is nothing. -/
theorem test_kept_words :
    Saved.keptAt (fun o => if o < 0x1000 then 0 else someKept.words.getD ((o - 0x1000) / 8) 0) 0x1000 7 5 = some someKept ∧
    Saved.keptAt (fun _ => 0) 0x1000 7 5 = none := by decide +kernel

/-- R392: a source that is misaligned ends the copy with ERR 1; ABORT and the end of the words set DONE. -/
theorem test_channel :
    after (.go 2) { hostDev with channels := [(2, { src := 0x10, len := 64 })] } (fun t => (t.channel 2).err == 1 && (t.channel 2).done) = true ∧
    after (.channelCopyDone 2) { hostDev with channels := [(2, { len := 64, moved := 64, pos := 64, busy := true })] } (fun t =>
      (t.channel 2).done && !(t.channel 2).busy) = true := by decide +kernel

/-- A word of an admitted peer at 0x100000 (R385). -/
def fabricDev : State :=
  { hostDev with
    parts := [(3, { state := 1, clusters := [2], s2root := 0x10001, facc := [(0, 0x8000000000050001)] })]
    mem := words [(0x2000, 0x20001), (0x4000, 0x7F), (0x20000, 40)] }

def request (k : AccessKind) : FabricRequest := { srcDev := 5, srcPart := 1, part := 3, ipa := 0x100000, kind := k, size := .d, fn := 0, operand := 2, new := 0 }

/-- R386: an atomic addition is performed at the holder, and its old word goes back. -/
theorem test_fabric_access : after (.fabricAccess (request .both)) fabricDev (fun t =>
    t.mem.word 0x20000 == 42 && t.sent == [.fabric 5 1 none 40 (sealOf 40)]) = true := by decide +kernel

/-- R464: a device that is behind takes one count; R382: training gives the number. -/
theorem test_fabric_time :
    after (.timebaseCorrection 9) { hostDev with trained := true, timebase := 5 } (fun t => t.timebase == 6) = true ∧
    after (.linkTraining 12 none) hostDev (fun t => t.device == 12 && t.trained) = true := by decide +kernel

theorem witness_ChannelsFabricAndAccounts :
    (let x : Channel := { src := 0x40, len := 0x80 }
     x.busy = false ∧ ¬ (x.src.toNat % 64 ≠ 0 ∨ Config.hbmEnd < x.src.toNat + (x.len.extractLsb' 0 40).toNat / 64 * 64) ∧
     ({ src := 0x10 } : Channel).src.toNat % 64 ≠ 0 ∧ ({ busy := true, moved := 64 } : Channel).busy = true) ∧
    ((fabricDev.part 3).state ≠ 0 ∧ (fabricDev.part 3).pausing = false ∧ (fabricDev.part 3).admits 5 1 = true ∧
      (fabricDev.part 3).admits 4 1 = false ∧
      (match fabricDev.stage2 (fabricDev.part 3).s2root 0x100000 with
        | .ok l => rightOk l.r l.w l.x .both && l.pa % 8 == 0
        | .error _ => false) = true ∧
      (match fabricDev.stage2 (fabricDev.part 3).s2root 0x40000000 with | .ok _ => false | .error _ => true) = true ∧
      (match ({ fabricDev with mem := words [(0x2000, 0x20001), (0x4000, 0x37)] } : State).stage2 0x10001 0x100000 with
        | .ok l => rightOk l.r l.w l.x .write | .error _ => true) = false ∧
      (let s : State := { fabricDev with parts := [(3, { (fabricDev.part 3) with state := 4 })] }
       (s.part 3).admits 5 1 = true ∧ (s.part 3).state = 4)) ∧
    ((5 : Word).toNat < (9 : Word).toNat ∧ (twoParts.part 3).state = 1 ∧ (hostDev.part 9).state = 0) := by decide +kernel

/-! Power, boot, repair, attestation and the host link. What the opaque functions of Config answer no witness can show: of
those clauses the witness says that each state has one of the two answers. -/

/-- R422: a write of a higher point raises the rail before the change ends. -/
theorem test_point :
    after (.point 3 9) { hostDev with clusters := [(3, { point := 4, pointNow := 4, volt := 3500 })] } (fun t =>
      (t.cluster 3).changing == some 9 && (t.cluster 3).volt == 3875) = true ∧
    after (.pointChangeComplete 3) { hostDev with clusters := [(3, { point := 4, pointNow := 9, changing := some 4, volt := 3875 })] } (fun t =>
      (t.cluster 3).pointNow == 4 && (t.cluster 3).volt == 3500) = true := by decide +kernel

/-- R421: more than 256 replays since the last look raise the rail by 6.25 mV, within 75 mV of the point's. -/
theorem test_voltage_loop :
    after (.voltageLoop 3) { hostDev with ecrepl := [(3, 300)], clusters := [(3, { pointNow := 16, volt := 4400 })] } (fun t =>
      (t.cluster 3).volt == 4450) = true := by decide +kernel

/-- R429, R462: a trip counts and tells the host, and TRIPS stands at 255. -/
theorem test_thermal_trip : (∀ n ∈ [254, 255], after (.thermalTrip 3) { hostDev with trips := n, msix := [(3, 0)] } (fun t =>
    (t.cluster 3).trip && t.trips == 255 && t.sent == if n == 254 then [.msi none 1] else []) = true) := by decide +kernel

theorem witness_PowerControl :
    (hostDev.repeatable = false ∧ hostDev.fwsafe = false ∧ (hostDev.cluster 3).changing = none ∧ (5 : BitVec 5) ≠ (hostDev.cluster 3).pointNow) ∧
    (let k : Cluster := { changing := some 4, point := 4 }
     k.changing = some 4 ∧ k.point = 4 ∧ ({ k with point := 9 } : Cluster).point ≠ 4) ∧
    ((hostDev.cluster 3).cadence.toNat ≤ 16 ∧ (hostDev.cluster 3).trip = false ∧ ({ trip := true } : Cluster).trip = true) ∧
    ((1 : Word).getLsbD 0 ≠ hostDev.repeatable ∧ (0 : Word).getLsbD 0 = hostDev.repeatable) ∧
    (let s : State := { hostDev with fwsafe := true, beats := 1 }
     s.fwsafe = true ∧ s.fwupd = false ∧ s.beats ≠ 0 ∧ hostDev.beats = 0) ∧
    3200 + 75 * (hostDev.cluster 3).railPoint.toNat - 200 ≤ (hostDev.cluster 3).volt ∧
    (hostDev.cluster 3).volt ≤ 3200 + 75 * (hostDev.cluster 3).railPoint.toNat + 600 := by decide +kernel

/-- R463: a hot reset destroys the partitions. -/
theorem test_hot_reset : after .hotReset twoParts (fun t => (t.part 3).state == 0 && (t.part 0).state == 0 && !t.vfOn && t.numVfs == 0) = true := by
  decide +kernel

/-- R446: an entry in range takes spare 0 of its bank; the fifth one overflows. -/
theorem test_repair_entry :
    after (.repairTableWrite 0 2 0x85001200) State.reset (fun t => Tab.get 0 (t.core 0).repair.table 2 == 0x85001200 &&
      Tab.get 0 (t.core 0).repair.spares 5 == 1) = true ∧
    after (.repairTableWrite 0 2 0x85001200) (State.reset.modCore 0 (fun c => { c with repair := { spares := [(5, 4)] } })) (fun t =>
      (Tab.get 0 (t.core 0).repair.table 2).getLsbD 29) = true := by decide +kernel

theorem witness_ResetsBootAndRepair :
    (∀ s : State, (∀ k, k ∈ [1, 2, 3, 4, 5] → ∃ j, j < 2 ∧ imageAccepted k (s.flashImage k j) = true) ∨
      ∃ k, k ∈ [1, 2, 3, 4, 5] ∧ ∀ j, j < 2 → imageAccepted k (s.flashImage k j) = false) ∧
    ((twoParts.part 3).state ≠ 0 ∧ twoParts.vfEnabled 3 = true ∧ (twoParts.hole 9).state ≠ 0 ∧ (twoParts.hole 9).owner = 3 ∧ 2 < 64 ∧
      ({ twoParts with numVfs := 2 } : State).vfEnabled 3 = false) ∧
    (hostDev.linkOpen = true ∧ hostDev.mbCommand = none ∧ State.reset.linkOpen = false ∧ imageLength hostDev.takePiece ≤ hostDev.takePiece.length ∧
      (0 : BitVec 8).toNat ∉ [1, 2, 3, 4, 5] ∧
      (let s : State := { hostDev with mbWords := [(33, 0x100000)] }
       s.takePiece.length < imageLength s.takePiece)) ∧
    ((State.reset.core 0).inRepair = true ∧ ((dev (core0 {}) .A).core 0).inRepair = false ∧ (State.reset.core 255).repairing = true ∧
      ((dev (core0 {}) .A).core 0).repairing = false) ∧
    (let x : Word := 0xD3007F00
     x.getLsbD 31 = true ∧ x.getLsbD 30 = true ∧ (x.extractLsb' 24 5).toNat = 19 ∧ (x.extractLsb' 8 8).toNat = 127) ∧
    (let r : Repair := { table := [(3, 0x85001200)] }
     r.arm.spareFor 0 5 18 = some 0) := by
  refine ⟨fun s => ?_, by decide +kernel, by decide +kernel, by decide +kernel, by decide +kernel, by decide +kernel⟩
  by_cases h : ∀ k, k ∈ [1, 2, 3, 4, 5] → ∃ j, j < 2 ∧ imageAccepted k (s.flashImage k j) = true
  · exact .inl h
  · simp only [Classical.not_forall] at h
    obtain ⟨k, hk, hj⟩ := h
    exact .inr ⟨k, hk, fun j hj' => Bool.eq_false_iff.2 (fun e => hj ⟨j, hj', e⟩)⟩

/-- A device whose responder has negotiated, with a session and a handshake. -/
def spdmDev : State := { hostDev with spdm := { stage := 3, handshake := some 2, session := some 1, sessions := 2 }, blocks := [(1, 0)] }

/-- R440: requests are answered in their order. -/
theorem test_spdm_order :
    after .spdmGetCapabilities hostDev (fun t => t.sent == [.spdm (.error 0x04)]) = true ∧
    after .spdmGetVersion hostDev (fun t => t.sent == [.spdm (.version 1 3)] && t.spdm.stage == 1) = true ∧
    after (.spdmGetMeasurements ⟨0, 0⟩) spdmDev (fun t => t.sent == [.spdm (.measurementCount 1)]) = true := by decide +kernel

theorem witness_Attestation :
    (spdmDev.bootDone = true ∧ spdmDev.idfail = false ∧ 3 ≤ spdmDev.spdm.stage ∧ spdmDev.spdm.handshake = some 2 ∧ spdmDev.spdm.session = some 1 ∧
      spdmDev.blocks ≠ [] ∧ spdmDev.blocks[(1 : BitVec 8).toNat - 1]? = some (1, 0) ∧ spdmDev.blocks.length < (2 : BitVec 8).toNat) ∧
    (State.reset.bootDone = false ∧ hostDev.spdm.stage < 1 ∧ hostDev.spdm.handshake = none ∧ hostDev.spdm.session = none ∧
      ({ spdmDev with idfail := true } : State).idfail = true) ∧
    (let x : IdeStream := { selective := true, id := 5, keySet := 0, keys := [] }
     let y : IdeStream := { x with selective := false, keySet := 1 }
     let l := List.replicate 8 { x with id := 9 } ++ [y]
     spdmDev.spdm.streams = [] ∧ (l.any (fun z => z.selective && z.id == 5) = false ∧ (l.filter (·.selective)).length = 8) ∧
     l.any (fun z => !z.selective && z.id == 5) = true ∧ (l.filter (fun z => !z.selective)).length = 1) ∧
    (let s : State := { spdmDev with idfail := true }
     s.spdm.stage = 3 ∧ s.idfail = true ∧ s.bootDone = true) := by decide +kernel

/-- Partition 3 with stage-2 tables and words at 0x100000. -/
def windowDev : State :=
  { hostDev with
    parts := [(3, { state := 1, clusters := [2], s2root := 0x10001 })]
    mem := (words [(0x2000, 0x20001), (0x4000, 0x7F), (0x20000, 40)]).write 0x20001 7 0x5A
    clusters := [(0, { owner := some 3, holder := some 3 })] }

/-- R265, R457: a read sends the word; one whose seal is broken is sent poisoned, and the partition loses its context. -/
theorem test_bar2 :
    after (.pfBar2Access false 0x100000 ⟨0, false⟩ 0xFF) windowDev (fun t => t.sent == [.bar2 40 false]) = true ∧
    after (.pfBar2Access false 0x100008 ⟨0, false⟩ 0xFF) windowDev (fun t => t.sent == [.bar2 7 true] && t.agenda.length == 1) = true ∧
    after (.vfBar2Access 3 true 0x100000 ⟨0x1234, false⟩ 1) windowDev (fun t => t.mem.word 0x20000 == 0x34) = true ∧
    after (.vfBar2Access 3 false 0x40000000 ⟨0, false⟩ 0xFF) windowDev (fun t => (t.part 3).winerr == 0x8000000040000000) = true := by decide +kernel

/-- R335, R459: a write of PGUAR. -/
theorem test_register_write : after (.registerWrite .physical 0x103008 8 0x14) hostDev (fun t => (t.part 3).pguar == 0x14) = true := by decide +kernel

theorem witness_HostAccesses :
    (windowDev.bootDone = true ∧ windowDev.vfEnabled 3 = true ∧ (windowDev.part 3).state ≠ 0 ∧ 0x100000 < Config.hbmEnd ∧ 0x40000000 < 2 ^ 36 ∧
      (windowDev.holderWord (.plain 0x100000)).2 = sealOf (windowDev.holderWord (.plain 0x100000)).1 ∧
      (windowDev.holderWord (.plain 0x100008)).2 ≠ sealOf (windowDev.holderWord (.plain 0x100008)).1 ∧
      (windowDev.cluster (0x100008 / 8 * 8 / Config.clusterBytes)).owner = some 3) ∧
    ((windowDev.bar2Place 3 false 0x40000000).1 = none ∧ (windowDev.bar2Place 3 true 0x40000000).1 = none ∧
      (∀ w ∈ [true, false], (windowDev.bar2Place 3 w 0x100000).1.any (fun p => p.here &&
        (let x := (windowDev.bar2Place 3 w 0x100000).2.holderWord p; x.2 == sealOf x.1)) = true)) ∧
    ((Tab.get (1#64 <<< 32) hostDev.msix 7).getLsbD 32 = true ∧ (0 : Word).getLsbD 32 = false) ∧
    (actionReg .physical 0x103008 = false ∧ actionReg .physical 0x103000 = true ∧ 0x103008 % 8 = 0 ∧ 0x10300C % 8 = 4 ∧ 0x103009 % 4 ≠ 0) := by
  decide +kernel

/-! Witnesses of further clauses. -/

/-! Witnesses of single clauses. -/

theorem witness_SealRefetch :
    (let s := dev { core0 {} with loads := [{ aLoad with sl := 0 }] } .A
     Slot.A ≠ .E ∧ (s.core 0).loads = { aLoad with sl := 0 } :: [] ∧ ({ aLoad with sl := 0 } : PendLoad).sl ≠ sealOf aLoad.word) ∧
    (dev { core0 {} with loads := [aLoad] } .A).cc.loads = aLoad :: [] ∧
    (let x : VWord := { n := 0x20000, place := Place.plain 0x100000, word := 7, sl := 0 }
     let v : PendVec := { vd := 4, elems := [(0, 0x100000)], words := [x, { x with sl := sealOf 7 }], again := false }
     ((dev { core0 {} with vloads := [v] } .E).core 0).vloads = v :: [] ∧ v.words[0]? = some x ∧ x.sl ≠ sealOf x.word ∧
       v.words[1]? = some { x with sl := sealOf 7 }) := by decide +kernel

/-- R406: the damaged copy is dropped, the holder's word is fetched, and the return is due again. -/
theorem test_seal_refetch :
    after (.sealRefetch (.slot 0 .A)) { dev { core0 {} with loads := [{ aLoad with sl := 0 }] } .A with mem := Mem.store {} 0x20000 5 } (fun t =>
      t.cc.loads.map (fun l => (l.word, l.again)) == [(5, true)] && t.agenda == [.loadReturn 0]) = true := by decide +kernel

theorem witness_CirculationEntries_refusals :
    (let s := { imageDev with cores := [(0, { imageDev.cc with bind := none })] }
     (s.rs 1).toNat % 64 = 0 ∧ (s.rs 1).toNat < 0x200000 - 65536 * s.cc.csPin ∧ s.cc.bind = none) ∧
    (let s := { imageDev with cores := [(0, { imageDev.cc with store := imageDev.cc.store.write 8 1 0x5A })] }
     s.cc.bind = some bound ∧ (match s.cc.taskWords (s.rs 1).toNat 8 with | .ok _ => false | .error _ => true) = true) ∧
    (let s := { imageDev with cores := [(0, { imageDev.cc with store := Mem.store (Mem.store {} 8 0x100) 12 0x8000000000000000 })] }
     s.cc.bind = some bound ∧ (match s.cc.taskWords (s.rs 1).toNat 8 with
       | .ok w => imageReason w (s.part 0).clusters.length == some 1 | .error _ => false) = true) ∧
    ((dev (core0 {}) .B).part 0).clsets = [] ∧
    (let x : ClSet := { aSet with accepted := true, replaced := true }
     let p : Partition := { part0 with clsets := [x], cl := [(9, { ver := 3 })] }
     let s := devWith p ((core0 {}).modQueue .mq (fun q => { q with snap := some (9, { ver := 2 }) })) .B
     (s.part 0).clsets.find? (fun y => y.entry == 9) = some x ∧ s.oldSnapshot 0 9 (Tab.get {} (s.part 0).cl 9).ver = true) ∧
    (let k : Park := { cause := 0x20, list := some 9, handle := 4 }
     let c := ((core0 {}).setSlot .A { park := some k }).modQueue .cq0 (fun q => { q with park := some k })
     let s := devWith { part0 with
       clsets := [{ aSet with accepted := true, replaced := true }], handles := [(4, .slot 0 .A), (5, .queue 0 .cq0)] } c .B
     (4, Parked.slot 0 .A) ∈ (s.part 0).handles ∧ ((s.core 0).slot .A).park = some k ∧ k.list = some 9 ∧
       (5, Parked.queue 0 .cq0) ∈ (s.part 0).handles ∧ ((s.core 0).queue .cq0).park = some k ∧
       s.oldSnapshot 0 9 (Tab.get {} (s.part 0).cl 9).ver = false) := by decide +kernel

/-- A release that virtual core 0 makes known to itself alone. -/
def aRelease : Release := { core := 0, mask := 1, group := false, ts := 6 }

theorem witness_releases_meet :
    (let s := dev { core0 {} with sems := [(1, 3)], semRels := [(1, [aRelease])] } .B
     Slot.B ∈ s.members ∧ aRelease ∈ Tab.get [] s.cc.semRels 1 ∧ aRelease.meets (s.myEntry 0) (s.peerOf 0) (s.vcoreOf 0) = true) ∧
    (let s := devWith { barPart with bnRels := [(3, [aRelease])] } (core0 {}) .B
     aRelease ∈ Tab.get [] (s.part 0).bnRels 3 ∧ aRelease.meets (s.myEntry 0) (s.peerOf 0) (s.vcoreOf 0) = true) := by decide +kernel

theorem witness_EngineEnqueues_refusal :
    (let s := engineDev
     s.cc.bind.isSome = true ∧ (match s.checkEnqueue .menq 128 with | .park _ => true | .ok _ | .lost _ => false) = true) ∧
    (let x : QState := { recs := [recOf 4 0 0 0, recOf 1 0 0 0], phase := .signal }
     x.recs.drop 1 = recOf 1 0 0 0 :: []) := by decide +kernel

theorem witness_RecordLife_lists :
    (let r := { recOf 1 1 0 0 with w := (recOf 1 1 0 0).w.set 0 0x0521000000010005 }
     let s := dev (headed .mq r .idle) .E
     (match s.useList 0 r.ls with | .park _ => true | .go | .hold => false) = true ∧ (s.core 0).bind.isSome = true ∧ r.broken = none) ∧
    (let r := recOf 1 1 0 0
     let s := dev { headed .mq r .waiting with sems := [(1, 1)], semRels := [(1, [aRelease])] } .E
     r.semA = 1 ∧ r.thrA ≤ (Tab.get 0 (s.core 0).sems r.semA).toNat ∧ aRelease ∈ Tab.get [] (s.core 0).semRels r.semA ∧
       aRelease.meets (s.listOfHead 0 .mq r) (s.peerOf 0) (s.vcoreOf 0) = true) ∧
    (∀ n ∈ [7, 8],
      let r := recOf 0x20 0 (1#8 ++ 1#8 ++ 1#1 ++ BitVec.ofNat 8 n ++ 0#39) 0
      let s := dev (headed .cq1 r .signal) .E
      (s.core 0).headIn .cq1 .signal = some r ∧ r.inc ≠ 0 ∧ r.rmt = true ∧ r.tgt = n ∧ 8 * (s.part 0).ncl = 8) ∧
    (let s := dev { headed .mq aMma .run with staged := some { k := 0, rows := [settled 0] } } .E
     (s.core 0).mq.phase = .run ∧ aMma.kind = 1 ∧ s.atBoundary 0 = false ∧ (s.core 0).mq.recs.head? = some aMma) := by decide +kernel

/-- A record of two K-steps of one row, in a chain of two: head and follower. -/
def chainRec (fwd : Bool) : Rec := { recOf 1 0 (if fwd then 0x0000000040000000 else 0) 0x00020001 with segs := [0] }

/-- Cores 0 and 1 of a chain, with what stands in their staging buffers. -/
def chainDev (g h : Option Staged) : State :=
  { dev { headed .mq (chainRec false) .run with chainLen := 2, staged := g } .E with
    cores := [(0, { headed .mq (chainRec false) .run with chainLen := 2, staged := g }),
      (1, { headed .mq (chainRec true) .run with chainLen := 2, chainPos := 1, staged := h })] }

/-- A core that has started an MCHAIN of length 2 at position `p`. -/
def linkCore (p : Nat) (ph : Phase) : Core := headed .mq (recOf 5 0 (BitVec.ofNat 64 (1 + 4 * p)) 0) ph

theorem witness_MatrixRecords_steps :
    (let r := { recOf 1 0 0 0x00020001 with segs := [0] }
     let g : Staged := { k := 0, rows := [settled 0] }
     let k := { headed .mq r .run with staged := some g, activeFor := some (1, 0) }
     let s := dev k .E
     r.trip 1 = 2 ∧ k.front r = { k := 1 } ∧ k.staged.all (fun h => h.k == (k.front r).k) = false ∧ s.stepBegins 0 = true ∧
     (k.front r).rows.length < r.rows ∧ k.needsSwap r 1 0 = none ∧ k.chainLen = 1 ∧ k.kstepReady = some (r, g) ∧
     k.running = true ∧ k.mq.cut = none ∧ s.followersReady 0 = true ∧
     (match k.aWords r 0 1 with | .ok w => w.length == 16 | .error _ => false) = true) ∧
    (let r := { recOf 1 0 0 0x00010002 with segs := [0] }
     ({ headed .mq r .run with staged := some { k := 0, rows := [settled 0] } }.front r).begun = true) ∧
    (let s := { dev (linkCore 0 .run) .E with cores := [(0, linkCore 0 .run), (1, linkCore 1 .waiting)] }
     (recOf 5 0 1 0).len = 2 ∧ (recOf 5 0 1 0).chainPos ≤ 0 ∧ (∀ p, p < 2 → (s.core (0 - 0 + p)).chainAt 2 p = true) ∧
     (s.core 0).chainMet = false ∧ ({ linkCore 0 .run with chainMet := true }).chainMet = true) ∧
    (let s := chainDev (some { k := 0, rows := [settled 0] }) (some { k := 0, rows := [settled 0] })
     s.chain 0 = [0, 1] ∧ (s.core 0).chainLen = 2 ∧ (s.core 0).kstepReady.isSome = true ∧ (s.core 1).kstepReady.isSome = true ∧
     (∀ d ∈ [0, 1], (s.core d).kstepFails = none) ∧ ((s.core 0).head .mq).any (fun q => q.trip 1 == 2) = true) ∧
    (let s := chainDev (some { k := 0, rows := [settled 0] }) (some { k := 0, rows := [settled 0x3F800000] })
     s.chain 0 = [0, 1] ∧ (s.core 0).kstepReady.isSome = true ∧ (s.core 1).kstepReady.isSome = true ∧ (s.core 1).kstepFails ≠ none) ∧
    ({ core0 {} with markDone := true }).markSeen = true ∧
    (let r := { recOf 1 0 0x0000000100000000 0x00010002 with segs := [0] }
     let k := { headed .mq r .run with staged := some { k := 0, kept := [7], replay := true } }
     r.scaled = true ∧ (k.front r).kept[0]? = some 7 ∧ (k.front r).begun = true) := by decide +kernel

theorem witness_TaskSpawns_faults :
    (let s := { spawnDev 0x300040 with mem := {} }
     (s.core 0).bind = some bound ∧ ((s.core 0).slot .B).await = some (.tspawn 0x300040) ∧
     (match s.getNode 0 (.dispatcher 0) 0x300040 1 true with
      | .fault _ u => (u.core 0).bind == some bound | .ok .. | .lost .. => false) = true) ∧
    (let s := { spawnDev 0x100040 with mem := graphMem.store 0x2000D 0x300200 }
     gotOk (s.getNode 0 (.dispatcher 0) 0x100040 1 true) (fun r u => r.ok && r.node.pred == 0 && r.node.succ == [] &&
       (match u.checkReel 0 (.dispatcher 0) r.node.reel with
        | .fault _ v => (v.core 0).bind == some bound | .ok .. | .lost .. => false)) = true) := by decide +kernel

/-- A replica of a LAUNCH of device 6, whose packet stood at position 3. -/
def aReplica : Replica := { origin := 6, words := groupHead ++ List.replicate 5 0, pos := 3 }

theorem witness_ClapperLaunches_members :
    ((ringDev {}).part 0).works = true ∧ ((twoWith (fun p => { p with lost := true })).part 3).works = false ∧
    (((ringDev {}).part 0).ring 16).run = none ∧ (∃ k' rest, ((ringDev {}).part 0).replicas ++ [packet groupHead] = k' :: rest) ∧
    (let s := (ringDev {}).modRing 0 16 (fun y => { y with run := some (packet groupHead) })
     ((s.part 0).ring 16).run.isSome = true) ∧
    (let x : Clapper := { missing := [], limit := 9, origin := some 6 }
     let l := { taskLaunch aNode with clapper := some x, words := aReplica.words }
     (((clapDev x).modPart 0 (fun p => { p with launch := some l })).part 0).launch = some l ∧ l.clapper = some x ∧ l.closed = false ∧ l.ending = none ∧
     x.origin.isSome = true ∧ (wordAt l.words 2).extractLsb' 0 32 = 5 ∧ (wordAt l.words 2).extractLsb' 0 32 ≠ 7 ∧ x.missing = [] ∧ x.start = none) ∧
    (let x : Clapper := { missing := [5], limit := 9 }
     x.origin = none ∧ x.missing = 5 :: []) := by
  refine ⟨by decide +kernel, by decide +kernel, by decide +kernel, ⟨_, _, rfl⟩, by decide +kernel⟩

theorem witness_RingRegisters_replica :
    (let k : Packet := { words := aReplica.words, pos := 3, gen := 0, started := true, origin := some (6, 4) }
     let s := (ringDev {}).modRing 0 16 (fun y => { y with run := some k })
     ((s.part 0).ring 4).run = none ∧ ((s.part 0).ring 16).run = some k ∧ k.done = false ∧ (s.part 0).ringNumber 16 = BitVec.ofNat 4 4 ∧
     pkind k.words = 1 ∧ (s.part 0).launch = none) ∧
    (let k := packet [head 1]
     let l := { running with ending := some (0x05, 7) }
     k.done = false ∧ pkind k.words ∈ [1, 2] ∧ l.ring = 0 ∧ l.closed = false ∧ bound.part = 0) := by decide +kernel

theorem witness_RecordsAndResumes_discards :
    (∀ who ∈ [Parked.slot 0 .A, .ring 0], ∃ s : State, ∃ k l,
      (s.part 0).handles.find? (fun x => x.1 == 9) = some (9, who) ∧ s.parkOf 0 who = some k ∧ k.cause = 0x13 ∧
      (s.part 0).launch = some l ∧ l.ending = none ∧ (who = .ring 0 → ((s.part 0).ring 0).run.isSome = true)) ∧
    (let s := (dueDev {} 0).modPart 0 (fun p => { p with handles := [(9, .completion)], complPark := some { cause := 0x10, handle := 9 } })
     (s.part 0).handles.find? (fun x => x.1 == 9) = some (9, .completion) ∧ ∃ d rest, (s.part 0).due = d :: rest) ∧
    (let s := (dueDev {} 0).modPart 0 (fun p => { p with
       due := [{ words := [1, 2, 3, 4], pend := none, gen := 0, ring := some 2 }], rings := [(2, { enable := true })] })
     ∃ d, (s.part 0).due = d :: [] ∧ d.ring = some 2 ∧ ((s.part 0).ring 2).overrunDue = none) := by
  refine ⟨fun who h => ?_, ⟨by decide +kernel, _, _, rfl⟩, ⟨_, rfl, rfl, rfl⟩⟩
  simp only [List.mem_cons, List.not_mem_nil, or_false] at h
  rcases h with rfl | rfl
  · exact ⟨parkedDev 0x13, _, _, rfl, rfl, rfl, rfl, rfl, by intro h; cases h⟩
  · exact ⟨(parkedDev 0x13).modPart 0 (fun p => { p with
      handles := [(9, .ring 0)], rings := [(0, { park := some { cause := 0x13, handle := 9 }, run := some (packet [head 3]) })] }),
      _, _, rfl, rfl, rfl, rfl, rfl, fun _ => rfl⟩

/-- Partition 0's addresses at 0x40000000 lead through a window to intermediate address 0x100000 of partition 3 of device `d`, which is
this one when it is 2 (R383, R385). -/
def windowTo (d : Nat) : State :=
  { walkDev with
    trained := true, device := 2
    mem := tableMem.store 0x4A07 0x4000009F
    parts := [(0, { (walkDev.part 0) with
        fwin := [(0, 0xAA00000040000000), (1, BitVec.ofNat 64 (d * 2 ^ 52 + 3 * 2 ^ 16))] }),
      (3, { state := 1, s2root := 0x10001, facc := [(0, 0x8000000000020000)] })] }

/-- Where the stage-1 tables lead, looked at by `f` as soon as an entry is the leaf (R350); no entry met here is one of a group of 16. -/
def leadsTo (part va : Nat) (f : State → Word → Nat → Bool) : Nat → Nat → State → Bool
  | 0, _, _ => false
  | n + 1, table, s =>
    match s.readEntry1 part (table + 8 * (va / 2 ^ (12 + 9 * n) % 512)) with
    | (u, .ok x) =>
      if n = 0 then !x.getLsbD 10 && f u x 0x1000 else !x.getLsbD 1 && table1Ok x && leadsTo part va f n (entryAddr x) u
    | (_, .error _) => false

theorem leadsTo_leads {part va : Nat} {f : State → Word → Nat → Bool} {n table : Nat} {s : State} (h : leadsTo part va f n table s = true) :
    ∃ u e size, Leads1 part va n table s u e size ∧ f u e size = true := by
  induction n generalizing table s with
  | zero => simp [leadsTo] at h
  | succ n ih =>
    simp only [leadsTo] at h
    split at h
    · rename_i u x hx
      split at h
      · simp only [Bool.and_eq_true, Bool.not_eq_true'] at h
        exact ⟨u, x, 0x1000, ⟨u, x, hx, .inl ⟨‹_›, h.1, rfl, rfl, rfl⟩⟩, h.2⟩
      · simp only [Bool.and_eq_true, Bool.not_eq_true'] at h
        obtain ⟨w, e, size, hl, hf⟩ := ih h.2
        exact ⟨w, e, size, ⟨u, x, hx, .inr (.inr (.inr ⟨‹_›, h.1.1, h.1.2, hl⟩))⟩, hf⟩
    · cases h

/-- The tables of `walkDev` lead 0x5000 to the leaf of 0x100000, whose home is 1, and stage 2 leads there. -/
theorem witness_WalksAndPins_tables :
    (∃ u e size, Leads1 0 0x5000 5 0x21000 walkDev u e size ∧ (leaf1Ok e size false && decide (entryAddr e + 0x5000 % size = 0x100000) &&
      (match u.stage2 (u.part 0).s2root 0x100000 with | .ok l => l.r && l.pa == 0x100000 | .error _ => false)) = true) ∧
    (walkDev.part 0).s1root.getLsbD 0 = true ∧ ((walkDev.part 0).s1root.extractLsb' 12 40).toNat * 4096 = 0x21000 ∧
    (walkDev.part 0).window 0x100000 = none ∧
    (∃ e0 x, walkDev.entryAt 0x10000 = some e0 ∧ table2Ok e0 = true ∧ hasTarget (entryAddr e0) = true ∧
      Leads2 walkDev.entryAt 0x100000 3 (entryAddr e0) x ∧ leaf2Ok x.1 x.2.2 false = true) := by
  refine ⟨leadsTo_leads (by decide +kernel), by decide +kernel, by decide +kernel, by decide +kernel, 0x20001, (0x7F, 0x20000, 0x40000000), ?_⟩
  refine ⟨by decide +kernel, by decide +kernel, by decide +kernel, ⟨0x7F, by decide +kernel, .inr (.inr (.inl ⟨by decide, by decide, ?_⟩))⟩,
    by decide +kernel⟩
  decide +kernel

theorem witness_WalksAndPins_windows :
    (∀ d ∈ [2, 7], ((windowTo d).part 0).window 0x40000000 = some { dev := d, part := 3, ipa := 0 }) ∧
    placed ((windowTo 2).walk 0 (.slot 0 .A) 0x7008 .read) (fun p t => p.pa == 8 && (t.part 0).tlb == []) = true ∧
    faulted ({ windowTo 2 with trained := false }.walk 0 (.slot 0 .A) 0x7008 .write) (fun p t =>
      p.cause == 0x12 && (t.core 0).bind.isSome && ((t.core 0).slot .A).park.isNone) = true := by decide +kernel

/-- Slots B and E that must meet at the bundle 0x100000, where both stand, with a move outstanding. -/
def meetDev : State :=
  dev { ((core0 {}).setSlot .B { group := 1, c0 := 0x100000 }).setSlot .E { group := 3, c0 := 0x100000 } with
    moves := [aMove], code := words [(0x20001, 0x8000000000000000), (0x20003, 0x8000000000000000)] } .A

theorem witness_RendezvousAndDetectors_joins :
    (match meetDev.fetch 0 .A 0x100000 with
     | .ok ws u =>
       let k := u.core 0
       k.party ws == [.B, .E] && (k.party ws).all (k.arrived 0x100000) && k.moves.length == 1 &&
         (k.party ws).all (fun j => !(k.slot j).halted)
     | .park .. | .lost .. => false) = true := by decide +kernel

theorem witness_ResizesAndLending_refusals :
    ((List.range 32).filter (fun c => (0x14 : Word).getLsbD c)).length ≠ 1 ∧ (List.range 32).filter (fun c => (4 : Word).getLsbD c) = [2] ∧
    ((twoWith (fun p => { p with mlend := 0 })).part 3).mlend.getLsbD 4 = false ∧
    ((hostDev.part 3).job = none ∧ (hostDev.part 3).state = 0 ∧ (twoParts.part 3).state ≠ 0) := by decide +kernel

/-- Partition 3 whose job takes clusters out, with its cores at rest. -/
def removing (l : List Nat) (w : Bool) (launch : Option Launch) (gen : BitVec 16) : State :=
  twoWith (fun p => { p with job := some (.remove l w none), departing := [0, 1], launch, rgen := 1, jobGen := gen })

/-- `lentDev` whose cluster 4 is recalled from partition 0, which has the command `j` and may have put another off. -/
def recalledDev (j : Option Job) (rest : Option (Job × BitVec 16 × BitVec 16)) : State :=
  { lentDev with
    clusters := [(4, { owner := some 3, holder := some 0, recalled := true }), (5, { owner := some 0, holder := some 0 })]
    parts := [(0, { (lentDev.part 0) with job := j, resting := rest, launch := some running, departing := [] }), (3, lentDev.part 3)] }

theorem witness_ResizesAndLending_rests :
    (∀ j ∈ [some (Job.await 7), some (.remove [5] true none)],
      let s := recalledDev j none
      (s.part 0).job = j ∧ (s.part 0).resting = none ∧ (s.part 0).launch.isSome = true ∧ (s.part 0).departing = [] ∧
      (s.part 0).clusters.find? (fun c => (s.cluster c).owner != some 0 && (s.cluster c).recalled) = some 4) ∧
    (let s := recalledDev (some (.remove [4] false (some 3))) (some (.await 7, 1, 2))
     (s.part 0).job = some (.remove [4] false (some 3)) ∧ (s.part 0).resting = some (.await 7, 1, 2) ∧ hostDev.bootDone = true) ∧
    (let s := lentDev
     (s.part 0).job = none ∧ (s.part 0).clusters.find? (fun c => (s.cluster c).owner != some 0 && (s.cluster c).recalled) = none) ∧
    (lentDev.part 0).state = 1 ∧ (twoParts.part 7).state ≠ 1 := by decide +kernel

/-- R384, R392, R416: partition 3, paused, imports from device 5 into cluster 2, where one frame is retired. -/
def landDev : State :=
  { hostDev with
    parts := [(3, { state := 4, clusters := [2], mimport := 0x8000000000000005 })]
    clusters := [(2, { owner := some 3, holder := some 3 })]
    retired := [(2 * Config.clusterBytes + 4096, 0)] }

theorem witness_ChannelsFabricAndAccounts_lands :
    (∀ a ∈ [2 * Config.clusterBytes, 2 * Config.clusterBytes + 4096],
      a < Config.hbmEnd ∧ (landDev.cluster (a / Config.clusterBytes)).owner = some 3) ∧
    (landDev.part 3).state = 4 ∧ (landDev.part 3).mimport.getLsbD 63 = true ∧ ((landDev.part 3).mimport.extractLsb' 0 12).toNat = 5 ∧
    (∀ f ∈ landDev.retired, ¬ f.1 < 2 * Config.clusterBytes + 8) ∧
    (∃ f ∈ landDev.retired, f.1 < 2 * Config.clusterBytes + 4096 + 8 ∧ 2 * Config.clusterBytes + 4096 < f.1 + 4096) := by decide +kernel

theorem witness_forced_words :
    ¬ ((core0 {}).forced 0x40) ∧
    (let k := { core0 {} with repair := { repinj := 0xC000000000000000 } }
     k.forced 0 ∧ k.repair.spareFor 0 0 0 = none) := by
  unfold Core.forced
  decide +kernel

theorem witness_ResetsBootAndRepair_windows :
    (State.reset.cc.inRepair = true ∧ (State.reset.cc.slot .A).halted = false ∧ State.reset.cc.repair.spareFor 0 1 0 = none ∧
      State.reset.cc.repair.repinj.getLsbD 63 = false ∧ (0x40 : Nat) % 8 = 0) ∧
    State.reset.bootDone = false ∧ hostDev.bootDone = true ∧ State.reset.vfEnabled 3 = false := by decide +kernel

theorem witness_HostAccesses_lost :
    (let s := { windowDev with parts := [(3, { (windowDev.part 3) with lost := true })] }
     s.vfEnabled 3 = true ∧ (s.part 3).state ≠ 0 ∧ (s.part 3).lost = true) ∧ windowDev.vfEnabled 5 = true ∧ (windowDev.part 5).state = 0 ∧
    (windowDev.part 3).lost = false := by decide +kernel

theorem witness_MemberResumes_read :
    (resumeDev slotHead 0).again = [] ∧ ((resumeDev slotHead 0).slotRead 0x800000).1 = (resumeDev slotHead 0).region 0x800000 0x800000 := ⟨rfl, rfl⟩

theorem witness_ResizesAndLending_end (g : BitVec 16) :
    ((removing [] true none g).part 3).job = some (.remove [] true none) ∧ ((removing [] true none g).part 3).launch = none := ⟨rfl, rfl⟩

theorem witness_ResizesAndLending_removal (l : Option Launch) :
    let p := (removing [2, 4] true l 0).part 3
    p.job = some (.remove (2 :: [4]) true none) ∧ 2 ∈ p.clusters ∧ p.clusters.Nodup ∧ p.departing ≠ [] ∧ p.launch = l :=
  ⟨rfl, (by decide : 2 ∈ [2, 4]), (by decide : [2, 4].Nodup), (by decide : [0, 1] ≠ []), rfl⟩

theorem witness_ResizesAndLending_cores :
    (∀ k ∈ [16, 23, 32, 39], ((removing [2] false none 0).core k).bind = none) ∧
    (({ removing [2] false none 0 with
       cores := [(39, { bind := some { part := 3, node := 0, gpos := 0, glast := 0, vcore := 15 } })] }).core 39).bind.isSome = true := by
  decide +kernel

theorem witness_Budgets_contextLoss :
    (let p := (twoWith (fun p => { p with lost := true })).part 3
     p.state ≠ 0 ∧ p.state ≠ 3 ∧ p.lost = true) ∧
    ((twoParts.part 3).lost = false ∧ (twoParts.part 3).pausing = false ∧ (∀ c ∈ (twoParts.part 3).cores, (twoParts.core c).bind = none)) ∧
    (let p := (twoWith (fun p => { p with job := some (.pause 2 1), vfstate := 2 })).part 3
     p.job = some (.pause 2 1) ∧ p.lost = false) ∧
    (let l : Loss := { cause := 0x62, source := .restore, party := none, va := 0, pa := 0x100008, detail := 0, fromHbm := true }
     l.source ≠ .parity ∧ l.fromHbm = true ∧ l.cause = 0x62 ∧ l.pa.toNat / 4096 * 4096 = 0x100000 ∧ twoParts.retired.length < 8192) := by
  decide +kernel

/-- A finished member that has been asked to stop. -/
def finishedDev : State :=
  memberDev { stop := .soft 90, slots := allSlots.map (fun k => (slotIx k, ({ halted := true } : SlotState))) } none

/-- Slots of core 0 that have stopped softly at safe point 0 of the reel, whose masks stand at 0x100280 when `here`. -/
def softDev (here : Bool) : State :=
  { memberDev { stop := .slots false (some 0) 9 } (some 0x800000) with
    mem := ((graphMem.store 0x20042 0x100000001).store 0x20043 0x40).store 0x20044 (if here then 0x80 else 0x8000) }

theorem witness_StopsAndSaves_finished :
    (let s := finishedDev
     (s.core 0).stop = .soft 90 ∧ (s.core 0).finished = true ∧ 90 < 2 ^ 64 ∧ (s.core 0).bind = some bound ∧
     (s.part 0).launch.any (fun l => (Tab.find? l.nodes 0).any (fun n => n.seats.all (fun y => !y.away))) = true) ∧
    (let s := memberDev { stop := .slots true none 5 } none
     (s.core 0).stoppable = true ∧ (s.core 0).stop = .slots true none 5 ∧ ((memberDev {} none).core 0).stop = .none) := by decide +kernel

theorem witness_StopsAndSaves_soft :
    (∀ here ∈ [true, false],
      let s := softDev here
      s.atRest 0 = true ∧ (s.core 0).stop = .slots false (some 0) 9 ∧ s.saveSlot bound = some 0x800000 ∧
      (match s.liveMask 0 0x100200 0 with
       | .ok m _ => here && m.length == 4
       | .fault .. => !here
       | .lost .. => false) = true) := by decide +kernel

theorem witness_Channels_rest :
    (let x : Channel := { busy := true, len := 64, moved := 0, pos := 64 }
     x.busy = true ∧ (x.len.extractLsb' 0 40).toNat / 64 * 64 ≤ x.pos ∧ ({ x with pos := 0, aborting := true } : Channel).aborting = true ∧
     ({ x with pos := 63 } : Channel).pos < (x.len.extractLsb' 0 40).toNat / 64 * 64) := by decide

/-- A partition that is paused on clusters 0 and 2 and takes words from device 5. -/
def importDev : State :=
  { pausedDev with
    parts := [(3, { (pausedDev.part 3) with mimport := 0x8000000000000005 })]
    clusters := [(0, { owner := some 3, holder := some 3 })] }

theorem witness_Fabric_rest :
    (let r := { request .write with chan := true }
     r.chan = true ∧ r.ipa < Config.hbmEnd ∧ (importDev.cluster (r.ipa / Config.clusterBytes)).owner = some 3 ∧ (importDev.part 3).state = 4 ∧
     (importDev.part 3).mimport.getLsbD 63 = true ∧ ((importDev.part 3).mimport.extractLsb' 0 12).toNat = r.srcDev ∧
     (pausedDev.part 3).mimport.getLsbD 63 = false) ∧
    (match ({ fabricDev with mem := (words [(0x2000, 0x20001)]).write 0x4000 0x7F 0x5A } : State).stage2 0x10001 0x100000 with
      | .error (.lost ..) => true | _ => false) = true ∧
    (let s := { fabricDev with mem := fabricDev.mem.write 0x20000 40 0x5A }
     (s.holderWord (.plain 0x100000)).2 ≠ sealOf (s.holderWord (.plain 0x100000)).1 ∧
     byteSel 0x100000 (Size.bytes .d) = 0xFF ∧ byteSel 0x100000 (Size.bytes .w) ≠ 0xFF) := by decide +kernel

theorem witness_PauseAndResume_refusals :
    (let p := (twoWith (fun p => { p with lost := true })).part 3
     p.state = 1 ∧ p.lost = true) ∧
    (let x : Clapper := { missing := [5], limit := 9 }
     (clapDev x).part 0 |>.launch.any (fun l => !l.closed && l.clapper.isSome)) = true ∧
    (twoWith (fun p => { p with replicas := [packet []] })).pauseErr 3 = some 10 ∧
    (lentDev.modPart 3 (fun p => { p with migimg := 0x0010000000800000 })).pauseErr 3 = some 12 ∧
    (pausedMem.saved 0x10).extractLsb' 32 12 = 0 ∧ pausedDev.device = 0 ∧ ({ pausedDev with device := 4 } : State).device ≠ 0 := by decide +kernel

/-- A good slot of which word 0 of range 0x2800, formed by the leaf, is broken. -/
def brokenDev : State :=
  { memberDev { loading := true } (some 0x800000) with mem := (({} : Mem).write 0x100000 slotHead (sealOf slotHead)).write 0x100500 0 1 }

def brokenMem : Mem := (({} : Mem).write 0 slotHead (sealOf slotHead)).write 0x500 0 1

theorem broken_mem : brokenDev.region 0x800000 0x800000 = brokenMem := by decide +kernel

theorem witness_MemberResumes_formed :
    let m := brokenDev.region 0x800000 0x800000
    m.savedBad m.saved.head = none ∧ m.saved.good bound = true ∧ m.savedBad m.saved.formed = some 0x2800 := by
  rw [broken_mem]
  decide +kernel

/-- The broken word of `holdDev` is intact in HBM: its line is clean, or the error arose on the way out of the array. -/
def againDev (clean : Bool) : State :=
  { holdDev with again := [{ n := 0x20001, was := (7, 0x5A), word := 9, sl := sealOf 9, clean }] }

/-- R173: the second reading repairs a broken word, and the store is merged into it. -/
theorem test_merge_second_reading : after (.partialStoreMerge (.slot 0 .A) 0x100008 0xAABB 3 false) (againDev true) (fun t =>
    t.mem.word 0x20001 == 0xAABB && t.mem.sealAt 0x20001 == sealOf 0xAABB && t.agenda == []) = true := by decide +kernel

/-- R264: a store to another word of the line makes it dirty, and the error stays; one that arose on the way does not. -/
theorem test_dirty_line :
    after (.holderWrite (.slot 0 .A) 0x100000 1 false) (againDev true) (fun t => t.secondWord (.plain 0x100008) == (7, 0x5A)) = true ∧
    after (.holderWrite (.slot 0 .A) 0x100000 1 false) (againDev false) (fun t => t.secondWord (.plain 0x100008) == (9, sealOf 9)) = true := by
  decide +kernel

/-- R406: a consuming lane that the second reading satisfies goes on, and ECSEAL counts it. -/
theorem test_consume_second_reading :
    (match (againDev true).consume (.slot 0 .A) (.plain 0x100008) false with
      | .good w t => w == 9 && t.ecseal == 1 && (t.core 0).lease == []
      | .lost .. => false) = true := by decide +kernel

/-- R265: so does the egress lane. -/
theorem test_egress_second_reading :
    after (.pfBar2Access false 0x100008 ⟨0, false⟩ 0xFF) { windowDev with again := [{ n := 0x20001, was := (7, 0x5A), word := 9, sl := sealOf 9 }] }
      (fun t => t.sent == [.bar2 9 false] && t.agenda == [] && t.ecseal == 1) = true := by decide +kernel

theorem witness_second_readings :
    (let s := againDev true
     let p := Place.plain 0x100008
     syn (s.holderWord p).1 (s.holderWord p).2 ≠ 0xFF ∧ (s.holderWord p).2 ≠ sealOf (s.holderWord p).1 ∧
     (s.secondWord p).2 = sealOf (s.secondWord p).1) ∧
    (let p := Place.plain 0x100008
     syn (holdDev.holderWord p).1 (holdDev.holderWord p).2 ≠ 0xFF ∧ (holdDev.secondWord p).2 ≠ sealOf (holdDev.secondWord p).1) ∧
    (let s := { holdDev with mem := holdDev.mem.write 0x20001 7 (poisonSeal 7) }
     syn (s.holderWord (.plain 0x100008)).1 (s.holderWord (.plain 0x100008)).2 = 0xFF) ∧
    (let s := { fabricDev with mem := fabricDev.mem.write 0x20000 40 0x5A }
     let u := { s with again := [{ n := 0x20000, was := (40, 0x5A), word := 9, sl := sealOf 9 }] }
     (s.secondWord (.plain 0x100000)).2 ≠ sealOf (s.secondWord (.plain 0x100000)).1 ∧ (s.secondWord (.plain 0x100000)).1 = 40 ∧
     (u.secondWord (.plain 0x100000)).2 = sealOf (u.secondWord (.plain 0x100000)).1) := by decide +kernel

end Sys2Proof.Tests
end

section
/-! SUPPORT. What reads of cores, clusters, partitions, slots and registers give at reset: each table is empty there, so a read gives its
default; and the statement about reset. -/

namespace Sys2Proof.Machine

theorem State.reset_core (c : Nat) : State.reset.core c = {} := rfl
theorem State.reset_cluster (c : Nat) : State.reset.cluster c = {} := rfl
theorem State.reset_part (p : Nat) : State.reset.part p = {} := rfl
theorem State.reset_slot (c : Nat) (k : Slot) : (State.reset.core c).slot k = {} := rfl

/-- Registers without an entry read zero. -/
theorem Regs.sget_of_empty {r : Regs} (h : r.s = []) (n : SReg) : r.sget n = 0 := by
  unfold Regs.sget
  split
  · rfl
  · rw [h, Tab.get]

/-- Registers without a taint bit read as not tainted. -/
theorem Regs.tget_of_empty {r : Regs} (h : r.taint = []) (n : SReg) : r.tget n = false := by
  unfold Regs.tget
  split
  · rfl
  · rw [h, Tab.get]

/-- A core that no node is bound to is in repair mode as long as its repair is active (R442). -/
theorem Core.inRepair_of_unbound {c : Core} (ha : c.repair.active = true) (hb : c.bind = none) : c.inRepair = true := by
  simp [Core.inRepair, ha, hb]

/-- Settles O1: the state lists no core, cluster or partition, so each of them reads as its default; no register has an entry, and no
core is bound. -/
theorem resetState : Obligations.ResetState := by
  unfold Obligations.ResetState
  refine ⟨State.reset_memWf, rfl, rfl, rfl, rfl, rfl, rfl, rfl, rfl, rfl, rfl, rfl, rfl, fun c k => ?slots, fun c => ?core,
    fun c => ?cluster, fun p => ?part⟩
  case slots =>
    rw [State.reset_slot]
    exact ⟨Core.inRepair_of_unbound rfl rfl, rfl, rfl, rfl, rfl, rfl⟩
  case core =>
    rw [State.reset_core]
    exact ⟨fun n => ⟨Regs.sget_of_empty rfl n, Regs.tget_of_empty rfl n⟩, rfl, rfl, rfl, rfl, rfl⟩
  case cluster =>
    rw [State.reset_cluster]
    exact ⟨rfl, rfl, rfl, rfl⟩
  case part =>
    rw [State.reset_part]
    exact ⟨rfl, rfl, rfl, rfl, rfl, rfl, rfl, rfl⟩

end Sys2Proof.Machine
end

section
/-! SUPPORT. Vector results: what writing a vector register, with or without a governing mask, gives as a completed instruction; the
count of set bits and the packed element that the layout forms use; and the statement about moves and axes. -/

namespace Sys2Proof.Machine
namespace VectorLayout

/-! What a vector result gives. -/

/-- Only the elements 0 to 1,023 count in what a vector register holds. -/
theorem vectorWritten_congr {r r' : Regs} {vd : VReg} {f g : Nat → Elem} (h : VectorWritten r r' vd f)
    (e : ∀ n, n < 1024 → f n = g n) : VectorWritten r r' vd g := by
  obtain ⟨hr, hv, hn⟩ := h
  exact ⟨hr, fun n hlt => (hv n hlt).trans (e n hlt), hn⟩

/-- Only the elements 0 to 1,023 count in what a vector result gives. -/
theorem givesVector_congr {i : Instr} {s : State} {vd : VReg} {f g : Nat → Elem} (h : GivesVector i s vd f)
    (e : ∀ n, n < 1024 → f n = g n) : GivesVector i s vd g := by
  obtain ⟨t, hx, hs, hc, hv⟩ := h
  exact ⟨t, hx, hs, hc, vectorWritten_congr hv e⟩

/-- Only the elements 0 to 1,023 count in what a result under a mask gives. -/
theorem givesMasked_congr {i : Instr} {s : State} {vd : VReg} {mk : MReg} {f g : Nat → Elem} (h : GivesMasked i s vd mk f)
    (e : ∀ n, n < 1024 → f n = g n) : GivesMasked i s vd mk g :=
  givesVector_congr h fun n hlt => by simp only [e n hlt]

/-- A result that writes every element completes (R150). -/
theorem vall_gives {i : Instr} {s : State} {vd : VReg} {f : Nat → Elem} (h : exec i s = .next (s.vall vd f)) :
    GivesVector i s vd f := by
  obtain ⟨hs, hc, hr⟩ := s.writes (fun r => r.vset vd.toNat (VVal.ofFn f))
  exact ⟨_, h, hs, hc, by rw [State.vall, State.wv, hr]; exact VectorWritten.vset ..⟩

/-- A scalar result and a vector result of one instruction complete: the scalar register is written first (R162). -/
theorem ws_vall_gives {i : Instr} {s : State} {sd : SReg} {v : Word} {tt : Bool} {vd : VReg} {f : Nat → Elem}
    (h : exec i s = .next ((s.ws sd v tt).vall vd f)) :
    ∃ u r, exec i s = .next u ∧ SlotActs s u ∧ Chained s u s.gbrOutcome ∧ ScalarWritten s.cc.regs r sd v tt ∧
      VectorWritten r u.cc.regs vd f := by
  obtain ⟨_, hc, hr⟩ := (s.ws sd v tt).writes (fun r => r.vset vd.toNat (VVal.ofFn f))
  refine ⟨_, (s.ws sd v tt).cc.regs, h, (((SlotActs.refl s).modRegs _).modRegs _).branch _, ?chain, ?scalar, ?vector⟩
  case chain => rw [State.ws, State.gbrOutcome_modRegs, Chained, State.cs_modRegs] at hc; exact hc
  case scalar => rw [State.ws, State.cc_modRegs]; exact ScalarWritten.sset ..
  case vector => rw [State.vall, State.wv, hr]; exact VectorWritten.vset ..

/-- Registers of which none was written hold their own elements. -/
theorem vectorWritten_refl (r : Regs) (vd : VReg) : VectorWritten r r vd (r.vget vd.toNat).get :=
  ⟨rfl, fun _ _ => rfl, fun _ _ => rfl⟩

/-- An instruction that only advances its chain leaves the elements of every vector register. -/
theorem advance_gives {i : Instr} {s : State} (vd : VReg) (h : exec i s = .next s.advance) :
    GivesVector i s vd (s.cc.regs.vget vd.toNat).get := by
  obtain ⟨hs, hc, hr⟩ := s.branches s.gbrOutcome
  exact ⟨_, h, hs, hc, by rw [State.advance, hr]; exact vectorWritten_refl ..⟩

/-- A result under a mask completes; an empty mask writes nothing (R129, R150). -/
theorem vput_gives {i : Instr} {s : State} {vd : VReg} {mk : MReg} {f : Nat → Elem}
    (h : exec i s = .next (s.vput vd mk f)) : GivesMasked i s vd mk f := by
  unfold State.vput at h
  by_cases hm : s.rm mk = 0
  · rw [if_pos hm] at h
    exact givesVector_congr (advance_gives vd h) fun e _ => by
      rw [State.held, if_pos hm, hm, BitVec.ofNat_eq_ofNat, BitVec.getLsbD_zero, if_neg Bool.false_ne_true]
  · rw [if_neg hm] at h
    exact givesVector_congr (vall_gives h) fun e _ => by rw [State.held, if_neg hm]; rfl

/-! Packed elements and counts. -/

/-- Sub-elements joined from low to high, as they stand from place `k` up, are the sum of their places. -/
theorem joinSubs_map_range' (w k n : Nat) (f : Nat → Nat) :
    2 ^ (w * k) * joinSubs w ((List.range' k n).map f) =
      ((List.range' k n).map (fun i => f i % 2 ^ w * 2 ^ (w * i))).sum := by
  induction n generalizing k with
  | zero => rfl
  | succ n ih =>
    have next : 2 ^ (w * k) * (2 ^ w * joinSubs w ((List.range' (k + 1) n).map f)) =
        ((List.range' (k + 1) n).map (fun i => f i % 2 ^ w * 2 ^ (w * i))).sum := by
      rw [← ih (k + 1), ← Nat.mul_assoc, ← Nat.pow_add, Nat.mul_add_one]
    rw [List.range'_succ, List.map_cons, List.map_cons, List.sum_cons, joinSubs, Nat.mul_add, next, Nat.mul_comm (2 ^ (w * k))]

/-- Sub-elements joined from low to high are the sum of their places. -/
theorem joinSubs_map_range (w n : Nat) (f : Nat → Nat) :
    joinSubs w ((List.range n).map f) = ((List.range n).map (fun i => f i % 2 ^ w * 2 ^ (w * i))).sum := by
  rw [List.range_eq_range', ← joinSubs_map_range' w 0 n f, Nat.mul_zero, Nat.pow_zero, Nat.one_mul]

/-- The pattern of VMOVI is the element with IMM32 in every sub-element (R152). -/
theorem splat_eq_elemOf (ty : VTy) (imm : BitVec 32) : splat ty imm = elemOf ty (fun _ => imm.toNat) := by
  rw [splat, elemOf, joinSubs_map_range]

/-- The count of set bits below `n`, as a count over the positions. -/
theorem popCount_eq_countP {w : Nat} (a : BitVec w) (n : Nat) : popCount a n = (List.range n).countP (fun i => a.getLsbD i) := by
  induction n with
  | zero => rfl
  | succ n ih => rw [popCount, ih, List.range_succ, List.countP_append, List.countP_singleton]; rfl

/-! The forms whose result is more than one vector write, or is placed by other arithmetic than the rule's. -/

/-- VEXT with its mask bit set writes the element to the scalar register (R153). -/
theorem vext_gives {sd : SReg} {va : VReg} {idx : BitVec 12} {mk : MReg} {s : State} (h : (s.rm mk).getLsbD idx.toNat = true) :
    GivesScalar (.vext sd va idx mk) s sd (((s.rv va).get idx.toNat).setWidth 64) false :=
  State.retS_gives (congrArg Host.Outcome.next (if_pos h))

/-- VEXT with its mask bit clear only advances the chain (R153). -/
theorem vext_skips {sd : SReg} {va : VReg} {idx : BitVec 12} {mk : MReg} {s : State} (h : (s.rm mk).getLsbD idx.toNat = false) :
    GivesBranch (.vext sd va idx mk) s s.gbrOutcome :=
  State.branch_gives (congrArg Host.Outcome.next (if_neg (Bool.eq_false_iff.mp h)))

/-- VINS replaces the one element, when its mask bit is set (R153). -/
theorem vins_gives (vd va : VReg) (sb : SReg) (idx : BitVec 12) (mk : MReg) (s : State) :
    GivesVector (.vins vd va sb idx mk) s vd (fun e =>
      if (s.rm mk).getLsbD e = true ∧ e = idx.toNat then (s.rs sb).extractLsb' 0 32 else (s.rv va).get e) := by
  refine givesVector_congr (vall_gives rfl) fun e _ => ?_
  by_cases he : e = idx.toNat
  · subst he
    simp only [bit, bits, beq_self_eq_true, Bool.and_true, and_true]
  · simp only [bits, beq_eq_false_iff_ne.mpr he, Bool.and_false, Bool.false_eq_true, he, and_false]

/-- VCOMPRESS writes the count and then the active elements, packed (R162). -/
theorem vcompress_gives (vd va : VReg) (sc : SReg) (mk : MReg) (s : State) :
    ∃ u r, exec (.vcompress vd va sc mk) s = .next u ∧ SlotActs s u ∧ Chained s u s.gbrOutcome ∧
      ScalarWritten s.cc.regs r sc (BitVec.ofNat 64 (activeElems (s.rm mk)).length) false ∧
      VectorWritten r u.cc.regs vd (fun e => ((activeElems (s.rm mk)).map (s.rv va).get).getD e 0) := by
  rw [← List.length_map (s.rv va).get]
  exact ws_vall_gives rfl

/-- VEXPAND places element k of the source at the active position with k active ones below it (R163). -/
theorem vexpand_gives (vd va : VReg) (mk : MReg) (s : State) :
    GivesVector (.vexpand vd va mk) s vd (fun e =>
      if (s.rm mk).getLsbD e then (s.rv va).get ((List.range e).countP (fun i => (s.rm mk).getLsbD i)) else 0) :=
  givesVector_congr (vall_gives rfl) fun e _ => by rw [popCount_eq_countP]; rfl

/-- VROTR by k brings column (j - k) mod 64 of the row to column j (R155). -/
theorem vrotr_gives (ty : VTy) (vd va : VReg) {k : BitVec 8} (mk : MReg) (s : State) (hk : k.toNat < 64) :
    GivesMasked (.vrotr ty vd va k mk) s vd mk (fun e =>
      (s.rv va).get (64 * (e / 64) + (e % 64 + (64 - k.toNat)) % 64)) :=
  givesMasked_congr (vput_gives rfl) fun e _ => by rw [Nat.mul_comm (e / 64), Nat.add_sub_assoc (Nat.le_of_lt hk)]

/-- VROTC by k brings row (i - k) mod 16 of the column to row i (R155). -/
theorem vrotc_gives (ty : VTy) (vd va : VReg) {k : BitVec 8} (mk : MReg) (s : State) (hk : k.toNat < 16) :
    GivesMasked (.vrotc ty vd va k mk) s vd mk (fun e =>
      (s.rv va).get (64 * ((e / 64 + (16 - k.toNat)) % 16) + e % 64)) :=
  givesMasked_congr (vput_gives rfl) fun e _ => by rw [Nat.mul_comm _ 64, Nat.add_sub_assoc (Nat.le_of_lt hk)]

/-- VBCR gives each position the element of its row in column c (R156). -/
theorem vbcr_gives (ty : VTy) (vd va : VReg) (c : BitVec 8) (mk : MReg) (s : State) :
    GivesMasked (.vbcr ty vd va c mk) s vd mk (fun e => (s.rv va).get (64 * (e / 64) + c.toNat)) :=
  givesMasked_congr (vput_gives rfl) fun e _ => by rw [Nat.mul_comm (e / 64)]

/-- VBCC gives each position the element of its column in row r (R156). -/
theorem vbcc_gives (ty : VTy) (vd va : VReg) (r : BitVec 8) (mk : MReg) (s : State) :
    GivesMasked (.vbcc ty vd va r mk) s vd mk (fun e => (s.rv va).get (64 * r.toNat + e % 64)) :=
  givesMasked_congr (vput_gives rfl) fun e _ => by rw [Nat.mul_comm r.toNat]

/-- VTRN exchanges row and column within each block of 16 columns (R160). -/
theorem vtrn_gives (vd va : VReg) (mk : MReg) (s : State) :
    GivesMasked (.vtrn vd va mk) s vd mk (fun e => (s.rv va).get (64 * (e % 16) + (e % 64 / 16 * 16 + e / 64))) :=
  givesMasked_congr (vput_gives rfl) fun _ _ => congrArg (s.rv va).get (Nat.add_assoc ..)

end VectorLayout

open VectorLayout

/-- Settles O31: each form is a vector result over every element or under its mask, with the elements that the rule names. -/
theorem vectorMovesAndAxes : Obligations.VectorMovesAndAxes := by
  unfold Obligations.VectorMovesAndAxes
  refine ⟨fun ty vd va vb sd sb idx imm mk s => ?moves, fun ty vd va vb k mk s => ?axes⟩
  case moves =>
    refine ⟨?vsel, ?vmov, ?vmovs, ?vext, ?skip, ?vins, ?vmovi, ?vcompress, vexpand_gives ..⟩
    case vsel => exact vall_gives rfl
    case vmov => exact vput_gives rfl
    case vmovs => exact vall_gives rfl
    case vext => exact fun _ => vext_gives
    case skip => exact fun _ => vext_skips
    case vins => exact fun _ => vins_gives ..
    case vmovi => exact givesMasked_congr (vput_gives rfl) fun _ _ => splat_eq_elemOf ty imm
    case vcompress =>
      obtain ⟨u, r, hu, hs, hc, hw, hv⟩ := vcompress_gives vd va sb mk s
      refine ⟨u, r, hu, hs, hc, hw, vectorWritten_congr hv fun e _ => ?_⟩
      rw [List.getD_eq_getElem?_getD, List.getElem?_map]
      cases (activeElems (s.rm mk))[e]? <;> rfl
  case axes =>
    refine ⟨fun hk => ⟨vrotr_gives _ _ _ _ _ hk, vbcr_gives ..⟩, fun hk => ⟨vrotc_gives _ _ _ _ _ hk, vbcc_gives ..⟩,
      vtrn_gives .., ?vperm⟩
    case vperm => exact vput_gives rfl

end Sys2Proof.Machine
end
